-- ==== Sys2Proof/Word.lean ====
section
/-! DEFINITION. The word types of the Kepzal 4120: what the spec treats as bits. -/

namespace Sys2Proof

/-- One byte of a field, a frame or a memory operation. -/
abbrev Byte := BitVec 8

/-- An address of either port: 32-bit byte addresses (00_scope.md, Addresses). -/
abbrev Addr := BitVec 32

/-- The tag of a P-port request, 0 to 15 (R103). -/
abbrev Tag := BitVec 4

end Sys2Proof
end

