-- ==== Sys2Proof/Syntax.lean ====
section
/-! DEFINITION. The commands and events of the block: one constructor of Instr per row of
spec/opcode_table.json, with its operands. -/

namespace Sys2Proof

/-- A P-port request (R103). The size of a WRITE is the number of its data bytes (log entry 11);
the size of a READ is the size code of the request channel, which may lie outside 1, 2, 4, 8. -/
inductive Request where
  | read (addr : Addr) (size : Nat) (tag : Tag)
  | write (addr : Addr) (data : List Byte) (tag : Tag)
  | fence (tag : Tag)
  deriving DecidableEq, Repr

/-- A completion on the M-port (R126): OKAY with the data of an MREAD (no data for an MWRITE), or
ERROR. -/
inductive Completion where
  | okay (data : List Byte)
  | error
  deriving DecidableEq, Repr

/-- The commands and events of the part. The rows of the maintenance port stand for the RELEASE of
the chip-select period that carried the frame; their payload is the frame's payload (R178, R182,
log entry 6). -/
inductive Instr where
  /-- A request offered by the master (R106). -/
  | requestTaken (r : Request)
  /-- The master takes the released response (R107). -/
  | responseTaken
  /-- The dispatcher offers its next transaction (R109). -/
  | dispatcherOffer
  /-- A microsecond tick (R64). -/
  | tick
  /-- The age triggers of one tick (R65). -/
  | ageTrigger
  /-- The hold timer's expiry (R168). -/
  | holdExpiry
  /-- The first waiting unit is issued (R129). -/
  | unitIssue
  /-- A completion arrives from memory (R132). -/
  | completion (c : Completion)
  /-- A DRAINING window's drain ends (R164). -/
  | drainComplete (w : Fin 8)
  /-- A job takes its place in the conversion queue (R137). -/
  | jobPlacement
  /-- The IDLE unit starts the oldest queued job (R138). -/
  | jobStart
  /-- The running FLUSH job ends (R77, R139). -/
  | flushJobEnd
  /-- The running READ job ends (R96, R139). -/
  | readJobEnd
  /-- The reverse-map build ends (R24). -/
  | tableBuildComplete
  /-- The release of a bad frame: its completed bytes, and whether a partial byte follows (R179). -/
  | badFrame (bytes : List Byte) (partialByte : Bool)
  /-- The release of a good frame whose code names no command (R182). -/
  | unknown (code : Byte) (payload : List Byte)
  /-- The release of a RESULT-FETCH frame (R180). -/
  | resultFetch (payload : List Byte)
  | status (payload : List Byte)
  | setGlobal (payload : List Byte)
  | windowWrite (payload : List Byte)
  | windowRead (payload : List Byte)
  | activate (payload : List Byte)
  | suspend (payload : List Byte)
  | deactivate (payload : List Byte)
  | layoutBegin (payload : List Byte)
  | fieldAppend (payload : List Byte)
  | layoutCommit (payload : List Byte)
  | layoutErase (payload : List Byte)
  | layoutRead (payload : List Byte)
  | tableLoad (payload : List Byte)
  | tableErase (payload : List Byte)
  | tableRead (payload : List Byte)
  | programLoad (payload : List Byte)
  | programErase (payload : List Byte)
  | programRead (payload : List Byte)
  | gatherRead (payload : List Byte)
  | logTake (payload : List Byte)
  | logPeek (payload : List Byte)
  | logClear (payload : List Byte)
  | flushAll (payload : List Byte)
  | clear (payload : List Byte)
  /-- Assertion of PRST_N (R121). -/
  | busReset
  /-- Release of PRST_N (R123). -/
  | busResetRelease
  /-- Assertion of RST_N (R124). -/
  | powerOnReset
  /-- Release of RST_N (R195). -/
  | powerOnResetRelease
  /-- A falling edge of MCS_N (R177). -/
  | chipSelectPeriodBegin
  /-- The eighth rising edge of MSCK completes a byte (R178). -/
  | byteComplete (b : Byte)
  /-- The release of a period in which no byte was completed (R177). -/
  | emptyPeriodRelease
  deriving DecidableEq, Repr

end Sys2Proof
end

