-- ==== Sys2Proof/Config.lean ====
section
/-! DEFINITION. What the part fixes once (its capacities) and the one value the spec leaves open. -/

namespace Sys2Proof

/-- The transaction list holds at most 8 transactions (R106). -/
@[simp] abbrev Config.maxTransactions : Nat := 8

/-- The memory queue holds at most 8 outstanding operations (R126). -/
@[simp] abbrev Config.maxOutstanding : Nat := 8

/-- The conversion queue holds at most 16 jobs (R135). -/
@[simp] abbrev Config.maxJobs : Nat := 16

/-- The exception log holds at most 16 records (R149). -/
@[simp] abbrev Config.maxLog : Nat := 16

/-- The shared pool of field descriptors (R7). -/
@[simp] abbrev Config.poolSize : Nat := 128

/-- A layout holds at most 24 descriptors (R6). -/
@[simp] abbrev Config.maxFields : Nat := 24

/-- The receiver keeps at most 520 payload bytes (R178). -/
@[simp] abbrev Config.maxPayload : Nat := 520

/-- The receiver's capacity: 524 bytes of the frame under way (R176). -/
@[simp] abbrev Config.maxReceived : Nat := 524

/-- A memory operation lies inside one 32-byte block (R125). -/
@[simp] abbrev Config.blockSize : Nat := 32

/-- A bound on the internal steps that one event can make due (log entry 1): far above the 8
entries, 8 transactions, 9 units, 17 jobs and 8 windows that take part. -/
@[simp] abbrev Config.settleBound : Nat := 256

/-- FREE VALUE. At a tick that reaches both a gather timeout and the dispatcher, whether the
dispatcher's side (the hold expiry and the offers that follow it) goes before the age triggers: R64
says the timers take the tick "without any order among them" (log entry 7). The argument counts the
choices made so far. -/
opaque Config.dispatcherFirst : Nat → Bool

end Sys2Proof
end

