-- ==== Sys2Proof/Machine/State.lean ====
section
/-! DEFINITION. The whole state of the part as plain data, its fault and refusal types, and the state
right after power-on reset. -/

namespace Sys2Proof.Machine

/-! ### Windows (01_windows_and_record_layouts.md, 09_window_states_and_reconfiguration.md) -/

/-- Byte order of PACKED and EDITED view integers (R19). -/
inductive ByteOrder where
  | little
  | big
  deriving DecidableEq, Repr

/-- A window's error policy (R1, R142). -/
inductive Policy where
  | strict
  | substitute
  deriving DecidableEq, Repr

/-- A window's write acknowledge setting (R1, R70). -/
inductive Ack where
  | posted
  | confirmed
  deriving DecidableEq, Repr

/-- The states of a window that is not OFF (R160). -/
inductive LiveMode where
  | active
  | draining
  | suspended
  deriving DecidableEq, Repr

/-- A window's state with its activation sizes, which it holds exactly while it is not OFF (R3). -/
inductive WindowStatus where
  | off
  | live (mode : LiveMode) (viewSize storeSize : Nat)
  deriving DecidableEq, Repr

/-- The configurable fields of a window record (R1). -/
structure WindowCfg where
  viewBase : Nat
  recordCount : Nat
  layout : Fin 16
  storeBase : Nat
  stride : Nat
  order : ByteOrder
  policy : Policy
  ack : Ack
  gatherTimeout : Nat
  holdLimit : Nat
  holeFill : Byte
  viewSub : Byte
  storeSub : Byte
  overflowMark : Byte
  deriving DecidableEq, Repr

/-- One window record (R1). -/
structure Window where
  cfg : WindowCfg
  status : WindowStatus
  deriving DecidableEq, Repr

/-- Window, mode, record index and record offset of an address (R4). -/
structure Decode where
  window : Fin 8
  mode : LiveMode
  record : Nat
  offset : Nat
  deriving DecidableEq, Repr

/-- The power-on values of a window record (R1). -/
def WindowCfg.powerOn : WindowCfg :=
  { viewBase := 0, recordCount := 0, layout := 0, storeBase := 0, stride := 1, order := .little,
    policy := .strict, ack := .posted, gatherTimeout := 0, holdLimit := 1000, holeFill := 0,
    viewSub := 0, storeSub := 0, overflowMark := 0 }

/-- A window at power-on (R1). -/
def Window.powerOn : Window := { cfg := .powerOn, status := .off }

/-! ### Layouts (R6 to R9) -/

/-- Interpretation of a view integer (R8, R38). -/
inductive Signedness where
  | unsigned
  | signed
  deriving DecidableEq, Repr

/-- A field's kind with the members present for it (R8). -/
inductive FieldKind where
  | raw
  | text (table : Option (Fin 4)) (viewFill storeFill : Byte)
  | packed (sign : Signedness)
  | edited (table : Option (Fin 4)) (program : Fin 32) (sign : Signedness)
  deriving DecidableEq, Repr

/-- A field descriptor (R8). -/
structure FieldDesc where
  viewOff : Nat
  viewLen : Nat
  storeOff : Nat
  storeLen : Nat
  kind : FieldKind
  readOnly : Bool
  deriving DecidableEq, Repr

/-- The commit check that failed (R13). -/
inductive InvalidReason where
  | noFields
  | order
  | storeOverlap
  | bounds
  | notLoaded
  | length
  | digits
  deriving DecidableEq, Repr

/-- The state of a layout that is not EMPTY, with the invalid reason and field (R6). -/
inductive LayoutStatus where
  | draft
  | valid
  | invalid (reason : InvalidReason) (field : Option Nat)
  deriving DecidableEq, Repr

/-- A layout record; sizes and fields are absent in EMPTY (R6). -/
inductive Layout where
  | empty
  | built (status : LayoutStatus) (viewSize storeSize : Nat) (fields : List FieldDesc)
  deriving DecidableEq, Repr

/-! ### Code tables and edit programs (R21, R43, R44) -/

/-- A code table; `none` in an entry is NONE (R21). -/
inductive CodeTable where
  | empty
  | loaded (forward reverse : List (Option Byte)) (bijective : Bool) (unreached : Nat)
  deriving DecidableEq, Repr

/-- The opcodes of an edit step (R44). -/
inductive StepOp where
  | dig
  | req
  | mark
  | fixed
  | minus
  | plus
  | fill
  | float
  deriving DecidableEq, Repr

/-- One edit step (R44). -/
structure EditStep where
  op : StepOp
  operand : Byte
  last : Bool
  deriving DecidableEq, Repr

/-- An edit program (R43). -/
inductive Program where
  | empty
  | loaded (steps : List EditStep) (outLen digits : Nat)
  deriving DecidableEq, Repr

/-! ### The gather buffer (R61, R62) -/

/-- The field an entry gathers: window, record index, field index (R61). -/
structure Key where
  window : Fin 8
  record : Nat
  field : Nat
  deriving DecidableEq, Repr

/-- The state of an entry that is not FREE (R62). -/
inductive Stage where
  | gathering
  | merging
  | converting
  | writing
  deriving DecidableEq, Repr

/-- The members of an entry that is not FREE (R61). `bytes` holds the view image and the written set
in one home: position p is `some b` when p is in the written set and holds b, and `none` otherwise
(its image byte is then 0x00). `rank` is the flush rank, present while flushing (R130). `opsLeft`,
`got` and `failed` follow the unit of the stage: the operations still to complete, the merge data
kept so far, whether one completed with ERROR (R75, R81). -/
structure Gather where
  key : Key
  bytes : List (Option Byte)
  base : Option (List Byte)
  age : Nat
  confirm : List Nat
  rank : Option (BitVec 32)
  opsLeft : Nat
  got : List Byte
  failed : Bool
  deriving DecidableEq, Repr

/-- What an entry holds: nothing (FREE), or a field in one of the other states (R61, R62). -/
inductive Slot where
  | free
  | held (stage : Stage) (g : Gather)
  deriving DecidableEq, Repr

/-- A gather entry (R61). -/
structure Entry where
  openOrder : BitVec 32
  fault : Bool
  slot : Slot
  deriving DecidableEq, Repr

/-- An entry at power-on (R63). -/
def Entry.powerOn : Entry := { openOrder := 0, fault := false, slot := .free }

/-! ### Transactions (R103 to R105) -/

/-- The outcome of a response (R104) or of a flush (R82). -/
inductive Answer where
  | okay
  | error
  deriving DecidableEq, Repr

/-- A memory field of a window READ: its snapshot (R91), the entry and opening recorded for backfill
(R90), and what the completions of its field read have brought so far (R93). -/
structure MemField where
  field : Nat
  snapshot : List (Nat × Byte)
  backfill : Option (Fin 8 × BitVec 32)
  got : List Byte
  failed : Bool
  deriving DecidableEq, Repr

/-- A window READ between its dispatch and its response: the decode, the response image (a byte is
`none` until the READ job fills it, R90), the memory fields, and the operations still to complete. -/
structure ReadCtx where
  window : Fin 8
  record : Nat
  offset : Nat
  size : Nat
  image : List (Option Byte)
  fields : List MemField
  opsLeft : Nat
  deriving DecidableEq, Repr

/-- What a WAITING transaction waits for (R105). -/
inductive Waiting where
  | passThrough
  | windowRead (ctx : ReadCtx)
  | windowWrite (window : Fin 8) (pendingCount : Nat) (errorFlag : Bool)
  | fence (entries : List (Fin 8)) (lastWrite : Option Nat)
  deriving DecidableEq, Repr

/-- The state of a transaction (R105). -/
inductive TxnState where
  | queued
  | waiting (w : Waiting)
  | ready (answer : Answer) (data : List Byte)
  deriving DecidableEq, Repr

/-- A transaction: its request, its state, and the name by which other blocks refer to it. -/
structure Txn where
  id : Nat
  req : Request
  state : TxnState
  deriving DecidableEq, Repr

/-! ### The memory queue (R125 to R131) -/

/-- The kind of an M-port operation (R125). -/
inductive OpKind where
  | mread
  | mwrite
  deriving DecidableEq, Repr

/-- Which operation of a unit: the only one, or one of a pair (R128, R131). -/
inductive Half where
  | whole
  | lower
  | upper
  deriving DecidableEq, Repr

/-- The source of an operation (R131). -/
inductive Source where
  | entry (g : Fin 8) (stage : Stage)
  | windowRead (txn : Nat) (field : Nat) (half : Half)
  | passThrough (txn : Nat)
  | nobody
  deriving DecidableEq, Repr

/-- An M-port operation with its source (R125, R127). -/
structure MemOp where
  kind : OpKind
  addr : Nat
  size : Nat
  data : List Byte
  source : Source
  deriving DecidableEq, Repr

/-- An operation on the outstanding list, with the name a fence record uses for it (R118). -/
structure Issued where
  id : Nat
  op : MemOp
  deriving DecidableEq, Repr

/-- Who requested a unit: a flushing entry or the dispatcher (R127). -/
inductive UnitOwner where
  | entry (g : Fin 8)
  | dispatcher
  deriving DecidableEq, Repr

/-- A waiting unit: one operation or a pair (R128). -/
structure MemUnit where
  owner : UnitOwner
  ops : List MemOp
  deriving DecidableEq, Repr

/-! ### The dispatcher (R108) -/

/-- The owner a BLOCKED transaction waits for (R109). -/
inductive BlockedOn where
  | gatherBuffer
  | readPath
  | rawOverlap
  deriving DecidableEq, Repr

/-- The dispatcher's state; HOLDING carries the hold timer, ISSUING the transaction and the units it
has not requested yet (R108, R128). -/
inductive Disp where
  | idle
  | blocked (on : BlockedOn)
  | holding (timer : Nat)
  | issuing (txn : Nat) (rest : List (List MemOp))
  deriving DecidableEq, Repr

/-! ### The conversion unit (R135, R136) -/

/-- A job of the conversion unit with its copied input (R136). -/
inductive Job where
  | flush (entry : Fin 8) (opening : BitVec 32) (key : Key) (bytes : List (Option Byte))
      (base : Option (List Byte)) (merge : Option (List Byte))
  | read (txn : Nat) (window : Fin 8) (record offset size : Nat) (fields : List MemField)
  deriving DecidableEq, Repr

/-! ### The exception log (R141 to R149) -/

/-- The exception kinds (08_exceptions_and_the_exception_log.md, 8.1). -/
inductive ExcKind where
  | hole
  | protect
  | unmapped
  | truncate
  | overflow
  | range
  | digit
  | sign
  | syntaxError
  | memErr
  | held
  deriving DecidableEq, Repr

/-- What the part did about an exception (R142). -/
inductive ExcAction where
  | faulted
  | substituted
  | discarded
  deriving DecidableEq, Repr

/-- The stage that found an exception (R143). -/
inductive ExcPath where
  | write
  | flush
  | merge
  | read
  | hold
  deriving DecidableEq, Repr

/-- An exception record (R144). -/
structure ExcRecord where
  seq : BitVec 16
  kind : ExcKind
  action : ExcAction
  path : ExcPath
  window : Fin 8
  record : Option Nat
  field : Option Nat
  viewAddr : Option Nat
  tag : Option Tag
  detail : Option (Nat × Byte)
  deriving DecidableEq, Repr

/-- The outcome of a field conversion (R30): a complete result, and at most one exception with its
position and value where the kind has them. -/
structure ConvOutcome where
  result : List Byte
  exc : Option (ExcKind × Option (Nat × Byte))
  deriving DecidableEq, Repr

/-- A text position of an edit program with the fill and float character in force there (R44, R48). -/
inductive TextPos where
  | dig (fill : Byte) (float : Option Byte)
  | req (fill : Byte) (float : Option Byte)
  | mark (c fill : Byte) (float : Option Byte)
  | fixed (c fill : Byte) (float : Option Byte)
  | minus (c fill : Byte) (float : Option Byte)
  | plus (c fill : Byte) (float : Option Byte)
  deriving DecidableEq, Repr

/-- The run state of a parse (R48, R54): whether a digit has been seen, whether a REQ position has
been passed, whether a MINUS and whether a PLUS position has shown its operand, and the digits so
far, most recent first. -/
structure ParseState where
  seen : Bool
  reqPassed : Bool
  minusShown : Bool
  plusShown : Bool
  digits : List Nat
  deriving DecidableEq, Repr

/-! ### The maintenance port (R176 to R181) -/

/-- The receiver's state (R176). -/
inductive RxState where
  | idle
  | receiving
  | readout
  | discarding
  deriving DecidableEq, Repr

/-- The frame receiver: the bytes kept, how many were completed, and the read-out bytes not shifted
out yet (R176, R178, R180). -/
structure Receiver where
  state : RxState
  bytes : List Byte
  count : Nat
  readOut : List Byte
  deriving DecidableEq, Repr

/-- The receiver at power-on and between periods (R176). -/
def Receiver.idle : Receiver := { state := .idle, bytes := [], count := 0, readOut := [] }

/-- What a frame is at its release (R178 to R180). -/
inductive Verdict where
  | empty
  | bad
  | fetch
  | good (code : Byte) (payload : List Byte)
  deriving DecidableEq, Repr

/-- The result codes (R179). -/
inductive ResultCode where
  | done
  | pending
  | busy
  | badArg
  | badState
  | noSpace
  | invalid
  | overlap
  | badFrame
  | unknown
  deriving DecidableEq, Repr

/-- The result buffer (R176, R179). -/
structure ResultBuffer where
  code : ResultCode
  command : Byte
  data : List Byte
  deriving DecidableEq, Repr

/-- What a command leaves: its result code, its result data (R179). -/
structure CmdResult where
  code : ResultCode
  data : List Byte
  deriving DecidableEq, Repr

/-- A TABLE-LOAD build under way, with its load buffer (R23, R176). -/
structure Build where
  table : Fin 4
  entries : List (Option Byte)
  deriving DecidableEq, Repr

/-! ### The state of the part -/

/-- The part. Every field the spec names is here once; what the spec computes from others (free
slots, free descriptors, ALERT_N, the next transaction) is a function of this record. -/
@[ext]
structure State where
  /-- Requests the master has offered and the part has not taken, in offer order (R106, log entry 4). -/
  offers : List Request
  /-- The transaction list, oldest first (R105). -/
  txns : List Txn
  /-- MODEL's own: the name the next transaction gets (log entry 5). -/
  txnCounter : Nat
  /-- The dispatcher state with its hold timer (R108). -/
  disp : Disp
  /-- MODEL's own: an offer that an event calls for has not been made. In BLOCKED or HOLDING the event is
  one that R109 names (log entry 1), in IDLE it is the expiry of a hold (R168, R169, log entry 24). -/
  reoffer : Bool
  /-- W0 to W7 (R1). -/
  windows : Vector Window 8
  /-- L0 to L15 (R6). -/
  layouts : Vector Layout 16
  /-- T0 to T3 (R21). -/
  tables : Vector CodeTable 4
  /-- E0 to E31 (R43). -/
  programs : Vector Program 32
  /-- G0 to G7 (R61). -/
  entries : Vector Entry 8
  /-- The opening counter (R61). -/
  openCounter : BitVec 32
  /-- The order in which the non-FREE entries were opened, oldest first (R61). -/
  openList : List (Fin 8)
  /-- The flush rank counter (R127, R130). -/
  rankCounter : BitVec 32
  /-- The flushing entries in trigger order, the order in which ranks compare (R130). -/
  flushOrder : List (Fin 8)
  /-- The outstanding list, in issue order (R127). -/
  outstanding : List Issued
  /-- MODEL's own: the name the next operation gets (log entry 5). -/
  opCounter : Nat
  /-- The waiting units, in request order (R127). -/
  units : List MemUnit
  /-- The conversion queue, oldest first; the running job is its head (R135). -/
  jobs : List Job
  /-- Whether the conversion unit is RUNNING (R135). -/
  running : Bool
  /-- Jobs whose inputs are complete and that have no place in the queue yet (R137). -/
  toPlace : List Job
  /-- The record list of the exception log, oldest first (R149). -/
  log : List ExcRecord
  /-- The dropped count (R149). -/
  dropped : Nat
  /-- The sequence counter (R149). -/
  seqCounter : BitVec 16
  /-- The frame receiver (R176). -/
  receiver : Receiver
  /-- MSDO: the bytes shifted out in the period under way or the latest one (R177, log entry 12). -/
  msdo : List Byte
  /-- The result buffer (R176). -/
  result : ResultBuffer
  /-- The build under way (R176). -/
  build : Option Build
  /-- The refused count (R176). -/
  refusedCount : Nat
  /-- The tick divider (R64, R176). -/
  tickDivider : Nat
  /-- The alert enable (R158, R176). -/
  alertEnable : Bool
  /-- The divider in force when the tick interval under way began (R64, log entry 9). -/
  tickInterval : Nat
  /-- RST_N is asserted. -/
  rstLow : Bool
  /-- PRST_N is asserted. -/
  prstLow : Bool
  /-- MCS_N is low. -/
  mcsLow : Bool
  /-- MODEL's own: how many choices the free value has made (log entry 7). -/
  freeCount : Nat
  /-- The commands that wait, first in, first out. -/
  pending : List Instr
  deriving DecidableEq, Repr

/-- Why a step stops with a fault. The part never stops: an exception is a record of its log, an
ERROR response or a result code, so this type has no constructor. -/
inductive Fault where
  deriving DecidableEq, Repr

/-- Why a command has no meaning. -/
inductive Refusal where
  /-- Raised by an arm of exec whose command has no meaning yet; no arm raises it. Safe. -/
  | notModelled (mnemonic : String)
  deriving DecidableEq, Repr

/-- The part right after power-on reset (R1, R6, R7, R21, R43, R63, R108, R124, R134, R140, R149,
R158, R175, R176), with both resets released and no chip-select period under way. -/
def State.reset : State :=
  { offers := [], txns := [], txnCounter := 0, disp := .idle, reoffer := false,
    windows := Vector.replicate 8 Window.powerOn, layouts := Vector.replicate 16 Layout.empty,
    tables := Vector.replicate 4 CodeTable.empty, programs := Vector.replicate 32 Program.empty,
    entries := Vector.replicate 8 Entry.powerOn, openCounter := 0, openList := [],
    rankCounter := 0, flushOrder := [], outstanding := [], opCounter := 0, units := [], jobs := [],
    running := false, toPlace := [], log := [], dropped := 0, seqCounter := 0,
    receiver := Receiver.idle, msdo := [], result := { code := .done, command := 0, data := [] },
    build := none, refusedCount := 0, tickDivider := 100, alertEnable := false,
    tickInterval := 100, rstLow := false, prstLow := false, mcsLow := false, freeCount := 0,
    pending := [] }

end Sys2Proof.Machine
end

