-- ==== Sys2Proof/Machine/Operands.lean ====
section
/-! DEFINITION. The byte layouts of the maintenance port: numbers, enumerations, argument and result
layouts (R177 to R192). Everything multi-byte is sent most significant byte first (R178). -/

namespace Sys2Proof.Machine

/-! ### Numbers -/

/-- The low 8 bits of a number, as a byte. -/
def toByte (n : Nat) : Byte := BitVec.ofNat 8 n

/-- Byte k of a payload. -/
def byteAt (p : List Byte) (k : Nat) : Byte := p.getD k 0

/-- The number that bytes spell, most significant first (R178). -/
def beNat (bytes : List Byte) : Nat := bytes.foldl (fun acc b => acc * 256 + b.toNat) 0

/-- The n-byte number at payload byte k (R178). -/
def numAt (p : List Byte) (k n : Nat) : Nat := beNat ((p.drop k).take n)

/-- A number in n bytes, most significant first (R178). -/
def beBytes : Nat → Nat → List Byte
  | 0, _ => []
  | n + 1, v => toByte (v / 256 ^ n) :: beBytes n v

/-- The 8-bit sum of bytes (R178). -/
def byteSum (bytes : List Byte) : Byte := bytes.foldl (· + ·) 0

/-- The checksum: the two's complement of the 8-bit sum (R178, R180). -/
def checksum (bytes : List Byte) : Byte := -byteSum bytes

/-- A whole frame: code, length, payload, checksum (R178). -/
def frameBytes (code : Byte) (payload : List Byte) : List Byte :=
  let body := code :: beBytes 2 payload.length ++ payload
  body ++ [checksum body]

/-- An index sent as one byte, when it lies below n (R182). -/
def indexOf? (n : Nat) (b : Byte) : Option (Fin n) :=
  if h : b.toNat < n then some ⟨b.toNat, h⟩ else none

/-- A flag: 0 or 1 (R182). -/
def flagOf? (b : Byte) : Option Bool :=
  if b = 0 then some false else if b = 1 then some true else none

/-- A flag as a byte (R182). -/
def flagByte (b : Bool) : Byte := if b then 1 else 0

/-! ### Enumerations (R179, R182, R192) -/

def ResultCode.byte : ResultCode → Byte
  | .done => 0x00
  | .pending => 0x01
  | .busy => 0x02
  | .badArg => 0x03
  | .badState => 0x04
  | .noSpace => 0x05
  | .invalid => 0x06
  | .overlap => 0x07
  | .badFrame => 0x08
  | .unknown => 0x09

def ByteOrder.byte : ByteOrder → Byte
  | .little => 0
  | .big => 1

def Policy.byte : Policy → Byte
  | .strict => 0
  | .substitute => 1

def Ack.byte : Ack → Byte
  | .posted => 0
  | .confirmed => 1

def byteOrderOf? (b : Byte) : Option ByteOrder :=
  if b = 0 then some .little else if b = 1 then some .big else none

def policyOf? (b : Byte) : Option Policy :=
  if b = 0 then some .strict else if b = 1 then some .substitute else none

def ackOf? (b : Byte) : Option Ack :=
  if b = 0 then some .posted else if b = 1 then some .confirmed else none

def signOf? (b : Byte) : Option Signedness :=
  if b = 0 then some .unsigned else if b = 1 then some .signed else none

def Signedness.byte : Signedness → Byte
  | .unsigned => 0
  | .signed => 1

/-- OFF 0, ACTIVE 1, DRAINING 2, SUSPENDED 3 (R182). -/
def WindowStatus.byte : WindowStatus → Byte
  | .off => 0
  | .live .active _ _ => 1
  | .live .draining _ _ => 2
  | .live .suspended _ _ => 3

/-- EMPTY 0, DRAFT 1, VALID 2, INVALID 3 (R182). -/
def Layout.stateByte : Layout → Byte
  | .empty => 0
  | .built .draft _ _ _ => 1
  | .built .valid _ _ _ => 2
  | .built (.invalid _ _) _ _ _ => 3

def InvalidReason.byte : InvalidReason → Byte
  | .noFields => 1
  | .order => 2
  | .storeOverlap => 3
  | .bounds => 4
  | .notLoaded => 5
  | .length => 6
  | .digits => 7

/-- An optional small number, 0xFF when absent (R182). -/
def optByte : Option Nat → Byte
  | none => 0xFF
  | some n => toByte n

def StepOp.byte : StepOp → Byte
  | .dig => 1
  | .req => 2
  | .mark => 3
  | .fixed => 4
  | .minus => 5
  | .plus => 6
  | .fill => 7
  | .float => 8

def stepOpOf? (b : Byte) : Option StepOp :=
  if b = 1 then some .dig else if b = 2 then some .req else if b = 3 then some .mark
  else if b = 4 then some .fixed else if b = 5 then some .minus else if b = 6 then some .plus
  else if b = 7 then some .fill else if b = 8 then some .float else none

def Stage.byte : Stage → Byte
  | .gathering => 1
  | .merging => 2
  | .converting => 3
  | .writing => 4

def Disp.byte : Disp → Byte
  | .idle => 0
  | .blocked _ => 1
  | .holding _ => 2
  | .issuing _ _ => 3

def ExcKind.byte : ExcKind → Byte
  | .hole => 1
  | .protect => 2
  | .unmapped => 3
  | .truncate => 4
  | .overflow => 5
  | .range => 6
  | .digit => 7
  | .sign => 8
  | .syntaxError => 9
  | .memErr => 10
  | .held => 11

def ExcAction.byte : ExcAction → Byte
  | .faulted => 1
  | .substituted => 2
  | .discarded => 3

def ExcPath.byte : ExcPath → Byte
  | .write => 1
  | .flush => 2
  | .merge => 3
  | .read => 4
  | .hold => 5

/-! ### The window record (R185) -/

/-- The values of a WINDOW-WRITE payload, when every one passes the value check of R1 and R2. -/
def parseWindowCfg (p : List Byte) : Option WindowCfg := do
  let layout ← indexOf? 16 (byteAt p 9)
  let order ← byteOrderOf? (byteAt p 16)
  let policy ← policyOf? (byteAt p 18)
  let ack ← ackOf? (byteAt p 19)
  let viewBase := numAt p 1 4
  let recordCount := numAt p 5 4
  let stride := numAt p 14 2
  let holdLimit := numAt p 21 2
  if viewBase % 8 = 0 ∧ 1 ≤ recordCount ∧ recordCount ≤ 65536 ∧ 1 ≤ stride ∧ stride ≤ 4096
      ∧ 1 ≤ holdLimit then
    some { viewBase, recordCount, layout, storeBase := numAt p 10 4, stride, order, policy, ack,
           gatherTimeout := (byteAt p 20).toNat, holdLimit, holeFill := byteAt p 23,
           viewSub := byteAt p 24, storeSub := byteAt p 25, overflowMark := byteAt p 17 }
  else none

/-- A window record in the 26 bytes of R185. -/
def windowBytes (w : Fin 8) (c : WindowCfg) : List Byte :=
  [toByte w.val] ++ beBytes 4 c.viewBase ++ beBytes 4 c.recordCount ++ [toByte c.layout.val]
    ++ beBytes 4 c.storeBase ++ beBytes 2 c.stride ++ [c.order.byte, c.overflowMark,
      c.policy.byte, c.ack.byte, toByte c.gatherTimeout] ++ beBytes 2 c.holdLimit
    ++ [c.holeFill, c.viewSub, c.storeSub]

/-- The 31 bytes of WINDOW-READ: the record, the state, the activation sizes (0 while absent). -/
def windowReadBytes (w : Fin 8) (win : Window) : List Byte :=
  windowBytes w win.cfg ++ [win.status.byte] ++
    match win.status with
    | .off => [0, 0, 0, 0]
    | .live _ va sa => beBytes 2 va ++ beBytes 2 sa

/-! ### Field descriptors (R187) -/

/-- The kinds with a binary integer on the view side have a view length of 1, 2, 4 or 8 (R9). -/
def integerLength (n : Nat) : Bool := n == 1 || n == 2 || n == 4 || n == 8

/-- The code-table byte: T0 to T3, or 0xFF for absent (R187). -/
def tableOf? (b : Byte) : Option (Option (Fin 4)) :=
  if b = 0xFF then some none else (indexOf? 4 b).map some

/-- The kind with the members present for it; bytes of absent members are not read (R8, R187). -/
def parseKind (d : List Byte) : Option FieldKind :=
  let kind := byteAt d 4
  if kind = 0 then some .raw
  else if kind = 1 then do
    let t ← tableOf? (byteAt d 5)
    return .text t (byteAt d 8) (byteAt d 9)
  else if kind = 2 then do
    let s ← signOf? (byteAt d 7)
    return .packed s
  else if kind = 3 then do
    let t ← tableOf? (byteAt d 5)
    let e ← indexOf? 32 (byteAt d 6)
    let s ← signOf? (byteAt d 7)
    return .edited t e s
  else none

/-- The constraints of each kind on the two lengths (R9). -/
def FieldDesc.kindFits (f : FieldDesc) : Bool :=
  match f.kind with
  | .raw => f.viewLen == f.storeLen
  | .text _ _ _ => true
  | .packed _ => integerLength f.viewLen && decide (f.storeLen ≤ 10)
  | .edited _ _ _ => integerLength f.viewLen

/-- A descriptor is well formed (R9): its offsets and lengths, and the constraints of its kind. -/
def FieldDesc.wellFormed (f : FieldDesc) : Bool :=
  decide (f.viewOff ≤ 255) && decide (f.storeOff ≤ 255)
    && decide (1 ≤ f.viewLen) && decide (f.viewLen ≤ 32)
    && decide (1 ≤ f.storeLen) && decide (f.storeLen ≤ 32) && f.kindFits

/-- The descriptor of a FIELD-APPEND, when it is well formed (R9, R187). -/
def parseDesc (d : List Byte) : Option FieldDesc := do
  let kind ← parseKind d
  let readOnly ← flagOf? (byteAt d 10)
  let f : FieldDesc :=
    { viewOff := (byteAt d 0).toNat, viewLen := (byteAt d 1).toNat,
      storeOff := (byteAt d 2).toNat, storeLen := (byteAt d 3).toNat, kind, readOnly }
  if f.wellFormed then some f else none

/-- A code table index as a byte, 0xFF when absent (R187). -/
def tableByte (t : Option (Fin 4)) : Byte := optByte (t.map (·.val))

/-- Bytes 4 to 9 of a descriptor; a member absent for the kind is 0xFF (R188). -/
def FieldKind.bytes : FieldKind → List Byte
  | .raw => [0, 0xFF, 0xFF, 0xFF, 0xFF, 0xFF]
  | .text t vf sf => [1, tableByte t, 0xFF, 0xFF, vf, sf]
  | .packed s => [2, 0xFF, 0xFF, s.byte, 0xFF, 0xFF]
  | .edited t e s => [3, tableByte t, toByte e.val, s.byte, 0xFF, 0xFF]

/-- A descriptor in the 11 bytes of R187. -/
def FieldDesc.encode (f : FieldDesc) : List Byte :=
  [toByte f.viewOff, toByte f.viewLen, toByte f.storeOff, toByte f.storeLen] ++ f.kind.bytes
    ++ [flagByte f.readOnly]

/-- The result data of LAYOUT-READ (R188). -/
def Layout.readBytes : Layout → List Byte
  | .empty => [0, 0, 0, 0, 0, 0, 0xFF, 0]
  | .built status va sa fields =>
    let l := Layout.built status va sa fields
    let invalid : List Byte :=
      match status with
      | .invalid reason field => [reason.byte, optByte field]
      | .draft | .valid => [0, 0xFF]
    [l.stateByte] ++ beBytes 2 va ++ beBytes 2 sa ++ invalid ++ [toByte fields.length]
      ++ fields.flatMap FieldDesc.encode

/-! ### Code tables (R189) -/

/-- The entries of a TABLE-LOAD, two bytes each: marker 0x00 with the store code, marker 0x01 for
NONE, `none` for any other marker (R189). -/
def parseEntries : List Byte → List (Option (Option Byte))
  | marker :: code :: rest =>
    (if marker = 0 then some (some code) else if marker = 1 then some none else none)
      :: parseEntries rest
  | _ => []

/-- One forward entry in the TABLE-LOAD encoding (R189). -/
def entryBytes : Option Byte → List Byte
  | some code => [0x00, code]
  | none => [0x01, 0x00]

/-- The result data of TABLE-READ (R189). -/
def CodeTable.readBytes : CodeTable → List Byte
  | .empty => [0]
  | .loaded forward _ bijective unreached =>
    [1, flagByte bijective] ++ beBytes 2 unreached ++ forward.flatMap entryBytes

/-! ### Edit programs (R190) -/

/-- One step of a PROGRAM-LOAD: `none` where check 3, 4 or 5 of R45 fails, the last flag being
wanted set on the final step only. -/
def parseStep (opByte operand lastByte : Byte) (isFinal : Bool) : Option EditStep := do
  let op ← stepOpOf? opByte
  if (op = .dig ∨ op = .req) ∧ ¬ (1 ≤ operand.toNat ∧ operand.toNat ≤ 19) then none
  let last ← flagOf? lastByte
  if last = isFinal then some { op, operand, last } else none

/-- The steps of a PROGRAM-LOAD, three bytes each (R190). -/
def parseSteps : List Byte → List (Option EditStep)
  | op :: operand :: last :: rest => parseStep op operand last rest.isEmpty :: parseSteps rest
  | _ => []

/-- A step in the PROGRAM-LOAD encoding (R190). -/
def EditStep.encode (s : EditStep) : List Byte := [s.op.byte, s.operand, flagByte s.last]

/-- The result data of PROGRAM-READ (R190). -/
def Program.readBytes : Program → List Byte
  | .empty => [0]
  | .loaded steps outLen digits =>
    [1, toByte outLen, toByte digits, toByte steps.length] ++ steps.flatMap EditStep.encode

/-! ### The gather buffer (R191) -/

/-- The view image: written positions as they are, 0x00 elsewhere (R61). -/
def Gather.image (g : Gather) : List Byte := g.bytes.map (·.getD 0)

/-- The written set as a 32-bit value: bit p is 1 when position p is in it (R191). -/
def writtenMask : List (Option Byte) → Nat
  | [] => 0
  | b :: rest => (if b.isSome then 1 else 0) + 2 * writtenMask rest

/-- An image in 32 bytes, 0x00 beyond its length (R191). -/
def pad32 (image : List Byte) : List Byte := (image ++ List.replicate 32 0).take 32

/-- The 82 bytes of one entry of GATHER-READ; the members a FREE entry lacks read as 0 (R191). -/
def Entry.readBytes (e : Entry) : List Byte :=
  match e.slot with
  | .free => [0] ++ beBytes 4 e.openOrder.toNat ++ [flagByte e.fault] ++ List.replicate 76 0
  | .held stage g =>
    [stage.byte] ++ beBytes 4 e.openOrder.toNat ++ [flagByte e.fault, toByte g.key.window.val]
      ++ beBytes 2 g.key.record ++ [toByte g.key.field, toByte g.bytes.length]
      ++ beBytes 4 (writtenMask g.bytes) ++ pad32 g.image ++ [flagByte g.base.isSome]
      ++ pad32 (g.base.getD []) ++ [toByte g.age, toByte g.confirm.length]

/-! ### The exception log (R192) -/

/-- An exception record in the 16 bytes of R192. -/
def ExcRecord.encode (r : ExcRecord) : List Byte :=
  beBytes 2 r.seq.toNat ++ [r.kind.byte, r.action.byte, r.path.byte, toByte r.window.val,
    optByte (r.detail.map (·.1))] ++ beBytes 2 (r.record.getD 0) ++ [optByte r.field]
    ++ beBytes 4 (r.viewAddr.getD 0)
    ++ [optByte (r.tag.map (·.toNat)), (r.detail.map (·.2)).getD 0]

/-- Record present, the record (all 0 when none), the count given, the dropped count, the sequence
counter: the 21 bytes of LOG-TAKE and LOG-PEEK (R192). -/
def logBytes (r : Option ExcRecord) (left dropped : Nat) (seq : BitVec 16) : List Byte :=
  [flagByte r.isSome] ++ (r.map ExcRecord.encode).getD (List.replicate 16 0)
    ++ [toByte left, toByte dropped] ++ beBytes 2 seq.toNat

end Sys2Proof.Machine
end

