-- ==== Sys2Proof/Machine/Flags.lean ====
section
/-! DEFINITION. What the part computes from its state without holding it: ranges and decode, objects
in use, the commit checks, the alert line, the drain condition, and which internal steps are due. -/

namespace Sys2Proof

/-! ### The members of a request (R103) -/

/-- The number of bytes of a request; a FENCE has none (R103). -/
def Request.size : Request → Nat
  | .read _ size _ => size
  | .write _ data _ => data.length
  | .fence _ => 0

/-- The address of a request; a FENCE has none (R103). -/
def Request.addr : Request → Nat
  | .read a _ _ => a.toNat
  | .write a _ _ => a.toNat
  | .fence _ => 0

/-- The tag of a request (R103). -/
def Request.tag : Request → Tag
  | .read _ _ t => t
  | .write _ _ t => t
  | .fence t => t

end Sys2Proof

namespace Sys2Proof.Machine

/-! ### Windows, ranges and decode (R3 to R5, R112) -/

/-- Two address ranges [a, b) and [c, d) share a byte. -/
def rangesMeet (a b c d : Nat) : Bool := decide (a < d) && decide (c < b) && decide (a < b) && decide (c < d)

/-- The view range of a record count of `va`-byte records (R3). -/
def WindowCfg.viewEnd (c : WindowCfg) (va : Nat) : Nat := c.viewBase + c.recordCount * va

/-- The end of the store range with store records of `sa` bytes (R3). -/
def WindowCfg.storeEnd (c : WindowCfg) (sa : Nat) : Nat :=
  c.storeBase + (c.recordCount - 1) * c.stride + sa

/-- The window is ACTIVE or DRAINING: it locks its objects (R171). -/
def Window.locks (w : Window) : Bool :=
  match w.status with
  | .live .active _ _ | .live .draining _ _ => true
  | .live .suspended _ _ | .off => false

/-- The view activation size of a window that is not OFF, 0 while absent (R3). -/
def WindowStatus.viewSize : WindowStatus → Nat
  | .off => 0
  | .live _ va _ => va

/-- The window is OFF. -/
def Window.isOff (w : Window) : Bool :=
  match w.status with
  | .off => true
  | .live _ _ _ => false

/-- The address lies in the latched view range of the window, which is not OFF (R4). -/
def Window.holdsAddr (w : Window) (a : Nat) : Bool :=
  match w.status with
  | .off => false
  | .live _ va _ => decide (w.cfg.viewBase ≤ a) && decide (a < w.cfg.viewEnd va)

/-- The decode of one window (R4). -/
def Window.decode (i : Fin 8) (w : Window) (a : Nat) : Option Decode :=
  match w.status with
  | .off => none
  | .live mode va _ =>
    if w.holdsAddr a then
      some { window := i, mode, record := (a - w.cfg.viewBase) / va,
             offset := (a - w.cfg.viewBase) % va }
    else none

/-- The decode of a READ's or WRITE's address against the windows that are not OFF (R4, R112). -/
def State.decode (s : State) (a : Nat) : Option Decode :=
  (List.finRange 8).findSome? fun i => s.windows[i].decode i a

/-- The field list of a layout. -/
def Layout.fields : Layout → List FieldDesc
  | .empty => []
  | .built _ _ _ fields => fields

/-- The field list of a window's layout. -/
def State.fieldsOf (s : State) (w : Fin 8) : List FieldDesc :=
  s.layouts[s.windows[w].cfg.layout].fields

/-- Start of the field store range of field f of record i (R5). -/
def WindowCfg.storeAddr (c : WindowCfg) (record : Nat) (f : FieldDesc) : Nat :=
  c.storeBase + record * c.stride + f.storeOff

/-- The descriptor of an index no field list has: no byte on either side. -/
def FieldDesc.absent : FieldDesc :=
  { viewOff := 0, viewLen := 0, storeOff := 0, storeLen := 0, kind := .raw, readOnly := false }

/-- The descriptor of field i of the window's layout. -/
def State.fieldDesc (s : State) (w : Fin 8) (i : Nat) : FieldDesc :=
  (s.fieldsOf w)[i]?.getD .absent

/-- The descriptor of a key's field. -/
def State.descOf (s : State) (k : Key) : FieldDesc := s.fieldDesc k.window k.field

/-- Start of the field store range of a key (R5). -/
def State.storeAddrOf (s : State) (k : Key) : Nat :=
  s.windows[k.window].cfg.storeAddr k.record (s.descOf k)

/-! ### Fields within a record (R16, R20) -/

/-- The record byte lies in the field's view range (R8). -/
def FieldDesc.covers (f : FieldDesc) (off : Nat) : Bool :=
  decide (f.viewOff ≤ off) && decide (off < f.viewOff + f.viewLen)

/-- The field is touched by the record bytes [o, o + n) (R16). -/
def FieldDesc.touched (f : FieldDesc) (o n : Nat) : Bool :=
  rangesMeet o (o + n) f.viewOff (f.viewOff + f.viewLen)

/-- The touched fields in ascending field index (R16). -/
def touchedFields (fields : List FieldDesc) (o n : Nat) : List (FieldDesc × Nat) :=
  fields.zipIdx.filter fun x => x.1.touched o n

/-- The field that owns a record byte, with its index; none for a hole byte (R16). -/
def ownerOf (fields : List FieldDesc) (off : Nat) : Option (FieldDesc × Nat) :=
  fields.zipIdx.find? fun x => x.1.covers off

/-- The write is hole-touching (R20). -/
def holeTouching (fields : List FieldDesc) (o n : Nat) : Bool :=
  (List.range n).any fun k => (ownerOf fields (o + k)).isNone

/-- The lowest index of a touched read-only field; the write is protect-touching when there is one
(R20, R66). -/
def protectField (fields : List FieldDesc) (o n : Nat) : Option Nat :=
  ((touchedFields fields o n).find? fun x => x.1.readOnly).map (·.2)

/-! ### Objects in use (R6, R22, R46, R171) -/

/-- The layout is in use: an ACTIVE or DRAINING window names it (R6). -/
def State.layoutInUse (s : State) (l : Fin 16) : Bool :=
  s.windows.toList.any fun w => w.locks && w.cfg.layout == l

/-- The code table a descriptor names (R8). -/
def FieldKind.table? : FieldKind → Option (Fin 4)
  | .text t _ _ => t
  | .edited t _ _ => t
  | .raw | .packed _ => none

/-- The edit program a descriptor names (R8). -/
def FieldKind.program? : FieldKind → Option (Fin 32)
  | .edited _ e _ => some e
  | .raw | .packed _ | .text _ _ _ => none

def Layout.namesTable (l : Layout) (t : Fin 4) : Bool := l.fields.any fun f => f.kind.table? == some t

def Layout.namesProgram (l : Layout) (e : Fin 32) : Bool :=
  l.fields.any fun f => f.kind.program? == some e

/-- The code table is in use (R22). -/
def State.tableInUse (s : State) (t : Fin 4) : Bool :=
  (List.finRange 16).any fun l => s.layoutInUse l && s.layouts[l].namesTable t

/-- The edit program is in use (R46). -/
def State.programInUse (s : State) (e : Fin 32) : Bool :=
  (List.finRange 16).any fun l => s.layoutInUse l && s.layouts[l].namesProgram e

/-- The free descriptors of the pool (R7). -/
def State.freeDescriptors (s : State) : Nat :=
  Config.poolSize - (s.layouts.toList.map fun l => l.fields.length).sum

/-! ### The commit checks (R13) -/

/-- The lowest field index that fails a check. -/
def firstFailing (fields : List FieldDesc) (bad : FieldDesc → Nat → Bool) : Option Nat :=
  (fields.zipIdx.find? fun x => bad x.1 x.2).map (·.2)

def CodeTable.isLoaded : CodeTable → Bool
  | .empty => false
  | .loaded _ _ _ _ => true

def Program.isLoaded : Program → Bool
  | .empty => false
  | .loaded _ _ _ => true

/-- The output length of a program, 0 when EMPTY. -/
def Program.outLen : Program → Nat
  | .empty => 0
  | .loaded _ outLen _ => outLen

/-- The digit count of a program, 0 when EMPTY. -/
def Program.digits : Program → Nat
  | .empty => 0
  | .loaded _ _ digits => digits

/-- k of commit check 7: 3, 5, 10 or 19 for a view length of 1, 2, 4 or 8 (R13). -/
def digitLimit (viewLen : Nat) : Nat :=
  if viewLen = 1 then 3 else if viewLen = 2 then 5 else if viewLen = 4 then 10 else 19

/-- The commit checks of R13 in their order: the first that fails, with the field it reports. -/
def commitCheck (tables : Vector CodeTable 4) (programs : Vector Program 32)
    (viewSize storeSize : Nat) (fields : List FieldDesc) :
    Option (InvalidReason × Option Nat) :=
  let orderBad := fun (f : FieldDesc) (j : Nat) =>
    decide (1 ≤ j) && match fields[j - 1]? with
      | some p => decide (f.viewOff < p.viewOff + p.viewLen)
      | none => false
  let overlapBad := fun (f : FieldDesc) (j : Nat) => (fields.take j).any fun g =>
    rangesMeet f.storeOff (f.storeOff + f.storeLen) g.storeOff (g.storeOff + g.storeLen)
  let boundsBad := fun (f : FieldDesc) (_ : Nat) =>
    decide (viewSize < f.viewOff + f.viewLen) || decide (storeSize < f.storeOff + f.storeLen)
  let loadBad := fun (f : FieldDesc) (_ : Nat) =>
    (match f.kind.table? with | some t => !tables[t].isLoaded | none => false)
      || (match f.kind.program? with | some e => !programs[e].isLoaded | none => false)
  let lengthBad := fun (f : FieldDesc) (_ : Nat) => match f.kind.program? with
    | some e => f.storeLen != programs[e].outLen
    | none => false
  let digitsBad := fun (f : FieldDesc) (_ : Nat) => match f.kind.program? with
    | some e => decide (digitLimit f.viewLen < programs[e].digits)
    | none => false
  if fields.isEmpty then some (.noFields, none)
  else
    (firstFailing fields orderBad).map (fun j => (.order, some j))
    <|> (firstFailing fields overlapBad).map (fun j => (.storeOverlap, some j))
    <|> (firstFailing fields boundsBad).map (fun j => (.bounds, some j))
    <|> (firstFailing fields loadBad).map (fun j => (.notLoaded, some j))
    <|> (firstFailing fields lengthBad).map (fun j => (.length, some j))
    <|> (firstFailing fields digitsBad).map (fun j => (.digits, some j))

/-! ### The gather buffer (R61, R62, R68, R116) -/

/-- The entry that holds a key, with its state (R62: at most one). -/
def State.entryFor (s : State) (k : Key) : Option (Fin 8 × Stage × Gather) :=
  (List.finRange 8).findSome? fun g => match s.entries[g].slot with
    | .held stage b => if b.key = k then some (g, stage, b) else none
    | .free => none

/-- The entry is FREE. -/
def Entry.isFree (e : Entry) : Bool :=
  match e.slot with
  | .free => true
  | .held _ _ => false

/-- The entry is GATHERING. -/
def Entry.isGathering (e : Entry) : Bool :=
  match e.slot with
  | .held .gathering _ => true
  | .held .merging _ | .held .converting _ | .held .writing _ | .free => false

/-- The entry is flushing: MERGING, CONVERTING or WRITING (R62). -/
def Entry.isFlushing (e : Entry) : Bool :=
  match e.slot with
  | .held .merging _ | .held .converting _ | .held .writing _ => true
  | .held .gathering _ | .free => false

/-- The key of an entry that is not FREE. -/
def Entry.key? (e : Entry) : Option Key :=
  match e.slot with
  | .held _ g => some g.key
  | .free => none

/-- The number of entries of which a test holds. -/
def State.countEntries (s : State) (test : Entry → Bool) : Nat := (s.entries.toList.filter test).length

/-- The FREE entry with the lowest index (R69). -/
def State.lowestFree (s : State) : Option (Fin 8) :=
  (List.finRange 8).find? fun g => s.entries[g].isFree

/-- The GATHERING entries of which a test on the key holds, in open order (R73). -/
def State.gatheringWhere (s : State) (test : Key → Bool) : List (Fin 8) :=
  s.openList.filter fun g => match s.entries[g].slot with
    | .held .gathering b => test b.key
    | .held .merging _ | .held .converting _ | .held .writing _ | .free => false

/-- The entry holds a field whose store range shares a byte with [a, a + n) (R116). -/
def State.overlaps (s : State) (a n : Nat) (k : Key) : Bool :=
  rangesMeet a (a + n) (s.storeAddrOf k) (s.storeAddrOf k + (s.descOf k).storeLen)

/-- Some entry that is not FREE is overlapped (R116). -/
def State.anyOverlapped (s : State) (a n : Nat) : Bool :=
  s.entries.toList.any fun e => match e.key? with
    | some k => s.overlaps a n k
    | none => false

/-- The written set holds every position of the field (R71, R74). -/
def Gather.whole (g : Gather) : Bool := g.bytes.all (·.isSome)

/-! ### Transactions (R103 to R108) -/

/-- A READ or WRITE of size n at address a is well formed (R103). -/
def wellFormedAccess (a n : Nat) : Bool := (n == 1 || n == 2 || n == 4 || n == 8) && a % n == 0

/-- The transaction is QUEUED. -/
def Txn.isQueued (t : Txn) : Bool :=
  match t.state with
  | .queued => true
  | .waiting _ | .ready _ _ => false

/-- The dispatcher's next transaction: the oldest QUEUED one (R108). -/
def State.nextTxn (s : State) : Option Txn := s.txns.find? Txn.isQueued

/-- The transaction of a name. -/
def State.txn? (s : State) (id : Nat) : Option Txn := s.txns.find? fun t => t.id == id

/-- The response that is released to the master: that of the oldest transaction, when READY (R107).
Its tag, outcome and data (R104). -/
def State.released (s : State) : Option (Tag × Answer × List Byte) :=
  match s.txns with
  | t :: _ => match t.state with
    | .ready answer data => some (t.req.tag, answer, data)
    | .queued | .waiting _ => none
  | [] => none

/-! ### The memory queue (R127 to R130) -/

/-- Free slots: 8 less the outstanding operations (R127). -/
def State.freeSlots (s : State) : Nat := Config.maxOutstanding - s.outstanding.length

/-- The first waiting unit in arbitration order: flush units by flush rank, then the dispatcher's
(R130). -/
def State.firstUnit (s : State) : Option MemUnit :=
  (s.flushOrder.findSome? fun g => s.units.find? fun u => u.owner == .entry g)
    <|> s.units.find? fun u => u.owner == .dispatcher

/-! ### The alert line (R158) -/

/-- ALERT_N is asserted (low): the enable is on, and the log holds a record or the dropped count is
above 0 (R158). -/
def State.alertLow (s : State) : Bool := s.alertEnable && (!s.log.isEmpty || decide (0 < s.dropped))

/-! ### The drain condition (R164) -/

/-- The transaction is WAITING as a window READ or WRITE of the window (R164). -/
def Txn.waitsOn (t : Txn) (w : Fin 8) : Bool :=
  match t.state with
  | .waiting (.windowRead ctx) => ctx.window == w
  | .waiting (.windowWrite v _ _) => v == w
  | .waiting .passThrough | .waiting (.fence _ _) | .queued | .ready _ _ => false

/-- The job is a READ job whose input names the window (R164). -/
def Job.readsWindow (j : Job) (w : Fin 8) : Bool :=
  match j with
  | .read _ v _ _ _ _ => v == w
  | .flush _ _ _ _ _ _ => false

/-- The drain condition of a window (R164). -/
def State.drained (s : State) (w : Fin 8) : Bool :=
  (s.entries.toList.all fun e => match e.key? with
    | some k => k.window != w
    | none => true)
    && (s.txns.all fun t => !t.waitsOn w)
    && ((s.jobs ++ s.toPlace).all fun j => !j.readsWindow w)

/-! ### Which internal steps are due (log entry 1) -/

/-- A job can take its place (R137). -/
def State.placementDue (s : State) : Bool :=
  !s.toPlace.isEmpty && decide (s.jobs.length < Config.maxJobs)

/-- The IDLE unit has a queued job (R138). -/
def State.startDue (s : State) : Bool := !s.running && !s.jobs.isEmpty

/-- The first waiting unit fits the free slots (R129). -/
def State.issueDue (s : State) : Bool :=
  match s.firstUnit with
  | some u => decide (u.ops.length ≤ s.freeSlots)
  | none => false

/-- The window is DRAINING and its drain condition holds (R164). -/
def State.drainDue (s : State) (w : Fin 8) : Bool :=
  match s.windows[w].status with
  | .live .draining _ _ => s.drained w
  | .live .active _ _ | .live .suspended _ _ | .off => false

/-- The entry is GATHERING and its age has reached its window's nonzero gather timeout (R65). -/
def State.ageReached (s : State) (g : Fin 8) : Bool :=
  match s.entries[g].slot with
  | .held .gathering b =>
    let timeout := s.windows[b.key.window].cfg.gatherTimeout
    decide (1 ≤ timeout) && decide (timeout ≤ b.age)
  | .held .merging _ | .held .converting _ | .held .writing _ | .free => false

/-- The entries the age trigger reaches, in open order (R65). -/
def State.aged (s : State) : List (Fin 8) := s.openList.filter fun g => s.ageReached g

/-- The window that holds the held request's address, when its hold limit has been reached (R168). -/
def State.expired (s : State) : Option (Txn × Fin 8) :=
  match s.disp with
  | .holding timer =>
    match s.nextTxn with
    | some t => match s.decode t.req.addr with
      | some d => if s.windows[d.window].cfg.holdLimit ≤ timer then some (t, d.window) else none
      | none => none
    | none => none
  | .idle | .blocked _ | .issuing _ _ => none

/-- An offer is due (R109): a next transaction that was not offered yet, or one that waits and whose
owner has named an event since. -/
def State.offerDue (s : State) : Bool :=
  s.nextTxn.isSome && match s.disp with
    | .idle => true
    | .blocked _ | .holding _ => s.reoffer
    | .issuing _ _ => false

/-- The offer that follows a hold expiry has not been made (R168, R169, log entry 24). -/
def State.followsExpiry (s : State) : Bool := s.reoffer && s.disp == .idle

/-- No internal step is due. -/
def State.quiet (s : State) : Bool :=
  !s.placementDue && !s.startDue && !s.issueDue && !((List.finRange 8).any fun w => s.drainDue w)
    && s.aged.isEmpty && s.expired.isNone && !s.offerDue

end Sys2Proof.Machine
end

