-- ==== Sys2Proof/Machine/Convert.lean ====
section
/-! DEFINITION. Code-table translation and the RAW, TEXT and PACKED conversions in both directions
(02_code_tables_and_field_conversions.md, R26 to R42). -/

namespace Sys2Proof.Machine

/-! ### Code tables (R26, R27, R29) -/

/-- The reverse entry of store code c: the least view code whose forward entry is c (R26). -/
def reverseEntry (forward : List (Option Byte)) (c : Byte) : Option Byte :=
  (forward.findIdx? fun e => e == some c).map toByte

/-- The reverse map derived from the forward entries (R26). -/
def reverseMap (forward : List (Option Byte)) : List (Option Byte) :=
  (List.range 256).map fun c => reverseEntry forward (toByte c)

/-- The number of store codes whose reverse entry is NONE (R27). -/
def unreachedCount (forward : List (Option Byte)) : Nat :=
  ((reverseMap forward).filter (·.isNone)).length

/-- No forward entry is NONE and no two view codes have the same forward entry (R27). -/
def isBijective (forward : List (Option Byte)) : Bool :=
  forward.all (·.isSome) && decide forward.Nodup

/-- The contents of a table that a build completes with (R24). -/
def CodeTable.ofForward (forward : List (Option Byte)) : CodeTable :=
  .loaded forward (reverseMap forward) (isBijective forward) (unreachedCount forward)

/-- Forward translation of a view code; the identity without a table (R29). An EMPTY table, which no
VALID layout names (R21), maps nothing. -/
def translateForward (tables : Vector CodeTable 4) (t : Option (Fin 4)) (v : Byte) : Option Byte :=
  match t with
  | none => some v
  | some t => match tables[t] with
    | .empty => none
    | .loaded forward _ _ _ => forward.getD v.toNat none

/-- Reverse translation of a store code (R29). -/
def translateReverse (tables : Vector CodeTable 4) (t : Option (Fin 4)) (c : Byte) : Option Byte :=
  match t with
  | none => some c
  | some t => match tables[t] with
    | .empty => none
    | .loaded _ rev _ _ => rev.getD c.toNat none

/-! ### TEXT (R34 to R37) -/

/-- The first position, counted from `start`, at which a test on the byte holds, with the byte. -/
def firstByte (start : Nat) (bytes : List Byte) (test : Byte → Bool) : Option (Nat × Byte) :=
  (bytes.zipIdx start |>.find? fun x => test x.1).map fun x => (x.2, x.1)

/-- TEXT conversion of an image to a form of length `outLen`: translation of the shared positions
with the substitute at unmapped ones, the fill of the other side where it is longer, and the first
failure in position order: UNMAPPED, else TRUNCATE (R34 to R37). `outFill` pads the result,
`inFill` is what may be cut without loss. -/
def convertText (translate : Byte → Option Byte) (substitute outFill inFill : Byte) (outLen : Nat)
    (image : List Byte) : ConvOutcome :=
  let shared := image.take outLen
  let unmapped := firstByte 0 shared fun b => (translate b).isNone
  let lost := firstByte outLen (image.drop outLen) fun b => b != inFill
  { result := shared.map (fun b => (translate b).getD substitute)
      ++ List.replicate (outLen - image.length) outFill
    exc := (unmapped.map fun x => (.unmapped, some x)) <|> (lost.map fun x => (.truncate, some x)) }

/-! ### View integers (R38) -/

/-- The number that bytes spell, least significant first. -/
def leNat : List Byte → Nat
  | [] => 0
  | b :: rest => b.toNat + 256 * leNat rest

/-- A number in n bytes, least significant first. -/
def leBytes : Nat → Nat → List Byte
  | 0, _ => []
  | n + 1, v => toByte (v % 256) :: leBytes n (v / 256)

/-- Bytes in order of rising weight: as they are under LITTLE, reversed under BIG (R19, R38). -/
def ByteOrder.arrange (o : ByteOrder) (bytes : List Byte) : List Byte :=
  match o with
  | .little => bytes
  | .big => bytes.reverse

/-- The view integer of a view image (R38). -/
def viewInteger (o : ByteOrder) (sg : Signedness) (image : List Byte) : Int :=
  let sum := leNat (o.arrange image)
  match sg with
  | .unsigned => sum
  | .signed => if 2 * sum < 256 ^ image.length then sum else (sum : Int) - 256 ^ image.length

/-- A view integer written back in V bytes: its unsigned value or its two's complement (R38). -/
def writeViewInteger (o : ByteOrder) (len : Nat) (x : Int) : List Byte :=
  o.arrange (leBytes len (x % (256 : Int) ^ len).toNat)

/-- The least value of a view type (R38). -/
def viewMin (sg : Signedness) (len : Nat) : Int :=
  match sg with
  | .unsigned => 0
  | .signed => -((256 : Int) ^ len / 2)

/-- The greatest value of a view type (R38). -/
def viewMax (sg : Signedness) (len : Nat) : Int :=
  match sg with
  | .unsigned => (256 : Int) ^ len - 1
  | .signed => (256 : Int) ^ len / 2 - 1

/-- A value checked against the view type and written back: the faithful result, or RANGE with 0 for
a negative value under UNSIGNED and the nearer bound otherwise (R42, R59). -/
def rangeChecked (o : ByteOrder) (sg : Signedness) (len : Nat) (x : Int) : ConvOutcome :=
  if viewMax sg len < x then
    { result := writeViewInteger o len (viewMax sg len), exc := some (.range, none) }
  else if x < viewMin sg len then
    { result := writeViewInteger o len (viewMin sg len), exc := some (.range, none) }
  else { result := writeViewInteger o len x, exc := none }

/-! ### PACKED (R39 to R42) -/

/-- A number as exactly n decimal digits, most significant first (R39, R49). -/
def decimalDigits : Nat → Nat → List Nat
  | 0, _ => []
  | n + 1, v => v / 10 ^ n % 10 :: decimalDigits n v

/-- The number that decimal digits spell, most significant first (R42, R59). -/
def digitsValue (digits : List Nat) : Nat := digits.foldl (fun acc d => acc * 10 + d) 0

/-- Nibbles packed two to a byte, the upper half first (R39). -/
def packNibbles : List Nat → List Byte
  | hi :: lo :: rest => toByte (hi * 16 + lo) :: packNibbles rest
  | _ => []

/-- The nibbles of bytes, the upper half first (R39). -/
def unpackNibbles : List Byte → List Nat
  | [] => []
  | b :: rest => b.toNat / 16 :: b.toNat % 16 :: unpackNibbles rest

/-- The sign nibble forward conversion writes (R40). -/
def packedSign (sg : Signedness) (x : Int) : Nat :=
  match sg with
  | .unsigned => 0xF
  | .signed => if 0 ≤ x then 0xC else 0xD

/-- Forward PACKED conversion (R40). -/
def packedForward (o : ByteOrder) (sg : Signedness) (storeLen : Nat) (image : List Byte) :
    ConvOutcome :=
  let x := viewInteger o sg image
  let count := 2 * storeLen - 1
  if x.natAbs < 10 ^ count then
    { result := packNibbles (decimalDigits count x.natAbs ++ [packedSign sg x]), exc := none }
  else
    { result := packNibbles (List.replicate count 9 ++ [packedSign sg x])
      exc := some (.overflow, none) }

/-- The first failure of a packed store form in nibble order: a digit nibble above 9, or a sign
nibble from 0 to 9 (R41). -/
def packedFailure (nibbles : List Nat) : Option (ExcKind × Option (Nat × Byte)) :=
  let last := nibbles.length - 1
  (nibbles.zipIdx.find? fun x => if x.2 < last then 9 < x.1 else x.1 ≤ 9).map fun x =>
    (if x.2 < last then .digit else .sign, some (x.2 / 2, toByte x.1))

/-- Reverse PACKED conversion (R41, R42). -/
def packedReverse (o : ByteOrder) (sg : Signedness) (viewLen : Nat) (store : List Byte) :
    ConvOutcome :=
  let nibbles := unpackNibbles store
  match packedFailure nibbles with
  | some e => { result := writeViewInteger o viewLen 0, exc := some e }
  | none =>
    let m : Int := digitsValue nibbles.dropLast
    let sign := nibbles.getLastD 0
    rangeChecked o sg viewLen (if sign = 0xB ∨ sign = 0xD then -m else m)

end Sys2Proof.Machine
end

