-- ==== Sys2Proof/Machine/Edit.lean ====
section
/-! DEFINITION. Edit programs (03_edit_programs.md, R43 to R60): formatting, parsing, and the field
conversions of every kind. -/

namespace Sys2Proof.Machine

/-! ### Positions (R44, R48) -/

/-- The positions a step list produces, each with the fill and float character in force (R44, R48). -/
def textPositions : List EditStep → (fill : Byte) → (float : Option Byte) → List TextPos
  | [], _, _ => []
  | s :: rest, fill, float =>
    match s.op with
    | .dig => List.replicate s.operand.toNat (.dig fill float) ++ textPositions rest fill float
    | .req => List.replicate s.operand.toNat (.req fill float) ++ textPositions rest fill float
    | .mark => .mark s.operand fill float :: textPositions rest fill float
    | .fixed => .fixed s.operand fill float :: textPositions rest fill float
    | .minus => .minus s.operand fill float :: textPositions rest fill float
    | .plus => .plus s.operand fill float :: textPositions rest fill float
    | .fill => textPositions rest s.operand float
    | .float => textPositions rest fill (some s.operand)

/-- The positions of a program: the run starts with fill 0x20 and no float character (R48). -/
def positionsOf (steps : List EditStep) : List TextPos := textPositions steps 0x20 none

/-- The digit count D: the sum of the operands of the DIG and REQ steps (R44). -/
def digitCount (steps : List EditStep) : Nat :=
  (steps.map fun s => if s.op = .dig ∨ s.op = .req then s.operand.toNat else 0).sum

/-- The output length: D plus the number of MARK, FIXED, MINUS and PLUS steps (R44). -/
def outputLength (steps : List EditStep) : Nat :=
  digitCount steps +
    (steps.filter fun s => s.op = .mark ∨ s.op = .fixed ∨ s.op = .minus ∨ s.op = .plus).length

/-- The program holds a MINUS step (R49). -/
def hasMinus (steps : List EditStep) : Bool := steps.any fun s => s.op == .minus

/-- The digit code of a digit (R48). -/
def digitCode (d : Nat) : Byte := toByte (0x30 + d)

/-- A code is one of 0x30 to 0x39 (R48). -/
def isDigitCode (b : Byte) : Bool := decide (0x30 ≤ b.toNat) && decide (b.toNat ≤ 0x39)

/-- The digit a digit code stands for. -/
def digitOf (b : Byte) : Nat := b.toNat - 0x30

/-! ### Formatting (R49 to R52) -/

/-- The text so far, most recent position first; a suppressed fill is marked true (R50). -/
abbrev TextSoFar := List (Byte × Bool)

/-- Significance turns on at the next position: a float character in force replaces a suppressed fill
just before it (R51). -/
def placeFloat (float : Option Byte) (sofar : TextSoFar) : TextSoFar :=
  match float, sofar with
  | some c, (_, true) :: rest => (c, true) :: rest
  | _, sofar => sofar

/-- The walk of R50 and R51 over the positions, with the digits left and whether significance is on. -/
def formatWalk (negative : Bool) : List TextPos → List Nat → Bool → TextSoFar → TextSoFar
  | [], _, _, sofar => sofar
  | .dig fill float :: rest, digits, on, sofar =>
    let d := digits.headD 0
    if on then formatWalk negative rest digits.tail true ((digitCode d, false) :: sofar)
    else if d = 0 then formatWalk negative rest digits.tail false ((fill, true) :: sofar)
    else formatWalk negative rest digits.tail true
      ((digitCode d, false) :: placeFloat float sofar)
  | .req _ float :: rest, digits, on, sofar =>
    let d := digits.headD 0
    formatWalk negative rest digits.tail true
      ((digitCode d, false) :: if on then sofar else placeFloat float sofar)
  | .mark c fill _ :: rest, digits, on, sofar =>
    formatWalk negative rest digits on ((if on then (c, false) else (fill, true)) :: sofar)
  | .fixed c _ _ :: rest, digits, on, sofar =>
    formatWalk negative rest digits on ((c, false) :: sofar)
  | .minus c fill _ :: rest, digits, on, sofar =>
    formatWalk negative rest digits on ((if negative then c else fill, false) :: sofar)
  | .plus c fill _ :: rest, digits, on, sofar =>
    formatWalk negative rest digits on ((if negative then fill else c, false) :: sofar)

/-- The text of a value in view code (R50, R51). -/
def formatText (steps : List EditStep) (x : Int) : List Byte :=
  (formatWalk (decide (x < 0)) (positionsOf steps)
    (decimalDigits (digitCount steps) x.natAbs) false []).reverse.map (·.1)

/-- Forward EDITED conversion (R49 to R52). -/
def editedForward (translate : Byte → Option Byte) (storeSub overflowMark : Byte) (o : ByteOrder)
    (sg : Signedness) (storeLen : Nat) (steps : List EditStep) (image : List Byte) : ConvOutcome :=
  let x := viewInteger o sg image
  if 10 ^ digitCount steps ≤ x.natAbs ∨ (x < 0 ∧ hasMinus steps = false) then
    { result := List.replicate storeLen overflowMark, exc := some (.overflow, none) }
  else
    let text := formatText steps x
    { result := text.map fun b => (translate b).getD storeSub
      exc := (firstByte 0 text fun b => (translate b).isNone).map fun x => (.unmapped, some x) }

/-! ### Parsing (R53 to R59) -/

/-- The float character is accepted at a position whose code is x when the next position exists,
x is the float character in force there, and that position is a DIG position with a digit code or
the first REQ position of the program (R55). -/
def floatAccepted (x : Byte) (reqPassed : Bool) : List (TextPos × Byte) → Bool
  | (.dig _ float, code) :: _ => float == some x && isDigitCode code
  | (.req _ float, _) :: _ => float == some x && !reqPassed
  | (.mark _ _ _, _) :: _ | (.fixed _ _ _, _) :: _ | (.minus _ _ _, _) :: _
  | (.plus _ _ _, _) :: _ | [] => false

/-- The test of one position, with the positions after it: the run state when it is accepted, none
when it fails (R54 to R57). -/
def parseStepAt (st : ParseState) (pos : TextPos) (x : Byte) (rest : List (TextPos × Byte)) :
    Option ParseState :=
  match pos with
  | .dig fill _ =>
    if st.seen then
      if isDigitCode x then some { st with digits := digitOf x :: st.digits } else none
    else if x = fill then some { st with digits := 0 :: st.digits }
    else if isDigitCode x then some { st with seen := true, digits := digitOf x :: st.digits }
    else if floatAccepted x st.reqPassed rest then some { st with digits := 0 :: st.digits }
    else none
  | .req _ _ =>
    if isDigitCode x then
      some { st with seen := true, reqPassed := true, digits := digitOf x :: st.digits }
    else none
  | .mark c fill _ =>
    if x = c then some st
    else if st.seen then none
    else if x = fill then some st
    else if floatAccepted x st.reqPassed rest then some st
    else none
  | .fixed c _ _ => if x = c then some st else none
  | .minus c fill _ =>
    if x = c then if st.plusShown then none else some { st with minusShown := true }
    else if x = fill then some st
    else none
  | .plus c fill _ =>
    if x = c then if st.minusShown then none else some { st with plusShown := true }
    else if x = fill then some st
    else none

/-- The walk of the parse: the run state at the end, or the first failing position (R58). -/
def parseWalk : (at_ : Nat) → ParseState → List (TextPos × Byte) → Except Nat ParseState
  | _, st, [] => .ok st
  | k, st, (pos, x) :: rest =>
    match parseStepAt st pos x rest with
    | some st' => parseWalk (k + 1) st' rest
    | none => .error k

/-- The run state at the start of a parse (R48). -/
def ParseState.start : ParseState :=
  { seen := false, reqPassed := false, minusShown := false, plusShown := false, digits := [] }

/-- Reverse EDITED conversion (R53 to R59). -/
def editedReverse (translate : Byte → Option Byte) (o : ByteOrder) (sg : Signedness)
    (viewLen : Nat) (steps : List EditStep) (store : List Byte) : ConvOutcome :=
  let zero := writeViewInteger o viewLen 0
  match firstByte 0 store fun b => (translate b).isNone with
  | some x => { result := zero, exc := some (.unmapped, some x) }
  | none =>
    let text := store.map fun b => (translate b).getD 0
    match parseWalk 0 .start ((positionsOf steps).zip text) with
    | .error k => { result := zero, exc := some (.syntaxError, some (k, store.getD k 0)) }
    | .ok st =>
      let m : Int := digitsValue st.digits.reverse
      rangeChecked o sg viewLen (if st.minusShown then -m else m)

/-! ### A field of any kind (R30, R32) -/

/-- The steps of a program, none when EMPTY. -/
def Program.steps : Program → List EditStep
  | .empty => []
  | .loaded steps _ _ => steps

/-- Forward conversion of a field: view image to store image (R33, R34, R40, R49). It reads the
descriptor, the window's settings, the named table and program (R32). -/
def State.convertForward (s : State) (cfg : WindowCfg) (f : FieldDesc) (image : List Byte) :
    ConvOutcome :=
  match f.kind with
  | .raw => { result := image, exc := none }
  | .text t viewFill storeFill =>
    convertText (translateForward s.tables t) cfg.storeSub storeFill viewFill f.storeLen image
  | .packed sg => packedForward cfg.order sg f.storeLen image
  | .edited t e sg =>
    editedForward (translateForward s.tables t) cfg.storeSub cfg.overflowMark cfg.order sg
      f.storeLen s.programs[e].steps image

/-- Reverse conversion of a field: store image to view image (R33, R36, R41, R53). -/
def State.convertReverse (s : State) (cfg : WindowCfg) (f : FieldDesc) (store : List Byte) :
    ConvOutcome :=
  match f.kind with
  | .raw => { result := store, exc := none }
  | .text t viewFill storeFill =>
    convertText (translateReverse s.tables t) cfg.viewSub viewFill storeFill f.viewLen store
  | .packed sg => packedReverse cfg.order sg f.viewLen store
  | .edited t e sg =>
    editedReverse (translateReverse s.tables t) cfg.order sg f.viewLen s.programs[e].steps store

end Sys2Proof.Machine
end

