-- ==== Sys2Proof/Machine/Ops.lean ====
section
/-! DEFINITION. The shared operations of the blocks: the log's hand-over, transaction updates, the
events the dispatcher is told of, units, flush start, entry release, the port's result buffer and the
release of a frame. -/

namespace Sys2Proof.Machine

/-! ### The exception log (R150, R151) -/

/-- A record handed over: it takes the sequence number, the counter advances, and it is appended or,
at a full list, dropped and counted (R150). -/
def State.handOver (s : State) (r : ExcRecord) : State :=
  if s.log.length < Config.maxLog then
    { s with log := s.log ++ [{ r with seq := s.seqCounter }], seqCounter := s.seqCounter + 1 }
  else { s with dropped := min 255 (s.dropped + 1), seqCounter := s.seqCounter + 1 }

/-- Several records handed over at one event, one after another (R151). -/
def State.handOverAll (s : State) (rs : List ExcRecord) : State := rs.foldl State.handOver s

/-! ### Transactions (R105, R107) -/

/-- The transaction of a name takes a state. -/
def State.setTxn (s : State) (id : Nat) (st : TxnState) : State :=
  { s with txns := s.txns.map fun t => if t.id == id then { t with state := st } else t }

/-- A transaction becomes READY (R105). -/
def State.answer (s : State) (id : Nat) (answer : Answer) (data : List Byte) : State :=
  s.setTxn id (.ready answer data)

/-- Whether the part takes requests: neither reset is asserted and the list has room (R106, R123,
R124). -/
def State.takesRequests (s : State) : Bool :=
  !s.rstLow && !s.prstLow && decide (s.txns.length < Config.maxTransactions)

/-- The first standing offer is taken as a QUEUED transaction, when the part takes requests (R106). -/
def State.takeOffer (s : State) : State :=
  match s.offers with
  | [] => s
  | r :: rest =>
    if s.takesRequests then
      { s with offers := rest, txnCounter := s.txnCounter + 1
               txns := s.txns ++ [{ id := s.txnCounter, req := r, state := .queued }] }
    else s

/-- Standing offers are taken in the order offered for as long as the list has room (R106, R123). -/
def State.takeOffers (s : State) : State := s.offers.foldl (fun s _ => s.takeOffer) s

/-! ### Events a waiting transaction is offered again at (R72, R89, R109, R116) -/

/-- A gather entry became FREE: a BLOCKED transaction is offered again (R72, R89, R116). -/
def State.noteFreed (s : State) : State :=
  match s.disp with
  | .blocked _ => { s with reoffer := true }
  | .idle | .holding _ | .issuing _ _ => s

/-- The flush of an entry started: a waiting window WRITE is offered again (R72). -/
def State.noteFlushStart (s : State) : State :=
  match s.disp with
  | .blocked .gatherBuffer => { s with reoffer := true }
  | .blocked .readPath | .blocked .rawOverlap | .idle | .holding _ | .issuing _ _ => s

/-- A window changed state: a BLOCKED or HOLDING transaction is offered again (R109, R160). -/
def State.noteWindowChange (s : State) : State :=
  match s.disp with
  | .blocked _ | .holding _ => { s with reoffer := true }
  | .idle | .issuing _ _ => s

/-! ### Units (R125, R128) -/

/-- The operations over [start, start + len): one, or a pair split at the 32-byte boundary, lower
first (R128). -/
def splitOps (kind : OpKind) (start len : Nat) (data : List Byte) (source : Half → Source) :
    List MemOp :=
  let boundary := (start / Config.blockSize + 1) * Config.blockSize
  if start + len ≤ boundary then
    [{ kind, addr := start, size := len, data, source := source .whole }]
  else
    [{ kind, addr := start, size := boundary - start, data := data.take (boundary - start),
       source := source .lower },
     { kind, addr := boundary, size := start + len - boundary,
       data := data.drop (boundary - start), source := source .upper }]

/-- A source asks the memory queue for a unit (R128). -/
def State.requestUnit (s : State) (owner : UnitOwner) (ops : List MemOp) : State :=
  { s with units := s.units ++ [{ owner, ops }] }

/-! ### Gather entries (R61, R74, R78 to R82, R119) -/

/-- The entry takes a slot. -/
def State.setSlot (s : State) (g : Fin 8) (slot : Slot) : State :=
  { s with entries := s.entries.set g { s.entries[g] with slot := slot } }

/-- The unit of a stage is requested: its operations are awaited from here on (R74, R77, R128). -/
def State.requestFieldUnit (s : State) (g : Fin 8) (stage : Stage) (kind : OpKind)
    (data : List Byte) (b : Gather) : State :=
  let ops := splitOps kind (s.storeAddrOf b.key) (s.descOf b.key).storeLen data
    fun _ => .entry g stage
  (s.setSlot g (.held stage { b with opsLeft := ops.length, got := [], failed := false })).requestUnit
    (.entry g) ops

/-- A job's inputs are complete: it waits for its place (R137). -/
def State.awaitPlacement (s : State) (j : Job) : State := { s with toPlace := s.toPlace ++ [j] }

/-- A flush is triggered (R74): a GATHERING entry takes a flush rank (R130) and goes to CONVERTING
with a FLUSH job, or to MERGING with a merge read unit. Any other entry is not reached (R73). -/
def State.startFlush (s : State) (g : Fin 8) : State :=
  match s.entries[g].slot with
  | .held .gathering b =>
    let ranked := { b with rank := some s.rankCounter }
    let t := { s with rankCounter := s.rankCounter + 1, flushOrder := s.flushOrder ++ [g] }
    let u := t.noteFlushStart
    if b.whole || b.base.isSome then
      (u.setSlot g (.held .converting ranked)).awaitPlacement
        (.flush g s.entries[g].openOrder b.key b.bytes b.base none)
    else u.requestFieldUnit g .merging .mread [] ranked
  | .held .merging _ | .held .converting _ | .held .writing _ | .free => s

/-- Several flushes triggered at one event, in the order given (R73). -/
def State.startFlushes (s : State) (gs : List (Fin 8)) : State := gs.foldl State.startFlush s

/-- A freed entry's outcome at a transaction of its confirm list (R82). -/
def Txn.confirm (outcome : Answer) (t : Txn) : Txn :=
  match t.state with
  | .waiting (.windowWrite w pendingCount errorFlag) =>
    let failed := errorFlag || outcome == .error
    if pendingCount ≤ 1 then
      { t with state := .ready (if failed then .error else .okay) [] }
    else { t with state := .waiting (.windowWrite w (pendingCount - 1) failed) }
  | .waiting .passThrough | .waiting (.windowRead _) | .waiting (.fence _ _) | .queued
  | .ready _ _ => t

/-- A fence record, READY with OKAY when it is empty (R118, R119). -/
def fenceState (entries : List (Fin 8)) (lastWrite : Option Nat) : TxnState :=
  if entries.isEmpty && lastWrite.isNone then .ready .okay []
  else .waiting (.fence entries lastWrite)

/-- A freed entry leaves the record of a waiting FENCE (R119). -/
def Txn.fenceFreed (g : Fin 8) (t : Txn) : Txn :=
  match t.state with
  | .waiting (.fence entries lastWrite) =>
    { t with state := fenceState (entries.filter fun e => e != g) lastWrite }
  | .waiting .passThrough | .waiting (.windowRead _) | .waiting (.windowWrite _ _ _) | .queued
  | .ready _ _ => t

/-- A completed MWRITE leaves the record of a waiting FENCE (R119). -/
def Txn.fenceWritten (op : Nat) (t : Txn) : Txn :=
  match t.state with
  | .waiting (.fence entries lastWrite) =>
    { t with state := fenceState entries (if lastWrite == some op then none else lastWrite) }
  | .waiting .passThrough | .waiting (.windowRead _) | .waiting (.windowWrite _ _ _) | .queued
  | .ready _ _ => t

/-- An entry becomes FREE with an outcome: its fault marker (R78 to R81), its confirm list resolved
(R82), the fence records it stood in (R119), the offer that waits for it (R72, R89, R116). -/
def State.freeEntry (s : State) (g : Fin 8) (outcome : Answer) : State :=
  match s.entries[g].slot with
  | .free => s
  | .held _ b =>
    State.noteFreed
      { s with
        entries := s.entries.set g
          { s.entries[g] with fault := outcome == .error, slot := .free }
        openList := s.openList.filter fun e => e != g
        flushOrder := s.flushOrder.filter fun e => e != g
        txns := s.txns.map fun t =>
          (if b.confirm.contains t.id then t.confirm outcome else t).fenceFreed g }

/-! ### The maintenance port (R176 to R182) -/

/-- A result replaces the result buffer (R179). -/
def State.putResult (s : State) (code : ResultCode) (command : Byte) (data : List Byte) : State :=
  { s with result := { code, command, data } }

/-- A frame released while a build runs is turned away and counted (R181). -/
def State.turnAway (s : State) : State := { s with refusedCount := min 255 (s.refusedCount + 1) }

/-- What the completed bytes of a period are at its release (R177, R178): no frame, a bad frame, a
RESULT-FETCH with a good header, or a good frame. -/
def frameVerdict (bytes : List Byte) (partialByte : Bool) : Verdict :=
  match bytes with
  | [] => .empty
  | [_] | [_, _] | [_, _, _] => .bad
  | code :: hi :: lo :: b3 :: rest =>
    let len := hi.toNat * 256 + lo.toNat
    if code = 0x7E ∧ len = 0 ∧ byteSum [code, hi, lo, b3] = 0 then .fetch
    else if Config.maxPayload < len then .bad
    else if bytes.length = 4 + len ∧ partialByte = false ∧ byteSum bytes = 0 then
      .good code ((b3 :: rest).take len)
    else .bad

/-- The verdict on what the receiver holds (R178 to R180). -/
def Receiver.verdict (r : Receiver) (partialByte : Bool) : Verdict :=
  match r.state with
  | .idle => .empty
  | .readout => .fetch
  | .discarding => .bad
  | .receiving => frameVerdict r.bytes partialByte

/-- A good frame of a command can be released now: by the period under way, or, when MCS_N is high,
by a whole chip-select period that carries it (log entry 6). -/
def State.presents (s : State) (code : Byte) (payload : List Byte) : Bool :=
  !s.rstLow &&
    if s.mcsLow then s.receiver.verdict false == .good code payload
    else decide (payload.length ≤ Config.maxPayload)

/-- The release ends the period and the receiver returns to IDLE; `shifted` is what MSDO shifts out
when the whole period is one command (R177, R179). -/
def State.endPeriod (s : State) (shifted : List Byte) : State :=
  { s with receiver := .idle, mcsLow := false, msdo := if s.mcsLow then s.msdo else shifted }

/-- The release of a good frame (R179): turned away while a build runs (R181), executed otherwise. -/
def State.releaseFrame (s : State) (code : Byte) (payload : List Byte)
    (run : State → State × CmdResult) : State :=
  if s.presents code payload then
    let t := s.endPeriod (List.replicate (payload.length + 4) 0xFF)
    if t.build.isSome then t.turnAway
    else
      let r := run t
      r.1.putResult r.2.code code r.2.data
  else s

/-- A known command with a payload of another length than its table's gives BADARG with no data
(R182). -/
def withLength (payload : List Byte) (len : Nat) (run : State → State × CmdResult) (s : State) :
    State × CmdResult :=
  if payload.length = len then run s else (s, { code := .badArg, data := [] })

/-- A refusal, or any other result that leaves the part as it is (R179). -/
def State.reply (s : State) (code : ResultCode) (data : List Byte) : State × CmdResult :=
  (s, { code, data })

end Sys2Proof.Machine
end

