-- ==== Sys2Proof/Machine/Gather.lean ====
section
/-! DEFINITION. A window WRITE at an offer: refusal, discard, eviction, dispatch, the completion
trigger (04_the_gather_buffer.md, R66 to R72). -/

namespace Sys2Proof.Machine

/-- The kept bytes of a write: field index, field position, byte; hole bytes and bytes of read-only
fields are not kept (R67). -/
def keptBytes (fields : List FieldDesc) (o : Nat) (data : List Byte) : List (Nat × Nat × Byte) :=
  data.zipIdx.filterMap fun x => match ownerOf fields (o + x.2) with
    | some (f, i) => if f.readOnly then none else some (i, o + x.2 - f.viewOff, x.1)
    | none => none

/-- The kept fields: the touched fields that hold kept bytes, in ascending index (R67). -/
def keptFields (fields : List FieldDesc) (o n : Nat) : List Nat :=
  ((touchedFields fields o n).filter fun x => !x.1.readOnly).map (·.2)

/-- The HOLE or PROTECT record of a write, when it is hole- or protect-touching (R20, R66, R67). -/
def writeRecord (fields : List FieldDesc) (t : Txn) (d : Decode) (n : Nat) (action : ExcAction) :
    Option ExcRecord :=
  let record := fun (kind : ExcKind) (field : Option Nat) =>
    { seq := 0, kind, action, path := .write, window := d.window, record := some d.record, field,
      viewAddr := some t.req.addr, tag := some t.req.tag, detail := none : ExcRecord }
  if holeTouching fields d.offset n then some (record .hole none)
  else (protectField fields d.offset n).map fun i => record .protect (some i)

/-- The key of a field of the decoded record. -/
def Decode.key (d : Decode) (field : Nat) : Key :=
  { window := d.window, record := d.record, field }

/-- The state of the entry that holds a key, none when no entry does. -/
def State.stageOf (s : State) (k : Key) : Option Stage := (s.entryFor k).map (·.2.1)

/-- An entry opens for a field (R69): the lowest FREE entry; nothing when a GATHERING entry already
holds the field. -/
def State.openEntry (s : State) (k : Key) : State :=
  match s.entryFor k, s.lowestFree with
  | none, some g =>
    { s with
      entries := s.entries.set g
        { openOrder := s.openCounter, fault := false
          slot := .held .gathering
            { key := k, bytes := List.replicate (s.descOf k).viewLen none, base := none, age := 0,
              confirm := [], rank := none, opsLeft := 0, got := [], failed := false } }
      openCounter := s.openCounter + 1
      openList := s.openList ++ [g] }
  | some _, _ | none, none => s

/-- A change to the members of the entry that holds a key. -/
def State.editEntry (s : State) (k : Key) (edit : Gather → Gather) : State :=
  match s.entryFor k with
  | some (g, stage, b) => s.setSlot g (.held stage (edit b))
  | none => s

/-- A kept byte is placed in the entry of its field and joins the written set (R69). -/
def State.placeByte (s : State) (k : Key) (pos : Nat) (b : Byte) : State :=
  s.editEntry k fun e => { e with bytes := e.bytes.set pos (some b) }

/-- The GATHERING entries of the keys whose written set is whole, in open order (R71). -/
def State.completed (s : State) (keys : List Key) : List (Fin 8) :=
  s.openList.filter fun g => match s.entries[g].slot with
    | .held .gathering b => keys.contains b.key && b.whole
    | .held .merging _ | .held .converting _ | .held .writing _ | .free => false

/-- The acknowledge of a dispatched write (R70). -/
def State.acknowledge (s : State) (t : Txn) (d : Decode) (keys : List Key) : State :=
  match s.windows[d.window].cfg.ack with
  | .posted => s.answer t.id .okay []
  | .confirmed =>
    let listed := keys.foldl
      (fun s k => s.editEntry k fun e => { e with confirm := e.confirm ++ [t.id] }) s
    listed.setTxn t.id (.waiting (.windowWrite d.window keys.length false))

/-- The dispatch of a write with kept bytes: entries open, bytes are placed, the DISCARDED record is
logged, the response state is set, completed entries are flushed (R69 to R71). -/
def State.dispatchWrite (s : State) (t : Txn) (d : Decode) (data : List Byte) : State :=
  let fields := s.fieldsOf d.window
  let keys := (keptFields fields d.offset data.length).map d.key
  let opened := keys.foldl State.openEntry s
  let placed := (keptBytes fields d.offset data).foldl
    (fun s x => s.placeByte (d.key x.1) x.2.1 x.2.2) opened
  let logged := placed.handOverAll (writeRecord fields t d data.length .discarded).toList
  let answered := logged.acknowledge t d keys
  { answered.startFlushes (answered.completed keys) with
    disp := .idle, reoffer := false }

/-- The shortfall of a write that waits (R68). -/
def State.shortfall (s : State) (keys : List Key) : Nat :=
  (keys.filter fun k => s.stageOf k != some .gathering).length
    - s.countEntries Entry.isFree - s.countEntries Entry.isFlushing

/-- Whether a write with these kept keys can be dispatched (R68). -/
def State.canDispatch (s : State) (keys : List Key) : Bool :=
  (keys.all fun k => match s.stageOf k with
    | some .gathering | none => true
    | some .merging | some .converting | some .writing => false)
    && decide ((keys.filter fun k => s.stageOf k != some .gathering).length
      ≤ s.countEntries Entry.isFree)

/-- A write waits: the oldest GATHERING entries not keyed to its kept fields are evicted, as many as
the shortfall (R68). -/
def State.waitWrite (s : State) (keys : List Key) : State :=
  let victims := (s.gatheringWhere fun k => !keys.contains k).take (s.shortfall keys)
  { s.startFlushes victims with disp := .blocked .gatherBuffer, reoffer := false }

/-- The offer of a window WRITE (R66 to R68). -/
def State.offerWrite (s : State) (t : Txn) (d : Decode) (data : List Byte) : State :=
  let fields := s.fieldsOf d.window
  let keys := (keptFields fields d.offset data.length).map d.key
  match s.windows[d.window].cfg.policy, writeRecord fields t d data.length .faulted with
  | .strict, some r => { (s.handOver r).answer t.id .error [] with disp := .idle }
  | .strict, none | .substitute, _ =>
    if keys.isEmpty then
      let logged := s.handOverAll (writeRecord fields t d data.length .discarded).toList
      { logged.answer t.id .okay [] with disp := .idle }
    else if s.canDispatch keys then s.dispatchWrite t d data
    else s.waitWrite keys

end Sys2Proof.Machine
end

