-- ==== Sys2Proof/Machine/Reads.lean ====
section
/-! DEFINITION. A window READ at an offer: the service of each field, the snapshot, the response image
and the field reads (05_reads_through_a_window.md, R88 to R92). -/

namespace Sys2Proof.Machine

/-- The touched part of a field: the positions [lo, hi) (R16). -/
def touchedPart (f : FieldDesc) (o n : Nat) : List Nat :=
  let lo := max o f.viewOff - f.viewOff
  let hi := min (o + n) (f.viewOff + f.viewLen) - f.viewOff
  (List.range hi).drop lo

/-- The written set holds every one of the positions (R88). -/
def Gather.holds (b : Gather) (positions : List Nat) : Bool :=
  positions.all fun p => (b.bytes.getD p none).isSome

/-- The snapshot: every position of the written set with its byte (R91). -/
def Gather.snapshot (b : Gather) : List (Nat × Byte) :=
  b.bytes.zipIdx.filterMap fun x => x.1.map fun byte => (x.2, byte)

/-- Some touched field has a flushing entry: the service Wait (R88, R89). -/
def State.readWaits (s : State) (d : Decode) (n : Nat) : Bool :=
  (touchedFields (s.fieldsOf d.window) d.offset n).any fun x => match s.stageOf (d.key x.2) with
    | some .merging | some .converting | some .writing => true
    | some .gathering | none => false

/-- The memory field of a touched field: none when the field has entry service (R88, R90). -/
def State.memField? (s : State) (d : Decode) (n : Nat) (f : FieldDesc) (i : Nat) : Option MemField :=
  match s.entryFor (d.key i) with
  | some (g, _, b) =>
    if b.holds (touchedPart f d.offset n) then none
    else some { field := i, snapshot := b.snapshot, backfill := some (g, s.entries[g].openOrder),
                got := [], failed := false }
  | none => some { field := i, snapshot := [], backfill := none, got := [], failed := false }

/-- The memory fields of a read, in ascending field index (R88). -/
def State.memFields (s : State) (d : Decode) (n : Nat) : List MemField :=
  (touchedFields (s.fieldsOf d.window) d.offset n).filterMap fun x => s.memField? d n x.1 x.2

/-- The response byte at record offset `off` as far as the dispatch decides it: the hole fill byte, the
view image byte of a field with entry service, or none (R90). -/
def State.imageByte (s : State) (d : Decode) (mem : List MemField) (off : Nat) : Option Byte :=
  match ownerOf (s.fieldsOf d.window) off with
  | none => some s.windows[d.window].cfg.holeFill
  | some (f, i) =>
    if mem.any fun m => m.field == i then none
    else match s.entryFor (d.key i) with
      | some (_, _, b) => some ((b.bytes.getD (off - f.viewOff) none).getD 0)
      | none => none

/-- The field read of a memory field (R92). -/
def State.fieldReadOps (s : State) (t : Txn) (d : Decode) (m : MemField) : List MemOp :=
  let k := d.key m.field
  splitOps .mread (s.storeAddrOf k) (s.descOf k).storeLen [] fun half => .windowRead t.id m.field half

/-- The offer of a window READ: it waits behind a flushing entry, or is dispatched and requests its
first field read (R89 to R92). -/
def State.offerRead (s : State) (t : Txn) (d : Decode) (n : Nat) : State :=
  if s.readWaits d n then { s with disp := .blocked .readPath }
  else
    let mem := s.memFields d n
    let image := (List.range n).map fun k => s.imageByte d mem (d.offset + k)
    match mem.map (s.fieldReadOps t d) with
    | [] => { s.answer t.id .okay (image.map (·.getD 0)) with disp := .idle }
    | first :: rest =>
      let ctx : ReadCtx :=
        { window := d.window, record := d.record, offset := d.offset, size := n, image,
          fields := mem, opsLeft := (first :: rest).flatten.length }
      ({ s.setTxn t.id (.waiting (.windowRead ctx)) with disp := .issuing t.id rest }).requestUnit
        .dispatcher first

end Sys2Proof.Machine
end

