-- ==== Sys2Proof/Machine/Offer.lean ====
section
/-! DEFINITION. The dispatcher's offer: check, classification, held requests, pass-through and FENCE
(06_processor_side_port_and_transaction_order.md, R109 to R118). -/

namespace Sys2Proof.Machine

/-- A request to a DRAINING or SUSPENDED window: HOLDING, with the timer started at 0 or, when the
request is still held, running on (R114, R167). -/
def State.offerHeld (s : State) : State :=
  match s.disp with
  | .holding _ => s
  | .idle | .blocked _ | .issuing _ _ => { s with disp := .holding 0 }

/-- The operation of a pass-through: the same address, size and data (R115). -/
def passThroughOp (t : Txn) : MemOp :=
  match t.req with
  | .read a n _ =>
    { kind := .mread, addr := a.toNat, size := n, data := [], source := .passThrough t.id }
  | .write a data _ =>
    { kind := .mwrite, addr := a.toNat, size := data.length, data, source := .passThrough t.id }
  | .fence _ => { kind := .mread, addr := 0, size := 0, data := [], source := .nobody }

/-- The offer of a pass-through: it waits while an entry overlaps, whose GATHERING ones are flushed
(R116), and is dispatched otherwise (R115). -/
def State.offerPassThrough (s : State) (t : Txn) : State :=
  let a := t.req.addr
  let n := t.req.size
  if s.anyOverlapped a n then
    { s.startFlushes (s.gatheringWhere (s.overlaps a n)) with
      disp := .blocked .rawOverlap, reoffer := false }
  else
    ({ s.setTxn t.id (.waiting .passThrough) with disp := .issuing t.id [] }).requestUnit
      .dispatcher [passThroughOp t]

/-- The last MWRITE issued to memory and not yet completed (R118). -/
def State.lastMwrite (s : State) : Option Nat :=
  (s.outstanding.reverse.find? fun i => i.op.kind == .mwrite).map (·.id)

/-- The dispatch of a FENCE: every GATHERING entry is flushed, the record is formed (R118). -/
def State.offerFence (s : State) (t : Txn) : State :=
  let flushed := s.startFlushes (s.gatheringWhere fun _ => true)
  let busy := (List.finRange 8).filter fun g => !flushed.entries[g].isFree
  { flushed.setTxn t.id (fenceState busy flushed.lastMwrite) with disp := .idle }

/-- A request that is not well formed is READY with ERROR, and nothing else happens (R111). -/
def State.answerMalformed (s : State) (t : Txn) : State :=
  { s.answer t.id .error [] with disp := .idle }

/-- A well-formed READ or WRITE, classified by its address and the window states (R112). -/
def State.offerAccess (s : State) (t : Txn) : State :=
  match s.decode t.req.addr with
  | none => s.offerPassThrough t
  | some d => match d.mode with
    | .draining | .suspended => s.offerHeld
    | .active => match t.req with
      | .read _ n _ => s.offerRead t d n
      | .write _ data _ => s.offerWrite t d data
      | .fence _ => s

/-- The offer of the next transaction (R109, R111, R112). -/
def State.offerNext (s : State) (t : Txn) : State :=
  match t.req with
  | .fence _ => s.offerFence t
  | .read _ _ _ | .write _ _ _ =>
    if wellFormedAccess t.req.addr t.req.size then s.offerAccess t else s.answerMalformed t

/-- The dispatcher presents its next transaction when an offer is due (R109, R110). -/
def State.offer (s : State) : State :=
  match s.nextTxn with
  | some t => if s.offerDue then { s with reoffer := false }.offerNext t else s
  | none => s

end Sys2Proof.Machine
end

