-- ==== Sys2Proof/Machine/Memory.lean ====
section
/-! DEFINITION. The memory queue: issue of units, arrival of completions
(07_memory_side_port_and_conversion_unit.md, R126 to R132; R75, R78, R81, R93, R94, R117). -/

namespace Sys2Proof

/-! ### The members of a completion (R126) -/

/-- The answer of a completion. -/
def Completion.answer : Completion → Machine.Answer
  | .okay _ => .okay
  | .error => .error

/-- The data of a completion. -/
def Completion.bytes : Completion → List Byte
  | .okay data => data
  | .error => []

end Sys2Proof

namespace Sys2Proof.Machine

/-! ### Issue (R129) -/

/-- Operations with the names they get at their issue. -/
def issuedFrom (id : Nat) : List MemOp → List Issued
  | [] => []
  | op :: rest => { id, op } :: issuedFrom (id + 1) rest

/-- The dispatcher's unit has been issued: the next unit of the window READ is requested, or the issue
phase ends (R92, R115, R128). -/
def State.afterDispatcherIssue (s : State) : State :=
  match s.disp with
  | .issuing id (ops :: rest) => { s with disp := .issuing id rest }.requestUnit .dispatcher ops
  | .issuing _ [] => { s with disp := .idle }
  | .idle | .blocked _ | .holding _ => s

/-- A unit is issued: its operations join the outstanding list, lower before upper (R129). -/
def State.issueUnit (s : State) (u : MemUnit) : State :=
  let t := { s with
    units := s.units.erase u
    outstanding := s.outstanding ++ issuedFrom s.opCounter u.ops
    opCounter := s.opCounter + u.ops.length }
  match u.owner with
  | .entry _ => t
  | .dispatcher => t.afterDispatcherIssue

/-- The first waiting unit is issued when it fits the free slots; no other unit is (R129). -/
def State.issue (s : State) : State :=
  match s.firstUnit with
  | some u => if u.ops.length ≤ s.freeSlots then s.issueUnit u else s
  | none => s

/-! ### Completions (R132) -/

/-- A completion of this operation: an MREAD's OKAY carries its size in bytes, everything else no data
(R126). -/
def MemOp.accepts (op : MemOp) (c : Completion) : Bool :=
  match c with
  | .error => true
  | .okay data => match op.kind with
    | .mread => data.length == op.size
    | .mwrite => data.isEmpty

/-- A record of a flush, on path MERGE or FLUSH: the key of its entry, no view address, no tag (R144). -/
def flushRecord (k : Key) (kind : ExcKind) (action : ExcAction) (path : ExcPath)
    (detail : Option (Nat × Byte)) : ExcRecord :=
  { seq := 0, kind, action, path, window := k.window, record := some k.record,
    field := some k.field, viewAddr := none, tag := none, detail }

/-- The last merge read has completed: the FLUSH job with its merge input waits for its place, or the
flush faults (R75, R81). -/
def State.mergeDone (s : State) (g : Fin 8) (b : Gather) : State :=
  if b.failed then
    (s.handOver (flushRecord b.key .memErr .faulted .merge none)).freeEntry g .error
  else
    (s.setSlot g (.held .converting { b with got := [] })).awaitPlacement
      (.flush g s.entries[g].openOrder b.key b.bytes none (some b.got))

/-- The last field write has completed: the flush ends OKAY or faults (R78, R81). -/
def State.writeDone (s : State) (g : Fin 8) (b : Gather) : State :=
  if b.failed then
    (s.handOver (flushRecord b.key .memErr .faulted .flush none)).freeEntry g .error
  else s.freeEntry g .okay

/-- A completion of an entry's operation: kept until the last of the unit has arrived (R75, R78, R81). -/
def State.entryCompletion (s : State) (g : Fin 8) (c : Completion) : State :=
  match s.entries[g].slot with
  | .held stage b =>
    let kept := { b with
      opsLeft := b.opsLeft - 1, got := b.got ++ c.bytes
      failed := b.failed || c.answer == .error }
    if 1 < b.opsLeft then s.setSlot g (.held stage kept)
    else match stage with
      | .merging => s.mergeDone g kept
      | .writing => s.writeDone g kept
      | .gathering | .converting => s
  | .free => s

/-- What a completion adds to a memory field of a read (R93). -/
def MemField.keep (field : Nat) (c : Completion) (m : MemField) : MemField :=
  if m.field = field then
    { m with got := m.got ++ c.bytes, failed := m.failed || c.answer == .error }
  else m

/-- A record of the read path (R99). -/
def readRecord (ctxWindow : Fin 8) (record field viewAddr : Nat) (tag : Option Tag)
    (kind : ExcKind) (action : ExcAction) (detail : Option (Nat × Byte)) : ExcRecord :=
  { seq := 0, kind, action, path := .read, window := ctxWindow, record := some record,
    field := some field, viewAddr := some viewAddr, tag, detail }

/-- The READ job of a read whose field reads all completed with OKAY (R93, R136). -/
def ReadCtx.job (ctx : ReadCtx) (id : Nat) : Job :=
  .read id ctx.window ctx.record ctx.offset ctx.size ctx.fields

/-- A completion of a window READ's operation: the last one places the READ job or ends the read in
ERROR with one MEMERR record per failing field (R93, R94). -/
def State.readCompletion (s : State) (id field : Nat) (c : Completion) : State :=
  match s.txn? id with
  | none => s
  | some t => match t.state with
    | .waiting (.windowRead ctx) =>
      let kept := { ctx with
        fields := ctx.fields.map (MemField.keep field c), opsLeft := ctx.opsLeft - 1 }
      let updated := s.setTxn id (.waiting (.windowRead kept))
      if 1 < ctx.opsLeft then updated
      else if kept.fields.any (·.failed) then
        let failing := kept.fields.filter (·.failed)
        (s.handOverAll (failing.map fun m =>
          readRecord ctx.window ctx.record m.field t.req.addr (some t.req.tag) .memErr .faulted none)).answer
          id .error []
      else updated.awaitPlacement (kept.job id)
    | .waiting .passThrough | .waiting (.windowWrite _ _ _) | .waiting (.fence _ _) | .queued
    | .ready _ _ => s

/-- A completion goes to its operation's source (R132). -/
def State.route (s : State) (op : MemOp) (c : Completion) : State :=
  match op.source with
  | .entry g _ => s.entryCompletion g c
  | .windowRead id field _ => s.readCompletion id field c
  | .passThrough id => s.answer id c.answer c.bytes
  | .nobody => s

/-- Fence handling is told which MWRITE completed (R119, R132). -/
def State.fenceTold (s : State) (i : Issued) : State :=
  match i.op.kind with
  | .mwrite => { s with txns := s.txns.map (Txn.fenceWritten i.id) }
  | .mread => s

/-- A completion arrives (R126, R132): none is taken while RST_N is asserted, one that finds nothing
outstanding is discarded, any other is matched to the oldest outstanding operation. -/
def State.complete (s : State) (c : Completion) : State :=
  if s.rstLow then s
  else match s.outstanding with
    | [] => s
    | i :: rest =>
      if i.op.accepts c then (({ s with outstanding := rest }).route i.op c).fenceTold i
      else s

end Sys2Proof.Machine
end

