-- ==== Sys2Proof/Machine/Jobs.lean ====
section
/-! DEFINITION. The conversion unit: placement, start and end of jobs
(07_memory_side_port_and_conversion_unit.md, R137 to R139; R76 to R80, R95 to R100). -/

namespace Sys2Proof.Machine

/-- The first job that waits for a place takes it, behind every job already queued (R137). -/
def State.placeJob (s : State) : State :=
  match s.toPlace with
  | j :: rest =>
    if s.jobs.length < Config.maxJobs then { s with jobs := s.jobs ++ [j], toPlace := rest } else s
  | [] => s

/-- The IDLE unit takes the oldest queued job and becomes RUNNING (R138). -/
def State.startJob (s : State) : State := if s.startDue then { s with running := true } else s

/-! ### The end of a FLUSH job (R76 to R80) -/

/-- The composite view image: written positions from the view image, the others from the base (R76). -/
def composite (bytes : List (Option Byte)) (base : Option (List Byte)) : List Byte :=
  bytes.zipIdx.map fun x => x.1.getD ((base.getD []).getD x.2 0)

/-- The entry goes to WRITING and requests its field write (R77). -/
def State.beginWrite (s : State) (g : Fin 8) (base : Option (List Byte)) (store : List Byte) :
    State :=
  match s.entries[g].slot with
  | .held _ b => s.requestFieldUnit g .writing .mwrite store { b with base }
  | .free => s

/-- The forward step and what its outcome decides (R76, R77, R79). -/
def State.forwardStep (s : State) (g : Fin 8) (k : Key) (bytes : List (Option Byte))
    (base : Option (List Byte)) : State :=
  let cfg := s.windows[k.window].cfg
  let out := s.convertForward cfg (s.descOf k) (composite bytes base)
  match out.exc, cfg.policy with
  | none, _ => s.beginWrite g base out.result
  | some (kind, detail), .strict =>
    (s.handOver (flushRecord k kind .faulted .flush detail)).freeEntry g .error
  | some (kind, detail), .substitute =>
    (s.handOver (flushRecord k kind .substituted .flush detail)).beginWrite g base out.result

/-- The steps of a FLUSH job at its end: the reverse step of the merge input, if there is one, then the
forward step (R76, R80). -/
def State.finishFlush (s : State) (g : Fin 8) (k : Key) (bytes : List (Option Byte))
    (base merge : Option (List Byte)) : State :=
  let cfg := s.windows[k.window].cfg
  match merge with
  | none => s.forwardStep g k bytes base
  | some store =>
    let rev := s.convertReverse cfg (s.descOf k) store
    match rev.exc, cfg.policy with
    | none, _ => s.forwardStep g k bytes (some rev.result)
    | some (kind, detail), .strict =>
      (s.handOver (flushRecord k kind .faulted .merge detail)).freeEntry g .error
    | some (kind, detail), .substitute =>
      (s.handOver (flushRecord k kind .substituted .merge detail)).forwardStep g k bytes
        (some rev.result)

/-- The entry is CONVERTING in the opening the job belongs to (R135). -/
def State.converts (s : State) (g : Fin 8) (opening : BitVec 32) : Bool :=
  s.entries[g].openOrder == opening && match s.entries[g].slot with
    | .held .converting _ => true
    | .held .gathering _ | .held .merging _ | .held .writing _ | .free => false

/-- The running FLUSH job ends (R77, R139): it leaves the queue, the unit becomes IDLE, and the gather
buffer acts on its outcomes. -/
def State.endFlushJob (s : State) : State :=
  match s.running, s.jobs with
  | true, .flush g opening k bytes base merge :: rest =>
    let t := { s with jobs := rest, running := false }
    if s.converts g opening then t.finishFlush g k bytes base merge else t
  | true, .read _ _ _ _ _ _ :: _ | true, [] | false, _ => s

/-! ### The end of a READ job (R95 to R100) -/

/-- A memory field with the outcome of its reverse conversion (R95). -/
abbrev FieldOutcome := MemField × ConvOutcome

/-- The conversions of a READ job, in ascending field index (R95). -/
def State.readOutcomes (s : State) (w : Fin 8) (fields : List MemField) : List FieldOutcome :=
  fields.map fun m => (m, s.convertReverse s.windows[w].cfg (s.fieldDesc w m.field) m.got)

/-- The read result of a field: its outcome's result under the snapshot (R96). -/
def FieldOutcome.overlaid (x : FieldOutcome) : List Byte :=
  x.1.snapshot.foldl (fun image p => image.set p.1 p.2) x.2.result

/-- The response byte at a record offset that the dispatch left open: the read result byte at its
field position (R96). -/
def assembledByte (fields : List FieldDesc) (outs : List FieldOutcome) (off : Nat) : Byte :=
  match ownerOf fields off with
  | none => 0
  | some (f, i) => match outs.find? fun x => x.1.field == i with
    | some x => x.overlaid.getD (off - f.viewOff) 0
    | none => 0

/-- The response image of a read at the end of its job (R96). -/
def assemble (fields : List FieldDesc) (ctx : ReadCtx) (outs : List FieldOutcome) : List Byte :=
  ctx.image.zipIdx.map fun x => x.1.getD (assembledByte fields outs (ctx.offset + x.2))

/-- The records of a READ job: one per field with an exception, in ascending field index (R97, R98). -/
def readJobRecords (policy : Policy) (w : Fin 8) (record viewAddr : Nat) (tag : Option Tag)
    (outs : List FieldOutcome) : List ExcRecord :=
  outs.filterMap fun x => x.2.exc.map fun e =>
    readRecord w record x.1.field viewAddr tag e.1
      (match policy with | .strict => .faulted | .substitute => .substituted) e.2

/-- A backfill offered to an entry: it becomes the base image of the same opening when the entry is
GATHERING and has none (R83). -/
def State.backfill (s : State) (g : Fin 8) (opening : BitVec 32) (image : List Byte) : State :=
  match s.entries[g].slot with
  | .held .gathering b =>
    if s.entries[g].openOrder = opening ∧ b.base.isNone then
      s.setSlot g (.held .gathering { b with base := some image })
    else s
  | .held .merging _ | .held .converting _ | .held .writing _ | .free => s

/-- The backfill of one memory field: offered when the read recorded an entry and the outcome has no
exception (R100). -/
def State.offerBackfill (s : State) (x : FieldOutcome) : State :=
  match x.1.backfill, x.2.exc with
  | some (g, opening), none => s.backfill g opening x.2.result
  | some _, some _ | none, _ => s

/-- The answer of a READ job (R96 to R98): ERROR under STRICT with an exception, OKAY with the image
otherwise; discarded when the transaction is gone (R101). -/
def State.answerRead (s : State) (id : Nat) (policy : Policy) (fields : List FieldDesc)
    (outs : List FieldOutcome) : State :=
  match s.txn? id with
  | none => s
  | some t => match t.state with
    | .waiting (.windowRead ctx) =>
      if policy = .strict ∧ (outs.any fun x => x.2.exc.isSome) then s.answer id .error []
      else s.answer id .okay (assemble fields ctx outs)
    | .waiting .passThrough | .waiting (.windowWrite _ _ _) | .waiting (.fence _ _) | .queued
    | .ready _ _ => s

/-- The request address of a READ job's read, from its decode (R4, R99, log entry 16). -/
def State.readAddr (s : State) (w : Fin 8) (record offset : Nat) : Nat :=
  s.windows[w].cfg.viewBase + record * s.windows[w].status.viewSize + offset

/-- What the read path does at the end of a READ job: records, response, backfills (R96 to R100). -/
def State.finishRead (s : State) (id : Nat) (w : Fin 8) (record offset : Nat)
    (fields : List MemField) : State :=
  let policy := s.windows[w].cfg.policy
  let outs := s.readOutcomes w fields
  let logged := s.handOverAll (readJobRecords policy w record (s.readAddr w record offset)
    ((s.txn? id).map (·.req.tag)) outs)
  outs.foldl State.offerBackfill (logged.answerRead id policy (s.fieldsOf w) outs)

/-- The running READ job ends (R96, R139). -/
def State.endReadJob (s : State) : State :=
  match s.running, s.jobs with
  | true, .read id w record offset _ fields :: rest =>
    ({ s with jobs := rest, running := false }).finishRead id w record offset fields
  | true, .flush _ _ _ _ _ _ :: _ | true, [] | false, _ => s

end Sys2Proof.Machine
end

