-- ==== Sys2Proof/Machine/Timers.lean ====
section
/-! DEFINITION. The tick and what it can bring: age triggers, hold expiry; the end of a drain; and the
internal steps that are due (R64, R65, R129, R137, R138, R164, R168). -/

namespace Sys2Proof.Machine

/-- A GATHERING entry's age rises by one and stops at 255 (R65). -/
def Entry.tick (e : Entry) : Entry :=
  match e.slot with
  | .held .gathering b => { e with slot := .held .gathering { b with age := min 255 (b.age + 1) } }
  | .held .merging _ | .held .converting _ | .held .writing _ | .free => e

/-- The hold timer rises by one (R108, R167). -/
def Disp.tick (d : Disp) : Disp :=
  match d with
  | .holding timer => .holding (timer + 1)
  | .idle | .blocked _ | .issuing _ _ => d

/-- A microsecond tick at every timer (R64): ages, the hold timer, and the divider that governs the
next interval. R64 gives the blocks no order: that the ages rise before the offer that follows a hold
expiry of the same tick, so that an entry it opens stays at age 0, is the model's choice (DESIGN CHOICE,
log entry 26). -/
def State.tickTimers (s : State) : State :=
  { s with entries := s.entries.map Entry.tick, disp := s.disp.tick, tickInterval := s.tickDivider }

/-- The age triggers of a tick, one event, in open order (R65). -/
def State.triggerAges (s : State) : State := s.startFlushes s.aged

/-- The HELD record of a held request (R146). -/
def heldRecord (t : Txn) (w : Fin 8) : ExcRecord :=
  { seq := 0, kind := .held, action := .faulted, path := .hold, window := w, record := none,
    field := none, viewAddr := some t.req.addr, tag := some t.req.tag, detail := none }

/-- The expiry of the hold timer: the held request is READY with ERROR, one HELD record is handed over,
the dispatcher leaves HOLDING (R168). The offer that follows is still to be made when a QUEUED
transaction remains: a window command that comes with the expiry acts before it (R169). -/
def State.expireHold (s : State) : State :=
  match s.expired with
  | some (t, w) =>
    let u : State := { (s.handOver (heldRecord t w)).answer t.id .error [] with disp := .idle }
    { u with reoffer := u.nextTxn.isSome }
  | none => s

/-- A window that is not OFF takes a mode; its activation sizes stay (R3, R160). -/
def Window.withMode (w : Window) (mode : LiveMode) : Window :=
  match w.status with
  | .live _ va sa => { w with status := .live mode va sa }
  | .off => w

/-- A window changes mode. -/
def State.setMode (s : State) (w : Fin 8) (mode : LiveMode) : State :=
  { s with windows := s.windows.set w (s.windows[w].withMode mode) }

/-- A DRAINING window whose drain condition holds becomes SUSPENDED, which is a window state change
(R164). -/
def State.completeDrain (s : State) (w : Fin 8) : State :=
  if s.drainDue w then (s.setMode w .suspended).noteWindowChange else s

/-! ### The internal steps due (log entry 1) -/

/-- The dispatcher's side of a tick: the hold expiry, and the offer that follows it (R168). -/
def State.dispatcherStep (s : State) : State := if s.expired.isSome then s.expireHold else s.offer

/-- At a tick that reaches both the gather buffer and the dispatcher, the age triggers and the
dispatcher's side come without any order among them (R64): the free value chooses (log entry 7). -/
def State.timerStep (s : State) : State :=
  let t := { s with freeCount := s.freeCount + 1 }
  if Config.dispatcherFirst s.freeCount then t.dispatcherStep else t.triggerAges

/-- One internal step that is due, none when the part is quiet. With `heldBack`, the offer that follows a
hold expiry is left to be made later (R169). -/
def State.internalStep (heldBack : Bool) (s : State) : Option State :=
  if s.placementDue then some s.placeJob
  else if s.startDue then some s.startJob
  else if s.issueDue then some s.issue
  else match (List.finRange 8).find? s.drainDue with
  | some w => some (s.completeDrain w)
  | none =>
    let dispatcherDue := s.expired.isSome || (s.offerDue && !(heldBack && s.followsExpiry))
    if s.aged.isEmpty then if dispatcherDue then some s.dispatcherStep else none
    else if dispatcherDue then some s.timerStep
    else some s.triggerAges

/-- At most n internal steps, for as long as one is due. -/
def State.settleWithin (heldBack : Bool) : Nat → State → State
  | 0, s => s
  | n + 1, s => match s.internalStep heldBack with
    | some t => t.settleWithin heldBack n
    | none => s

/-- The internal steps that the events so far have made due take place (log entry 1): every command
from outside finds the part settled. -/
def State.settle (s : State) : State := s.settleWithin false Config.settleBound

/-- The part as ACTIVATE, SUSPEND and DEACTIVATE find it: settled, but for an offer that follows a hold
expiry. The command comes with the expiry, and the next transaction is offered under the window states
that the command leaves (R169, log entry 24). -/
def State.settleToExpiry (s : State) : State :=
  let t := s.settleWithin true Config.settleBound
  { t with reoffer := t.reoffer && !t.followsExpiry }

end Sys2Proof.Machine
end

