-- ==== Sys2Proof/Machine/Traffic.lean ====
section
/-! DEFINITION. The meanings of the traffic rows: the P-port, the timers, the memory queue, the drain
and the conversion unit. An event from outside finds the part settled; an internal step acts alone
(log entry 1). An event that cannot take place changes nothing (log entry 2). -/

namespace Sys2Proof.Machine

/-- The outcome of a command of this part. -/
abbrev Result := Host.Outcome State Fault Refusal

/-- A request offered by the master stands behind those offered before it and is taken at once when the
part takes requests (R106, R123, log entry 4). -/
def State.offerRequest (s : State) (r : Request) : State :=
  { s with offers := s.offers ++ [r] }.takeOffers

/-- REQUEST_TAKEN (R106). -/
def execRequestTaken (r : Request) (s : State) : Result := .next (s.settle.offerRequest r)

/-- The master takes the released response: the transaction is removed, and an offer that waits for
room is taken (R106, R107). -/
def State.takeResponse (s : State) : State :=
  match s.released with
  | some _ => { s with txns := s.txns.tail }.takeOffers
  | none => s

/-- RESPONSE_TAKEN (R107). -/
def execResponseTaken (s : State) : Result := .next s.settle.takeResponse

/-- DISPATCHER_OFFER (R109). -/
def execDispatcherOffer (s : State) : Result := .next s.offer

/-- TICK (R64). -/
def execTick (s : State) : Result := .next s.settle.tickTimers

/-- AGE_TRIGGER (R65). -/
def execAgeTrigger (s : State) : Result := .next s.triggerAges

/-- HOLD_EXPIRY (R168). -/
def execHoldExpiry (s : State) : Result := .next s.expireHold

/-- UNIT_ISSUE (R129). -/
def execUnitIssue (s : State) : Result := .next s.issue

/-- COMPLETION (R132). -/
def execCompletion (c : Completion) (s : State) : Result := .next (s.settle.complete c)

/-- DRAIN_COMPLETE (R164). -/
def execDrainComplete (w : Fin 8) (s : State) : Result := .next (s.completeDrain w)

/-- JOB_PLACEMENT (R137). -/
def execJobPlacement (s : State) : Result := .next s.placeJob

/-- JOB_START (R138). -/
def execJobStart (s : State) : Result := .next s.startJob

/-- FLUSH_JOB_END (R77). -/
def execFlushJobEnd (s : State) : Result := .next s.settle.endFlushJob

/-- READ_JOB_END (R96). -/
def execReadJobEnd (s : State) : Result := .next s.settle.endReadJob

end Sys2Proof.Machine
end

