-- ==== Sys2Proof/WellFormed.lean ====
section
/-! DEFINITION. Which commands a sender can form: the limits of the frame and of the channels that
the operand types do not already carry. -/

namespace Sys2Proof

/-- The command codes of R182's table. -/
def commandCodes : List Byte :=
  [0x01, 0x02, 0x10, 0x11, 0x12, 0x13, 0x14, 0x20, 0x21, 0x22, 0x23, 0x24, 0x30, 0x31, 0x32,
   0x38, 0x39, 0x3A, 0x40, 0x48, 0x49, 0x4A, 0x50, 0x5F, 0x7E]

/-- A frame's payload fits the receiver (R178). -/
def payloadFits (payload : List Byte) : Bool := decide (payload.length ≤ Config.maxPayload)

/-- A command that its sender can form: a payload a frame can carry, a code that names no command
for UNKNOWN, at least one byte for a bad frame, at most 32 bytes in a completion. -/
def Instr.wellFormed : Instr → Bool
  | .requestTaken _ => true
  | .completion (.okay data) => decide (data.length ≤ Config.blockSize)
  | .completion .error => true
  | .badFrame bytes _ => !bytes.isEmpty
  | .unknown code payload => !commandCodes.contains code && payloadFits payload
  | .resultFetch p | .status p | .setGlobal p | .windowWrite p | .windowRead p | .activate p
  | .suspend p | .deactivate p | .layoutBegin p | .fieldAppend p | .layoutCommit p
  | .layoutErase p | .layoutRead p | .tableLoad p | .tableErase p | .tableRead p
  | .programLoad p | .programErase p | .programRead p | .gatherRead p | .logTake p
  | .logPeek p | .logClear p | .flushAll p | .clear p => payloadFits p
  | .responseTaken | .dispatcherOffer | .tick | .ageTrigger | .holdExpiry | .unitIssue
  | .drainComplete _ | .jobPlacement | .jobStart | .flushJobEnd | .readJobEnd
  | .tableBuildComplete | .busReset | .busResetRelease | .powerOnReset | .powerOnResetRelease
  | .chipSelectPeriodBegin | .byteComplete _ | .emptyPeriodRelease => true

end Sys2Proof
end

