-- ==== Sys2Proof/Machine/Port.lean ====
section
/-! DEFINITION. The maintenance port: chip-select periods, bytes, bad and unknown frames, RESULT-FETCH,
STATUS and SET-GLOBAL (10_maintenance_port.md, R176 to R184). -/

namespace Sys2Proof.Machine

/-! ### Chip-select periods and bytes (R177, R178, R180, R195) -/

/-- The bytes a RESULT-FETCH reads out: result code, command code, refused count, length, data,
checksum (R180). -/
def State.readOutBytes (s : State) : List Byte :=
  let body := [s.result.code.byte, s.result.command, toByte s.refusedCount]
    ++ beBytes 2 s.result.data.length ++ s.result.data
  body ++ [checksum body]

/-- The receiver at the begin of a period (R177). -/
def Receiver.fresh : Receiver := { state := .receiving, bytes := [], count := 0, readOut := [] }

/-- The state of a receiver that has just kept a byte (R178, R180): DISCARDING after byte 2 of a length
above 520, READOUT after byte 3 of a RESULT-FETCH with a good header, RECEIVING otherwise. -/
def headerState (bytes : List Byte) : RxState :=
  match bytes with
  | [_, hi, lo] => if Config.maxPayload < hi.toNat * 256 + lo.toNat then .discarding else .receiving
  | [code, hi, lo, check] =>
    if code = 0x7E ∧ hi = 0 ∧ lo = 0 ∧ byteSum [code, hi, lo, check] = 0 then .readout
    else .receiving
  | _ => .receiving

/-- A byte is completed (R177, R178, R180); a byte beyond the capacity puts the receiver in DISCARDING
(log entry 10). `copy` is what a RESULT-FETCH copies into its read-out. -/
def Receiver.take (r : Receiver) (b : Byte) (copy : List Byte) : Receiver :=
  match r.state with
  | .idle => r
  | .readout => { r with count := r.count + 1, readOut := r.readOut.tail }
  | .discarding => { r with count := r.count + 1 }
  | .receiving =>
    if r.bytes.length < Config.maxReceived then
      let bytes := r.bytes ++ [b]
      let state := headerState bytes
      { state, bytes, count := r.count + 1, readOut := if state = .readout then copy else [] }
    else { r with state := .discarding, count := r.count + 1 }

/-- The byte MSDO shifts out while the next byte comes in: a read-out byte in READOUT, 0xFF in the rest of
a frame (R177, R180) and in the rest of a period whose read-out RST_N has stopped (R195). In a period that
is no frame because it began while RST_N was asserted, the spec states no byte: 0xFF there is the model's
choice (DESIGN CHOICE, log entry 25). -/
def Receiver.shiftsOut (r : Receiver) : Byte :=
  match r.state with
  | .readout => r.readOut.headD 0xFF
  | .idle | .receiving | .discarding => 0xFF

/-- A falling edge of MCS_N: RECEIVING with no received bytes, or no frame at all while RST_N is asserted
(R177, R195). -/
def State.beginPeriod (s : State) : State :=
  if s.mcsLow then s
  else { s with mcsLow := true, msdo := [], receiver := if s.rstLow then .idle else .fresh }

/-- A byte of the period under way; MSCK edges while MCS_N is high are ignored (R177). -/
def State.takeByte (s : State) (b : Byte) : State :=
  if s.mcsLow then
    { s with receiver := s.receiver.take b s.readOutBytes
             msdo := s.msdo ++ [s.receiver.shiftsOut] }
  else s

/-- The release of a period in which no byte was completed (R177). -/
def State.endEmptyPeriod (s : State) : State :=
  if s.mcsLow ∧ s.receiver.count = 0 then { s with receiver := .idle, mcsLow := false } else s

/-- CHIP_SELECT_PERIOD_BEGIN (R177). -/
def execChipSelectPeriodBegin (s : State) : Result := .next s.settle.beginPeriod

/-- BYTE_COMPLETE (R178). -/
def execByteComplete (b : Byte) (s : State) : Result := .next (s.settle.takeByte b)

/-- EMPTY_PERIOD_RELEASE (R177). -/
def execEmptyPeriodRelease (s : State) : Result := .next s.settle.endEmptyPeriod

/-! ### Releases (R179 to R182) -/

/-- A bad frame of these bytes can be released now: by the period under way, or as a whole period
(log entry 6). -/
def State.presentsBad (s : State) (bytes : List Byte) (partialByte : Bool) : Bool :=
  !s.rstLow &&
    if s.mcsLow then
      s.receiver.verdict partialByte == .bad && s.receiver.count == bytes.length
        && s.receiver.bytes == bytes.take s.receiver.bytes.length
    else frameVerdict bytes partialByte == .bad

/-- The release of a bad frame: turned away while a build runs, BADFRAME with byte 0 as command code
otherwise (R179, R181). -/
def State.releaseBad (s : State) (bytes : List Byte) (partialByte : Bool) : State :=
  if s.presentsBad bytes partialByte then
    let t := s.endPeriod (List.replicate bytes.length 0xFF)
    if t.build.isSome then t.turnAway else t.putResult .badFrame (bytes.headD 0) []
  else s

/-- BAD_FRAME (R179). -/
def execBadFrame (bytes : List Byte) (partialByte : Bool) (s : State) : Result :=
  .next (s.settle.releaseBad bytes partialByte)

/-- The release of a good frame whose code names no command (R182). -/
def State.releaseUnknown (s : State) (code : Byte) (payload : List Byte) : State :=
  if commandCodes.contains code then s
  else s.releaseFrame code payload fun t => t.reply .unknown []

/-- UNKNOWN (R182). -/
def execUnknown (code : Byte) (payload : List Byte) (s : State) : Result :=
  .next (s.settle.releaseUnknown code payload)

/-- The release of a RESULT-FETCH: with a good header the refused count becomes 0 and the result buffer
stays (R180); with a payload it is a command of an unsuitable length (R182). -/
def State.releaseFetch (s : State) (payload : List Byte) : State :=
  if payload.isEmpty then
    if !s.rstLow && (!s.mcsLow || s.receiver.state == .readout) then
      { s.endPeriod (List.replicate 4 0xFF ++ s.readOutBytes) with refusedCount := 0 }
    else s
  else s.releaseFrame 0x7E payload fun t => t.reply .badArg []

/-- RESULT_FETCH (R180). -/
def execResultFetch (payload : List Byte) (s : State) : Result :=
  .next (s.settle.releaseFetch payload)

/-- The release of a good frame of a known command with a fixed payload length, at a settled part. -/
def State.command (s : State) (code : Byte) (payload : List Byte) (len : Nat)
    (run : State → State × CmdResult) : State :=
  s.settle.releaseFrame code payload (withLength payload len run)

/-! ### STATUS and SET-GLOBAL (R183, R184) -/

/-- The hold timer as STATUS shows it: 0xFFFF while absent (R183). -/
def Disp.timerShown : Disp → Nat
  | .holding timer => timer
  | .idle | .blocked _ | .issuing _ _ => 0xFFFF

/-- The 27 bytes of STATUS (R183). -/
def State.statusBytes (s : State) : List Byte :=
  [toByte s.tickDivider, flagByte s.alertEnable, flagByte s.alertLow]
    ++ s.windows.toList.map (fun w => w.status.byte)
    ++ [toByte s.txns.length, s.disp.byte, toByte (s.countEntries Entry.isFree),
        toByte (s.countEntries Entry.isGathering), toByte (s.countEntries Entry.isFlushing),
        toByte s.outstanding.length, toByte s.units.length, toByte s.jobs.length,
        flagByte s.running, toByte s.log.length, toByte s.dropped]
    ++ beBytes 2 s.seqCounter.toNat ++ [toByte s.freeDescriptors] ++ beBytes 2 s.disp.timerShown

/-- STATUS (R183). -/
def execStatus (payload : List Byte) (s : State) : Result :=
  .next (s.command 0x01 payload 0 fun t => t.reply .done t.statusBytes)

/-- SET-GLOBAL's two settings, when both pass (R184). -/
def State.setGlobal (s : State) (payload : List Byte) : State × CmdResult :=
  let divider := (byteAt payload 0).toNat
  match flagOf? (byteAt payload 1) with
  | some enable =>
    if 8 ≤ divider ∧ divider ≤ 250 then
      ({ s with tickDivider := divider, alertEnable := enable }).reply .done []
    else s.reply .badArg []
  | none => s.reply .badArg []

/-- SET_GLOBAL (R184). -/
def execSetGlobal (payload : List Byte) (s : State) : Result :=
  .next (s.command 0x02 payload 2 fun t => t.setGlobal payload)

end Sys2Proof.Machine
end

