-- ==== Sys2Proof/Machine/Windows.lean ====
section
/-! DEFINITION. The window commands and the drain (01_windows_and_record_layouts.md R2,
09_window_states_and_reconfiguration.md R160 to R166, R185, R186). -/

namespace Sys2Proof.Machine

/-- A command that names a window; an index above 7 gives BADARG with no data (R182). -/
def withWindow (payload : List Byte) (run : Fin 8 → State → State × CmdResult) (s : State) :
    State × CmdResult :=
  match indexOf? 8 (byteAt payload 0) with
  | some w => run w s
  | none => s.reply .badArg []

/-- WINDOW-WRITE on a window: state first, then the values, then every field at once (R2). -/
def State.writeWindow (payload : List Byte) (w : Fin 8) (s : State) : State × CmdResult :=
  if s.windows[w].isOff then
    match parseWindowCfg payload with
    | some cfg =>
      { s with windows := s.windows.set w { s.windows[w] with cfg := cfg } }.reply .done []
    | none => s.reply .badArg []
  else s.reply .badState []

/-- WINDOW_WRITE (R2). -/
def execWindowWrite (payload : List Byte) (s : State) : Result :=
  .next (s.command 0x10 payload 26 (withWindow payload (State.writeWindow payload)))

/-- WINDOW-READ of a window (R185). -/
def State.readWindow (w : Fin 8) (s : State) : State × CmdResult :=
  s.reply .done (windowReadBytes w s.windows[w])

/-- WINDOW_READ (R185). -/
def execWindowRead (payload : List Byte) (s : State) : Result :=
  .next (s.command 0x11 payload 1 (withWindow payload State.readWindow))

/-- The release of a frame that changes a window's state: it acts before an offer that follows a hold
expiry (R169). -/
def State.windowCommand (s : State) (code : Byte) (payload : List Byte)
    (run : Fin 8 → State → State × CmdResult) : State :=
  s.settleToExpiry.releaseFrame code payload (withLength payload 1 (withWindow payload run))

/-! ### ACTIVATE (R161, R162) -/

/-- How the candidate ranges of window w meet the latched ranges of window i: 0 not at all, 1 view
ranges, 2 store ranges, 3 both (R161 check 4, R186). -/
def State.overlapCode (s : State) (w : Fin 8) (va sa : Nat) (i : Fin 8) : Nat :=
  let c := s.windows[w].cfg
  let d := s.windows[i].cfg
  match s.windows[i].status with
  | .off => 0
  | .live _ va' sa' =>
    if i = w then 0
    else
      (if rangesMeet c.viewBase (c.viewEnd va) d.viewBase (d.viewEnd va') then 1 else 0)
        + (if rangesMeet c.storeBase (c.storeEnd sa) d.storeBase (d.storeEnd sa') then 2 else 0)

/-- The lowest window that overlaps the candidate ranges (R161 check 4). -/
def State.overlapping (s : State) (w : Fin 8) (va sa : Nat) : Option (Fin 8) :=
  (List.finRange 8).find? fun i => s.overlapCode w va sa i != 0

/-- The refusal of check 1: the layout's index, state, invalid reason and field (R161, R186). -/
def Layout.refusalData (l : Layout) (index : Fin 16) : List Byte :=
  match l with
  | .built (.invalid reason field) _ _ _ =>
    [toByte index.val, l.stateByte, reason.byte, optByte field]
  | .built .draft _ _ _ | .built .valid _ _ _ | .empty => [toByte index.val, l.stateByte, 0, 0xFF]

/-- Checks 2, 3, 4 and 5 of R161 on the candidate ranges: the refusal, none when all pass. -/
def State.rangeChecks (s : State) (w : Fin 8) (va sa : Nat) : Option CmdResult :=
  let c := s.windows[w].cfg
  if ¬ (1 ≤ c.recordCount ∧ c.viewEnd va ≤ 2 ^ 32 ∧ c.storeEnd sa ≤ 2 ^ 32) then
    some { code := .badArg, data := [2] }
  else if c.stride < sa then some { code := .badArg, data := [3] }
  else match s.overlapping w va sa with
  | some i =>
    some { code := .overlap, data := [toByte i.val, toByte (s.overlapCode w va sa i)] }
  | none =>
    if c.ack = .confirmed ∧ c.gatherTimeout = 0 then some { code := .badArg, data := [5] }
    else none

/-- The accepted ACTIVATE: activation sizes latched, ACTIVE, the dispatcher offers again (R162). -/
def State.makeActive (s : State) (w : Fin 8) (va sa : Nat) : State :=
  { s with windows := s.windows.set w { s.windows[w] with status := .live .active va sa } }.noteWindowChange

/-- The checks of ACTIVATE on an OFF or SUSPENDED window (R161). -/
def State.tryActivate (s : State) (w : Fin 8) : State × CmdResult :=
  let index := s.windows[w].cfg.layout
  let l := s.layouts[index]
  match l with
  | .built .valid va sa fields =>
    if (commitCheck s.tables s.programs va sa fields).isSome then
      s.reply .invalid (l.refusalData index)
    else match s.rangeChecks w va sa with
    | some refusal => s.reply refusal.code refusal.data
    | none => (s.makeActive w va sa).reply .done (beBytes 2 va ++ beBytes 2 sa)
  | .built .draft _ _ _ | .built (.invalid _ _) _ _ _ | .empty =>
    s.reply .invalid (l.refusalData index)

/-- ACTIVATE on a window (R161). -/
def State.activateWindow (w : Fin 8) (s : State) : State × CmdResult :=
  if s.windows[w].locks then s.reply .badState [] else s.tryActivate w

/-- ACTIVATE (R161). -/
def execActivate (payload : List Byte) (s : State) : Result :=
  .next (s.windowCommand 0x12 payload State.activateWindow)

/-! ### SUSPEND and DEACTIVATE (R163, R166) -/

/-- The accepted SUSPEND: DRAINING, the flush of the window's GATHERING entries, SUSPENDED at once when
the drain condition holds, and the offer under the new state (R163). -/
def State.beginDrain (s : State) (w : Fin 8) : State × CmdResult :=
  let victims := s.gatheringWhere fun k => k.window == w
  let flushed := (s.setMode w .draining).startFlushes victims
  let ended := if flushed.drained w then flushed.setMode w .suspended else flushed
  ended.noteWindowChange.reply .done [ended.windows[w].status.byte, toByte victims.length]

/-- SUSPEND on a window (R163). -/
def State.suspendWindow (w : Fin 8) (s : State) : State × CmdResult :=
  match s.windows[w].status with
  | .live .active _ _ => s.beginDrain w
  | .live .draining _ _ | .live .suspended _ _ | .off => s.reply .badState []

/-- SUSPEND (R163). -/
def execSuspend (payload : List Byte) (s : State) : Result :=
  .next (s.windowCommand 0x13 payload State.suspendWindow)

/-- DEACTIVATE on a window (R166). -/
def State.deactivateWindow (w : Fin 8) (s : State) : State × CmdResult :=
  match s.windows[w].status with
  | .off => s.reply .done []
  | .live .active _ _ | .live .draining _ _ => s.reply .badState []
  | .live .suspended _ _ =>
    { s with windows := s.windows.set w { s.windows[w] with status := .off } }.noteWindowChange.reply
      .done []

/-- DEACTIVATE (R166). -/
def execDeactivate (payload : List Byte) (s : State) : Result :=
  .next (s.windowCommand 0x14 payload State.deactivateWindow)

end Sys2Proof.Machine
end

