-- ==== Sys2Proof/Machine/Layouts.lean ====
section
/-! DEFINITION. The layout commands (01_windows_and_record_layouts.md R10 to R15; R187, R188). -/

namespace Sys2Proof.Machine

/-- The free-descriptor count as result data (R7, R187). -/
def State.freeByte (s : State) : Byte := toByte s.freeDescriptors

/-- A reply that carries the free-descriptor count after the command (R7, R187). -/
def State.replyFree (s : State) (code : ResultCode) : State × CmdResult := s.reply code [s.freeByte]

/-- A layout takes a record. -/
def State.setLayout (s : State) (l : Fin 16) (x : Layout) : State :=
  { s with layouts := s.layouts.set l x }

/-- LAYOUT-BEGIN (R11). -/
def State.beginLayout (payload : List Byte) (s : State) : State × CmdResult :=
  let va := numAt payload 1 2
  let sa := numAt payload 3 2
  match indexOf? 16 (byteAt payload 0) with
  | none => s.replyFree .badArg
  | some l =>
    if ¬ (8 ≤ va ∧ va ≤ 256 ∧ va % 8 = 0 ∧ 1 ≤ sa ∧ sa ≤ 256) then s.replyFree .badArg
    else if s.layoutInUse l then s.replyFree .busy
    else (s.setLayout l (.built .draft va sa [])).replyFree .done

/-- LAYOUT_BEGIN (R11). -/
def execLayoutBegin (payload : List Byte) (s : State) : Result :=
  .next (s.command 0x20 payload 5 (State.beginLayout payload))

/-- FIELD-APPEND (R10): index, DRAFT, well-formed descriptor, 24 in the layout, the pool. -/
def State.appendField (payload : List Byte) (s : State) : State × CmdResult :=
  match indexOf? 16 (byteAt payload 0) with
  | none => s.replyFree .badArg
  | some l => match s.layouts[l] with
    | .built .draft va sa fields => match parseDesc (payload.drop 1) with
      | none => s.replyFree .badArg
      | some f =>
        if Config.maxFields ≤ fields.length then s.replyFree .noSpace
        else if s.freeDescriptors = 0 then s.replyFree .noSpace
        else
          let t := s.setLayout l (.built .draft va sa (fields ++ [f]))
          t.reply .done [toByte fields.length, t.freeByte]
    | .built .valid _ _ _ | .built (.invalid _ _) _ _ _ | .empty => s.replyFree .badState

/-- FIELD_APPEND (R10). -/
def execFieldAppend (payload : List Byte) (s : State) : Result :=
  .next (s.command 0x21 payload 12 (State.appendField payload))

/-- LAYOUT-COMMIT (R12): VALID when every check of R13 passes, INVALID with the first that fails. -/
def State.commitLayout (payload : List Byte) (s : State) : State × CmdResult :=
  match indexOf? 16 (byteAt payload 0) with
  | none => s.reply .badArg []
  | some l => match s.layouts[l] with
    | .empty => s.reply .badState []
    | .built _ va sa fields => match commitCheck s.tables s.programs va sa fields with
      | none => (s.setLayout l (.built .valid va sa fields)).reply .done []
      | some (reason, field) =>
        (s.setLayout l (.built (.invalid reason field) va sa fields)).reply .invalid
          [reason.byte, optByte field]

/-- LAYOUT_COMMIT (R12). -/
def execLayoutCommit (payload : List Byte) (s : State) : Result :=
  .next (s.command 0x22 payload 1 (State.commitLayout payload))

/-- LAYOUT-ERASE (R14). -/
def State.eraseLayout (payload : List Byte) (s : State) : State × CmdResult :=
  match indexOf? 16 (byteAt payload 0) with
  | none => s.replyFree .badArg
  | some l =>
    if s.layoutInUse l then s.replyFree .busy else (s.setLayout l .empty).replyFree .done

/-- LAYOUT_ERASE (R14). -/
def execLayoutErase (payload : List Byte) (s : State) : Result :=
  .next (s.command 0x23 payload 1 (State.eraseLayout payload))

/-- LAYOUT-READ (R188). -/
def State.readLayout (payload : List Byte) (s : State) : State × CmdResult :=
  match indexOf? 16 (byteAt payload 0) with
  | none => s.reply .badArg []
  | some l => s.reply .done s.layouts[l].readBytes

/-- LAYOUT_READ (R188). -/
def execLayoutRead (payload : List Byte) (s : State) : Result :=
  .next (s.command 0x24 payload 1 (State.readLayout payload))

/-- A VALID layout checked again against the current tables and programs (R15). -/
def Layout.rechecked (tables : Vector CodeTable 4) (programs : Vector Program 32) (l : Layout) :
    Layout :=
  match l with
  | .built .valid va sa fields => match commitCheck tables programs va sa fields with
    | some (reason, field) => .built (.invalid reason field) va sa fields
    | none => l
  | .built .draft _ _ _ | .built (.invalid _ _) _ _ _ | .empty => l

/-- The recheck of every VALID layout that names a changed object (R15). -/
def State.recheck (s : State) (names : Layout → Bool) : State :=
  { s with layouts := s.layouts.map fun l =>
      if names l then l.rechecked s.tables s.programs else l }

end Sys2Proof.Machine
end

