-- ==== Sys2Proof/Machine/Tables.lean ====
section
/-! DEFINITION. The code table commands and the reverse-map build
(02_code_tables_and_field_conversions.md R22 to R28; R181, R189). -/

namespace Sys2Proof.Machine

/-- TABLE-LOAD (R23): index, markers, in use; then the build starts and the result is PENDING (R181). -/
def State.loadTable (payload : List Byte) (s : State) : State × CmdResult :=
  let parsed := parseEntries (payload.drop 1)
  match indexOf? 4 (byteAt payload 0) with
  | none => s.reply .badArg []
  | some t => match parsed.findIdx? (·.isNone) with
    | some v => s.reply .badArg [toByte v]
    | none =>
      if s.tableInUse t then s.reply .busy []
      else { s with build := some { table := t, entries := parsed.map fun (e : Option (Option Byte)) => Option.getD e none } }.reply
        .pending []

/-- TABLE_LOAD (R23). -/
def execTableLoad (payload : List Byte) (s : State) : Result :=
  .next (s.command 0x30 payload 513 (State.loadTable payload))

/-- A table takes contents, and the layouts that name it are rechecked (R15). -/
def State.setTable (s : State) (t : Fin 4) (x : CodeTable) : State :=
  { s with tables := s.tables.set t x }.recheck fun l => l.namesTable t

/-- TABLE-ERASE (R28). -/
def State.eraseTable (payload : List Byte) (s : State) : State × CmdResult :=
  match indexOf? 4 (byteAt payload 0) with
  | none => s.reply .badArg []
  | some t =>
    if s.tableInUse t then s.reply .busy []
    else if s.tables[t].isLoaded then (s.setTable t .empty).reply .done []
    else s.reply .done []

/-- TABLE_ERASE (R28). -/
def execTableErase (payload : List Byte) (s : State) : Result :=
  .next (s.command 0x31 payload 1 (State.eraseTable payload))

/-- TABLE-READ (R189). -/
def State.readTable (payload : List Byte) (s : State) : State × CmdResult :=
  match indexOf? 4 (byteAt payload 0) with
  | none => s.reply .badArg []
  | some t => s.reply .done s.tables[t].readBytes

/-- TABLE_READ (R189). -/
def execTableRead (payload : List Byte) (s : State) : Result :=
  .next (s.command 0x32 payload 1 (State.readTable payload))

/-- The completion of the build: the table takes its contents, the result buffer holds DONE with the load
report, the recheck runs (R24, R181). -/
def State.completeBuild (s : State) : State :=
  match s.build with
  | none => s
  | some b =>
    ({ s with build := none }.setTable b.table (.ofForward b.entries)).putResult .done 0x30
      (flagByte (isBijective b.entries) :: beBytes 2 (unreachedCount b.entries))

/-- TABLE_BUILD_COMPLETE (R24). -/
def execTableBuildComplete (s : State) : Result := .next s.settle.completeBuild

end Sys2Proof.Machine
end

