-- ==== Sys2Proof/Machine/Programs.lean ====
section
/-! DEFINITION. The edit program commands (03_edit_programs.md R45 to R47; R190). -/

namespace Sys2Proof.Machine

/-- A program takes contents, and the layouts that name it are rechecked (R15, R46). -/
def State.setProgram (s : State) (e : Fin 32) (x : Program) : State :=
  { s with programs := s.programs.set e x }.recheck fun l => l.namesProgram e

/-- BADARG of PROGRAM-LOAD with the first failing step, 0xFF when it is not one of checks 3 to 5
(R45, R190). -/
def State.replyStep (s : State) (step : Option Nat) : State × CmdResult :=
  s.reply .badArg [optByte step]

/-- The checks of R45 in their order, from the step list on, and the load (R46). -/
def State.loadSteps (e : Fin 32) (parsed : List (Option EditStep)) (s : State) : State × CmdResult :=
  match parsed.findIdx? (·.isNone) with
  | some i => s.replyStep (some i)
  | none =>
    let steps := parsed.filterMap id
    let digits := digitCount steps
    let outLen := outputLength steps
    if digits = 0 then s.replyStep none
    else if 19 < digits then s.replyStep none
    else if s.programInUse e then s.reply .busy []
    else (s.setProgram e (.loaded steps outLen digits)).reply .done [toByte outLen, toByte digits]

/-- PROGRAM-LOAD (R45): the step count is payload byte 1, and a count inside 1 to 16 with another
payload length gives BADARG with no data before any check of R45 (R182). -/
def State.loadProgram (payload : List Byte) (s : State) : State × CmdResult :=
  let count := (byteAt payload 1).toNat
  if payload.length < 2 then s.reply .badArg []
  else if 1 ≤ count ∧ count ≤ 16 ∧ payload.length ≠ 2 + 3 * count then s.reply .badArg []
  else match indexOf? 32 (byteAt payload 0) with
  | none => s.replyStep none
  | some e =>
    if ¬ (1 ≤ count ∧ count ≤ 16) then s.replyStep none
    else s.loadSteps e (parseSteps (payload.drop 2))

/-- PROGRAM_LOAD (R45). -/
def execProgramLoad (payload : List Byte) (s : State) : Result :=
  .next (s.settle.releaseFrame 0x38 payload (State.loadProgram payload))

/-- PROGRAM-ERASE (R47). -/
def State.eraseProgram (payload : List Byte) (s : State) : State × CmdResult :=
  match indexOf? 32 (byteAt payload 0) with
  | none => s.reply .badArg []
  | some e =>
    if s.programInUse e then s.reply .busy []
    else if s.programs[e].isLoaded then (s.setProgram e .empty).reply .done []
    else s.reply .done []

/-- PROGRAM_ERASE (R47). -/
def execProgramErase (payload : List Byte) (s : State) : Result :=
  .next (s.command 0x39 payload 1 (State.eraseProgram payload))

/-- PROGRAM-READ (R190). -/
def State.readProgram (payload : List Byte) (s : State) : State × CmdResult :=
  match indexOf? 32 (byteAt payload 0) with
  | none => s.reply .badArg []
  | some e => s.reply .done s.programs[e].readBytes

/-- PROGRAM_READ (R190). -/
def execProgramRead (payload : List Byte) (s : State) : Result :=
  .next (s.command 0x3A payload 1 (State.readProgram payload))

end Sys2Proof.Machine
end

