-- ==== Sys2Proof/Machine/LogCommands.lean ====
section
/-! DEFINITION. The commands on the gather buffer and on the log, FLUSH-ALL and CLEAR (R84, R152 to R154,
R173, R174, R191 to R193). -/

namespace Sys2Proof.Machine

/-- GATHER_READ (R84, R191). -/
def execGatherRead (payload : List Byte) (s : State) : Result :=
  .next (s.command 0x40 payload 0 fun t =>
    t.reply .done (t.entries.toList.flatMap Entry.readBytes))

/-- LOG-TAKE: the oldest record is removed and returned (R152). -/
def State.takeLog (s : State) : State × CmdResult :=
  { s with log := s.log.tail }.reply .done
    (logBytes s.log.head? s.log.tail.length s.dropped s.seqCounter)

/-- LOG_TAKE (R152). -/
def execLogTake (payload : List Byte) (s : State) : Result :=
  .next (s.command 0x48 payload 0 State.takeLog)

/-- LOG-PEEK: the oldest record is returned and stays (R153). -/
def State.peekLog (s : State) : State × CmdResult :=
  s.reply .done (logBytes s.log.head? s.log.length s.dropped s.seqCounter)

/-- LOG_PEEK (R153). -/
def execLogPeek (payload : List Byte) (s : State) : Result :=
  .next (s.command 0x49 payload 0 State.peekLog)

/-- LOG-CLEAR: the record list is emptied, the dropped count becomes 0, the sequence counter stays
(R154). -/
def State.clearLog (s : State) : State × CmdResult :=
  { s with log := [], dropped := 0 }.reply .done
    ([toByte s.log.length, toByte s.dropped] ++ beBytes 2 s.seqCounter.toNat)

/-- LOG_CLEAR (R154). -/
def execLogClear (payload : List Byte) (s : State) : Result :=
  .next (s.command 0x4A payload 0 State.clearLog)

/-- FLUSH-ALL: every GATHERING entry is flushed, in open order, and their number is returned (R173). -/
def State.flushAll (s : State) : State × CmdResult :=
  let victims := s.gatheringWhere fun _ => true
  (s.startFlushes victims).reply .done [toByte victims.length]

/-- FLUSH_ALL (R173). -/
def execFlushAll (payload : List Byte) (s : State) : Result :=
  .next (s.command 0x50 payload 0 State.flushAll)

/-- The configuration at its power-on values, fault markers cleared, open orders and opening counter 0
(R174). -/
def State.clearConfiguration (s : State) : State :=
  { s with
    windows := Vector.replicate 8 .powerOn, layouts := Vector.replicate 16 .empty
    tables := Vector.replicate 4 .empty, programs := Vector.replicate 32 .empty
    entries := s.entries.map fun e => { e with fault := false, openOrder := 0 }
    openCounter := 0 }

/-- CLEAR: refused while a window is not OFF (R174). -/
def State.clearAll (s : State) : State × CmdResult :=
  if s.windows.toList.all Window.isOff then s.clearConfiguration.reply .done []
  else s.reply .badState []

/-- CLEAR (R174). -/
def execClear (payload : List Byte) (s : State) : Result :=
  .next (s.command 0x5F payload 0 State.clearAll)

end Sys2Proof.Machine
end

