-- ==== Sys2Proof/Machine/Resets.lean ====
section
/-! DEFINITION. Bus reset and power-on reset, their assertion and their release (R86, R101, R121 to R124,
R133, R134, R140, R175, R195). -/

namespace Sys2Proof.Machine

/-- A removed transaction is no longer the source of its operations (R133). -/
def Issued.orphaned (i : Issued) : Issued :=
  match i.op.source with
  | .windowRead _ _ _ | .passThrough _ => { i with op := { i.op with source := .nobody } }
  | .entry _ _ | .nobody => i

/-- The confirm list of an entry is emptied (R86). -/
def Entry.unconfirmed (e : Entry) : Entry :=
  match e.slot with
  | .held stage b => { e with slot := .held stage { b with confirm := [] } }
  | .free => e

/-- What bus reset removes: transactions, confirm lists, the dispatcher's unit, the sources of issued
operations (R86, R121, R133). -/
def State.dropTransactions (s : State) : State :=
  { s with
    txns := [], disp := .idle, reoffer := false, prstLow := true
    units := s.units.filter fun u => u.owner != .dispatcher
    outstanding := s.outstanding.map Issued.orphaned
    entries := s.entries.map Entry.unconfirmed }

/-- The assertion of PRST_N: the transactions go, and every GATHERING entry is flushed in open order
(R86, R121). -/
def State.assertBusReset (s : State) : State :=
  if s.prstLow then s
  else
    let t := s.dropTransactions
    t.startFlushes (t.gatheringWhere fun _ => true)

/-- BUS_RESET (R121). -/
def execBusReset (s : State) : Result := .next s.settle.assertBusReset

/-- The release of PRST_N: offers that wait on the bus are taken in the order offered (R123). -/
def State.releaseBusReset (s : State) : State := { s with prstLow := false }.takeOffers

/-- BUS_RESET_RELEASE (R123). -/
def execBusResetRelease (s : State) : Result := .next s.settle.releaseBusReset

/-- The assertion of RST_N: every block takes its power-on value. The pins, the offers on the bus and the
count of free choices are not the part's registers and stay (R63, R124, R134, R140, R195). -/
def State.assertPowerOnReset (s : State) : State :=
  { State.reset with
    rstLow := true, prstLow := s.prstLow, mcsLow := s.mcsLow, msdo := s.msdo, offers := s.offers
    freeCount := s.freeCount, pending := s.pending }

/-- POWER_ON_RESET (R124). -/
def execPowerOnReset (s : State) : Result := .next s.assertPowerOnReset

/-- The release of RST_N: the part takes requests again (R124); a chip-select period under way stays no
frame (R195). -/
def State.releasePowerOnReset (s : State) : State := { s with rstLow := false }.takeOffers

/-- POWER_ON_RESET_RELEASE (R195). -/
def execPowerOnResetRelease (s : State) : Result := .next s.settle.releasePowerOnReset

end Sys2Proof.Machine
end

