-- ==== Sys2Proof/Machine/Dispatch.lean ====
section
/-! DEFINITION. One arm per command: which meaning runs. -/

namespace Sys2Proof.Machine

def exec (i : Instr) (s : State) : Host.Outcome State Fault Refusal :=
  match i with
  | .requestTaken r => Sys2Proof.Machine.execRequestTaken r s
  | .responseTaken => Sys2Proof.Machine.execResponseTaken s
  | .dispatcherOffer => Sys2Proof.Machine.execDispatcherOffer s
  | .tick => Sys2Proof.Machine.execTick s
  | .ageTrigger => Sys2Proof.Machine.execAgeTrigger s
  | .holdExpiry => Sys2Proof.Machine.execHoldExpiry s
  | .unitIssue => Sys2Proof.Machine.execUnitIssue s
  | .completion c => Sys2Proof.Machine.execCompletion c s
  | .drainComplete w => Sys2Proof.Machine.execDrainComplete w s
  | .jobPlacement => Sys2Proof.Machine.execJobPlacement s
  | .jobStart => Sys2Proof.Machine.execJobStart s
  | .flushJobEnd => Sys2Proof.Machine.execFlushJobEnd s
  | .readJobEnd => Sys2Proof.Machine.execReadJobEnd s
  | .tableBuildComplete => Sys2Proof.Machine.execTableBuildComplete s
  | .badFrame bytes partialByte => Sys2Proof.Machine.execBadFrame bytes partialByte s
  | .unknown code payload => Sys2Proof.Machine.execUnknown code payload s
  | .resultFetch payload => Sys2Proof.Machine.execResultFetch payload s
  | .status payload => Sys2Proof.Machine.execStatus payload s
  | .setGlobal payload => Sys2Proof.Machine.execSetGlobal payload s
  | .windowWrite payload => Sys2Proof.Machine.execWindowWrite payload s
  | .windowRead payload => Sys2Proof.Machine.execWindowRead payload s
  | .activate payload => Sys2Proof.Machine.execActivate payload s
  | .suspend payload => Sys2Proof.Machine.execSuspend payload s
  | .deactivate payload => Sys2Proof.Machine.execDeactivate payload s
  | .layoutBegin payload => Sys2Proof.Machine.execLayoutBegin payload s
  | .fieldAppend payload => Sys2Proof.Machine.execFieldAppend payload s
  | .layoutCommit payload => Sys2Proof.Machine.execLayoutCommit payload s
  | .layoutErase payload => Sys2Proof.Machine.execLayoutErase payload s
  | .layoutRead payload => Sys2Proof.Machine.execLayoutRead payload s
  | .tableLoad payload => Sys2Proof.Machine.execTableLoad payload s
  | .tableErase payload => Sys2Proof.Machine.execTableErase payload s
  | .tableRead payload => Sys2Proof.Machine.execTableRead payload s
  | .programLoad payload => Sys2Proof.Machine.execProgramLoad payload s
  | .programErase payload => Sys2Proof.Machine.execProgramErase payload s
  | .programRead payload => Sys2Proof.Machine.execProgramRead payload s
  | .gatherRead payload => Sys2Proof.Machine.execGatherRead payload s
  | .logTake payload => Sys2Proof.Machine.execLogTake payload s
  | .logPeek payload => Sys2Proof.Machine.execLogPeek payload s
  | .logClear payload => Sys2Proof.Machine.execLogClear payload s
  | .flushAll payload => Sys2Proof.Machine.execFlushAll payload s
  | .clear payload => Sys2Proof.Machine.execClear payload s
  | .busReset => Sys2Proof.Machine.execBusReset s
  | .busResetRelease => Sys2Proof.Machine.execBusResetRelease s
  | .powerOnReset => Sys2Proof.Machine.execPowerOnReset s
  | .powerOnResetRelease => Sys2Proof.Machine.execPowerOnResetRelease s
  | .chipSelectPeriodBegin => Sys2Proof.Machine.execChipSelectPeriodBegin s
  | .byteComplete b => Sys2Proof.Machine.execByteComplete b s
  | .emptyPeriodRelease => Sys2Proof.Machine.execEmptyPeriodRelease s

end Sys2Proof.Machine
end

