-- ==== Sys2Proof/Safety.lean ====
section
/-! DEFINITION. What a sound part is (the invariants of its runs), and the words the statements share:
when a frame is taken, what the part is at its release, the conditions of R60. -/

namespace Sys2Proof

/-- The code and the payload of the good frame whose release a command is (R182); RESULT_FETCH and
UNKNOWN have their own conditions and are left out. -/
def Instr.frame? : Instr → Option (Byte × List Byte)
  | .status p => some (0x01, p)
  | .setGlobal p => some (0x02, p)
  | .windowWrite p => some (0x10, p)
  | .windowRead p => some (0x11, p)
  | .activate p => some (0x12, p)
  | .suspend p => some (0x13, p)
  | .deactivate p => some (0x14, p)
  | .layoutBegin p => some (0x20, p)
  | .fieldAppend p => some (0x21, p)
  | .layoutCommit p => some (0x22, p)
  | .layoutErase p => some (0x23, p)
  | .layoutRead p => some (0x24, p)
  | .tableLoad p => some (0x30, p)
  | .tableErase p => some (0x31, p)
  | .tableRead p => some (0x32, p)
  | .programLoad p => some (0x38, p)
  | .programErase p => some (0x39, p)
  | .programRead p => some (0x3A, p)
  | .gatherRead p => some (0x40, p)
  | .logTake p => some (0x48, p)
  | .logPeek p => some (0x49, p)
  | .logClear p => some (0x4A, p)
  | .flushAll p => some (0x50, p)
  | .clear p => some (0x5F, p)
  | .requestTaken _ | .responseTaken | .dispatcherOffer | .tick | .ageTrigger | .holdExpiry
  | .unitIssue | .completion _ | .drainComplete _ | .jobPlacement | .jobStart | .flushJobEnd
  | .readJobEnd | .tableBuildComplete | .badFrame _ _ | .unknown _ _ | .resultFetch _ | .busReset
  | .busResetRelease | .powerOnReset | .powerOnResetRelease | .chipSelectPeriodBegin
  | .byteComplete _ | .emptyPeriodRelease => none

/-- The payload length of a command in R182's table, for the commands whose length is fixed. -/
def payloadLength (code : Byte) : Option Nat :=
  if code ∈ ([0x01, 0x40, 0x48, 0x49, 0x4A, 0x50, 0x5F] : List Byte) then some 0
  else if code ∈ ([0x11, 0x12, 0x13, 0x14, 0x22, 0x23, 0x24, 0x31, 0x32, 0x39, 0x3A] : List Byte) then
    some 1
  else if code = 0x02 then some 2
  else if code = 0x10 then some 26
  else if code = 0x20 then some 5
  else if code = 0x21 then some 12
  else if code = 0x30 then some 513
  else none

end Sys2Proof

namespace Sys2Proof.Machine

/-! ### Frames -/

/-- The part takes the release of a good frame and no build runs (R179, R181). -/
def State.takesFrame (s : State) (code : Byte) (payload : List Byte) : Prop :=
  s.presents code payload = true ∧ s.build = none

/-- The settled part when a good frame with this payload has been released (R177, R179). -/
def State.atRelease (s : State) (payload : List Byte) : State :=
  s.settle.endPeriod (List.replicate (payload.length + 4) 0xFF)

/-- The same for ACTIVATE, SUSPEND and DEACTIVATE, which act before an offer that follows a hold expiry
(R169, log entry 24). -/
def State.atWindowRelease (s : State) (payload : List Byte) : State :=
  s.settleToExpiry.endPeriod (List.replicate (payload.length + 4) 0xFF)

/-- The part at the release of a command's frame, as the command finds it. -/
def State.atReleaseOf (s : State) (c : Instr) (payload : List Byte) : State :=
  match c with
  | .activate _ | .suspend _ | .deactivate _ => s.atWindowRelease payload
  | _ => s.atRelease payload

/-! ### What every run keeps -/

/-- The capacities of the part and the ranges of its counters (R6, R7, R64, R65, R106, R126, R127, R135,
R149, R176). -/
structure State.WithinLimits (s : State) : Prop where
  txns : s.txns.length ≤ 8
  outstanding : s.outstanding.length ≤ 8
  units : s.units.length ≤ 9
  jobs : s.jobs.length ≤ 16
  log : s.log.length ≤ 16
  dropped : s.dropped ≤ 255
  received : s.receiver.bytes.length ≤ 524
  refused : s.refusedCount ≤ 255
  divider : 8 ≤ s.tickDivider ∧ s.tickDivider ≤ 250
  fields : ∀ l : Fin 16, s.layouts[l].fields.length ≤ 24
  descriptors : (s.layouts.toList.map fun l => l.fields.length).sum ≤ 128
  ages : ∀ (g : Fin 8) (stage : Stage) (b : Gather), s.entries[g].slot = .held stage b → b.age ≤ 255

/-- The source of an operation is the entry. -/
def Source.isOf (source : Source) (g : Fin 8) : Bool :=
  match source with
  | .entry h _ => h == g
  | .windowRead _ _ _ | .passThrough _ | .nobody => false

/-- The outstanding operations of an entry (R127). -/
def State.outstandingOf (s : State) (g : Fin 8) : List Issued :=
  s.outstanding.filter fun i => i.op.source.isOf g

/-- Who has a waiting unit, and what an entry waits for (R127, R128): one unit an owner; the dispatcher
only while ISSUING; an entry only in MERGING or WRITING, for the operations of its waiting unit or, once
that is issued, for those outstanding, and never for both. -/
structure State.UnitsSound (s : State) : Prop where
  owners : (s.units.map (·.owner)).Nodup
  dispatcher : ∀ u ∈ s.units, u.owner = .dispatcher →
    (∃ id rest, s.disp = .issuing id rest) ∧ ∀ op ∈ u.ops, ∀ g, op.source.isOf g = false
  later : ∀ id rest, s.disp = .issuing id rest → ∀ ops ∈ rest, ∀ op ∈ ops, ∀ g, op.source.isOf g = false
  waiting : ∀ u ∈ s.units, ∀ g : Fin 8, u.owner = .entry g →
    s.outstandingOf g = [] ∧ ∃ stage b, s.entries[g].slot = .held stage b
      ∧ (stage = .merging ∨ stage = .writing) ∧ b.opsLeft = u.ops.length
      ∧ ∀ op ∈ u.ops, op.source = .entry g stage
  issued : ∀ g : Fin 8, s.outstandingOf g ≠ [] → ∃ stage b, s.entries[g].slot = .held stage b
    ∧ (stage = .merging ∨ stage = .writing) ∧ b.opsLeft = (s.outstandingOf g).length
    ∧ ∀ i ∈ s.outstandingOf g, i.op.source = .entry g stage

/-- The open order names every entry that is not FREE, once, and no other (R61). -/
structure State.OpensInOrder (s : State) : Prop where
  once : s.openList.Nodup
  held : ∀ g : Fin 8, g ∈ s.openList ↔ s.entries[g].isFree = false

/-- The windows that are not OFF stand on well-formed latched ranges that no other such window shares,
with a stride of at least the store record size and a pairing of CONFIRMED with a gather timeout
(R3, R161, R162). -/
structure State.WindowsSound (s : State) : Prop where
  formed : ∀ (w : Fin 8) (mode : LiveMode) (va sa : Nat), s.windows[w].status = .live mode va sa →
    1 ≤ s.windows[w].cfg.recordCount ∧ s.windows[w].cfg.viewEnd va ≤ 2 ^ 32
      ∧ s.windows[w].cfg.storeEnd sa ≤ 2 ^ 32 ∧ sa ≤ s.windows[w].cfg.stride
      ∧ (s.windows[w].cfg.ack = .posted ∨ 1 ≤ s.windows[w].cfg.gatherTimeout)
  apart : ∀ (w v : Fin 8) (mode mode' : LiveMode) (va sa va' sa' : Nat), w ≠ v →
    s.windows[w].status = .live mode va sa → s.windows[v].status = .live mode' va' sa' →
    rangesMeet s.windows[w].cfg.viewBase (s.windows[w].cfg.viewEnd va)
        s.windows[v].cfg.viewBase (s.windows[v].cfg.viewEnd va') = false
      ∧ rangesMeet s.windows[w].cfg.storeBase (s.windows[w].cfg.storeEnd sa)
        s.windows[v].cfg.storeBase (s.windows[v].cfg.storeEnd sa') = false

/-- A VALID layout passes every commit check against the current tables and programs, and the layout of
an ACTIVE or DRAINING window is VALID with the window's activation sizes (R3, R15, R171). -/
structure State.LayoutsSound (s : State) : Prop where
  valid : ∀ (l : Fin 16) (va sa : Nat) (fields : List FieldDesc),
    s.layouts[l] = .built .valid va sa fields → commitCheck s.tables s.programs va sa fields = none
  locked : ∀ (w : Fin 8) (mode : LiveMode) (va sa : Nat), s.windows[w].locks = true →
    s.windows[w].status = .live mode va sa →
    ∃ fields, s.layouts[s.windows[w].cfg.layout] = .built .valid va sa fields

/-- No two gather entries that are not FREE hold the same field (R62). -/
def State.KeysApart (s : State) : Prop :=
  ∀ (g h : Fin 8) (k : Key), s.entries[g].key? = some k → s.entries[h].key? = some k → g = h

/-! ### The conditions of R60 -/

/-- The fill in force at a position (R48). -/
def TextPos.fill : TextPos → Byte
  | .dig fill _ | .req fill _ | .mark _ fill _ | .fixed _ fill _ | .minus _ fill _
  | .plus _ fill _ => fill

/-- The float character in force at a position (R48). -/
def TextPos.float : TextPos → Option Byte
  | .dig _ float | .req _ float | .mark _ _ float | .fixed _ _ float | .minus _ _ float
  | .plus _ _ float => float

/-- The position at which significance turns on, when it does (R50): the first DIG position whose digit
is nonzero or the first REQ position. -/
def significancePos : List TextPos → List Nat → Option TextPos
  | [], _ => none
  | .dig fill float :: rest, digits =>
    if digits.headD 0 = 0 then significancePos rest digits.tail else some (.dig fill float)
  | .req fill float :: _, _ => some (.req fill float)
  | .mark _ _ _ :: rest, digits | .fixed _ _ _ :: rest, digits | .minus _ _ _ :: rest, digits
  | .plus _ _ _ :: rest, digits => significancePos rest digits

/-- Conditions 1 and 3 of R60 at one position. -/
def TextPos.readsBack : TextPos → Prop
  | .dig fill _ => isDigitCode fill = true → fill = 0x30
  | .minus c fill _ | .plus c fill _ => c ≠ fill
  | .req _ _ | .mark _ _ _ | .fixed _ _ _ => True

/-- Conditions 1 to 3 of R60 for a program that formats x. -/
structure ReadsBack (steps : List EditStep) (x : Int) : Prop where
  positions : ∀ p ∈ positionsOf steps, p.readsBack
  float : ∀ p c, significancePos (positionsOf steps) (decimalDigits (digitCount steps) x.natAbs) = some p →
    p.float = some c → isDigitCode c = false

/-! ### Words of the statements -/

/-- The transaction list with one transaction in another state. -/
def withTxn (txns : List Txn) (id : Nat) (st : TxnState) : List Txn :=
  txns.map fun x => if x.id == id then { x with state := st } else x

/-- The HOLE or PROTECT record of a window WRITE (R66). -/
def refusalRecord (s : State) (q : Txn) (d : Decode) (n : Nat) (action : ExcAction) : ExcRecord :=
  let hole := holeTouching (s.fieldsOf d.window) d.offset n
  { seq := 0, kind := if hole then .hole else .protect, action, path := .write, window := d.window
    record := some d.record
    field := if hole then none else protectField (s.fieldsOf d.window) d.offset n
    viewAddr := some q.req.addr, tag := some q.req.tag, detail := none }

/-- Whether a BLOCKED or HOLDING dispatcher is to offer again after a window state change (R109, log
entry 1). -/
def offersAgain (s : State) : Bool :=
  s.reoffer || match s.disp with
    | .blocked _ | .holding _ => true
    | .idle | .issuing _ _ => false

/-- A step that passes checks 4 and 5 of R45 at its place in the list. -/
def EditStep.legal (final : Bool) (x : EditStep) : Prop :=
  (x.op = .dig ∨ x.op = .req → 1 ≤ x.operand.toNat ∧ x.operand.toNat ≤ 19) ∧ x.last = final

/-- A window record within the values of R1 and R2. -/
def WindowCfg.legal (c : WindowCfg) : Prop :=
  c.viewBase % 8 = 0 ∧ c.viewBase < 2 ^ 32 ∧ 1 ≤ c.recordCount ∧ c.recordCount ≤ 65536
    ∧ c.storeBase < 2 ^ 32 ∧ 1 ≤ c.stride ∧ c.stride ≤ 4096 ∧ c.gatherTimeout ≤ 255
    ∧ 1 ≤ c.holdLimit ∧ c.holdLimit ≤ 65535

end Sys2Proof.Machine
end

