-- ==== Sys2Proof/Certificates/Slice0/Obligations.lean ====
section
/-! DEFINITION. The statements about the part. An event from outside acts on the settled part
(`s.settle`, log entry 1); a maintenance command acts on the part at the release of its frame
(`s.atRelease payload`). -/

open Sys2Proof Sys2Proof.Machine

/-! ### Steps, resets -/

/-- A step runs the command at the front of the queue on the part with the queue's rest. On an empty
queue the block idles (the model's choice: log entry 3). -/
def Obligations.StepRunsFrontCommand : Prop :=
  (∀ (c : Instr) (s : State), step { s with pending := c :: s.pending } = exec c s)
  ∧ (∀ s : State, s.pending = [] → step s = .next s)

/-- Every command has a next state, and it leaves the queue as it is. -/
def Obligations.EveryCommandHasNextState : Prop :=
  ∀ (c : Instr) (s : State), ∃ t, exec c s = .next t ∧ t.pending = s.pending

/-- The power-on values of every register the spec gives one, every field of the window records
among them. -/
def Obligations.ResetValues : Prop :=
  let s := State.reset
  s.txns = [] ∧ s.disp = .idle ∧ s.outstanding = [] ∧ s.units = [] ∧ s.rankCounter = 0
    ∧ s.freeSlots = 8 ∧ s.jobs = [] ∧ s.running = false ∧ s.toPlace = [] ∧ s.openCounter = 0
    ∧ (∀ w : Fin 8, s.windows[w] =
        { status := .off
          cfg := { viewBase := 0, recordCount := 0, layout := 0, storeBase := 0, stride := 1
                   order := .little, policy := .strict, ack := .posted, gatherTimeout := 0
                   holdLimit := 1000, holeFill := 0x00, viewSub := 0x00, storeSub := 0x00
                   overflowMark := 0x00 } })
    ∧ (∀ l : Fin 16, s.layouts[l] = .empty) ∧ s.freeDescriptors = 128
    ∧ (∀ t : Fin 4, s.tables[t] = .empty) ∧ (∀ e : Fin 32, s.programs[e] = .empty)
    ∧ (∀ g : Fin 8, s.entries[g] = { openOrder := 0, fault := false, slot := .free })
    ∧ s.log = [] ∧ s.dropped = 0 ∧ s.seqCounter = 0
    ∧ s.receiver.state = .idle ∧ s.receiver.bytes = []
    ∧ s.result = { code := .done, command := 0x00, data := [] } ∧ s.build = none
    ∧ s.refusedCount = 0 ∧ s.tickDivider = 100 ∧ s.alertEnable = false ∧ s.alertLow = false

/-- The assertion of RST_N puts every block at its power-on value whatever it was doing; what stays is
outside the part's registers (log entry 23). Its release changes the pin, and the offers that wait on the
bus are taken in the order offered, as many as the list holds; with PRST_N asserted they wait on (the
standing offers are the model's: log entry 4). -/
def Obligations.PowerOnResetRestoresReset : Prop :=
  ∀ s : State,
    exec .powerOnReset s = .next { State.reset with
      rstLow := true, prstLow := s.prstLow, mcsLow := s.mcsLow, msdo := s.msdo, offers := s.offers
      freeCount := s.freeCount, pending := s.pending }
    ∧ let t := s.settle
      ∃ u, exec .powerOnResetRelease s = .next u
        ∧ u = { t with rstLow := false, txns := u.txns, offers := u.offers, txnCounter := u.txnCounter }
        ∧ (t.offers = [] ∨ t.prstLow = true → u = { t with rstLow := false })
        ∧ (t.prstLow = false → t.txns = [] →
            u.txns.map (·.req) = t.offers.take 8 ∧ (∀ x ∈ u.txns, x.state = .queued)
              ∧ u.offers = t.offers.drop 8)

/-- Bus reset removes every transaction, puts the dispatcher in IDLE, withdraws its unit, takes the
transactions out of the sources of issued operations, and empties every confirm list. Every GATHERING
entry that the open list names is then flushed, in open order. No entry is freed: each keeps its key,
bytes, base image, age, open order and fault marker, and a flushing one its state. Flush units, jobs that
wait, windows, layouts, tables, programs, the log and the port stay as they are. -/
def Obligations.BusResetDropsProcessorSide : Prop :=
  ∀ s : State, let t := s.settle
    t.prstLow = false →
    let victims := t.gatheringWhere fun _ => true
    let dropped : State := { t with
      txns := [], disp := .idle, reoffer := false, prstLow := true
      units := t.units.filter fun u => u.owner != .dispatcher
      outstanding := t.outstanding.map fun i => match i.op.source with
        | .windowRead _ _ _ | .passThrough _ => { i with op := { i.op with source := .nobody } }
        | .entry _ _ | .nobody => i
      entries := t.entries.map fun (e : Entry) => match e.slot with
        | .held stage b => { e with slot := .held stage { b with confirm := [] } }
        | .free => e }
    ∃ u, exec .busReset s = .next u ∧ u = dropped.startFlushes victims
      ∧ u.txns = [] ∧ u.disp = .idle ∧ u.prstLow = true
      ∧ (∀ x ∈ u.units, x.owner ≠ .dispatcher)
      ∧ (∀ x ∈ t.units, x.owner ≠ .dispatcher → x ∈ u.units)
      ∧ (∀ i ∈ u.outstanding, ∀ id, i.op.source ≠ .passThrough id)
      ∧ (∀ i ∈ u.outstanding, ∀ id f h, i.op.source ≠ .windowRead id f h)
      ∧ (∀ (g : Fin 8) (stage : Stage) (b : Gather), u.entries[g].slot = .held stage b → b.confirm = [])
      ∧ (∀ (g : Fin 8) (stage : Stage) (b : Gather), t.entries[g].slot = .held stage b →
          ∃ stage' b', u.entries[g] = { openOrder := t.entries[g].openOrder, fault := t.entries[g].fault
                                        slot := .held stage' b' }
            ∧ b'.key = b.key ∧ b'.bytes = b.bytes ∧ b'.base = b.base ∧ b'.age = b.age
            ∧ (stage ≠ .gathering → stage' = stage))
      ∧ (∀ g : Fin 8, t.entries[g].slot = .free → u.entries[g] = t.entries[g])
      ∧ ((∀ g : Fin 8, t.entries[g].isGathering = true → g ∈ t.openList) →
          ∀ g : Fin 8, u.entries[g].isGathering = false)
      ∧ (t.openList.Nodup → u.flushOrder = t.flushOrder ++ victims)
      ∧ t.toPlace <+: u.toPlace
      ∧ u.windows = t.windows ∧ u.layouts = t.layouts ∧ u.tables = t.tables
      ∧ u.programs = t.programs ∧ u.log = t.log ∧ u.dropped = t.dropped
      ∧ u.seqCounter = t.seqCounter ∧ u.jobs = t.jobs ∧ u.running = t.running
      ∧ u.outstanding.length = t.outstanding.length ∧ u.openCounter = t.openCounter
      ∧ u.openList = t.openList ∧ u.offers = t.offers
      ∧ u.receiver = t.receiver ∧ u.msdo = t.msdo ∧ u.mcsLow = t.mcsLow ∧ u.result = t.result
      ∧ u.build = t.build ∧ u.refusedCount = t.refusedCount ∧ u.tickDivider = t.tickDivider
      ∧ u.tickInterval = t.tickInterval ∧ u.alertEnable = t.alertEnable

/-- At the release of PRST_N the offers that wait on the bus are taken in the order offered, as many as
the list holds (the standing offers are the model's: log entry 4). -/
def Obligations.BusResetReleaseTakesOffers : Prop :=
  ∀ s : State, let t := s.settle
    t.rstLow = false → t.txns = [] →
    ∃ u, exec .busResetRelease s = .next u ∧ u.prstLow = false
      ∧ u.txns.map (·.req) = t.offers.take 8 ∧ (∀ x ∈ u.txns, x.state = .queued)
      ∧ u.offers = t.offers.drop 8
      ∧ u = { t with prstLow := false, txns := u.txns, offers := u.offers, txnCounter := u.txnCounter }

/-! ### The P-port -/

/-- A request offered while the list holds fewer than 8 joins its youngest end as QUEUED; otherwise it
waits on the bus (log entry 4). Nothing else changes. -/
def Obligations.RequestTakenOrWaits : Prop :=
  ∀ (r : Request) (s : State), let t := s.settle
    (t.offers = [] → t.rstLow = false → t.prstLow = false → t.txns.length < 8 →
      exec (.requestTaken r) s = .next { t with
        txns := t.txns ++ [{ id := t.txnCounter, req := r, state := .queued }]
        txnCounter := t.txnCounter + 1 })
    ∧ (t.rstLow = true ∨ t.prstLow = true ∨ 8 ≤ t.txns.length →
      exec (.requestTaken r) s = .next { t with offers := t.offers ++ [r] })

/-- The master takes the response of the oldest transaction when it is READY: the transaction leaves
the list, and on a list that was full the first offer that waits is taken. Without a released response
nothing happens (log entry 2). -/
def Obligations.ResponseTakenRemovesOldest : Prop :=
  ∀ s : State, let t := s.settle
    (∀ q rest answer data, t.txns = q :: rest → q.state = .ready answer data →
      (t.offers = [] → exec .responseTaken s = .next { t with txns := rest })
      ∧ (∀ r more, t.offers = r :: more → t.rstLow = false → t.prstLow = false → rest.length = 7 →
        exec .responseTaken s = .next { t with
          txns := rest ++ [{ id := t.txnCounter, req := r, state := .queued }]
          txnCounter := t.txnCounter + 1, offers := more }))
    ∧ (t.released = none → exec .responseTaken s = .next t)

/-- A READ or WRITE whose size is not 1, 2, 4 or 8, or whose address is not a multiple of its size, is
READY with ERROR at its offer. Nothing is logged, gathered or issued.
The next transaction is the oldest QUEUED one. Its offer is due when the dispatcher is IDLE, and when it is
BLOCKED or HOLDING and an event that R109 names has come (the field `reoffer`: log entry 1). -/
def Obligations.MalformedRequestAnswered : Prop :=
  (∀ (s : State) (q : Txn), s.nextTxn = some q → s.offerDue = true → (∀ tag, q.req ≠ .fence tag) →
    ¬ ((q.req.size = 1 ∨ q.req.size = 2 ∨ q.req.size = 4 ∨ q.req.size = 8)
      ∧ q.req.addr % q.req.size = 0) →
    exec .dispatcherOffer s = .next { s with
      reoffer := false, disp := .idle, txns := withTxn s.txns q.id (.ready .error []) })
  ∧ (∀ (s : State) (q : Txn), s.nextTxn = some q ↔ q.state = .queued
    ∧ ∃ earlier later, s.txns = earlier ++ q :: later ∧ ∀ x ∈ earlier, x.state ≠ .queued)
  ∧ (∀ s : State, s.offerDue = true ↔ (∃ q, s.nextTxn = some q) ∧ (s.disp = .idle
    ∨ ((∃ on, s.disp = .blocked on) ∨ ∃ timer, s.disp = .holding timer) ∧ s.reoffer = true))

/-- Under STRICT a hole- or protect-touching write is refused at its offer: ERROR and one FAULTED record.
Under SUBSTITUTE a write whose bytes are all discarded is answered OKAY with one DISCARDED record. Neither
gathers a byte or changes an entry.
How a request is split into fields and holes (here and in WritesGathered, WriteWaitsAndEvicts,
ReadOfHolesAnswered and ReadsDispatched): a field is touched when its view range shares a byte with the
request; touched fields are listed in ascending index. A byte belongs to the first field whose view range
holds it and is a hole byte when none does. A write is hole-touching when one of its bytes is a hole byte,
protect-touching when a touched field is read-only, the lowest of which the record names; the kept fields
are the other touched ones, in ascending index. The record of such a write is HOLE when it is hole-touching
and PROTECT otherwise. -/
def Obligations.RefusedAndDiscardedWrites : Prop :=
  (∀ (s : State) (q : Txn) (a : Addr) (data : List Byte) (tag : Tag) (d : Decode),
    s.nextTxn = some q → s.offerDue = true → q.req = .write a data tag →
    wellFormedAccess a.toNat data.length = true → s.decode a.toNat = some d → d.mode = .active →
    (s.windows[d.window].cfg.policy = .strict →
      (holeTouching (s.fieldsOf d.window) d.offset data.length = true
        ∨ (protectField (s.fieldsOf d.window) d.offset data.length).isSome = true) →
      exec .dispatcherOffer s = .next
        { ({ s with reoffer := false }.handOver (refusalRecord s q d data.length .faulted)) with
          disp := .idle, txns := withTxn s.txns q.id (.ready .error []) })
    ∧ (s.windows[d.window].cfg.policy = .substitute →
      keptFields (s.fieldsOf d.window) d.offset data.length = [] →
      exec .dispatcherOffer s = .next
        { ({ s with reoffer := false }.handOver (refusalRecord s q d data.length .discarded)) with
          disp := .idle, txns := withTxn s.txns q.id (.ready .okay []) }))
  ∧ (∀ (fields : List FieldDesc) (o n : Nat),
    let holds := fun (f : FieldDesc) (x : Nat) => f.viewOff ≤ x ∧ x < f.viewOff + f.viewLen
    let touches := fun (f : FieldDesc) (i : Nat) =>
      fields[i]? = some f ∧ ∃ x, (o ≤ x ∧ x < o + n) ∧ holds f x
    (∀ f i, (f, i) ∈ touchedFields fields o n ↔ touches f i)
    ∧ (touchedFields fields o n).Pairwise (fun x y => x.2 < y.2)
    ∧ (∀ off f i, ownerOf fields off = some (f, i) ↔ fields[i]? = some f ∧ holds f off
        ∧ ∀ j g, j < i → fields[j]? = some g → ¬ holds g off)
    ∧ (∀ off, ownerOf fields off = none ↔ ∀ f ∈ fields, ¬ holds f off)
    ∧ (holeTouching fields o n = true ↔ ∃ k < n, ∀ f ∈ fields, ¬ holds f (o + k))
    ∧ (∀ i, protectField fields o n = some i ↔ (∃ f, touches f i ∧ f.readOnly = true)
        ∧ ∀ f j, touches f j → f.readOnly = true → i ≤ j)
    ∧ (protectField fields o n = none ↔ ∀ f i, touches f i → f.readOnly = false)
    ∧ (∀ i, i ∈ keptFields fields o n ↔ ∃ f, touches f i ∧ f.readOnly = false)
    ∧ (keptFields fields o n).Pairwise (· < ·))
  ∧ (∀ (s : State) (w : Fin 8) (status : LayoutStatus) (va sa : Nat) (fields : List FieldDesc),
    s.layouts[s.windows[w].cfg.layout] = .built status va sa fields → s.fieldsOf w = fields)
  ∧ (∀ (s : State) (q : Txn) (d : Decode) (n : Nat) (action : ExcAction),
    let fields := s.fieldsOf d.window
    let record := fun (kind : ExcKind) (field : Option Nat) =>
      { seq := 0, kind, action, path := .write, window := d.window, record := some d.record, field
        viewAddr := some q.req.addr, tag := some q.req.tag, detail := none : ExcRecord }
    (holeTouching fields d.offset n = true → refusalRecord s q d n action = record .hole none)
    ∧ (holeTouching fields d.offset n = false →
      refusalRecord s q d n action = record .protect (protectField fields d.offset n)))

/-- A one-byte write to a writable field byte is dispatched at its offer: READY with OKAY under POSTED,
WAITING for its one entry under CONFIRMED, which then lists it. Without an entry for the field the
lowest FREE entry opens with that byte; with a GATHERING entry the byte joins it, and a field made whole
starts its flush. Nothing else changes.
A write of any size is dispatched when no kept field has a flushing entry and the FREE entries suffice:
the kept fields without an entry take the FREE entries in ascending order, each kept byte goes to its
field position, a write that discards bytes under SUBSTITUTE leaves one DISCARDED record, the answer is
as for one byte with one pending count per kept field, and the fields made whole start their flushes in
open order. The other entries stay. -/
def Obligations.WritesGathered : Prop :=
  (∀ (s : State) (q : Txn) (a : Addr) (b : Byte) (tag : Tag) (d : Decode) (f : FieldDesc) (i : Nat),
    s.nextTxn = some q → s.offerDue = true → q.req = .write a [b] tag → s.decode a.toNat = some d →
    d.mode = .active → ownerOf (s.fieldsOf d.window) d.offset = some (f, i) →
    touchedFields (s.fieldsOf d.window) d.offset 1 = [(f, i)] → f.readOnly = false → s.KeysApart →
    let ack := s.windows[d.window].cfg.ack
    let listed := if ack = .confirmed then [q.id] else []
    let dispatched : State := { s with
      reoffer := false, disp := .idle
      txns := withTxn s.txns q.id (match ack with
        | .posted => .ready .okay []
        | .confirmed => .waiting (.windowWrite d.window 1 false)) }
    (∀ g, s.entryFor (d.key i) = none → s.lowestFree = some g → 2 ≤ f.viewLen →
      exec .dispatcherOffer s = .next { dispatched with
        entries := s.entries.set g
          { openOrder := s.openCounter, fault := false, slot := .held .gathering
              { key := d.key i
                bytes := (List.replicate f.viewLen none).set (d.offset - f.viewOff) (some b)
                base := none, age := 0, confirm := listed, rank := none, opsLeft := 0, got := []
                failed := false } }
        openCounter := s.openCounter + 1, openList := s.openList ++ [g] })
    ∧ (∀ g e, s.entryFor (d.key i) = some (g, .gathering, e) →
      let e' := { e with
        bytes := e.bytes.set (d.offset - f.viewOff) (some b), confirm := e.confirm ++ listed }
      (e'.bytes.all (·.isSome) = false →
        exec .dispatcherOffer s = .next { dispatched with
          entries := s.entries.set g { s.entries[g] with slot := .held .gathering e' } })
      ∧ (e'.bytes.all (·.isSome) = true → (s.openList.filter fun h => h == g) = [g] →
        exec .dispatcherOffer s = .next { dispatched with
          rankCounter := s.rankCounter + 1, flushOrder := s.flushOrder ++ [g]
          entries := s.entries.set g { s.entries[g] with
            slot := .held .converting { e' with rank := some s.rankCounter } }
          toPlace := s.toPlace
            ++ [.flush g s.entries[g].openOrder e'.key e'.bytes e'.base none] })))
  ∧ (∀ (s : State) (q : Txn) (a : Addr) (data : List Byte) (tag : Tag) (d : Decode),
    s.nextTxn = some q → s.offerDue = true → q.req = .write a data tag →
    wellFormedAccess a.toNat data.length = true → s.decode a.toNat = some d → d.mode = .active →
    s.KeysApart → s.OpensInOrder →
    let fields := s.fieldsOf d.window
    let n := data.length
    let cfg := s.windows[d.window].cfg
    let kept := keptFields fields d.offset n
    let discards := holeTouching fields d.offset n || (protectField fields d.offset n).isSome
    let fresh := kept.filter fun i => (s.entryFor (d.key i)).isNone
    let free := (List.finRange 8).filter fun g => s.entries[g].isFree
    (cfg.policy = .substitute ∨ discards = false) → kept ≠ [] →
    (∀ i ∈ kept, ∀ stage, s.stageOf (d.key i) = some stage → stage = .gathering) →
    fresh.length ≤ free.length →
    let opened := free.take fresh.length
    let listed := if cfg.ack = .confirmed then [q.id] else []
    let placed := fun (i : Nat) (old : List (Option Byte)) =>
      (List.range n).foldl (fun bytes k => match ownerOf fields (d.offset + k) with
        | some (f, j) => if j = i then bytes.set (d.offset + k - f.viewOff) data[k]? else bytes
        | none => bytes) old
    let target : Fin 8 → Option Gather := fun g => match s.entries[g].slot with
      | .held .gathering e =>
        if e.key ∈ kept.map d.key then
          some { e with bytes := placed e.key.field e.bytes, confirm := e.confirm ++ listed }
        else none
      | .held .merging _ | .held .converting _ | .held .writing _ => none
      | .free => fresh[opened.idxOf g]?.map fun i =>
        { key := d.key i, bytes := placed i (List.replicate (s.descOf (d.key i)).viewLen none)
          base := none, age := 0, confirm := listed, rank := none, opsLeft := 0, got := []
          failed := false }
    let order := fun g : Fin 8 =>
      if s.entries[g].isFree then s.openCounter + BitVec.ofNat 32 (opened.idxOf g)
      else s.entries[g].openOrder
    let done := (s.openList ++ opened).filter fun g => (target g).any fun e => e.bytes.all (·.isSome)
    let logged := if discards then s.handOver (refusalRecord s q d n .discarded) else s
    ∃ u, exec .dispatcherOffer s = .next u
      ∧ u = { logged with
          reoffer := false, disp := .idle, entries := u.entries
          txns := withTxn s.txns q.id (match cfg.ack with
            | .posted => .ready .okay []
            | .confirmed => .waiting (.windowWrite d.window kept.length false))
          openCounter := s.openCounter + BitVec.ofNat 32 fresh.length
          openList := s.openList ++ opened
          rankCounter := s.rankCounter + BitVec.ofNat 32 done.length
          flushOrder := s.flushOrder ++ done
          toPlace := s.toPlace ++ done.filterMap fun g => (target g).map fun e =>
            .flush g (order g) e.key e.bytes e.base none }
      ∧ (∀ g e, target g = some e → u.entries[g] =
          { openOrder := order g, fault := !s.entries[g].isFree && s.entries[g].fault
            slot := if e.bytes.all (·.isSome) then
                .held .converting
                  { e with rank := some (s.rankCounter + BitVec.ofNat 32 (done.idxOf g)) }
              else .held .gathering e })
      ∧ (∀ g, target g = none → u.entries[g] = s.entries[g]))
  ∧ (∀ (s : State) (q : Txn) (a : Addr) (b : Byte) (tag : Tag) (d : Decode) (f : FieldDesc) (i : Nat)
      (g : Fin 8),
    s.nextTxn = some q → s.offerDue = true → q.req = .write a [b] tag → s.decode a.toNat = some d →
    d.mode = .active → ownerOf (s.fieldsOf d.window) d.offset = some (f, i) →
    touchedFields (s.fieldsOf d.window) d.offset 1 = [(f, i)] → f.readOnly = false →
    s.entryFor (d.key i) = none → s.lowestFree = some g → f.viewLen = 1 → g ∉ s.openList →
    let ack := s.windows[d.window].cfg.ack
    exec .dispatcherOffer s = .next { s with
      reoffer := false, disp := .idle
      txns := withTxn s.txns q.id (match ack with
        | .posted => .ready .okay []
        | .confirmed => .waiting (.windowWrite d.window 1 false))
      entries := s.entries.set g
        { openOrder := s.openCounter, fault := false, slot := .held .converting
            { key := d.key i, bytes := [some b], base := none, age := 0
              confirm := if ack = .confirmed then [q.id] else []
              rank := some s.rankCounter, opsLeft := 0, got := [], failed := false } }
      openCounter := s.openCounter + 1, openList := s.openList ++ [g]
      rankCounter := s.rankCounter + 1, flushOrder := s.flushOrder ++ [g]
      toPlace := s.toPlace ++ [.flush g s.openCounter (d.key i) [some b] none none] })

/-- A write that is not refused and has kept fields waits when a kept field's entry is flushing or the
kept fields that need an entry outnumber the FREE entries: the dispatcher is BLOCKED, and the oldest
GATHERING entries of other fields are flushed, as many as that number exceeds the FREE and flushing
entries. No byte is gathered, no record is handed over, no transaction changes.
How entries are found (here and in WritesGathered and ReadsDispatched): a field's entry is the one that is
not FREE and holds its key; the FREE entry that opens is the one of the lowest index; the GATHERING entries
of some keys are those the open order names, in its order. -/
def Obligations.WriteWaitsAndEvicts : Prop :=
  (∀ (s : State) (q : Txn) (a : Addr) (data : List Byte) (tag : Tag) (d : Decode),
    s.nextTxn = some q → s.offerDue = true → q.req = .write a data tag →
    wellFormedAccess a.toNat data.length = true → s.decode a.toNat = some d → d.mode = .active →
    (s.windows[d.window].cfg.policy = .substitute
      ∨ holeTouching (s.fieldsOf d.window) d.offset data.length = false
        ∧ protectField (s.fieldsOf d.window) d.offset data.length = none) →
    let kept := (keptFields (s.fieldsOf d.window) d.offset data.length).map d.key
    let needed := (kept.filter fun k => s.stageOf k != some .gathering).length
    let free := s.countEntries Entry.isFree
    kept ≠ [] → ((∃ k ∈ kept, ∃ stage, s.stageOf k = some stage ∧ stage ≠ .gathering) ∨ free < needed) →
    let victims := (s.gatheringWhere fun k => !kept.contains k).take
      (needed - free - s.countEntries Entry.isFlushing)
    ∃ u, exec .dispatcherOffer s = .next { u with disp := .blocked .gatherBuffer, reoffer := false }
      ∧ u = { s with reoffer := false }.startFlushes victims ∧ u.txns = s.txns ∧ u.log = s.log
      ∧ u.dropped = s.dropped ∧ u.openCounter = s.openCounter ∧ u.openList = s.openList
      ∧ u.windows = s.windows ∧ u.outstanding = s.outstanding)
  ∧ (∀ (s : State) (k : Key),
    (s.entryFor k = none ↔ ∀ (g : Fin 8) (stage : Stage) (b : Gather),
      s.entries[g].slot = .held stage b → b.key ≠ k)
    ∧ (s.KeysApart → ∀ (g : Fin 8) (stage : Stage) (b : Gather), s.entries[g].slot = .held stage b →
      b.key = k → s.entryFor k = some (g, stage, b))
    ∧ s.stageOf k = (s.entryFor k).map fun x => x.2.1)
  ∧ (∀ s : State,
    (∀ g : Fin 8, s.lowestFree = some g
      ↔ s.entries[g].slot = .free ∧ ∀ h : Fin 8, h < g → s.entries[h].slot ≠ .free)
    ∧ (s.lowestFree = none ↔ ∀ g : Fin 8, s.entries[g].slot ≠ .free)
    ∧ s.countEntries Entry.isFree = ((List.finRange 8).filter fun g => match s.entries[g].slot with
        | .free => true
        | .held _ _ => false).length
    ∧ s.countEntries Entry.isFlushing = ((List.finRange 8).filter fun g => match s.entries[g].slot with
        | .held .merging _ | .held .converting _ | .held .writing _ => true
        | .held .gathering _ | .free => false).length
    ∧ (∀ test : Key → Bool, (s.gatheringWhere test).Sublist s.openList
      ∧ ∀ g : Fin 8, g ∈ s.gatheringWhere test
        ↔ g ∈ s.openList ∧ ∃ b, s.entries[g].slot = .held .gathering b ∧ test b.key = true))

/-- A window READ of hole bytes only is READY at its offer with the hole fill byte in every position. No
operation is issued, nothing is logged, nothing else changes. -/
def Obligations.ReadOfHolesAnswered : Prop :=
  ∀ (s : State) (q : Txn) (a : Addr) (n : Nat) (tag : Tag) (d : Decode),
    s.nextTxn = some q → s.offerDue = true → q.req = .read a n tag →
    wellFormedAccess a.toNat n = true → s.decode a.toNat = some d → d.mode = .active →
    touchedFields (s.fieldsOf d.window) d.offset n = [] →
    exec .dispatcherOffer s = .next { s with
      reoffer := false, disp := .idle
      txns := withTxn s.txns q.id
        (.ready .okay (List.replicate n s.windows[d.window].cfg.holeFill)) }

/-- A window READ inside one field is READY at its offer from the field's GATHERING entry when the
written set holds every requested position, and becomes WAITING with the field read requested when no
entry holds the field. Nothing else changes.
A READ of any bytes waits, BLOCKED, while a touched field has a flushing entry. Otherwise it is
dispatched: hole bytes take the hole fill byte, a field whose GATHERING entry holds every requested
position is served from it, and every other touched field is a memory field, with the entry's written
bytes as snapshot and the entry and its opening recorded for backfill when there is one. Without a memory
field the READ is READY, with one it is WAITING and the first field read is requested. -/
def Obligations.ReadsDispatched : Prop :=
  (∀ (s : State) (q : Txn) (a : Addr) (n : Nat) (tag : Tag) (d : Decode) (f : FieldDesc) (i : Nat),
    s.nextTxn = some q → s.offerDue = true → q.req = .read a n tag →
    wellFormedAccess a.toNat n = true → s.decode a.toNat = some d → d.mode = .active →
    touchedFields (s.fieldsOf d.window) d.offset n = [(f, i)] →
    (∀ k < n, ownerOf (s.fieldsOf d.window) (d.offset + k) = some (f, i)) →
    (∀ g e, s.entryFor (d.key i) = some (g, .gathering, e) →
      (∀ k < n, ∃ byte, e.bytes[d.offset + k - f.viewOff]? = some (some byte)) →
      exec .dispatcherOffer s = .next { s with
        reoffer := false, disp := .idle
        txns := withTxn s.txns q.id (.ready .okay
          ((List.range n).map fun k => (e.bytes.getD (d.offset + k - f.viewOff) none).getD 0)) })
    ∧ (s.entryFor (d.key i) = none →
      let ops := splitOps .mread (s.storeAddrOf (d.key i)) f.storeLen []
        fun half => .windowRead q.id i half
      exec .dispatcherOffer s = .next { s with
        reoffer := false, disp := .issuing q.id []
        txns := withTxn s.txns q.id (.waiting (.windowRead
          { window := d.window, record := d.record, offset := d.offset, size := n
            image := List.replicate n none
            fields := [{ field := i, snapshot := [], backfill := none, got := [], failed := false }]
            opsLeft := ops.length }))
        units := s.units ++ [{ owner := .dispatcher, ops }] }))
  ∧ (∀ (s : State) (q : Txn) (a : Addr) (n : Nat) (tag : Tag) (d : Decode),
    s.nextTxn = some q → s.offerDue = true → q.req = .read a n tag →
    wellFormedAccess a.toNat n = true → s.decode a.toNat = some d → d.mode = .active →
    let fields := s.fieldsOf d.window
    let touched := touchedFields fields d.offset n
    ((∃ x ∈ touched, ∃ stage, s.stageOf (d.key x.2) = some stage ∧ stage ≠ .gathering) →
      exec .dispatcherOffer s = .next { s with reoffer := false, disp := .blocked .readPath })
    ∧ ((∀ x ∈ touched, ∀ stage, s.stageOf (d.key x.2) = some stage → stage = .gathering) →
      let covered := fun (f : FieldDesc) (e : Gather) => ∀ p < f.viewLen,
        d.offset ≤ f.viewOff + p → f.viewOff + p < d.offset + n → (e.bytes.getD p none).isSome = true
      let mem : List MemField := touched.filterMap fun x => match s.entryFor (d.key x.2) with
        | none => some { field := x.2, snapshot := [], backfill := none, got := [], failed := false }
        | some (g, _, e) =>
          if covered x.1 e then none
          else some
            { field := x.2
              snapshot := (List.range e.bytes.length).filterMap fun p =>
                (e.bytes.getD p none).map fun byte => (p, byte)
              backfill := some (g, s.entries[g].openOrder), got := [], failed := false }
      let image := (List.range n).map fun k => match ownerOf fields (d.offset + k) with
        | none => some s.windows[d.window].cfg.holeFill
        | some (f, i) =>
          if i ∈ mem.map (·.field) then none
          else (s.entryFor (d.key i)).map fun x =>
            (x.2.2.bytes.getD (d.offset + k - f.viewOff) none).getD 0
      let ops := fun m : MemField =>
        splitOps .mread (s.storeAddrOf (d.key m.field)) (s.descOf (d.key m.field)).storeLen []
          fun half => .windowRead q.id m.field half
      (mem = [] → exec .dispatcherOffer s = .next { s with
        reoffer := false, disp := .idle
        txns := withTxn s.txns q.id (.ready .okay (image.map (·.getD 0))) })
      ∧ (∀ first rest, mem = first :: rest → exec .dispatcherOffer s = .next { s with
        reoffer := false, disp := .issuing q.id (rest.map ops)
        txns := withTxn s.txns q.id (.waiting (.windowRead
          { window := d.window, record := d.record, offset := d.offset, size := n, image
            fields := mem, opsLeft := (mem.flatMap ops).length }))
        units := s.units ++ [{ owner := .dispatcher, ops := ops first }] })))

/-- A READ or WRITE whose address lies in no view range and overlaps no entry is dispatched as it is:
WAITING, with one operation of the same address, size and data requested. Nothing else changes. -/
def Obligations.PassThroughDispatched : Prop :=
  ∀ (s : State) (q : Txn), s.nextTxn = some q → s.offerDue = true →
    wellFormedAccess q.req.addr q.req.size = true → s.decode q.req.addr = none →
    s.anyOverlapped q.req.addr q.req.size = false →
    (∀ a n tag, q.req = .read a n tag → exec .dispatcherOffer s = .next { s with
      reoffer := false, disp := .issuing q.id [], txns := withTxn s.txns q.id (.waiting .passThrough)
      units := s.units ++ [{ owner := .dispatcher, ops :=
        [{ kind := .mread, addr := a.toNat, size := n, data := [], source := .passThrough q.id }] }] })
    ∧ (∀ a data tag, q.req = .write a data tag → exec .dispatcherOffer s = .next { s with
      reoffer := false, disp := .issuing q.id [], txns := withTxn s.txns q.id (.waiting .passThrough)
      units := s.units ++ [{ owner := .dispatcher, ops :=
        [{ kind := .mwrite, addr := a.toNat, size := data.length, data
           source := .passThrough q.id }] }] })

/-- A pass-through that overlaps an entry waits: the dispatcher is BLOCKED, every overlapped GATHERING
entry is flushed in open order, and no transaction changes.
An entry that is not FREE is overlapped when its field's store range shares a byte with the request. -/
def Obligations.RawOverlapWaits : Prop :=
  (∀ (s : State) (q : Txn), s.nextTxn = some q → s.offerDue = true → (∀ tag, q.req ≠ .fence tag) →
    wellFormedAccess q.req.addr q.req.size = true → s.decode q.req.addr = none →
    s.anyOverlapped q.req.addr q.req.size = true →
    ∃ u, exec .dispatcherOffer s = .next { u with disp := .blocked .rawOverlap, reoffer := false }
      ∧ u = { s with reoffer := false }.startFlushes
          (s.gatheringWhere (s.overlaps q.req.addr q.req.size))
      ∧ u.txns = s.txns ∧ u.windows = s.windows ∧ u.log = s.log ∧ u.outstanding = s.outstanding)
  ∧ (∀ (s : State) (a n : Nat),
    (∀ k : Key, s.overlaps a n k = true ↔ ∃ x, (a ≤ x ∧ x < a + n)
      ∧ s.storeAddrOf k ≤ x ∧ x < s.storeAddrOf k + (s.descOf k).storeLen)
    ∧ (s.anyOverlapped a n = true ↔ ∃ (g : Fin 8) (stage : Stage) (b : Gather),
      s.entries[g].slot = .held stage b ∧ s.overlaps a n b.key = true))

/-- A request to a DRAINING or SUSPENDED window is held: HOLDING with the timer at 0, or with the timer
it had when it was held already. Nothing else changes.
What an address decodes to (R3, R4; here and in the other statements about READs and WRITEs): the window
that is not OFF and whose view range, on its activation sizes, holds the address (at most one: WindowsStaySound),
that window's state, the record index (A - view base) div Va and the record offset (A - view base) mod Va;
nothing when no such window's range holds it. -/
def Obligations.HeldRequestWaits : Prop :=
  (∀ (s : State) (q : Txn) (d : Decode), s.nextTxn = some q → s.offerDue = true →
    (∀ tag, q.req ≠ .fence tag) → wellFormedAccess q.req.addr q.req.size = true →
    s.decode q.req.addr = some d → d.mode = .draining ∨ d.mode = .suspended →
    (∀ timer, s.disp = .holding timer →
      exec .dispatcherOffer s = .next { s with reoffer := false })
    ∧ ((∀ timer, s.disp ≠ .holding timer) →
      exec .dispatcherOffer s = .next { s with reoffer := false, disp := .holding 0 }))
  ∧ (∀ (s : State) (a : Nat), s.WindowsSound → ∀ (w : Fin 8) (mode : LiveMode) (va sa : Nat),
    s.windows[w].status = .live mode va sa →
    let base := s.windows[w].cfg.viewBase
    base ≤ a → a < base + s.windows[w].cfg.recordCount * va →
    s.decode a = some { window := w, mode, record := (a - base) / va, offset := (a - base) % va })
  ∧ (∀ (s : State) (a : Nat), s.decode a = none ↔ ∀ (w : Fin 8) (mode : LiveMode) (va sa : Nat),
    s.windows[w].status = .live mode va sa →
    ¬ (s.windows[w].cfg.viewBase ≤ a
      ∧ a < s.windows[w].cfg.viewBase + s.windows[w].cfg.recordCount * va))

/-- A FENCE is dispatched at its offer: every GATHERING entry is flushed in open order, and the FENCE
waits for the entries that are not FREE then and for the last MWRITE outstanding, or is READY with OKAY
when there is neither. The last MWRITE outstanding is the one behind which only MREADs stand. -/
def Obligations.FenceDispatched : Prop :=
  (∀ (s : State) (q : Txn) (tag : Tag), s.nextTxn = some q → s.offerDue = true → q.req = .fence tag →
    let u : State := { s with reoffer := false }.startFlushes (s.gatheringWhere fun _ => true)
    let busy := (List.finRange 8).filter fun g => !u.entries[g].isFree
    exec .dispatcherOffer s = .next { u with
      disp := .idle
      txns := withTxn s.txns q.id
        (if busy = [] ∧ s.lastMwrite = none then .ready .okay []
         else .waiting (.fence busy s.lastMwrite)) })
  ∧ (∀ s : State,
    (∀ id, s.lastMwrite = some id ↔ ∃ earlier i later, s.outstanding = earlier ++ i :: later ∧ i.id = id
      ∧ i.op.kind = .mwrite ∧ ∀ j ∈ later, j.op.kind = .mread)
    ∧ (s.lastMwrite = none ↔ ∀ i ∈ s.outstanding, i.op.kind = .mread))

/-! ### Timers -/

/-- A tick: every GATHERING age rises by one up to 255, the hold timer by one, and the divider in force
governs the next interval. Nothing else changes. (That all of it is one event, before the offer that
follows a hold expiry of the same tick, is the model's choice: log entry 26.) -/
def Obligations.TickAdvancesTimers : Prop :=
  ∀ s : State, let t := s.settle
    exec .tick s = .next { t with
      tickInterval := t.tickDivider
      disp := match t.disp with
        | .holding timer => .holding (timer + 1)
        | other => other
      entries := t.entries.map fun e => match e.slot with
        | .held .gathering b => { e with slot := .held .gathering { b with age := min 255 (b.age + 1) } }
        | _ => e }

/-- The age trigger flushes the GATHERING entries whose age has reached their window's nonzero gather
timeout. One such entry leaves GATHERING with the next flush rank: to CONVERTING with a FLUSH job when
its written set is whole or it has a base image, otherwise to MERGING with its merge read requested.
Several start at one event in open order: they take consecutive ranks, and their jobs and merge reads
stand in that order. The other entries stay. Flushes start so wherever several GATHERING entries are flushed
at one event. -/
def Obligations.AgeTriggerFlushes : Prop :=
  (∀ (s : State) (g : Fin 8) (b : Gather), s.aged = [g] → s.entries[g].slot = .held .gathering b →
    let t : State := { s with
      rankCounter := s.rankCounter + 1, flushOrder := s.flushOrder ++ [g]
      reoffer := s.reoffer || decide (s.disp = .blocked .gatherBuffer) }
    let ranked : Gather := { b with rank := some s.rankCounter }
    (b.bytes.all (·.isSome) = true ∨ b.base.isSome = true →
      exec .ageTrigger s = .next { t with
        entries := s.entries.set g { s.entries[g] with slot := .held .converting ranked }
        toPlace := s.toPlace ++ [.flush g s.entries[g].openOrder b.key b.bytes b.base none] })
    ∧ (b.bytes.all (·.isSome) = false → b.base = none →
      let ops := splitOps .mread (s.storeAddrOf b.key) (s.descOf b.key).storeLen []
        fun _ => .entry g .merging
      exec .ageTrigger s = .next { t with
        entries := s.entries.set g { s.entries[g] with slot := (.held .merging
          { ranked with opsLeft := ops.length, got := [], failed := false }) }
        units := s.units ++ [{ owner := .entry g, ops }] }))
  ∧ (∀ s : State, s.openList.Nodup →
    let gs := s.openList.filter fun g => match s.entries[g].slot with
      | .held .gathering b =>
        decide (1 ≤ s.windows[b.key.window].cfg.gatherTimeout
          ∧ s.windows[b.key.window].cfg.gatherTimeout ≤ b.age)
      | .held .merging _ | .held .converting _ | .held .writing _ | .free => false
    let direct := fun b : Gather => b.bytes.all (·.isSome) || b.base.isSome
    let ops := fun (g : Fin 8) (b : Gather) =>
      splitOps .mread (s.storeAddrOf b.key) (s.descOf b.key).storeLen [] fun _ => .entry g .merging
    let started := gs.filterMap fun g => match s.entries[g].slot with
      | .held .gathering b => some (g, b)
      | .held .merging _ | .held .converting _ | .held .writing _ | .free => none
    ∃ u, exec .ageTrigger s = .next u
      ∧ u = { s with
          rankCounter := s.rankCounter + BitVec.ofNat 32 gs.length, flushOrder := s.flushOrder ++ gs
          reoffer := s.reoffer || (!gs.isEmpty && decide (s.disp = .blocked .gatherBuffer))
          toPlace := s.toPlace ++ (started.filter fun x => direct x.2).map fun x =>
            .flush x.1 s.entries[x.1].openOrder x.2.key x.2.bytes x.2.base none
          units := s.units ++ (started.filter fun x => !direct x.2).map fun x =>
            { owner := .entry x.1, ops := ops x.1 x.2 }
          entries := u.entries }
      ∧ (∀ (j : Nat) (g : Fin 8) (b : Gather), gs[j]? = some g → s.entries[g].slot = .held .gathering b →
          let ranked : Gather := { b with rank := some (s.rankCounter + BitVec.ofNat 32 j) }
          u.entries[g] = { s.entries[g] with
            slot := if direct b then .held .converting ranked
              else .held .merging
                { ranked with opsLeft := (ops g b).length, got := [], failed := false } })
      ∧ (∀ g : Fin 8, g ∉ gs → u.entries[g] = s.entries[g]))
  ∧ (∀ (s : State) (gs : List (Fin 8)), gs.Nodup →
    (∀ g ∈ gs, ∃ b, s.entries[g].slot = .held .gathering b) →
    let direct := fun b : Gather => b.bytes.all (·.isSome) || b.base.isSome
    let ops := fun (g : Fin 8) (b : Gather) =>
      splitOps .mread (s.storeAddrOf b.key) (s.descOf b.key).storeLen [] fun _ => .entry g .merging
    let started := gs.filterMap fun g => match s.entries[g].slot with
      | .held .gathering b => some (g, b)
      | .held .merging _ | .held .converting _ | .held .writing _ | .free => none
    ∃ u, u = s.startFlushes gs
      ∧ u = { s with
          rankCounter := s.rankCounter + BitVec.ofNat 32 gs.length, flushOrder := s.flushOrder ++ gs
          reoffer := s.reoffer || (!gs.isEmpty && decide (s.disp = .blocked .gatherBuffer))
          toPlace := s.toPlace ++ (started.filter fun x => direct x.2).map fun x =>
            .flush x.1 s.entries[x.1].openOrder x.2.key x.2.bytes x.2.base none
          units := s.units ++ (started.filter fun x => !direct x.2).map fun x =>
            { owner := .entry x.1, ops := ops x.1 x.2 }
          entries := u.entries }
      ∧ (∀ (j : Nat) (g : Fin 8) (b : Gather), gs[j]? = some g → s.entries[g].slot = .held .gathering b →
          let ranked : Gather := { b with rank := some (s.rankCounter + BitVec.ofNat 32 j) }
          u.entries[g] = { s.entries[g] with
            slot := if direct b then .held .converting ranked
              else .held .merging
                { ranked with opsLeft := (ops g b).length, got := [], failed := false } })
      ∧ (∀ g : Fin 8, g ∉ gs → u.entries[g] = s.entries[g]))

/-- The hold timer at the hold limit of the held request's window: the request is READY with ERROR, one
HELD record is handed over, the dispatcher leaves HOLDING. Below the limit nothing happens: the command is
not due then (the model's choice: log entries 1 and 2). A window command that comes next acts before the
next transaction is offered (R169; how the model tells that it comes with the expiry: log entry 24). -/
def Obligations.HoldExpiryAnswers : Prop :=
  (∀ (s : State) (q : Txn) (d : Decode) (timer : Nat), s.disp = .holding timer → s.nextTxn = some q →
    s.decode q.req.addr = some d →
    (s.windows[d.window].cfg.holdLimit ≤ timer →
      let txns := withTxn s.txns q.id (.ready .error [])
      exec .holdExpiry s = .next
        { (s.handOver { seq := 0, kind := .held, action := .faulted, path := .hold, window := d.window
                        record := none, field := none, viewAddr := some q.req.addr
                        tag := some q.req.tag, detail := none }) with
          txns, disp := .idle, reoffer := txns.any Txn.isQueued })
    ∧ (timer < s.windows[d.window].cfg.holdLimit → exec .holdExpiry s = .next s))
  ∧ (∀ (s : State) (payload : List Byte), s.disp = .idle → s.reoffer = true →
    s.placementDue = false → s.startDue = false → s.issueDue = false →
    (∀ w : Fin 8, s.drainDue w = false) → s.aged = [] →
    s.atWindowRelease payload
      = { s.endPeriod (List.replicate (payload.length + 4) 0xFF) with reoffer := false })

/-! ### The memory queue -/

/-- The first waiting unit in arbitration order is issued when the free slots number at least its
operations: they join the outstanding list, lower before upper. A unit of the dispatcher ends the issue
phase or requests the next field read. A unit that does not fit waits, and nothing changes. Among the
flush units the one whose entry was triggered first (flush rank) is first, however the units stand in the
waiting list. The dispatcher's unit is first when no flush unit waits, and only then. -/
def Obligations.UnitIssuedInOrder : Prop :=
  (∀ (s : State) (u : MemUnit), s.firstUnit = some u →
    let t : State := { s with
      units := s.units.erase u, outstanding := s.outstanding ++ issuedFrom s.opCounter u.ops
      opCounter := s.opCounter + u.ops.length }
    (s.outstanding.length + u.ops.length ≤ 8 →
      (∀ g, u.owner = .entry g → exec .unitIssue s = .next t)
      ∧ (∀ id, u.owner = .dispatcher → s.disp = .issuing id [] →
        exec .unitIssue s = .next { t with disp := .idle })
      ∧ (∀ id ops rest, u.owner = .dispatcher → s.disp = .issuing id (ops :: rest) →
        exec .unitIssue s = .next { t with
          disp := .issuing id rest, units := t.units ++ [{ owner := .dispatcher, ops }] }))
    ∧ (8 < s.outstanding.length + u.ops.length → u.ops ≠ [] → exec .unitIssue s = .next s))
  ∧ (∀ (s : State) (u : MemUnit) (g : Fin 8) (earlier later : List (Fin 8)),
    (s.units.map (·.owner)).Nodup → u ∈ s.units → u.owner = .entry g →
    s.flushOrder = earlier ++ g :: later → (∀ h ∈ earlier, ∀ v ∈ s.units, v.owner ≠ .entry h) →
    s.firstUnit = some u)
  ∧ (∀ (s : State) (u : MemUnit), (s.units.map (·.owner)).Nodup → u ∈ s.units → u.owner = .dispatcher →
    (s.firstUnit = some u ↔ ∀ g ∈ s.flushOrder, ∀ v ∈ s.units, v.owner ≠ .entry g))

/-- The completion of a pass-through makes its transaction READY with the completion's outcome and, for
a READ with OKAY, its data. A completion with no operation outstanding, or for an operation of nobody, is
discarded; the completion of an MWRITE leaves the waiting FENCEs in every case (what that does to them is
written out in FieldWriteCompleted). -/
def Obligations.PassThroughCompleted : Prop :=
  ∀ s : State, let t := s.settle
    t.rstLow = false →
    (∀ i rest id, t.outstanding = i :: rest → i.op.source = .passThrough id →
      (∀ data, i.op.kind = .mread → data.length = i.op.size →
        exec (.completion (.okay data)) s = .next { t with
          outstanding := rest, txns := withTxn t.txns id (.ready .okay data) })
      ∧ (i.op.kind = .mread →
        exec (.completion .error) s = .next { t with
          outstanding := rest, txns := withTxn t.txns id (.ready .error []) })
      ∧ (i.op.kind = .mwrite →
        exec (.completion (.okay [])) s = .next { t with
          outstanding := rest
          txns := (withTxn t.txns id (.ready .okay [])).map (Txn.fenceWritten i.id) })
      ∧ (i.op.kind = .mwrite →
        exec (.completion .error) s = .next { t with
          outstanding := rest
          txns := (withTxn t.txns id (.ready .error [])).map (Txn.fenceWritten i.id) }))
    ∧ (∀ i rest c, t.outstanding = i :: rest → i.op.source = .nobody → i.op.accepts c = true →
      (i.op.kind = .mread → exec (.completion c) s = .next { t with outstanding := rest })
      ∧ (i.op.kind = .mwrite → exec (.completion c) s = .next { t with
          outstanding := rest, txns := t.txns.map (Txn.fenceWritten i.id) }))
    ∧ (∀ c, t.outstanding = [] → exec (.completion c) s = .next t)

/-- The first completion of a pair of MWRITEs is kept, and the entry goes on WRITING. The last completion
of a field write frees its entry: with OKAY throughout the fault marker is clear; when it or an earlier
one carried ERROR, the marker is set and one MEMERR record is handed over on path FLUSH. The freed entry
keeps its open order, leaves the open and the flush order, and a BLOCKED dispatcher offers again. The
outcome goes to the transactions of the confirm list, and the waiting FENCEs lose the entry and the
MWRITE. Nothing else changes.
An outcome lowers a transaction's pending count by one and, when it is ERROR, sets its error flag; at 0
the transaction is READY with ERROR if the flag is set and with OKAY otherwise. A freed entry and a
completed MWRITE leave a FENCE's record, and the FENCE whose record is empty is READY with OKAY. Any
other transaction stays. Freeing an entry does the same from every state in which a flush can end. -/
def Obligations.FieldWriteCompleted : Prop :=
  (∀ (s : State) (i : Issued) (rest : List Issued) (g : Fin 8) (b : Gather), let t := s.settle
    t.rstLow = false → t.outstanding = i :: rest → i.op.source = .entry g .writing →
    i.op.kind = .mwrite → t.entries[g].slot = .held .writing b →
    let freed := fun outcome : Answer => { t with
      outstanding := rest
      entries := t.entries.set g
        { openOrder := t.entries[g].openOrder, fault := outcome == .error, slot := .free }
      openList := t.openList.filter fun e => e != g
      flushOrder := t.flushOrder.filter fun e => e != g
      txns := t.txns.map fun (x : Txn) =>
        ((if b.confirm.contains x.id then x.confirm outcome else x).fenceFreed g).fenceWritten i.id
      reoffer := t.reoffer || match t.disp with
        | .blocked _ => true
        | .idle | .holding _ | .issuing _ _ => false }
    (1 < b.opsLeft → ∀ c, i.op.accepts c = true → exec (.completion c) s = .next { t with
      outstanding := rest, txns := t.txns.map (Txn.fenceWritten i.id)
      entries := t.entries.set g { t.entries[g] with slot := (.held .writing
        { b with opsLeft := b.opsLeft - 1, got := b.got ++ c.bytes
                 failed := b.failed || decide (c = .error) }) } })
    ∧ (b.opsLeft ≤ 1 → b.failed = false → exec (.completion (.okay [])) s = .next (freed .okay))
    ∧ (b.opsLeft ≤ 1 → ∀ c, i.op.accepts c = true → b.failed = true ∨ c = .error →
      (t.log.length < 16 → exec (.completion c) s = .next { freed .error with
        seqCounter := t.seqCounter + 1
        log := t.log ++
          [{ seq := t.seqCounter, kind := .memErr, action := .faulted, path := .flush
             window := b.key.window, record := some b.key.record, field := some b.key.field
             viewAddr := none, tag := none, detail := none }] })
      ∧ (16 ≤ t.log.length → exec (.completion c) s = .next { freed .error with
        seqCounter := t.seqCounter + 1, dropped := min 255 (t.dropped + 1) })))
  ∧ (∀ (x : Txn) (outcome : Answer),
    (∀ w count errorFlag, x.state = .waiting (.windowWrite w count errorFlag) →
      let failed := errorFlag || outcome == .error
      (1 < count →
        x.confirm outcome = { x with state := .waiting (.windowWrite w (count - 1) failed) })
      ∧ (count ≤ 1 →
        x.confirm outcome = { x with state := .ready (if failed then .error else .okay) [] }))
    ∧ ((∀ w count errorFlag, x.state ≠ .waiting (.windowWrite w count errorFlag)) →
      x.confirm outcome = x))
  ∧ (∀ (x : Txn) (g : Fin 8) (op : Nat),
    (∀ entries last, x.state = .waiting (.fence entries last) →
      let recorded := fun (entries : List (Fin 8)) (last : Option Nat) => { x with
        state := if entries = [] ∧ last = none then .ready .okay [] else .waiting (.fence entries last) }
      x.fenceFreed g = recorded (entries.filter fun e => e != g) last
      ∧ x.fenceWritten op = recorded entries (if last = some op then none else last))
    ∧ ((∀ entries last, x.state ≠ .waiting (.fence entries last)) →
      x.fenceFreed g = x ∧ x.fenceWritten op = x))
  ∧ (∀ (s : State) (g : Fin 8) (stage : Stage) (b : Gather) (outcome : Answer),
    s.entries[g].slot = .held stage b →
    s.freeEntry g outcome = { s with
      entries := s.entries.set g
        { openOrder := s.entries[g].openOrder, fault := outcome == .error, slot := .free }
      openList := s.openList.filter fun e => e != g
      flushOrder := s.flushOrder.filter fun e => e != g
      txns := s.txns.map fun (x : Txn) =>
        (if b.confirm.contains x.id then x.confirm outcome else x).fenceFreed g
      reoffer := s.reoffer || match s.disp with
        | .blocked _ => true
        | .idle | .holding _ | .issuing _ _ => false })

/-- The first completion of a pair of MREADs, and every completion of a window READ before its last, is
kept with its data or its ERROR and changes nothing else. The last completion of a merge read, when none
failed, puts the entry in CONVERTING and its FLUSH job with the merge data waits for a place; with ERROR
the entry is freed (FieldWriteCompleted writes that out) with one MEMERR record on path MERGE. The last
completion of a window READ's field
reads, when none failed, makes its READ job wait for a place; when one did, the READ is READY with ERROR
and one MEMERR record per failing field. -/
def Obligations.ReadsOfMemoryCompleted : Prop :=
  ∀ (s : State) (i : Issued) (rest : List Issued) (c : Completion), let t := s.settle
    t.rstLow = false → t.outstanding = i :: rest → i.op.kind = .mread → i.op.accepts c = true →
    let t' : State := { t with outstanding := rest }
    (∀ (g : Fin 8) (b : Gather), i.op.source = .entry g .merging →
      t.entries[g].slot = .held .merging b →
      (1 < b.opsLeft → exec (.completion c) s = .next { t' with
        entries := t.entries.set g { t.entries[g] with slot := (.held .merging
          { b with opsLeft := b.opsLeft - 1, got := b.got ++ c.bytes
                   failed := b.failed || decide (c = .error) }) } })
      ∧ (b.opsLeft ≤ 1 → b.failed = false → c ≠ .error → exec (.completion c) s = .next { t' with
        entries := t.entries.set g { t.entries[g] with
          slot := .held .converting { b with opsLeft := b.opsLeft - 1, got := [] } }
        toPlace := t.toPlace
          ++ [.flush g t.entries[g].openOrder b.key b.bytes none (some (b.got ++ c.bytes))] })
      ∧ (b.opsLeft ≤ 1 → b.failed = true ∨ c = .error → exec (.completion c) s = .next
        ((t'.handOver { seq := 0, kind := .memErr, action := .faulted, path := .merge
                        window := b.key.window, record := some b.key.record, field := some b.key.field
                        viewAddr := none, tag := none, detail := none }).freeEntry g .error)))
    ∧ (∀ (id field : Nat) (half : Half) (q : Txn) (ctx : ReadCtx),
      i.op.source = .windowRead id field half → t.txn? id = some q →
      q.state = .waiting (.windowRead ctx) →
      let fields := ctx.fields.map fun m =>
        if m.field = field then
          { m with got := m.got ++ c.bytes, failed := m.failed || decide (c = .error) }
        else m
      (1 < ctx.opsLeft → exec (.completion c) s = .next { t' with
        txns := withTxn t.txns id (.waiting (.windowRead
          { ctx with fields, opsLeft := ctx.opsLeft - 1 })) })
      ∧ (ctx.opsLeft ≤ 1 → (∀ m ∈ fields, m.failed = false) → exec (.completion c) s = .next { t' with
        txns := withTxn t.txns id (.waiting (.windowRead
          { ctx with fields, opsLeft := ctx.opsLeft - 1 }))
        toPlace := t.toPlace
          ++ [.read id ctx.window ctx.record ctx.offset ctx.size fields] })
      ∧ (ctx.opsLeft ≤ 1 → (∃ m ∈ fields, m.failed = true) → exec (.completion c) s = .next
        { (t'.handOverAll ((fields.filter (·.failed)).map fun m =>
            { seq := 0, kind := .memErr, action := .faulted, path := .read, window := ctx.window
              record := some ctx.record, field := some m.field, viewAddr := some q.req.addr
              tag := some q.req.tag, detail := none })) with
          txns := withTxn t.txns id (.ready .error []) }))

/-! ### Drain and conversion -/

/-- A DRAINING window whose drain condition holds becomes SUSPENDED on its activation sizes, and a
BLOCKED or HOLDING dispatcher offers again (log entry 1). Any other window stays as it is. The drain
condition: no entry that is not FREE is keyed to the window, no transaction is WAITING as a window READ or
WRITE of it, and no READ job that names it is queued, running or waits for a place. -/
def Obligations.DrainCompletes : Prop :=
  ∀ (s : State) (w : Fin 8),
    let drained := (∀ (g : Fin 8) (stage : Stage) (b : Gather),
        s.entries[g].slot = .held stage b → b.key.window ≠ w)
      ∧ (∀ x ∈ s.txns, (∀ ctx, x.state = .waiting (.windowRead ctx) → ctx.window ≠ w)
        ∧ ∀ v count errorFlag, x.state = .waiting (.windowWrite v count errorFlag) → v ≠ w)
      ∧ (∀ id v record offset size fields,
        Job.read id v record offset size fields ∈ s.jobs ++ s.toPlace → v ≠ w)
    (∀ va sa, s.windows[w].status = .live .draining va sa → drained →
      exec (.drainComplete w) s = .next { s with
        windows := s.windows.set w { s.windows[w] with status := .live .suspended va sa }
        reoffer := s.reoffer || (match s.disp with
          | .blocked _ | .holding _ => true
          | .idle | .issuing _ _ => false) })
    ∧ ((∀ va sa, s.windows[w].status ≠ .live .draining va sa) ∨ ¬ drained →
      exec (.drainComplete w) s = .next s)

/-- The first job that waits for a place takes it behind every queued job when the queue holds fewer
than 16; the IDLE unit starts the oldest queued job. Otherwise nothing happens: the command is not due
then (the model's choice: log entries 1 and 2). -/
def Obligations.JobsPlacedAndStarted : Prop :=
  ∀ s : State,
    (∀ j rest, s.toPlace = j :: rest → s.jobs.length < 16 →
      exec .jobPlacement s = .next { s with jobs := s.jobs ++ [j], toPlace := rest })
    ∧ (s.toPlace = [] ∨ 16 ≤ s.jobs.length → exec .jobPlacement s = .next s)
    ∧ (s.running = false → s.jobs ≠ [] → exec .jobStart s = .next { s with running := true })
    ∧ (s.running = true ∨ s.jobs = [] → exec .jobStart s = .next s)

/-- The end of a FLUSH job: the reverse step of the merge input, if there is one, then the forward step
over the composite image. A reverse exception under STRICT frees the entry with ERROR and one FAULTED
record on path MERGE; a forward exception under STRICT does so on path FLUSH. Otherwise the entry goes to
WRITING with the forward result, and each exception under SUBSTITUTE leaves one SUBSTITUTED record. (What
freeing an entry does is written out in FieldWriteCompleted.)
The composite takes every written position from the view image and every other from the base image. The
store address of a field is store base + record index x stride + store offset. The operations over a
field's store bytes: one when they lie in one 32-byte block, otherwise the part below the boundary and
then the part from it on. They cover exactly these bytes, each lies in one block, and the data is divided
at the boundary. -/
def Obligations.FlushJobEnds : Prop :=
  (∀ (s : State) (g : Fin 8) (opening : BitVec 32) (k : Key) (base merge : Option (List Byte))
    (rest : List Job) (b : Gather), let t := s.settle
    t.running = true → t.jobs = .flush g opening k b.bytes base merge :: rest →
    t.entries[g].slot = .held .converting b → t.entries[g].openOrder = opening → b.key = k →
    let cfg := t.windows[k.window].cfg
    let record := fun (path : ExcPath) (action : ExcAction) (e : ExcKind × Option (Nat × Byte)) =>
      { seq := 0, kind := e.1, action, path, window := k.window, record := some k.record
        field := some k.field, viewAddr := none, tag := none, detail := e.2 : ExcRecord }
    let ended : State := { t with jobs := rest, running := false }
    let forward := fun (u : State) (image : Option (List Byte)) =>
      let out := t.convertForward cfg (t.descOf k) (composite b.bytes image)
      let ops := splitOps .mwrite (t.storeAddrOf k) (t.descOf k).storeLen out.result
        fun _ => .entry g .writing
      let write := fun (u : State) => { u with
        entries := u.entries.set g { u.entries[g] with slot := (.held .writing
          { b with base := image, opsLeft := ops.length, got := [], failed := false }) }
        units := u.units ++ [{ owner := .entry g, ops }] }
      match out.exc, cfg.policy with
      | none, _ => write u
      | some e, .strict => (u.handOver (record .flush .faulted e)).freeEntry g .error
      | some e, .substitute => write (u.handOver (record .flush .substituted e))
    (merge = none → exec .flushJobEnd s = .next (forward ended base))
    ∧ (∀ store, merge = some store →
      let rev := t.convertReverse cfg (t.descOf k) store
      (rev.exc = none → exec .flushJobEnd s = .next (forward ended (some rev.result)))
      ∧ (∀ e, rev.exc = some e → cfg.policy = .strict → exec .flushJobEnd s = .next
        ((ended.handOver (record .merge .faulted e)).freeEntry g .error))
      ∧ (∀ e, rev.exc = some e → cfg.policy = .substitute → exec .flushJobEnd s = .next
        (forward (ended.handOver (record .merge .substituted e)) (some rev.result)))))
  ∧ (∀ (bytes : List (Option Byte)) (base : Option (List Byte)) (p : Nat),
    (composite bytes base).length = bytes.length
    ∧ (∀ b, bytes[p]? = some (some b) → (composite bytes base)[p]? = some b)
    ∧ (∀ image b, bytes[p]? = some none → base = some image → image[p]? = some b →
      (composite bytes base)[p]? = some b))
  ∧ (∀ (s : State) (k : Key) (f : FieldDesc), (s.fieldsOf k.window)[k.field]? = some f →
    let cfg := s.windows[k.window].cfg
    s.descOf k = f ∧ s.storeAddrOf k = cfg.storeBase + k.record * cfg.stride + f.storeOff)
  ∧ (∀ (kind : OpKind) (start len : Nat) (data : List Byte) (source : Half → Source), 1 ≤ len →
    let boundary := 32 * (start / 32 + 1)
    let ops := splitOps kind start len data source
    (start + len ≤ boundary →
      ops = [{ kind, addr := start, size := len, data, source := source .whole }])
    ∧ (boundary < start + len → ops =
      [{ kind, addr := start, size := boundary - start, data := data.take (boundary - start)
         source := source .lower },
       { kind, addr := boundary, size := start + len - boundary, data := data.drop (boundary - start)
         source := source .upper }])
    ∧ (∀ a, (start ≤ a ∧ a < start + len) ↔ ∃ op ∈ ops, op.addr ≤ a ∧ a < op.addr + op.size)
    ∧ (ops.map (·.size)).sum = len ∧ ops.flatMap (·.data) = data
    ∧ (len ≤ 32 → ∀ op ∈ ops, 1 ≤ op.size ∧ op.addr / 32 = (op.addr + op.size - 1) / 32)
    ∧ (data.length = len → ∀ op ∈ ops, op.data.length = op.size))

/-- The end of a READ job. Each memory field's store bytes are converted in reverse, and one record is
handed over per field with an exception, in the order of the fields: FAULTED under STRICT, SUBSTITUTED
under SUBSTITUTE, with the request's address (log entry 16) and tag. Each field's result under its
snapshot gives the response bytes the dispatch left open. A live read is READY with ERROR under STRICT
with an exception, and READY with OKAY and the image otherwise; a removed read has no answer, and its
records have no tag. Whatever the policy, an entry that is GATHERING in the opening a clean field
recorded, with no base image, takes that field's result without the snapshot as its base image, the first
such field's; every other backfill is dropped. Nothing else changes. -/
def Obligations.ReadJobEnds : Prop :=
  ∀ (s : State) (id : Nat) (w : Fin 8) (record offset size : Nat) (fields : List MemField)
    (rest : List Job), let t := s.settle
    t.running = true → t.jobs = .read id w record offset size fields :: rest →
    let cfg := t.windows[w].cfg
    let outs : List (MemField × ConvOutcome) :=
      fields.map fun m => (m, t.convertReverse cfg (t.fieldDesc w m.field) m.got)
    let strict := decide (cfg.policy = .strict)
    let records := fun tag : Option Tag => outs.filterMap fun x => x.2.exc.map fun e =>
      { seq := 0, kind := e.1, action := if strict then .faulted else .substituted, path := .read
        window := w, record := some record, field := some x.1.field
        viewAddr := some (cfg.viewBase + record * t.windows[w].status.viewSize + offset)
        tag, detail := e.2 : ExcRecord }
    let logged := fun tag => (records tag).foldl State.handOver { t with jobs := rest, running := false }
    let entryAfter := fun g : Fin 8 => match t.entries[g].slot with
      | .held .gathering b =>
        match outs.find? fun x =>
          x.1.backfill == some (g, t.entries[g].openOrder) && x.2.exc.isNone with
        | some x =>
          if b.base.isNone then
            { t.entries[g] with slot := .held .gathering { b with base := some x.2.result } }
          else t.entries[g]
        | none => t.entries[g]
      | .held .merging _ | .held .converting _ | .held .writing _ | .free => t.entries[g]
    (∀ (q : Txn) (ctx : ReadCtx), t.txn? id = some q → q.state = .waiting (.windowRead ctx) →
      let readResult := fun x : MemField × ConvOutcome =>
        x.1.snapshot.foldl (fun image p => image.set p.1 p.2) x.2.result
      let image := (List.range ctx.image.length).map fun k => (ctx.image.getD k none).getD <|
        match ownerOf (t.fieldsOf w) (ctx.offset + k) with
        | some (f, i) => match outs.find? fun x => x.1.field == i with
          | some x => (readResult x).getD (ctx.offset + k - f.viewOff) 0
          | none => 0
        | none => 0
      let answer : TxnState :=
        if strict && outs.any (·.2.exc.isSome) then .ready .error [] else .ready .okay image
      ∃ u, exec .readJobEnd s = .next u
        ∧ u = { logged (some q.req.tag) with txns := withTxn t.txns id answer, entries := u.entries }
        ∧ ∀ g : Fin 8, u.entries[g] = entryAfter g)
    ∧ (t.txn? id = none →
      ∃ u, exec .readJobEnd s = .next u ∧ u = { logged none with entries := u.entries }
        ∧ ∀ g : Fin 8, u.entries[g] = entryAfter g)

/-! ### Code tables and conversions -/

/-- The completion of the build: the table takes the load buffer with its derived reverse map and load
report, every VALID layout that names it is rechecked, and the result buffer holds DONE with the
bijective flag and the unreached count. Nothing else changes. A recheck leaves a VALID layout that passes
the commit checks as it is, and makes one that fails them INVALID with the first failing check's reason and
field (LayoutCommitDecides); it reaches no layout of another state. Without a build nothing happens: the
completion is not due then (the model's choice: log entry 2). -/
def Obligations.TableBuildCompletes : Prop :=
  (∀ s : State, let t := s.settle
    (∀ b, t.build = some b →
      let tables := t.tables.set b.table (.loaded b.entries (reverseMap b.entries)
        (isBijective b.entries) (unreachedCount b.entries))
      exec .tableBuildComplete s = .next { t with
        build := none, tables
        layouts := t.layouts.map fun l =>
          if l.namesTable b.table then l.rechecked tables t.programs else l
        result := { code := .done, command := 0x30
                    data := flagByte (isBijective b.entries) :: beBytes 2 (unreachedCount b.entries) } })
    ∧ (t.build = none → exec .tableBuildComplete s = .next t))
  ∧ (∀ (tables : Vector CodeTable 4) (programs : Vector Program 32) (l : Layout),
    (∀ va sa fields, l = .built .valid va sa fields →
      (commitCheck tables programs va sa fields = none → l.rechecked tables programs = l)
      ∧ (∀ reason field, commitCheck tables programs va sa fields = some (reason, field) →
        l.rechecked tables programs = .built (.invalid reason field) va sa fields))
    ∧ ((∀ va sa fields, l ≠ .built .valid va sa fields) → l.rechecked tables programs = l))

/-- The load report of a code table (R27): the unreached count is the number of store codes whose reverse
entry is NONE, at most 256; the bijective flag is yes when no forward entry is NONE and no two view codes
have the same forward entry, which is so exactly when the unreached count is 0. Tables of NONE only, and
of one store code only, have 256 and 255. -/
def Obligations.LoadReportOfTable : Prop :=
  ∀ forward : List (Option Byte), forward.length = 256 →
    unreachedCount forward
        = ((List.range 256).filter fun c => (reverseMap forward)[c]? == some none).length
    ∧ unreachedCount forward ≤ 256
    ∧ (isBijective forward = true ↔
        (∀ v : Byte, forward[v.toNat]? ≠ some none)
          ∧ ∀ v v' : Byte, v ≠ v' → forward[v.toNat]? ≠ forward[v'.toNat]?)
    ∧ (isBijective forward = true ↔ unreachedCount forward = 0)
    ∧ ((∀ e ∈ forward, e = none) → unreachedCount forward = 256)
    ∧ (∀ c : Byte, (∀ e ∈ forward, e = some c) → unreachedCount forward = 255)

/-- The reverse entry of a store code is the least view code whose forward entry it is, NONE when there
is none. RAW fields are copied in both directions without exception. TEXT fields translate the positions
both sides share, with the substitute at unmapped ones, and fill the rest; the exception is UNMAPPED at
the first unmapped position, else TRUNCATE at the first byte beyond the other side's length that is not
this side's fill, else none. A table translates by its own entries, and no table leaves a code as it is. -/
def Obligations.ReverseMapAndTextConversions : Prop :=
  (∀ (forward : List (Option Byte)) (c : Byte), forward.length = 256 →
    (reverseMap forward).length = 256
    ∧ (∀ v : Byte, (reverseMap forward)[c.toNat]? = some (some v) ↔
        forward[v.toNat]? = some (some c)
          ∧ ∀ v' : Byte, v'.toNat < v.toNat → forward[v'.toNat]? ≠ some (some c))
    ∧ ((reverseMap forward)[c.toNat]? = some none ↔ ∀ v : Byte, forward[v.toNat]? ≠ some (some c)))
  ∧ (∀ (s : State) (cfg : WindowCfg) (f : FieldDesc) (image : List Byte), f.kind = .raw →
    s.convertForward cfg f image = { result := image, exc := none }
    ∧ s.convertReverse cfg f image = { result := image, exc := none })
  ∧ (∀ (s : State) (cfg : WindowCfg) (f : FieldDesc) (table : Option (Fin 4)) (viewFill storeFill : Byte)
      (image : List Byte), f.kind = .text table viewFill storeFill →
    let converted := fun (translate : Byte → Option Byte) (substitute outFill inFill : Byte)
        (outLen : Nat) (out : ConvOutcome) =>
      out.result.length = outLen
      ∧ (∀ p, p < outLen → image.length ≤ p → out.result[p]? = some outFill)
      ∧ (∀ p b, p < outLen → image[p]? = some b →
          out.result[p]? = some ((translate b).getD substitute))
      ∧ (∀ p b, p < outLen → image[p]? = some b → translate b = none →
          (∀ p' b', p' < p → image[p']? = some b' → translate b' ≠ none) →
          out.exc = some (.unmapped, some (p, b)))
      ∧ ((∀ p b, p < outLen → image[p]? = some b → translate b ≠ none) →
          (∀ p b, outLen ≤ p → image[p]? = some b → b ≠ inFill →
            (∀ p' b', outLen ≤ p' → p' < p → image[p']? = some b' → b' = inFill) →
            out.exc = some (.truncate, some (p, b)))
          ∧ ((∀ p b, outLen ≤ p → image[p]? = some b → b = inFill) → out.exc = none))
    converted (translateForward s.tables table) cfg.storeSub storeFill viewFill f.storeLen
      (s.convertForward cfg f image)
    ∧ converted (translateReverse s.tables table) cfg.viewSub viewFill storeFill f.viewLen
      (s.convertReverse cfg f image))
  ∧ (∀ (tables : Vector CodeTable 4) (t : Fin 4) (forward rev : List (Option Byte)) (bijective : Bool)
      (unreached : Nat) (c : Byte), tables[t] = .loaded forward rev bijective unreached →
    translateForward tables (some t) c = forward.getD c.toNat none
    ∧ translateReverse tables (some t) c = rev.getD c.toNat none
    ∧ translateForward tables none c = some c ∧ translateReverse tables none c = some c)

/-- A PACKED value written without OVERFLOW reads back unchanged. Forward PACKED writes the sign nibble 0xF
under UNSIGNED, 0xC or 0xD under SIGNED, the digits of a magnitude that fits, nines with OVERFLOW otherwise.
Reverse PACKED fails with DIGIT or SIGN at the first bad nibble, giving 0, and else takes the digits with the
sign. Forward EDITED fails with OVERFLOW and the overflow mark for a magnitude beyond the digit count or a
negative value without MINUS; else it translates the text, with UNMAPPED at the first position without a store
code. Reverse EDITED fails with UNMAPPED at the first such store byte and with SYNTAX where the parse first
fails, both giving 0, and else takes the digits with the sign. A value outside the view type gives RANGE with
the nearest bound.
The weights of view bytes, digits and nibbles are written out (R38, R39), and the positions of a program, each
under the last FILL (0x20 without one) and the last FLOAT before it (R44, R48).
Formatting (R50, R51): significance is on from the first REQ position or nonzero DIG digit. Before it DIG and
MARK show the fill; the one just before it shows the float character in force there. DIG and REQ else show
their digit, MARK and FIXED their operand, MINUS and PLUS their operand or the fill by the sign.
Parsing (R54 to R57): DIG takes a digit, REQ a digit, MARK and FIXED their operand; DIG and MARK before the
first digit also the fill, or the float character in force at a next position that is DIG with a digit code or
the first REQ; MINUS and PLUS the fill, or their operand unless the other opcode has shown its own. Fills and
float characters count as zeros; the value is negative when a MINUS showed its operand. -/
def Obligations.PackedAndEditedOutcomes : Prop :=
  (∀ (o : ByteOrder) (sg : Signedness) (n : Nat) (image : List Byte), 1 ≤ n → 1 ≤ image.length →
    (packedForward o sg n image).exc = none →
    packedReverse o sg image.length (packedForward o sg n image).result
      = { result := image, exc := none })
  ∧ (∀ (o : ByteOrder) (sg : Signedness) (n : Nat) (image : List Byte),
    let x := viewInteger o sg image
    let sign := if sg = .unsigned then 0xF else if 0 ≤ x then 0xC else 0xD
    let digits := decimalDigits (2 * n - 1) x.natAbs
    (x.natAbs < 10 ^ (2 * n - 1) →
      packedForward o sg n image = { result := packNibbles (digits ++ [sign]), exc := none })
    ∧ (10 ^ (2 * n - 1) ≤ x.natAbs →
      packedForward o sg n image
        = { result := packNibbles (List.replicate (2 * n - 1) 9 ++ [sign])
            exc := some (.overflow, none) }))
  ∧ (∀ (o : ByteOrder) (sg : Signedness) (viewLen : Nat) (y : Int),
    let written := fun x : Int => writeViewInteger o viewLen x
    let ranged := fun out : ConvOutcome =>
      (viewMin sg viewLen ≤ y → y ≤ viewMax sg viewLen → out = { result := written y, exc := none })
      ∧ (viewMax sg viewLen < y → 1 ≤ viewLen →
        out = { result := written (viewMax sg viewLen), exc := some (.range, none) })
      ∧ (y < viewMin sg viewLen → 1 ≤ viewLen →
        out = { result := written (viewMin sg viewLen), exc := some (.range, none) }
        ∧ (sg = .unsigned → viewMin sg viewLen = 0))
    (∀ store : List Byte, 1 ≤ store.length →
      let nibbles := unpackNibbles store
      let bad := fun (j v : Nat) => if j + 1 < nibbles.length then 9 < v else v ≤ 9
      (∀ j v, nibbles[j]? = some v → bad j v → (∀ j' v', j' < j → nibbles[j']? = some v' → ¬ bad j' v') →
        packedReverse o sg viewLen store =
          { result := List.replicate viewLen 0
            exc := some (if j + 1 < nibbles.length then .digit else .sign, some (j / 2, toByte v)) })
      ∧ ((∀ j v, nibbles[j]? = some v → ¬ bad j v) →
        let m : Int := digitsValue nibbles.dropLast
        let sign := nibbles.getLastD 0
        y = (if sign = 0xB ∨ sign = 0xD then -m else m) → ranged (packedReverse o sg viewLen store)))
    ∧ (∀ (translate : Byte → Option Byte) (steps : List EditStep) (store : List Byte),
      let out := editedReverse translate o sg viewLen steps store
      (∀ p b, store[p]? = some b → translate b = none →
        (∀ p' b', p' < p → store[p']? = some b' → translate b' ≠ none) →
        out = { result := List.replicate viewLen 0, exc := some (.unmapped, some (p, b)) })
      ∧ (∀ text, store.map translate = text.map some →
        (∀ k, parseWalk 0 .start ((positionsOf steps).zip text) = .error k →
          out = { result := List.replicate viewLen 0
                  exc := some (.syntaxError, some (k, store.getD k 0)) })
        ∧ (∀ st, parseWalk 0 .start ((positionsOf steps).zip text) = .ok st →
          let m : Int := digitsValue st.digits.reverse
          y = (if st.minusShown then -m else m) → ranged out))))
  ∧ (∀ (translate : Byte → Option Byte) (storeSub mark : Byte) (o : ByteOrder) (sg : Signedness)
      (storeLen : Nat) (steps : List EditStep) (image : List Byte),
    let x := viewInteger o sg image
    let out := editedForward translate storeSub mark o sg storeLen steps image
    let text := formatText steps x
    let overflows := 10 ^ digitCount steps ≤ x.natAbs
      ∨ x < 0 ∧ ∀ step ∈ steps, step.op ≠ .minus
    (overflows → out = { result := List.replicate storeLen mark, exc := some (.overflow, none) })
    ∧ (¬ overflows → out.result = text.map (fun c => (translate c).getD storeSub)
      ∧ (∀ p c, text[p]? = some c → translate c = none →
        (∀ p' c', p' < p → text[p']? = some c' → translate c' ≠ none) →
        out.exc = some (.unmapped, some (p, c)))
      ∧ ((∀ c ∈ text, translate c ≠ none) → out.exc = none)))
  ∧ (∀ (o : ByteOrder) (sg : Signedness) (image : List Byte),
    let size := image.length
    let sum := ((List.range size).map fun p =>
      (image.getD p 0).toNat * 256 ^ (if o = .little then p else size - 1 - p)).sum
    viewInteger o sg image
      = if sg = .signed ∧ 256 ^ size ≤ 2 * sum then (sum : Int) - 256 ^ size else sum)
  ∧ (∀ (o : ByteOrder) (len : Nat) (x : Int), (writeViewInteger o len x).length = len
    ∧ viewInteger o .unsigned (writeViewInteger o len x) = x % 256 ^ len)
  ∧ (∀ n : Nat, viewMin .unsigned n = 0 ∧ viewMax .unsigned n = 256 ^ n - 1
    ∧ viewMin .signed n = -(256 ^ n / 2) ∧ viewMax .signed n = 256 ^ n / 2 - 1)
  ∧ (∀ n v : Nat, (decimalDigits n v).length = n
    ∧ ∀ k < n, (decimalDigits n v)[k]? = some (v / 10 ^ (n - 1 - k) % 10))
  ∧ (∀ ds : List Nat, digitsValue ds
    = ((List.range ds.length).map fun k => ds.getD k 0 * 10 ^ (ds.length - 1 - k)).sum)
  ∧ (∀ (nibbles : List Nat) (m : Nat), nibbles.length = 2 * m → (packNibbles nibbles).length = m
    ∧ ∀ p < m, (packNibbles nibbles)[p]?
      = some (toByte (16 * nibbles.getD (2 * p) 0 + nibbles.getD (2 * p + 1) 0)))
  ∧ (∀ (store : List Byte) (p : Nat),
    (unpackNibbles store)[2 * p]? = store[p]?.map (fun b => b.toNat / 16)
    ∧ (unpackNibbles store)[2 * p + 1]? = store[p]?.map (fun b => b.toNat % 16))
  ∧ (∀ steps : List EditStep,
    let ps := positionsOf steps
    let isDigit : TextPos → Bool := fun pos => match pos with
      | .dig _ _ | .req _ _ => true
      | .mark _ _ _ | .fixed _ _ _ | .minus _ _ _ | .plus _ _ _ => false
    let last := fun (op : StepOp) (before : List EditStep) =>
      (before.reverse.find? fun y => y.op == op).map (·.operand)
    let produced := fun (y : EditStep) (fill : Byte) (float : Option Byte) => match y.op with
      | .dig => List.replicate y.operand.toNat (TextPos.dig fill float)
      | .req => List.replicate y.operand.toNat (.req fill float)
      | .mark => [.mark y.operand fill float]
      | .fixed => [.fixed y.operand fill float]
      | .minus => [.minus y.operand fill float]
      | .plus => [.plus y.operand fill float]
      | .fill | .float => []
    (ps = steps.zipIdx.flatMap fun y =>
      produced y.1 ((last .fill (steps.take y.2)).getD 0x20) (last .float (steps.take y.2)))
    ∧ digitCount steps = (ps.filter isDigit).length ∧ outputLength steps = ps.length
    ∧ (∀ x : Int,
      let ds := decimalDigits (digitCount steps) x.natAbs
      let digit := fun q : Nat => ds.getD ((ps.take q).filter isDigit).length 0
      let turns : Nat → Bool := fun q => match ps[q]? with
        | some (.dig _ _) => digit q != 0
        | some (.req _ _) => true
        | _ => false
      let on := fun q : Nat => (List.range (q + 1)).any turns
      let shown : Nat → TextPos → Byte := fun q pos => match pos with
        | .dig fill _ => if on q then toByte (0x30 + digit q) else fill
        | .req _ _ => toByte (0x30 + digit q)
        | .mark c fill _ => if on q then c else fill
        | .fixed c _ _ => c
        | .minus c fill _ => if x < 0 then c else fill
        | .plus c fill _ => if x < 0 then fill else c
      let suppressed : Nat → Bool := fun q => !on q && match ps[q]? with
        | some (.dig _ _) | some (.mark _ _ _) => true
        | _ => false
      let floated := fun q : Nat =>
        if suppressed q && turns (q + 1) then ps[q + 1]?.bind TextPos.float else none
      ∀ q : Nat, (formatText steps x)[q]? = ps[q]?.map fun pos => (floated q).getD (shown q pos)))
  ∧ (∀ zs : List (TextPos × Byte),
    let digitCode := fun x : Byte => decide (0x30 ≤ x.toNat) && decide (x.toNat ≤ 0x39)
    let before := fun (test : TextPos × Byte → Bool) (q : Nat) => (zs.take q).any test
    let seen := before fun z => match z.1 with
      | .req _ _ => digitCode z.2
      | .dig fill _ => digitCode z.2 && z.2 != fill
      | .mark _ _ _ | .fixed _ _ _ | .minus _ _ _ | .plus _ _ _ => false
    let required := before fun z => match z.1 with
      | .req _ _ => true
      | .dig _ _ | .mark _ _ _ | .fixed _ _ _ | .minus _ _ _ | .plus _ _ _ => false
    let minus : TextPos × Byte → Bool := fun z => match z.1 with
      | .minus c _ _ => z.2 == c
      | .dig _ _ | .req _ _ | .mark _ _ _ | .fixed _ _ _ | .plus _ _ _ => false
    let plus : TextPos × Byte → Bool := fun z => match z.1 with
      | .plus c _ _ => z.2 == c
      | .dig _ _ | .req _ _ | .mark _ _ _ | .fixed _ _ _ | .minus _ _ _ => false
    let floatTaken : Nat → Byte → Bool := fun q x => match zs[q + 1]? with
      | some (.dig _ float, y) => float == some x && digitCode y
      | some (.req _ float, _) => float == some x && !required q
      | _ => false
    let taken : Nat → TextPos × Byte → Bool := fun q z => match z.1 with
      | .dig fill _ => digitCode z.2 || !seen q && (z.2 == fill || floatTaken q z.2)
      | .req _ _ => digitCode z.2
      | .mark c fill _ => z.2 == c || !seen q && (z.2 == fill || floatTaken q z.2)
      | .fixed c _ _ => z.2 == c
      | .minus c fill _ => if z.2 == c then !before plus q else z.2 == fill
      | .plus c fill _ => if z.2 == c then !before minus q else z.2 == fill
    let value : Nat → TextPos × Byte → Option Nat := fun q z => match z.1 with
      | .dig fill _ => some (if digitCode z.2 && (seen q || z.2 != fill) then z.2.toNat - 0x30 else 0)
      | .req _ _ => some (z.2.toNat - 0x30)
      | .mark _ _ _ | .fixed _ _ _ | .minus _ _ _ | .plus _ _ _ => none
    (∀ q z, zs[q]? = some z → taken q z = false →
      (∀ j y, j < q → zs[j]? = some y → taken j y = true) → parseWalk 0 .start zs = .error q)
    ∧ ((∀ q z, zs[q]? = some z → taken q z = true) →
      ∃ st, parseWalk 0 .start zs = .ok st ∧ st.minusShown = zs.any minus
        ∧ st.digits.reverse = zs.zipIdx.filterMap fun y => value y.2 y.1))

/-- R60: under its four conditions an EDITED value written without exception reads back unchanged. -/
def Obligations.EditedRoundTrip : Prop :=
  ∀ (tables : Vector CodeTable 4) (t : Option (Fin 4)) (storeSub mark : Byte) (o : ByteOrder)
    (sg : Signedness) (storeLen : Nat) (steps : List EditStep) (image : List Byte),
    1 ≤ image.length →
    (∀ i, t = some i → ∃ forward, forward.length = 256 ∧ tables[i] = .ofForward forward) →
    let x := viewInteger o sg image
    let out := editedForward (translateForward tables t) storeSub mark o sg storeLen steps image
    out.exc = none → ReadsBack steps x →
    (∀ c ∈ formatText steps x, ∀ c' : Byte,
      translateForward tables t c' = translateForward tables t c → c.toNat ≤ c'.toNat) →
    editedReverse (translateReverse tables t) o sg image.length steps out.result
      = { result := image, exc := none }

/-! ### The maintenance port -/

/-- A bad frame released outside a build puts BADFRAME with its byte 0 and no data in the result buffer;
a good frame whose code names no command puts UNKNOWN there with its code. Nothing else changes.
The check of a frame (R178): a period of no byte is no frame, a RESULT-FETCH whose first four bytes are
right has a good header (R180), and any other frame is bad when it has fewer or more bytes than 4 + L, 1 to 3
bytes among them, when a partial byte follows, when L is above 520, or when the bytes do not sum to 0; any
other is good. A period under way presents its own bytes, and a bad frame when the receiver is DISCARDING;
with MCS_N high the one command stands for the whole period (the model's reading: log entry 6). No frame is
released while RST_N is asserted. -/
def Obligations.BadAndUnknownFramesAnswered : Prop :=
  (∀ s : State, let t := s.settle
    (∀ bytes partialByte, t.presentsBad bytes partialByte = true → t.build = none →
      exec (.badFrame bytes partialByte) s = .next
        ((t.endPeriod (List.replicate bytes.length 0xFF)).putResult .badFrame (bytes.headD 0) []))
    ∧ (∀ code payload, code ∉ commandCodes → s.takesFrame code payload →
      exec (.unknown code payload) s = .next ((s.atRelease payload).putResult .unknown code [])))
  ∧ (∀ (bytes : List Byte) (partialByte : Bool),
    let n := bytes.length
    let len := 256 * (bytes.getD 1 0).toNat + (bytes.getD 2 0).toNat
    let header := 4 ≤ n ∧ (bytes.getD 0 0).toNat = 0x7E ∧ len = 0
      ∧ ((bytes.take 4).map (·.toNat)).sum % 256 = 0
    let bad := n ≤ 3 ∨ n < 4 + len ∨ 4 + len < n ∨ partialByte = true ∨ 520 < len
      ∨ (bytes.map (·.toNat)).sum % 256 ≠ 0
    (n = 0 → frameVerdict bytes partialByte = .empty)
    ∧ (header → frameVerdict bytes partialByte = .fetch)
    ∧ (1 ≤ n → ¬ header → bad → frameVerdict bytes partialByte = .bad)
    ∧ (¬ header → ¬ bad → frameVerdict bytes partialByte
        = .good (bytes.getD 0 0) ((bytes.drop 3).take len)))
  ∧ (∀ (s : State) (code : Byte) (payload : List Byte),
    s.presents code payload = true ↔ s.rstLow = false
      ∧ (s.mcsLow = true → s.receiver.state = .receiving
        ∧ frameVerdict s.receiver.bytes false = .good code payload)
      ∧ (s.mcsLow = false → payload.length ≤ 520))
  ∧ (∀ (s : State) (bytes : List Byte) (partialByte : Bool),
    s.presentsBad bytes partialByte = true ↔ s.rstLow = false
      ∧ (s.mcsLow = true → (s.receiver.state = .discarding
          ∨ s.receiver.state = .receiving ∧ frameVerdict s.receiver.bytes partialByte = .bad)
        ∧ s.receiver.count = bytes.length
        ∧ s.receiver.bytes = bytes.take s.receiver.bytes.length)
      ∧ (s.mcsLow = false → frameVerdict bytes partialByte = .bad))

/-- The release of a RESULT-FETCH with a good header: the refused count becomes 0, the receiver returns
to IDLE, the result buffer stays. It is accepted while a build runs. With MCS_N high the one command
stands for the whole chip-select period, whose bytes MSDO then lists (the model's reading: log entries 6
and 12). The read-out bytes: result code, command code, refused count, the data's length in two bytes, the
data, and a checksum that makes their 8-bit sum 0. -/
def Obligations.ResultFetchKeepsResult : Prop :=
  ∀ s : State, let t := s.settle
    t.rstLow = false →
    (t.mcsLow = true → t.receiver.state = .readout →
      exec (.resultFetch []) s = .next { t with
        receiver := .idle, mcsLow := false, refusedCount := 0 })
    ∧ (t.mcsLow = false →
      exec (.resultFetch []) s = .next { t with
        receiver := .idle, refusedCount := 0
        msdo := List.replicate 4 0xFF ++ t.readOutBytes })
    ∧ (∃ code check : Byte,
      [(ResultCode.done, (0 : Byte)), (.pending, 1), (.busy, 2), (.badArg, 3), (.badState, 4),
        (.noSpace, 5), (.invalid, 6), (.overlap, 7), (.badFrame, 8), (.unknown, 9)].lookup t.result.code
        = some code
      ∧ t.readOutBytes = [code, t.result.command, toByte t.refusedCount,
          toByte (t.result.data.length / 256), toByte t.result.data.length] ++ t.result.data ++ [check]
      ∧ (t.readOutBytes.map (·.toNat)).sum % 256 = 0)

/-- A falling edge of MCS_N starts a frame with no received bytes (none begins while RST_N is asserted).
A completed byte of a frame is kept and 0xFF shifted out: byte 2 of a length above 520 puts the receiver in
DISCARDING, byte 3 of a good RESULT-FETCH header copies the read-out and puts it in READOUT, every other
byte of the 524 leaves it RECEIVING. A byte beyond them puts it in DISCARDING (log entry 10), where bytes
are counted and not kept. In READOUT the read-out bytes are shifted out, then 0xFF. In a period that is no
frame nothing is kept (0xFF shifted out there: log entry 25), and clocks while MCS_N is high are ignored.
The release of a period without a byte changes nothing else. -/
def Obligations.ChipSelectPeriods : Prop :=
  ∀ s : State, let t := s.settle
    (t.mcsLow = false → exec .chipSelectPeriodBegin s = .next { t with
      mcsLow := true, msdo := []
      receiver := if t.rstLow then .idle
        else { state := .receiving, bytes := [], count := 0, readOut := [] } })
    ∧ (∀ b : Byte, t.mcsLow = false → exec (.byteComplete b) s = .next t)
    ∧ (∀ b : Byte, t.mcsLow = true →
      let bytes := t.receiver.bytes
      let next := fun (state : RxState) (kept : List Byte) (readOut : List Byte) (shifted : Byte) =>
        ({ t with
          msdo := t.msdo ++ [shifted]
          receiver := { state, bytes := kept, count := t.receiver.count + 1, readOut } } : State)
      (t.receiver.state = .receiving → bytes.length < 524 →
        (bytes.length ≠ 2 → bytes.length ≠ 3 →
          exec (.byteComplete b) s = .next (next .receiving (bytes ++ [b]) [] 0xFF))
        ∧ (∀ code hi, bytes = [code, hi] →
          exec (.byteComplete b) s = .next
            (next (if 520 < hi.toNat * 256 + b.toNat then .discarding else .receiving)
              [code, hi, b] [] 0xFF))
        ∧ (bytes = [0x7E, 0, 0] → b = 0x82 →
          exec (.byteComplete b) s = .next (next .readout [0x7E, 0, 0, b] t.readOutBytes 0xFF))
        ∧ (bytes.length = 3 → ¬ (bytes = [0x7E, 0, 0] ∧ b = 0x82) →
          exec (.byteComplete b) s = .next (next .receiving (bytes ++ [b]) [] 0xFF)))
      ∧ (t.receiver.state = .receiving → 524 ≤ bytes.length →
        exec (.byteComplete b) s = .next (next .discarding bytes t.receiver.readOut 0xFF))
      ∧ (t.receiver.state = .discarding →
        exec (.byteComplete b) s = .next (next .discarding bytes t.receiver.readOut 0xFF))
      ∧ (∀ x rest, t.receiver.state = .readout → t.receiver.readOut = x :: rest →
        exec (.byteComplete b) s = .next (next .readout bytes rest x))
      ∧ (t.receiver.state = .readout → t.receiver.readOut = [] →
        exec (.byteComplete b) s = .next (next .readout bytes [] 0xFF))
      ∧ (t.receiver.state = .idle →
        exec (.byteComplete b) s = .next { t with msdo := t.msdo ++ [0xFF] }))
    ∧ (t.mcsLow = true → t.receiver.count = 0 →
      exec .emptyPeriodRelease s = .next { t with receiver := .idle, mcsLow := false })

/-- While a build runs, every frame but a RESULT-FETCH with a good header is turned away at its release:
a good frame of any command, of an unknown code or of a RESULT-FETCH with a payload, and a bad frame. The
refused count rises by one up to 255, the result buffer keeps PENDING, and no command is executed. -/
def Obligations.FramesTurnedAwayDuringBuild : Prop :=
  ∀ s : State, s.build.isSome = true →
    let refused := min 255 (s.refusedCount + 1)
    (∀ (c : Instr) (code : Byte) (payload : List Byte), c.frame? = some (code, payload) →
      s.presents code payload = true →
      exec c s = .next { s.atReleaseOf c payload with refusedCount := refused })
    ∧ (∀ code payload, code ∉ commandCodes → s.presents code payload = true →
      exec (.unknown code payload) s = .next { s.atRelease payload with refusedCount := refused })
    ∧ (∀ payload, payload ≠ [] → s.presents 0x7E payload = true →
      exec (.resultFetch payload) s = .next { s.atRelease payload with refusedCount := refused })
    ∧ (∀ bytes partialByte, s.settle.presentsBad bytes partialByte = true →
      exec (.badFrame bytes partialByte) s = .next
        { s.settle.endPeriod (List.replicate bytes.length 0xFF) with refusedCount := refused })

/-- A command whose payload has another length than R182's table gives answers BADARG with no data and
changes nothing else. For PROGRAM-LOAD the step count is payload byte 1: a payload below two bytes, or
another length than a step count of 1 to 16 asks for, answers so, and a step count outside 1 to 16 answers
BADARG with 0xFF for the absent step index. A RESULT-FETCH with a payload answers BADARG with no data. -/
def Obligations.WrongLengthIsBadArg : Prop :=
  (∀ (c : Instr) (s : State) (code : Byte) (payload : List Byte) (n : Nat),
    c.frame? = some (code, payload) → payloadLength code = some n → payload.length ≠ n →
    s.takesFrame code payload →
    exec c s = .next ((s.atReleaseOf c payload).putResult .badArg code []))
  ∧ (∀ (s : State) (payload : List Byte), s.takesFrame 0x38 payload →
    let t := s.atRelease payload
    (payload.length < 2 → exec (.programLoad payload) s = .next (t.putResult .badArg 0x38 []))
    ∧ (∀ e count steps, payload = e :: count :: steps →
      (1 ≤ count.toNat → count.toNat ≤ 16 → steps.length ≠ 3 * count.toNat →
        exec (.programLoad payload) s = .next (t.putResult .badArg 0x38 []))
      ∧ (count.toNat = 0 ∨ 16 < count.toNat →
        exec (.programLoad payload) s = .next (t.putResult .badArg 0x38 [0xFF]))))
  ∧ (∀ (s : State) (payload : List Byte), payload ≠ [] → s.takesFrame 0x7E payload →
    exec (.resultFetch payload) s = .next ((s.atRelease payload).putResult .badArg 0x7E []))

/-- The read-back commands answer DONE with the state as it stands, and BADARG with no data for an index
above its range (the spec states no data for that BADARG: log entry 19); they change nothing but the result
buffer. The bytes of STATUS, of a gather entry, of an
exception record and of the log commands stand in the layouts of R183, R191 and R192 (those of the other
read-backs: EncodingsReadBack). -/
def Obligations.ReadBackCommandsReport : Prop :=
  let flag := fun b : Bool => if b then (1 : Byte) else 0
  let two := fun n : Nat => [toByte (n / 2 ^ 8), toByte n]
  let four := fun n : Nat => [toByte (n / 2 ^ 24), toByte (n / 2 ^ 16), toByte (n / 2 ^ 8), toByte n]
  let orAbsent := fun n : Option Nat => (n.map toByte).getD 0xFF
  (∀ s : State,
    (s.takesFrame 0x01 [] →
      exec (.status []) s = .next ((s.atRelease []).putResult .done 0x01 (s.atRelease []).statusBytes))
    ∧ (s.takesFrame 0x40 [] →
      exec (.gatherRead []) s = .next ((s.atRelease []).putResult .done 0x40
        (s.settle.entries.toList.flatMap Entry.readBytes)))
    ∧ (s.takesFrame 0x49 [] →
      exec (.logPeek []) s = .next ((s.atRelease []).putResult .done 0x49
        (logBytes s.settle.log.head? s.settle.log.length s.settle.dropped s.settle.seqCounter)))
    ∧ (∀ w : Fin 8, s.takesFrame 0x11 [toByte w.val] →
      exec (.windowRead [toByte w.val]) s = .next ((s.atRelease [toByte w.val]).putResult .done 0x11
        (windowReadBytes w s.settle.windows[w])))
    ∧ (∀ l : Fin 16, s.takesFrame 0x24 [toByte l.val] →
      exec (.layoutRead [toByte l.val]) s = .next ((s.atRelease [toByte l.val]).putResult .done 0x24
        s.settle.layouts[l].readBytes))
    ∧ (∀ t : Fin 4, s.takesFrame 0x32 [toByte t.val] →
      exec (.tableRead [toByte t.val]) s = .next ((s.atRelease [toByte t.val]).putResult .done 0x32
        s.settle.tables[t].readBytes))
    ∧ (∀ e : Fin 32, s.takesFrame 0x3A [toByte e.val] →
      exec (.programRead [toByte e.val]) s = .next ((s.atRelease [toByte e.val]).putResult .done 0x3A
        s.settle.programs[e].readBytes))
    ∧ (∀ b : Byte,
      (7 < b.toNat → s.takesFrame 0x11 [b] →
        exec (.windowRead [b]) s = .next ((s.atRelease [b]).putResult .badArg 0x11 []))
      ∧ (15 < b.toNat → s.takesFrame 0x24 [b] →
        exec (.layoutRead [b]) s = .next ((s.atRelease [b]).putResult .badArg 0x24 []))
      ∧ (3 < b.toNat → s.takesFrame 0x32 [b] →
        exec (.tableRead [b]) s = .next ((s.atRelease [b]).putResult .badArg 0x32 []))
      ∧ (31 < b.toNat → s.takesFrame 0x3A [b] →
        exec (.programRead [b]) s = .next ((s.atRelease [b]).putResult .badArg 0x3A []))))
  ∧ (∀ s : State,
    let entries := fun test : Slot → Bool =>
      toByte ((List.finRange 8).filter fun g => test s.entries[g].slot).length
    let windowState : Fin 8 → Byte := fun w => match s.windows[w].status with
      | .off => 0
      | .live .active _ _ => 1
      | .live .draining _ _ => 2
      | .live .suspended _ _ => 3
    let dispState : Byte := match s.disp with
      | .idle => 0
      | .blocked _ => 1
      | .holding _ => 2
      | .issuing _ _ => 3
    s.statusBytes =
      [toByte s.tickDivider, flag s.alertEnable,
        flag (s.alertEnable && (!s.log.isEmpty || decide (0 < s.dropped)))]
      ++ (List.finRange 8).map windowState
      ++ [toByte s.txns.length, dispState,
        entries fun x => match x with
          | .free => true
          | .held _ _ => false,
        entries fun x => match x with
          | .held .gathering _ => true
          | .held .merging _ | .held .converting _ | .held .writing _ | .free => false,
        entries fun x => match x with
          | .held .merging _ | .held .converting _ | .held .writing _ => true
          | .held .gathering _ | .free => false,
        toByte s.outstanding.length, toByte s.units.length, toByte s.jobs.length, flag s.running,
        toByte s.log.length, toByte s.dropped]
      ++ two s.seqCounter.toNat
      ++ [toByte (128 - (s.layouts.toList.map fun l => l.fields.length).sum)]
      ++ two (match s.disp with
        | .holding timer => timer
        | .idle | .blocked _ | .issuing _ _ => 0xFFFF))
  ∧ (∀ e : Entry,
    (e.slot = .free →
      e.readBytes = [0] ++ four e.openOrder.toNat ++ [flag e.fault] ++ List.replicate 76 0)
    ∧ (∀ stage b, e.slot = .held stage b →
      let written := ((List.range b.bytes.length).map fun p =>
        if (b.bytes.getD p none).isSome then 2 ^ p else 0).sum
      let state : Byte := match stage with
        | .gathering => 1
        | .merging => 2
        | .converting => 3
        | .writing => 4
      e.readBytes = [state]
        ++ four e.openOrder.toNat ++ [flag e.fault, toByte b.key.window.val] ++ two b.key.record
        ++ [toByte b.key.field, toByte b.bytes.length] ++ four written
        ++ (List.range 32).map (fun p => (b.bytes.getD p none).getD 0)
        ++ [flag b.base.isSome] ++ (List.range 32).map (fun p => (b.base.getD []).getD p 0)
        ++ [toByte b.age, toByte b.confirm.length]))
  ∧ (∀ r : ExcRecord,
    let kind : Byte := match r.kind with
      | .hole => 1
      | .protect => 2
      | .unmapped => 3
      | .truncate => 4
      | .overflow => 5
      | .range => 6
      | .digit => 7
      | .sign => 8
      | .syntaxError => 9
      | .memErr => 10
      | .held => 11
    let action : Byte := match r.action with
      | .faulted => 1
      | .substituted => 2
      | .discarded => 3
    let path : Byte := match r.path with
      | .write => 1
      | .flush => 2
      | .merge => 3
      | .read => 4
      | .hold => 5
    r.encode = two r.seq.toNat ++ [kind, action, path, toByte r.window.val, orAbsent (r.detail.map (·.1))]
      ++ two (r.record.getD 0) ++ [orAbsent r.field] ++ four (r.viewAddr.getD 0)
      ++ [orAbsent (r.tag.map (·.toNat)), (r.detail.map (·.2)).getD 0])
  ∧ (∀ (r : ExcRecord) (left dropped : Nat) (seq : BitVec 16),
    let rest := [toByte left, toByte dropped] ++ two seq.toNat
    logBytes (some r) left dropped seq = [1] ++ r.encode ++ rest
    ∧ logBytes none left dropped seq = [0] ++ List.replicate 16 0 ++ rest)

/-- SET-GLOBAL (R184): a divider outside 8 to 250 or an enable other than 0 and 1 gives BADARG and
changes neither setting, with no data (the spec states none for that BADARG: log entry 19); otherwise both
take their new values with DONE and no data. The interval under
way keeps its length, every tick puts the divider in force, and ALERT_N follows the new enable at once. -/
def Obligations.SetGlobalWritesBothOrNeither : Prop :=
  (∀ (divider enable : Byte) (s : State), s.takesFrame 0x02 [divider, enable] →
    let t := s.atRelease [divider, enable]
    let u : State := { t with
      tickDivider := divider.toNat, alertEnable := decide (enable.toNat = 1) }.putResult .done 0x02 []
    (8 ≤ divider.toNat ∧ divider.toNat ≤ 250 ∧ enable.toNat ≤ 1 →
      exec (.setGlobal [divider, enable]) s = .next u
      ∧ u.tickInterval = s.settle.tickInterval
      ∧ u.alertLow = (decide (enable.toNat = 1) && (!t.log.isEmpty || decide (0 < t.dropped))))
    ∧ (divider.toNat < 8 ∨ 250 < divider.toNat ∨ 1 < enable.toNat →
      exec (.setGlobal [divider, enable]) s = .next (t.putResult .badArg 0x02 [])))
  ∧ (∀ s : State, ∃ u, exec .tick s = .next u ∧ u.tickInterval = s.settle.tickDivider)

/-- WINDOW-WRITE replaces every configurable field of an OFF window at once; a window that is not OFF
answers BADSTATE, a value outside R1 or a window index above 7 BADARG, with the records as they were.
A record is taken exactly when the view base is a multiple of 8, the record count 1 to 65536, the layout
index at most 15, the stride 1 to 4096, byte order, policy and acknowledge 0 or 1 and the hold limit at
least 1; the other members take every value of their bytes. It is the record that the 26 bytes spell. -/
def Obligations.WindowWriteReplacesRecord : Prop :=
  (∀ (w : Fin 8) (payload : List Byte) (s : State), payload.length = 26 →
    payload.head? = some (toByte w.val) → s.takesFrame 0x10 payload →
    let t := s.atRelease payload
    (∀ cfg, t.windows[w].status = .off → parseWindowCfg payload = some cfg →
      exec (.windowWrite payload) s = .next
        ({ t with windows := t.windows.set w { cfg, status := .off } }.putResult .done 0x10 []))
    ∧ (t.windows[w].status = .off → parseWindowCfg payload = none →
      exec (.windowWrite payload) s = .next (t.putResult .badArg 0x10 []))
    ∧ (t.windows[w].status ≠ .off →
      exec (.windowWrite payload) s = .next (t.putResult .badState 0x10 [])))
  ∧ (∀ (b : Byte) (rest : List Byte) (s : State), 7 < b.toNat → rest.length = 25 →
    s.takesFrame 0x10 (b :: rest) →
    exec (.windowWrite (b :: rest)) s
      = .next ((s.atRelease (b :: rest)).putResult .badArg 0x10 []))
  ∧ (∀ payload : List Byte, payload.length = 26 →
    let one := fun k : Nat => (payload.getD k 0).toNat
    let two := fun k : Nat => 256 * one k + one (k + 1)
    let four := fun k : Nat => 256 ^ 3 * one k + 256 ^ 2 * one (k + 1) + 256 * one (k + 2) + one (k + 3)
    (parseWindowCfg payload = none ↔
      ¬ (four 1 % 8 = 0 ∧ 1 ≤ four 5 ∧ four 5 ≤ 65536 ∧ one 9 ≤ 15 ∧ 1 ≤ two 14 ∧ two 14 ≤ 4096
        ∧ one 16 ≤ 1 ∧ one 18 ≤ 1 ∧ one 19 ≤ 1 ∧ 1 ≤ two 21))
    ∧ (∀ cfg, parseWindowCfg payload = some cfg →
      cfg.viewBase = four 1 ∧ cfg.recordCount = four 5 ∧ cfg.layout.val = one 9 ∧ cfg.storeBase = four 10
        ∧ cfg.stride = two 14 ∧ cfg.order = (if one 16 = 0 then .little else .big)
        ∧ cfg.overflowMark.toNat = one 17 ∧ cfg.policy = (if one 18 = 0 then .strict else .substitute)
        ∧ cfg.ack = (if one 19 = 0 then .posted else .confirmed) ∧ cfg.gatherTimeout = one 20
        ∧ cfg.holdLimit = two 21 ∧ cfg.holeFill.toNat = one 23 ∧ cfg.viewSub.toNat = one 24
        ∧ cfg.storeSub.toNat = one 25))

/-- ACTIVATE latches the layout's sizes and makes an OFF or SUSPENDED window ACTIVE when its layout is
VALID, passes the commit checks, and every range check passes. The first check that fails decides the
refusal: a window index above 7 gives BADARG with no data, an ACTIVE or DRAINING window BADSTATE, a layout
that is not VALID INVALID with the layout's state, ranges that are not well formed BADARG with 2, a stride
below the store record size BADARG with 3, a range shared with another window that is not OFF OVERLAP with
the lowest such window and which ranges meet, CONFIRMED without a gather timeout BADARG with 5. A refusal
changes nothing. -/
def Obligations.ActivateLatchesSizes : Prop :=
  (∀ (w : Fin 8) (s : State), s.takesFrame 0x12 [toByte w.val] →
    let t := s.atWindowRelease [toByte w.val]
    let c := t.windows[w].cfg
    (∀ va sa fields, t.windows[w].locks = false → t.layouts[c.layout] = .built .valid va sa fields →
      commitCheck t.tables t.programs va sa fields = none →
      let formed := 1 ≤ c.recordCount ∧ c.viewBase + c.recordCount * va ≤ 2 ^ 32
        ∧ c.storeBase + (c.recordCount - 1) * c.stride + sa ≤ 2 ^ 32
      let refused := fun (code : ResultCode) (data : List Byte) =>
        exec (.activate [toByte w.val]) s = .next (t.putResult code 0x12 data)
      (1 ≤ c.recordCount → c.viewEnd va ≤ 2 ^ 32 → c.storeEnd sa ≤ 2 ^ 32 → sa ≤ c.stride →
        (∀ v : Fin 8, t.overlapCode w va sa v = 0) → (c.ack = .posted ∨ 1 ≤ c.gatherTimeout) →
        exec (.activate [toByte w.val]) s = .next ({ t with
          windows := t.windows.set w { cfg := c, status := .live .active va sa }
          reoffer := offersAgain t }.putResult .done 0x12 (beBytes 2 va ++ beBytes 2 sa)))
      ∧ (¬ formed → refused .badArg [2])
      ∧ (formed → c.stride < sa → refused .badArg [3])
      ∧ (∀ v : Fin 8, formed → sa ≤ c.stride → t.overlapCode w va sa v ≠ 0 →
          (∀ v' : Fin 8, v' < v → t.overlapCode w va sa v' = 0) →
          refused .overlap [toByte v.val, toByte (t.overlapCode w va sa v)])
      ∧ (formed → sa ≤ c.stride → (∀ v : Fin 8, t.overlapCode w va sa v = 0) →
          c.ack = .confirmed → c.gatherTimeout = 0 → refused .badArg [5]))
    ∧ (t.windows[w].locks = true →
      exec (.activate [toByte w.val]) s = .next (t.putResult .badState 0x12 []))
    ∧ ((∀ va sa fields, t.layouts[c.layout] ≠ .built .valid va sa fields) →
      t.windows[w].locks = false →
      exec (.activate [toByte w.val]) s = .next
        (t.putResult .invalid 0x12 (t.layouts[c.layout].refusalData c.layout))))
  ∧ (∀ (s : State) (w v : Fin 8) (va sa : Nat),
    let c := s.windows[w].cfg
    let d := s.windows[v].cfg
    (v = w ∨ s.windows[v].status = .off → s.overlapCode w va sa v = 0)
    ∧ (∀ mode va' sa', v ≠ w → s.windows[v].status = .live mode va' sa' →
      s.overlapCode w va sa v < 4
      ∧ (s.overlapCode w va sa v % 2 = 1 ↔ ∃ a, c.viewBase ≤ a ∧ a < c.viewEnd va
          ∧ d.viewBase ≤ a ∧ a < d.viewEnd va')
      ∧ (2 ≤ s.overlapCode w va sa v ↔ ∃ a, c.storeBase ≤ a ∧ a < c.storeEnd sa
          ∧ d.storeBase ≤ a ∧ a < d.storeEnd sa')))
  ∧ (∀ (b : Byte) (s : State), 7 < b.toNat → s.takesFrame 0x12 [b] →
    exec (.activate [b]) s = .next ((s.atWindowRelease [b]).putResult .badArg 0x12 []))

/-- SUSPEND of an ACTIVE window: its GATHERING entries are flushed in open order, it becomes DRAINING or,
when its drain condition holds (its three parts as in DrainCompletes), SUSPENDED, and the result carries
that state and the number of flushes.
Any other window answers BADSTATE, a window index above 7 BADARG. -/
def Obligations.SuspendStartsDrain : Prop :=
  (∀ (w : Fin 8) (s : State), s.takesFrame 0x13 [toByte w.val] →
    let t := s.atWindowRelease [toByte w.val]
    (∀ va sa, t.windows[w].status = .live .active va sa →
      let victims := t.gatheringWhere fun k => k.window == w
      let flushed : State := { t with
        windows := t.windows.set w { t.windows[w] with status := .live .draining va sa } }.startFlushes victims
      let drained := (∀ (g : Fin 8) (stage : Stage) (b : Gather),
          flushed.entries[g].slot = .held stage b → b.key.window ≠ w)
        ∧ (∀ x ∈ flushed.txns, (∀ ctx, x.state = .waiting (.windowRead ctx) → ctx.window ≠ w)
          ∧ ∀ v count errorFlag, x.state = .waiting (.windowWrite v count errorFlag) → v ≠ w)
        ∧ (∀ id v record offset size fields,
          Job.read id v record offset size fields ∈ flushed.jobs ++ flushed.toPlace → v ≠ w)
      (¬ drained →
        exec (.suspend [toByte w.val]) s = .next ({ flushed with
          reoffer := offersAgain flushed }.putResult .done 0x13 [2, toByte victims.length]))
      ∧ (drained →
        exec (.suspend [toByte w.val]) s = .next ({ flushed with
          windows := t.windows.set w { t.windows[w] with status := .live .suspended va sa }
          reoffer := offersAgain flushed }.putResult .done 0x13 [3, toByte victims.length])))
    ∧ ((∀ va sa, t.windows[w].status ≠ .live .active va sa) →
      exec (.suspend [toByte w.val]) s = .next (t.putResult .badState 0x13 [])))
  ∧ (∀ (b : Byte) (s : State), 7 < b.toNat → s.takesFrame 0x13 [b] →
    exec (.suspend [b]) s = .next ((s.atWindowRelease [b]).putResult .badArg 0x13 []))

/-- DEACTIVATE: a SUSPENDED window becomes OFF and keeps its configurable fields, an OFF window stays,
both with DONE; an ACTIVE or DRAINING one answers BADSTATE, a window index above 7 BADARG. -/
def Obligations.DeactivateTurnsOff : Prop :=
  (∀ (w : Fin 8) (s : State), s.takesFrame 0x14 [toByte w.val] →
    let t := s.atWindowRelease [toByte w.val]
    (∀ va sa, t.windows[w].status = .live .suspended va sa →
      exec (.deactivate [toByte w.val]) s = .next ({ t with
        windows := t.windows.set w { t.windows[w] with status := .off }
        reoffer := offersAgain t }.putResult .done 0x14 []))
    ∧ (t.windows[w].status = .off →
      exec (.deactivate [toByte w.val]) s = .next (t.putResult .done 0x14 []))
    ∧ (t.windows[w].locks = true →
      exec (.deactivate [toByte w.val]) s = .next (t.putResult .badState 0x14 [])))
  ∧ (∀ (b : Byte) (s : State), 7 < b.toNat → s.takesFrame 0x14 [b] →
    exec (.deactivate [b]) s = .next ((s.atWindowRelease [b]).putResult .badArg 0x14 []))

/-- LAYOUT-BEGIN (R11): the layout index and the sizes are checked, then whether the layout is in use;
an accepted one gives a DRAFT of the new sizes with an empty field list. The result data is the
free-descriptor count after the command. A layout is in use while an ACTIVE or DRAINING window names it (R6);
the free-descriptor count is 128 less the descriptors of all layouts (R7). -/
def Obligations.LayoutBeginStartsDraft : Prop :=
  (∀ (i : Byte) (va sa : Nat) (s : State), va < 2 ^ 16 → sa < 2 ^ 16 →
    let payload := i :: (beBytes 2 va ++ beBytes 2 sa)
    s.takesFrame 0x20 payload →
    let t := s.atRelease payload
    (15 < i.toNat ∨ va < 8 ∨ 256 < va ∨ va % 8 ≠ 0 ∨ sa < 1 ∨ 256 < sa →
      exec (.layoutBegin payload) s = .next (t.putResult .badArg 0x20 [toByte t.freeDescriptors]))
    ∧ (∀ l : Fin 16, i = toByte l.val → 8 ≤ va → va ≤ 256 → va % 8 = 0 → 1 ≤ sa → sa ≤ 256 →
      (t.layoutInUse l = true →
        exec (.layoutBegin payload) s = .next (t.putResult .busy 0x20 [toByte t.freeDescriptors]))
      ∧ (t.layoutInUse l = false →
        let u : State := { t with layouts := t.layouts.set l (.built .draft va sa []) }
        exec (.layoutBegin payload) s = .next (u.putResult .done 0x20 [toByte u.freeDescriptors]))))
  ∧ (∀ (s : State) (l : Fin 16), s.layoutInUse l = true ↔ ∃ (w : Fin 8) (va sa : Nat),
    s.windows[w].cfg.layout = l
      ∧ (s.windows[w].status = .live .active va sa ∨ s.windows[w].status = .live .draining va sa))
  ∧ (∀ s : State, s.freeDescriptors = 128 - ((List.finRange 16).map fun l => match s.layouts[l] with
    | .empty => 0
    | .built _ _ _ fields => fields.length).sum)

/-- LAYOUT-ERASE (R14): BADARG for an index above 15, BUSY for a layout in use (written out in
LayoutBeginStartsDraft), otherwise EMPTY with DONE. The result data is the free-descriptor count after the command. A SUSPENDED or OFF window that names
the layout keeps naming it, and ACTIVATE on it fails its layout check. -/
def Obligations.LayoutEraseEmpties : Prop :=
  ∀ (i : Byte) (s : State), s.takesFrame 0x23 [i] →
    let t := s.atRelease [i]
    (15 < i.toNat →
      exec (.layoutErase [i]) s = .next (t.putResult .badArg 0x23 [toByte t.freeDescriptors]))
    ∧ (∀ l : Fin 16, i = toByte l.val →
      (t.layoutInUse l = true →
        exec (.layoutErase [i]) s = .next (t.putResult .busy 0x23 [toByte t.freeDescriptors]))
      ∧ (t.layoutInUse l = false →
        let u : State := { t with layouts := t.layouts.set l .empty }
        exec (.layoutErase [i]) s = .next (u.putResult .done 0x23 [toByte u.freeDescriptors])
        ∧ ∀ w : Fin 8, u.windows[w].locks = false → u.windows[w].cfg.layout = l →
          (u.activateWindow w).2 = { code := .invalid, data := [toByte l.val, 0, 0, 0xFF] }))

/-- FIELD-APPEND of a well-formed descriptor to a DRAFT layout with room: appended at the end, with the
new index and the free-descriptor count as result data. A layout index above 15 answers BADARG, a layout
that is not DRAFT BADSTATE, a full layout or pool NOSPACE, a descriptor that is not well formed BADARG;
those change nothing.
Eleven bytes are a well-formed descriptor (R9, R187) exactly when both lengths are 1 to 32, the read-only
byte is 0 or 1, and the kind is RAW with equal lengths; TEXT with a table index up to 3 or 0xFF; PACKED with a
sign of 0 or 1, a view length of 1, 2, 4 or 8 and a store length up to 10; or EDITED with such a table, a
program index up to 31, such a sign and such a view length. It is the descriptor the bytes spell. -/
def Obligations.FieldAppendExtendsDraft : Prop :=
  (∀ (l : Fin 16) (desc : List Byte) (s : State), desc.length = 11 →
    s.takesFrame 0x21 (toByte l.val :: desc) →
    let t := s.atRelease (toByte l.val :: desc)
    (∀ va sa fields, t.layouts[l] = .built .draft va sa fields →
      (∀ f, parseDesc desc = some f → fields.length < 24 → 0 < t.freeDescriptors →
        let u : State := { t with layouts := t.layouts.set l (.built .draft va sa (fields ++ [f])) }
        exec (.fieldAppend (toByte l.val :: desc)) s = .next
          (u.putResult .done 0x21 [toByte fields.length, toByte u.freeDescriptors]))
      ∧ (parseDesc desc = none →
        exec (.fieldAppend (toByte l.val :: desc)) s = .next
          (t.putResult .badArg 0x21 [toByte t.freeDescriptors]))
      ∧ ((parseDesc desc).isSome = true → 24 ≤ fields.length ∨ t.freeDescriptors = 0 →
        exec (.fieldAppend (toByte l.val :: desc)) s = .next
          (t.putResult .noSpace 0x21 [toByte t.freeDescriptors])))
    ∧ ((∀ va sa fields, t.layouts[l] ≠ .built .draft va sa fields) →
      exec (.fieldAppend (toByte l.val :: desc)) s = .next
        (t.putResult .badState 0x21 [toByte t.freeDescriptors])))
  ∧ (∀ (b : Byte) (desc : List Byte) (s : State), 15 < b.toNat → desc.length = 11 →
    s.takesFrame 0x21 (b :: desc) →
    let t := s.atRelease (b :: desc)
    exec (.fieldAppend (b :: desc)) s = .next
      (t.putResult .badArg 0x21 [toByte t.freeDescriptors]))
  ∧ (∀ desc : List Byte, desc.length = 11 →
    let n := fun k : Nat => (desc.getD k 0).toNat
    let tableOk := n 5 ≤ 3 ∨ n 5 = 255
    let integer := n 1 = 1 ∨ n 1 = 2 ∨ n 1 = 4 ∨ n 1 = 8
    let wellFormed := (1 ≤ n 1 ∧ n 1 ≤ 32) ∧ (1 ≤ n 3 ∧ n 3 ≤ 32) ∧ n 10 ≤ 1
      ∧ ((n 4 = 0 ∧ n 1 = n 3) ∨ (n 4 = 1 ∧ tableOk) ∨ (n 4 = 2 ∧ n 7 ≤ 1 ∧ integer ∧ n 3 ≤ 10)
        ∨ (n 4 = 3 ∧ tableOk ∧ n 6 ≤ 31 ∧ n 7 ≤ 1 ∧ integer))
    (parseDesc desc = none ↔ ¬ wellFormed)
    ∧ (∀ f, parseDesc desc = some f →
      let table := fun t : Option (Fin 4) => t.map (·.val) = if n 5 = 255 then none else some (n 5)
      let sign := if n 7 = 0 then Signedness.unsigned else .signed
      f.viewOff = n 0 ∧ f.viewLen = n 1 ∧ f.storeOff = n 2 ∧ f.storeLen = n 3
        ∧ f.readOnly = decide (n 10 = 1) ∧ (n 4 = 0 → f.kind = .raw)
        ∧ (n 4 = 1 → ∃ t, table t ∧ f.kind = .text t (desc.getD 8 0) (desc.getD 9 0))
        ∧ (n 4 = 2 → f.kind = .packed sign)
        ∧ (n 4 = 3 → ∃ t e, table t ∧ e.val = n 6 ∧ f.kind = .edited t e sign)))

/-- LAYOUT-COMMIT (R12): BADARG for an index above 15, BADSTATE in EMPTY, both with no data (the spec states
none for them: log entry 19); otherwise VALID with DONE when
every check passes, and INVALID with the first failing check's reason and field when one fails. In a
part with sound layouts a layout in use stays VALID.
The commit checks (R13): no field at all gives NOFIELDS without a field. Otherwise ORDER, STOREOVERLAP,
BOUNDS, NOTLOADED, LENGTH and DIGITS run in this order, each over every field before the next, and the
first check that fails somewhere gives its reason with the lowest field index it fails at. -/
def Obligations.LayoutCommitDecides : Prop :=
  (∀ (i : Byte) (s : State), s.takesFrame 0x22 [i] →
    let t := s.atRelease [i]
    (15 < i.toNat → exec (.layoutCommit [i]) s = .next (t.putResult .badArg 0x22 []))
    ∧ (∀ l : Fin 16, i = toByte l.val →
      (t.layouts[l] = .empty → exec (.layoutCommit [i]) s = .next (t.putResult .badState 0x22 []))
      ∧ (∀ status va sa fields, t.layouts[l] = .built status va sa fields →
        (commitCheck t.tables t.programs va sa fields = none →
          exec (.layoutCommit [i]) s = .next ({ t with
            layouts := t.layouts.set l (.built .valid va sa fields) }.putResult .done 0x22 []))
        ∧ (∀ reason field, commitCheck t.tables t.programs va sa fields = some (reason, field) →
          exec (.layoutCommit [i]) s = .next ({ t with
            layouts := t.layouts.set l (.built (.invalid reason field) va sa fields) }.putResult
              .invalid 0x22 [reason.byte, (field.map toByte).getD 0xFF])))
      ∧ (t.LayoutsSound → t.layoutInUse l = true →
        exec (.layoutCommit [i]) s = .next (t.putResult .done 0x22 []))))
  ∧ (∀ (tables : Vector CodeTable 4) (programs : Vector Program 32) (va sa : Nat)
      (fields : List FieldDesc),
    let outcome := commitCheck tables programs va sa fields
    let checks : List (InvalidReason × (Nat → FieldDesc → Prop)) :=
      [(.order, fun j f => 1 ≤ j ∧ ∃ p, fields[j - 1]? = some p ∧ f.viewOff < p.viewOff + p.viewLen),
        (.storeOverlap, fun j f => ∃ i p a, i < j ∧ fields[i]? = some p
          ∧ f.storeOff ≤ a ∧ a < f.storeOff + f.storeLen ∧ p.storeOff ≤ a ∧ a < p.storeOff + p.storeLen),
        (.bounds, fun _ f => va < f.viewOff + f.viewLen ∨ sa < f.storeOff + f.storeLen),
        (.notLoaded, fun _ f => (∃ t, f.kind.table? = some t ∧ tables[t] = .empty)
          ∨ ∃ e, f.kind.program? = some e ∧ programs[e] = .empty),
        (.length, fun _ f => ∃ t e sign steps outLen digits, f.kind = .edited t e sign
          ∧ programs[e] = .loaded steps outLen digits ∧ f.storeLen ≠ outLen),
        (.digits, fun _ f => ∃ t e sign steps outLen digits, f.kind = .edited t e sign
          ∧ programs[e] = .loaded steps outLen digits
          ∧ (if f.viewLen = 1 then 3 else if f.viewLen = 2 then 5 else if f.viewLen = 4 then 10 else 19)
            < digits)]
    (fields = [] → outcome = some (.noFields, none))
    ∧ (fields ≠ [] →
      (∀ (n : Nat) (reason : InvalidReason) (fails : Nat → FieldDesc → Prop) (j : Nat) (f : FieldDesc),
        checks[n]? = some (reason, fails) →
        (∀ m < n, ∀ c ∈ checks[m]?, ∀ j' f', fields[j']? = some f' → ¬ c.2 j' f') →
        fields[j]? = some f → fails j f →
        (∀ j' f', j' < j → fields[j']? = some f' → ¬ fails j' f') → outcome = some (reason, some j))
      ∧ ((∀ c ∈ checks, ∀ j f, fields[j]? = some f → ¬ c.2 j f) → outcome = none)))

/-- TABLE-LOAD of a table that is not in use with 256 legal entries (marker 0x00 with a store code, marker
0x01 for NONE whatever its code byte) starts a build and answers PENDING; the table keeps its contents. An
index above 3 answers BADARG with no data, an entry with another marker BADARG with the view code of the
first such entry, a table in use BUSY with no data; those start no build. TABLE-ERASE of a LOADED table that
is not in use empties it and rechecks the layouts that name it; it has the same refusals for the index and the
use, with no data (R189). (The spec states no result data for TABLE-LOAD's BADARG of the index and its BUSY:
log entry 19.)
A layout names a table when a TEXT or EDITED field of it does, and a table is in use while a layout in use
(LayoutBeginStartsDraft) names it (R22). -/
def Obligations.TableLoadAndErase : Prop :=
  (∀ (t : Fin 4) (s : State),
    (∀ pairs : List (Byte × Byte), pairs.length = 256 → (∀ x ∈ pairs, x.1 = 0 ∨ x.1 = 1) →
      let payload := toByte t.val :: pairs.flatMap fun x => [x.1, x.2]
      let entries := pairs.map fun x => if x.1 = 0 then some x.2 else none
      s.takesFrame 0x30 payload →
      let u := s.atRelease payload
      (u.tableInUse t = false →
        exec (.tableLoad payload) s = .next
          ({ u with build := some { table := t, entries } }.putResult .pending 0x30 []))
      ∧ (u.tableInUse t = true →
        exec (.tableLoad payload) s = .next (u.putResult .busy 0x30 [])))
    ∧ (∀ (good : List (Byte × Byte)) (marker code : Byte) (rest : List Byte),
      (∀ x ∈ good, x.1 = 0 ∨ x.1 = 1) → 1 < marker.toNat →
      let payload := toByte t.val :: ((good.flatMap fun x => [x.1, x.2]) ++ marker :: code :: rest)
      payload.length = 513 → s.takesFrame 0x30 payload →
      exec (.tableLoad payload) s
        = .next ((s.atRelease payload).putResult .badArg 0x30 [toByte good.length]))
    ∧ (s.takesFrame 0x31 [toByte t.val] →
      let u := s.atRelease [toByte t.val]
      (u.tableInUse t = false → u.tables[t].isLoaded = true →
        exec (.tableErase [toByte t.val]) s = .next ({ u with
          tables := u.tables.set t .empty
          layouts := u.layouts.map fun (l : Layout) =>
            if l.namesTable t then l.rechecked (u.tables.set t .empty) u.programs else l }.putResult
              .done 0x31 []))
      ∧ (u.tableInUse t = false → u.tables[t] = .empty →
        exec (.tableErase [toByte t.val]) s = .next (u.putResult .done 0x31 []))
      ∧ (u.tableInUse t = true →
        exec (.tableErase [toByte t.val]) s = .next (u.putResult .busy 0x31 []))))
  ∧ (∀ (b : Byte) (rest : List Byte) (s : State), 3 < b.toNat →
    (rest.length = 512 → s.takesFrame 0x30 (b :: rest) →
      exec (.tableLoad (b :: rest)) s
        = .next ((s.atRelease (b :: rest)).putResult .badArg 0x30 []))
    ∧ (s.takesFrame 0x31 [b] →
      exec (.tableErase [b]) s = .next ((s.atRelease [b]).putResult .badArg 0x31 [])))
  ∧ (∀ (l : Layout) (t : Fin 4),
    (l = .empty → l.namesTable t = false)
    ∧ (∀ status va sa fields, l = .built status va sa fields → (l.namesTable t = true ↔ ∃ f ∈ fields,
      (∃ viewFill storeFill, f.kind = .text (some t) viewFill storeFill)
        ∨ ∃ e sign, f.kind = .edited (some t) e sign)))
  ∧ (∀ (s : State) (t : Fin 4), s.tableInUse t = true
    ↔ ∃ l : Fin 16, s.layoutInUse l = true ∧ s.layouts[l].namesTable t = true)

/-- PROGRAM-LOAD of 1 to 16 legal steps with a digit count of 1 to 19, of a program not in use: the step
list, output length and digit count are stored, and the VALID layouts that name it are rechecked.
PROGRAM-ERASE of a LOADED program not in use empties it with the same recheck. A program in use answers
BUSY with no data (the spec states none for PROGRAM-LOAD's BUSY: log entry 19). An index
above 31 answers BADARG, with 0xFF for the absent step index from PROGRAM-LOAD. A step with
no opcode's code, with a DIG or REQ operand outside 1 to 19, or with a last flag that is not set exactly on
the final step, answers BADARG with the index of the first such step; a list without DIG and REQ or with
more than 19 digits answers BADARG with 0xFF. A layout names a program when an EDITED field of it does, and a
program is in use while a layout in use (LayoutBeginStartsDraft) names it (R46). -/
def Obligations.ProgramLoadAndErase : Prop :=
  (∀ (e : Fin 32) (s : State),
    let setProgram := fun (u : State) (x : Program) => { u with
      programs := u.programs.set e x
      layouts := u.layouts.map fun (l : Layout) =>
        if l.namesProgram e then l.rechecked u.tables (u.programs.set e x) else l }
    (∀ steps final, steps.length ≤ 15 → (∀ x ∈ steps, x.legal false) →
      final.legal true →
      let all := steps ++ [final]
      let payload := toByte e.val :: toByte all.length :: all.flatMap EditStep.encode
      1 ≤ digitCount all → digitCount all ≤ 19 → s.takesFrame 0x38 payload →
      let u := s.atRelease payload
      (u.programInUse e = false →
        exec (.programLoad payload) s = .next ((setProgram u
          (.loaded all (outputLength all) (digitCount all))).putResult .done 0x38
            [toByte (outputLength all), toByte (digitCount all)]))
      ∧ (u.programInUse e = true →
        exec (.programLoad payload) s = .next (u.putResult .busy 0x38 [])))
    ∧ (s.takesFrame 0x39 [toByte e.val] →
      let u := s.atRelease [toByte e.val]
      (u.programInUse e = false → u.programs[e].isLoaded = true →
        exec (.programErase [toByte e.val]) s = .next ((setProgram u .empty).putResult .done 0x39 []))
      ∧ (u.programInUse e = false → u.programs[e] = .empty →
        exec (.programErase [toByte e.val]) s = .next (u.putResult .done 0x39 []))
      ∧ (u.programInUse e = true →
        exec (.programErase [toByte e.val]) s = .next (u.putResult .busy 0x39 []))))
  ∧ (∀ (b : Byte) (steps : List (Byte × Byte × Byte)) (s : State), 1 ≤ steps.length →
    steps.length ≤ 16 →
    let payload := b :: toByte steps.length :: steps.flatMap fun x => [x.1, x.2.1, x.2.2]
    let counts := fun x : Byte × Byte × Byte => x.1 = 1 ∨ x.1 = 2
    let legal := fun (j : Nat) (x : Byte × Byte × Byte) =>
      1 ≤ x.1.toNat ∧ x.1.toNat ≤ 8 ∧ (counts x → 1 ≤ x.2.1.toNat ∧ x.2.1.toNat ≤ 19)
        ∧ x.2.2 = if j + 1 = steps.length then 1 else 0
    let digits := (steps.map fun x => if counts x then x.2.1.toNat else 0).sum
    s.takesFrame 0x38 payload →
    let refused := fun step : Byte =>
      exec (.programLoad payload) s = .next ((s.atRelease payload).putResult .badArg 0x38 [step])
    (31 < b.toNat → refused 0xFF)
    ∧ (b.toNat ≤ 31 →
      (∀ j x, steps[j]? = some x → ¬ legal j x →
        (∀ j' x', j' < j → steps[j']? = some x' → legal j' x') → refused (toByte j))
      ∧ ((∀ j x, steps[j]? = some x → legal j x) → digits = 0 ∨ 19 < digits → refused 0xFF)))
  ∧ (∀ (b : Byte) (s : State), 31 < b.toNat → s.takesFrame 0x39 [b] →
    exec (.programErase [b]) s = .next ((s.atRelease [b]).putResult .badArg 0x39 []))
  ∧ (∀ (l : Layout) (e : Fin 32),
    (l = .empty → l.namesProgram e = false)
    ∧ (∀ status va sa fields, l = .built status va sa fields →
      (l.namesProgram e = true ↔ ∃ f ∈ fields, ∃ t sign, f.kind = .edited t e sign)))
  ∧ (∀ (s : State) (e : Fin 32), s.programInUse e = true
    ↔ ∃ l : Fin 16, s.layoutInUse l = true ∧ s.layouts[l].namesProgram e = true)

/-! ### The exception log -/

/-- A record handed over takes the sequence counter's value, which then advances modulo 65536. It is
appended to a list of fewer than 16 records, and otherwise dropped, with the dropped count rising by one
up to 255. -/
def Obligations.RecordHandedOver : Prop :=
  ∀ (s : State) (r : ExcRecord),
    (s.log.length < 16 → s.handOver r = { s with
      log := s.log ++ [{ r with seq := s.seqCounter }], seqCounter := s.seqCounter + 1 })
    ∧ (16 ≤ s.log.length → s.dropped < 255 → s.handOver r = { s with
      dropped := s.dropped + 1, seqCounter := s.seqCounter + 1 })
    ∧ (16 ≤ s.log.length → s.dropped = 255 → s.handOver r = { s with seqCounter := s.seqCounter + 1 })

/-- LOG-TAKE removes and returns the oldest record, LOG-CLEAR empties the list and the dropped count.
Both keep the sequence counter and answer DONE. -/
def Obligations.LogTakenAndCleared : Prop :=
  ∀ s : State, let t := s.atRelease []
    (s.takesFrame 0x48 [] →
      exec (.logTake []) s = .next ({ t with log := t.log.tail }.putResult .done 0x48
        (logBytes t.log.head? (t.log.length - 1) t.dropped t.seqCounter)))
    ∧ (s.takesFrame 0x4A [] →
      exec (.logClear []) s = .next ({ t with log := [], dropped := 0 }.putResult .done 0x4A
        ([toByte t.log.length, toByte t.dropped] ++ beBytes 2 t.seqCounter.toNat)))

/-- FLUSH-ALL starts the flush of every GATHERING entry in open order and answers DONE with their
number. CLEAR with every window OFF returns the configuration, the fault markers, the open orders and
the opening counter to their power-on values and keeps the log, the settings and the traffic; with a
window that is not OFF it answers BADSTATE. -/
def Obligations.FlushAllAndClear : Prop :=
  ∀ s : State, let t := s.atRelease []
    (s.takesFrame 0x50 [] →
      let victims := t.gatheringWhere fun _ => true
      exec (.flushAll []) s = .next ((t.startFlushes victims).putResult .done 0x50
        [toByte victims.length]))
    ∧ (s.takesFrame 0x5F [] → (∀ w : Fin 8, t.windows[w].status = .off) →
      exec (.clear []) s = .next ({ t with
        windows := State.reset.windows, layouts := State.reset.layouts
        tables := State.reset.tables, programs := State.reset.programs
        entries := t.entries.map fun (e : Entry) => { e with fault := false, openOrder := 0 }
        openCounter := 0 }.putResult .done 0x5F []))
    ∧ (s.takesFrame 0x5F [] → (∃ w : Fin 8, t.windows[w].status ≠ .off) →
      exec (.clear []) s = .next (t.putResult .badState 0x5F []))

/-! ### Invariants and encodings -/

/-- No step lets the part pass its capacities, and no step breaks the rule by which a flushing entry has at
most one waiting unit and the dispatcher one while ISSUING. -/
def Obligations.LimitsKept : Prop :=
  ∀ s t : State, s.WithinLimits → s.UnitsSound → step s = .next t → t.WithinLimits ∧ t.UnitsSound

/-- No step makes two windows that are not OFF share a view or a store byte, or a live window's ranges
ill-formed. -/
def Obligations.WindowsStaySound : Prop :=
  ∀ s t : State, s.WindowsSound → step s = .next t → t.WindowsSound

/-- No step leaves a VALID layout that fails a commit check, or an ACTIVE or DRAINING window whose
layout is not VALID with the window's activation sizes. -/
def Obligations.LayoutsStaySound : Prop :=
  ∀ s t : State, s.LayoutsSound → step s = .next t → t.LayoutsSound

/-- No step makes two gather entries that are not FREE hold the same field, and none lets the open order
name an entry twice, name a FREE one or miss another. -/
def Obligations.KeysStayApart : Prop :=
  (∀ s t : State, s.KeysApart → step s = .next t → t.KeysApart)
  ∧ (∀ s t : State, s.OpensInOrder → step s = .next t → t.OpensInOrder)

/-- The invariants hold at reset. -/
def Obligations.InvariantsHoldAtReset : Prop :=
  State.reset.WithinLimits ∧ State.reset.WindowsSound ∧ State.reset.LayoutsSound
    ∧ State.reset.KeysApart ∧ State.reset.UnitsSound ∧ State.reset.OpensInOrder

/-- What the part reads back is what it would take: a window record, a field descriptor, a code table's
entries and a step list parse back from their encodings, and a good frame's check gives its code and
payload. The bytes of a window record, a descriptor, a layout, a code table and a program stand in the
layouts of R185, R187, R188, R189 and R190. -/
def Obligations.EncodingsReadBack : Prop :=
  let flag := fun b : Bool => if b then (1 : Byte) else 0
  let two := fun n : Nat => [toByte (n / 2 ^ 8), toByte n]
  let four := fun n : Nat => [toByte (n / 2 ^ 24), toByte (n / 2 ^ 16), toByte (n / 2 ^ 8), toByte n]
  (∀ (w : Fin 8) (c : WindowCfg), c.legal → parseWindowCfg (windowBytes w c) = some c)
  ∧ (∀ f : FieldDesc, f.wellFormed = true → parseDesc f.encode = some f)
  ∧ (∀ forward : List (Option Byte), parseEntries (forward.flatMap entryBytes) = forward.map some)
  ∧ (∀ steps final, (∀ x ∈ steps, x.legal false) → final.legal true →
      parseSteps ((steps ++ [final]).flatMap EditStep.encode) = (steps ++ [final]).map some)
  ∧ (∀ (code : Byte) (payload : List Byte), payload.length ≤ 520 → (code = 0x7E → payload ≠ []) →
      frameVerdict (frameBytes code payload) false = .good code payload)
  ∧ (∀ (w : Fin 8) (win : Window), let c := win.cfg
    let state : List Byte := match win.status with
      | .off => [0, 0, 0, 0, 0]
      | .live .active va sa => 1 :: two va ++ two sa
      | .live .draining va sa => 2 :: two va ++ two sa
      | .live .suspended va sa => 3 :: two va ++ two sa
    windowReadBytes w win = [toByte w.val] ++ four c.viewBase ++ four c.recordCount
      ++ [toByte c.layout.val] ++ four c.storeBase ++ two c.stride
      ++ [flag (c.order == .big), c.overflowMark, flag (c.policy == .substitute), flag (c.ack == .confirmed),
        toByte c.gatherTimeout]
      ++ two c.holdLimit ++ [c.holeFill, c.viewSub, c.storeSub] ++ state)
  ∧ (∀ f : FieldDesc,
    let tableByte := fun t : Option (Fin 4) => (t.map fun i => toByte i.val).getD 0xFF
    let kind : List Byte := match f.kind with
      | .raw => [0, 0xFF, 0xFF, 0xFF, 0xFF, 0xFF]
      | .text t viewFill storeFill => [1, tableByte t, 0xFF, 0xFF, viewFill, storeFill]
      | .packed sign => [2, 0xFF, 0xFF, flag (sign == .signed), 0xFF, 0xFF]
      | .edited t e sign => [3, tableByte t, toByte e.val, flag (sign == .signed), 0xFF, 0xFF]
    f.encode = [toByte f.viewOff, toByte f.viewLen, toByte f.storeOff, toByte f.storeLen] ++ kind
      ++ [flag f.readOnly])
  ∧ (∀ l : Layout,
    (l = .empty → l.readBytes = [0, 0, 0, 0, 0, 0, 0xFF, 0])
    ∧ (∀ status va sa fields, l = .built status va sa fields →
      let shown : List Byte := two va ++ two sa
      let list : List Byte := toByte fields.length :: fields.flatMap FieldDesc.encode
      (status = .draft → l.readBytes = [1] ++ shown ++ [0, 0xFF] ++ list)
      ∧ (status = .valid → l.readBytes = [2] ++ shown ++ [0, 0xFF] ++ list)
      ∧ (∀ reason field, status = .invalid reason field →
        let code : Byte := match reason with
          | .noFields => 1
          | .order => 2
          | .storeOverlap => 3
          | .bounds => 4
          | .notLoaded => 5
          | .length => 6
          | .digits => 7
        l.readBytes = [3] ++ shown ++ [code, (field.map toByte).getD 0xFF] ++ list)))
  ∧ (CodeTable.empty.readBytes = [0])
  ∧ (∀ forward rev bijective unreached,
    let entry : Option Byte → List Byte := fun e => match e with
      | some code => [0, code]
      | none => [1, 0]
    (CodeTable.loaded forward rev bijective unreached).readBytes
      = [1, flag bijective] ++ two unreached ++ forward.flatMap entry)
  ∧ (Program.empty.readBytes = [0])
  ∧ (∀ steps outLen digits,
    let opcode : StepOp → Byte := fun op => match op with
      | .dig => 1
      | .req => 2
      | .mark => 3
      | .fixed => 4
      | .minus => 5
      | .plus => 6
      | .fill => 7
      | .float => 8
    (Program.loaded steps outLen digits).readBytes
      = [1, toByte outLen, toByte digits, toByte steps.length]
        ++ steps.flatMap fun x => [opcode x.op, x.operand, flag x.last])
end

