-- ==== Sys2Proof/Laws/Numbers.lean ====
section
/-! SUPPORT. The numbers of the byte layouts and of the conversions: what is written reads back. -/

namespace Sys2Proof.Machine

/-! ### Bytes and indices -/

@[simp] theorem toByte_toNat (n : Nat) : (toByte n).toNat = n % 256 := by
  simp [toByte]

theorem toByte_of_toNat (b : Byte) : toByte b.toNat = b := by
  simp [toByte]

/-- An index below 256 reads back from its byte. -/
theorem indexOf?_toByte (n : Nat) (hn : n ≤ 256) (i : Fin n) : indexOf? n (toByte i.val) = some i := by
  have hi : i.val < 256 := by omega
  unfold indexOf?
  have h : (toByte i.val).toNat = i.val := by rw [toByte_toNat, Nat.mod_eq_of_lt hi]
  rw [dif_pos (by rw [h]; exact i.isLt)]
  congr 1
  exact Fin.ext h

theorem indexOf?_window (w : Fin 8) : indexOf? 8 (toByte w.val) = some w :=
  indexOf?_toByte 8 (by decide) w

theorem indexOf?_layout (l : Fin 16) : indexOf? 16 (toByte l.val) = some l :=
  indexOf?_toByte 16 (by decide) l

theorem indexOf?_table (t : Fin 4) : indexOf? 4 (toByte t.val) = some t :=
  indexOf?_toByte 4 (by decide) t

theorem indexOf?_program (e : Fin 32) : indexOf? 32 (toByte e.val) = some e :=
  indexOf?_toByte 32 (by decide) e

/-- An index of n or above names nothing. -/
theorem indexOf?_none (n : Nat) (b : Byte) (h : n ≤ b.toNat) : indexOf? n b = none := by
  unfold indexOf?
  rw [dif_neg (by omega)]

@[simp] theorem flagOf?_flagByte (b : Bool) : flagOf? (flagByte b) = some b := by
  cases b <;> decide

@[simp] theorem byteOrderOf?_byte (o : ByteOrder) : byteOrderOf? o.byte = some o := by
  cases o <;> decide

@[simp] theorem policyOf?_byte (p : Policy) : policyOf? p.byte = some p := by
  cases p <;> decide

@[simp] theorem ackOf?_byte (a : Ack) : ackOf? a.byte = some a := by
  cases a <;> decide

@[simp] theorem signOf?_byte (sg : Signedness) : signOf? sg.byte = some sg := by
  cases sg <;> decide

@[simp] theorem stepOpOf?_byte (op : StepOp) : stepOpOf? op.byte = some op := by
  cases op <;> decide

@[simp] theorem tableOf?_tableByte (t : Option (Fin 4)) : tableOf? (tableByte t) = some t := by
  revert t
  decide

/-! ### Big-endian numbers -/

@[simp] theorem beBytes_length (n v : Nat) : (beBytes n v).length = n := by
  induction n generalizing v with
  | zero => rfl
  | succ n ih => simp [beBytes, ih]

theorem beNat_foldl (bytes : List Byte) (acc : Nat) :
    bytes.foldl (fun acc b => acc * 256 + b.toNat) acc = acc * 256 ^ bytes.length + beNat bytes := by
  induction bytes generalizing acc with
  | nil => simp [beNat]
  | cons b rest ih =>
    simp only [List.foldl_cons, List.length_cons, beNat]
    rw [ih, ih (0 * 256 + b.toNat)]
    ring

/-- What beBytes writes, beNat reads, modulo the room. -/
theorem beNat_beBytes_mod (n v : Nat) : beNat (beBytes n v) = v % 256 ^ n := by
  induction n with
  | zero => simp [beBytes, beNat, Nat.mod_one]
  | succ n ih =>
    have h : beNat (beBytes (n + 1) v)
        = (toByte (v / 256 ^ n)).toNat * 256 ^ n + beNat (beBytes n v) := by
      simp only [beBytes, beNat, List.foldl_cons]
      rw [beNat_foldl, beBytes_length]
      simp [beNat]
    rw [h, ih, toByte_toNat, Nat.pow_succ, Nat.mod_mul]
    ring

/-- A number that fits reads back. -/
theorem beNat_beBytes (n v : Nat) (h : v < 256 ^ n) : beNat (beBytes n v) = v := by
  rw [beNat_beBytes_mod, Nat.mod_eq_of_lt h]

/-! ### Sums and checksums -/

theorem byteSum_append (xs ys : List Byte) : byteSum (xs ++ ys) = byteSum xs + byteSum ys := by
  have aux : ∀ (ys : List Byte) (acc : Byte), ys.foldl (· + ·) acc = acc + byteSum ys := by
    intro ys
    induction ys with
    | nil => intro acc; simp [byteSum]
    | cons y ys ih =>
      intro acc
      simp only [List.foldl_cons, byteSum]
      rw [ih, ih (0 + y)]
      simp [BitVec.add_assoc]
  unfold byteSum
  rw [List.foldl_append, aux]
  rfl

/-- Bytes with their checksum sum to 0. -/
theorem byteSum_checksum (xs : List Byte) : byteSum (xs ++ [checksum xs]) = 0 := by
  rw [byteSum_append]
  show byteSum xs + (0 + checksum xs) = 0
  unfold checksum
  simp

/-! ### Little-endian numbers and view integers -/

@[simp] theorem leBytes_length (n v : Nat) : (leBytes n v).length = n := by
  induction n generalizing v with
  | zero => rfl
  | succ n ih => simp [leBytes, ih]

theorem leNat_lt (bytes : List Byte) : leNat bytes < 256 ^ bytes.length := by
  induction bytes with
  | nil => simp [leNat]
  | cons b rest ih =>
    simp only [leNat, List.length_cons, Nat.pow_succ]
    have := b.isLt
    omega

/-- The bytes of the number they spell are themselves. -/
theorem leBytes_leNat (bytes : List Byte) : leBytes bytes.length (leNat bytes) = bytes := by
  induction bytes with
  | nil => rfl
  | cons b rest ih =>
    have hb := b.isLt
    simp only [leNat, List.length_cons, leBytes]
    have h1 : (b.toNat + 256 * leNat rest) % 256 = b.toNat := by omega
    have h2 : (b.toNat + 256 * leNat rest) / 256 = leNat rest := by omega
    rw [h1, h2, ih, toByte_of_toNat]

@[simp] theorem arrange_length (o : ByteOrder) (bytes : List Byte) :
    (o.arrange bytes).length = bytes.length := by
  cases o <;> simp [ByteOrder.arrange]

@[simp] theorem arrange_arrange (o : ByteOrder) (bytes : List Byte) :
    o.arrange (o.arrange bytes) = bytes := by
  cases o <;> simp [ByteOrder.arrange]

/-- The view integer is the little-endian number of the arranged bytes, modulo the view's room. -/
theorem viewInteger_emod (o : ByteOrder) (sg : Signedness) (image : List Byte) :
    viewInteger o sg image % (256 : Int) ^ image.length = (leNat (o.arrange image) : Int) := by
  have h := leNat_lt (o.arrange image)
  rw [arrange_length] at h
  have h' : ((leNat (o.arrange image) : Nat) : Int) < (256 : Int) ^ image.length := by exact_mod_cast h
  have hm : ((leNat (o.arrange image) : Nat) : Int) % (256 : Int) ^ image.length
      = (leNat (o.arrange image) : Int) := Int.emod_eq_of_lt (by positivity) h'
  unfold viewInteger
  cases sg
  · exact hm
  · dsimp only
    split
    · exact hm
    · rw [Int.sub_emod, Int.emod_self, sub_zero, Int.emod_emod_of_dvd _ (dvd_refl _)]
      exact hm

/-- A view image is what its own view integer is written back as. -/
theorem writeViewInteger_viewInteger (o : ByteOrder) (sg : Signedness) (image : List Byte) :
    writeViewInteger o image.length (viewInteger o sg image) = image := by
  unfold writeViewInteger
  rw [viewInteger_emod, Int.toNat_natCast]
  have h := leBytes_leNat (o.arrange image)
  rw [arrange_length] at h
  rw [h, arrange_arrange]

/-- A view integer lies in its view type. -/
theorem viewInteger_bounds (o : ByteOrder) (sg : Signedness) (image : List Byte)
    (hl : 1 ≤ image.length) :
    viewMin sg image.length ≤ viewInteger o sg image
      ∧ viewInteger o sg image ≤ viewMax sg image.length := by
  have h := leNat_lt (o.arrange image)
  rw [arrange_length] at h
  have h' : ((leNat (o.arrange image) : Nat) : Int) < (256 : Int) ^ image.length := by exact_mod_cast h
  have h0 : (0 : Int) ≤ ((leNat (o.arrange image) : Nat) : Int) := by positivity
  obtain ⟨k, hk⟩ : ∃ k : Int, (256 : Int) ^ image.length = 2 * k := by
    obtain ⟨m, hm⟩ := Nat.exists_eq_add_of_le hl
    refine ⟨128 * 256 ^ m, ?_⟩
    rw [hm, pow_add]
    ring
  unfold viewInteger viewMin viewMax
  cases sg
  · dsimp only
    omega
  · dsimp only
    rw [hk] at h' ⊢
    split
    · next hlt =>
      have hlt' : 2 * ((leNat (o.arrange image) : Nat) : Int) < 2 * k := by
        rw [← hk]; exact_mod_cast hlt
      omega
    · next hge =>
      have hge' : 2 * k ≤ 2 * ((leNat (o.arrange image) : Nat) : Int) := by
        rw [← hk]; exact_mod_cast Nat.not_lt.mp hge
      omega

/-- A view integer passes the range check with its own image. -/
theorem rangeChecked_viewInteger (o : ByteOrder) (sg : Signedness) (image : List Byte)
    (hl : 1 ≤ image.length) :
    rangeChecked o sg image.length (viewInteger o sg image) = { result := image, exc := none } := by
  obtain ⟨h1, h2⟩ := viewInteger_bounds o sg image hl
  unfold rangeChecked
  rw [if_neg (not_lt.mpr h2), if_neg (not_lt.mpr h1), writeViewInteger_viewInteger]

/-! ### Decimal digits -/

@[simp] theorem decimalDigits_length (n v : Nat) : (decimalDigits n v).length = n := by
  induction n generalizing v with
  | zero => rfl
  | succ n ih => simp [decimalDigits, ih]

theorem decimalDigits_lt (n v d : Nat) (h : d ∈ decimalDigits n v) : d < 10 := by
  induction n with
  | zero => simp [decimalDigits] at h
  | succ n ih =>
    simp only [decimalDigits, List.mem_cons] at h
    rcases h with rfl | h
    · exact Nat.mod_lt _ (by decide)
    · exact ih h

theorem digitsValue_foldl (digits : List Nat) (acc : Nat) :
    digits.foldl (fun acc d => acc * 10 + d) acc = acc * 10 ^ digits.length + digitsValue digits := by
  induction digits generalizing acc with
  | nil => simp [digitsValue]
  | cons d rest ih =>
    simp only [List.foldl_cons, List.length_cons, digitsValue]
    rw [ih, ih (0 * 10 + d)]
    ring

/-- What decimalDigits writes, digitsValue reads, modulo the room. -/
theorem digitsValue_decimalDigits_mod (n v : Nat) : digitsValue (decimalDigits n v) = v % 10 ^ n := by
  induction n with
  | zero => simp [decimalDigits, digitsValue, Nat.mod_one]
  | succ n ih =>
    have h : digitsValue (decimalDigits (n + 1) v)
        = (v / 10 ^ n % 10) * 10 ^ n + digitsValue (decimalDigits n v) := by
      simp only [decimalDigits, digitsValue, List.foldl_cons]
      rw [digitsValue_foldl, decimalDigits_length]
      simp [digitsValue]
    rw [h, ih, Nat.pow_succ, Nat.mod_mul]
    ring

theorem digitsValue_decimalDigits (n v : Nat) (h : v < 10 ^ n) :
    digitsValue (decimalDigits n v) = v := by
  rw [digitsValue_decimalDigits_mod, Nat.mod_eq_of_lt h]

/-! ### Nibbles -/

/-- Nibbles packed two to a byte unpack to themselves. -/
theorem unpackNibbles_packNibbles : ∀ nibbles : List Nat, (∀ d ∈ nibbles, d < 16) →
    nibbles.length % 2 = 0 → unpackNibbles (packNibbles nibbles) = nibbles
  | [], _, _ => rfl
  | [_], _, h => by simp at h
  | hi :: lo :: rest, hd, h => by
    have h1 : hi < 16 := hd hi (by simp)
    have h2 : lo < 16 := hd lo (by simp)
    have ih := unpackNibbles_packNibbles rest (fun d m => hd d (by simp [m])) (by simp only [List.length_cons] at h; omega)
    simp only [packNibbles, unpackNibbles, toByte_toNat, ih]
    rw [Nat.mod_eq_of_lt (by omega : hi * 16 + lo < 256)]
    rw [show (hi * 16 + lo) / 16 = hi by omega, show (hi * 16 + lo) % 16 = lo by omega]

@[simp] theorem unpackNibbles_length (bytes : List Byte) :
    (unpackNibbles bytes).length = 2 * bytes.length := by
  induction bytes with
  | nil => rfl
  | cons b rest ih => simp only [unpackNibbles, List.length_cons, ih]; omega

/-! ### The first failing byte -/

/-- The first position at which a test holds, and none before it. -/
theorem firstByte_some (start : Nat) (bytes : List Byte) (test : Byte → Bool) (p : Nat) (b : Byte)
    (hp : start ≤ p) (h : bytes[p - start]? = some b) (ht : test b = true)
    (hm : ∀ p' b', start ≤ p' → p' < p → bytes[p' - start]? = some b' → test b' = false) :
    firstByte start bytes test = some (p, b) := by
  induction bytes generalizing start with
  | nil => simp at h
  | cons c rest ih =>
    unfold firstByte
    rw [List.zipIdx_cons, List.find?_cons]
    by_cases hps : p = start
    · subst hps
      simp only [Nat.sub_self, List.getElem?_cons_zero, Option.some.injEq] at h
      subst h
      simp [ht]
    · simp only [hm start c le_rfl (by omega) (by simp)]
      refine ih (start + 1) (by omega) ?_ fun p' b' h2 h3 h4 => hm p' b' (by omega) h3 ?_
      · rw [show p - start = (p - (start + 1)) + 1 by omega] at h
        simpa using h
      · rw [show p' - start = (p' - (start + 1)) + 1 by omega]
        simpa using h4

theorem firstByte_none (start : Nat) (bytes : List Byte) (test : Byte → Bool)
    (h : ∀ b ∈ bytes, test b = false) : firstByte start bytes test = none := by
  unfold firstByte
  simp only [Option.map_eq_none_iff, List.find?_eq_none]
  intro x hx
  have hx' := List.mem_zipIdx hx
  simp [h x.1 (by rw [hx'.2.2]; exact List.getElem_mem _)]

/-! ### The range check -/

theorem writeViewInteger_zero (o : ByteOrder) (n : Nat) :
    writeViewInteger o n 0 = List.replicate n 0 := by
  have h : ∀ n, leBytes n 0 = List.replicate n 0 := by
    intro n
    induction n with
    | zero => rfl
    | succ n ih => simp [leBytes, ih, List.replicate_succ, toByte]
  unfold writeViewInteger
  rw [show ((0 : Int) % 256 ^ n).toNat = 0 by simp, h]
  cases o <;> simp [ByteOrder.arrange]

/-- The bounds of a view type are in order. -/
theorem viewMin_le_viewMax (sg : Signedness) (len : Nat) (hl : 1 ≤ len) :
    viewMin sg len ≤ viewMax sg len := by
  obtain ⟨k, hk, hk1⟩ : ∃ k : Int, (256 : Int) ^ len = 2 * k ∧ 1 ≤ k := by
    obtain ⟨m, hm⟩ := Nat.exists_eq_add_of_le hl
    refine ⟨128 * 256 ^ m, ?_, ?_⟩
    · rw [hm, pow_add]
      ring
    · have : (1 : Int) ≤ 256 ^ m := one_le_pow₀ (by norm_num)
      omega
  cases sg <;> simp only [viewMin, viewMax, hk] <;> omega

theorem rangeChecked_inside (o : ByteOrder) (sg : Signedness) (len : Nat) (x : Int)
    (h1 : viewMin sg len ≤ x) (h2 : x ≤ viewMax sg len) :
    rangeChecked o sg len x = { result := writeViewInteger o len x, exc := none } := by
  unfold rangeChecked
  rw [if_neg (not_lt.mpr h2), if_neg (not_lt.mpr h1)]

theorem rangeChecked_above (o : ByteOrder) (sg : Signedness) (len : Nat) (x : Int)
    (h : viewMax sg len < x) : rangeChecked o sg len x
      = { result := writeViewInteger o len (viewMax sg len), exc := some (.range, none) } := by
  unfold rangeChecked
  rw [if_pos h]

theorem rangeChecked_below (o : ByteOrder) (sg : Signedness) (len : Nat) (x : Int) (hl : 1 ≤ len)
    (h : x < viewMin sg len) : rangeChecked o sg len x
      = { result := writeViewInteger o len (viewMin sg len), exc := some (.range, none) } := by
  have := viewMin_le_viewMax sg len hl
  unfold rangeChecked
  rw [if_neg (by omega), if_pos h]

end Sys2Proof.Machine
end

