-- ==== Sys2Proof/Laws/Reports.lean ====
section
/-! SUPPORT. The parts of the read-back layouts: numbers of two and of four bytes, written sets, padded
images, counts of entries, sums of bytes. -/

namespace Sys2Proof.Machine

theorem beBytes_two (n : Nat) : beBytes 2 n = [toByte (n / 2 ^ 8), toByte n] := by simp [beBytes]

theorem beBytes_four (n : Nat) :
    beBytes 4 n = [toByte (n / 2 ^ 24), toByte (n / 2 ^ 16), toByte (n / 2 ^ 8), toByte n] := by
  simp [beBytes]

theorem optByte_eq (n : Option Nat) : optByte n = (n.map toByte).getD 0xFF := by cases n <;> rfl

/-- Bit p of the written set is 1 when position p is in it. -/
theorem writtenMask_sum (bytes : List (Option Byte)) :
    writtenMask bytes = ((List.range bytes.length).map fun p =>
      if (bytes.getD p none).isSome then 2 ^ p else 0).sum := by
  induction bytes with
  | nil => rfl
  | cons b rest ih =>
    rw [writtenMask, ih, List.length_cons, List.range_succ_eq_map, List.map_cons, List.sum_cons,
      List.map_map, ← List.sum_map_mul_left]
    refine congrArg₂ (· + ·) rfl (congrArg List.sum (List.map_congr_left fun p _ => ?_))
    simp only [Function.comp, List.getD_cons_succ]
    split <;> simp [Nat.pow_succ, Nat.mul_comm]

/-- An image in 32 bytes, position by position. -/
theorem pad32_eq (image : List Byte) : pad32 image = (List.range 32).map fun p => image.getD p 0 := by
  refine List.ext_getElem? fun i => ?_
  unfold pad32
  by_cases h : i < 32
  · rw [List.getElem?_take, if_pos h, List.getElem?_map, List.getElem?_range h]
    by_cases hi : i < image.length
    · rw [List.getElem?_append_left hi]
      simp [List.getD, hi]
    · rw [List.getElem?_append_right (by omega), List.getElem?_replicate, if_pos (by omega)]
      simp [List.getD, hi]
  · simp [h]

/-- The entries of which a test holds, counted by index. -/
theorem State.countEntries_eq (s : State) (test : Entry → Bool) :
    s.countEntries test = ((List.finRange 8).filter fun g => test s.entries[g]).length := by
  have h : s.entries.toList = (List.finRange 8).map fun g => s.entries[g] := by
    apply List.ext_getElem <;> simp
  unfold State.countEntries
  rw [h, List.filter_map, List.length_map]
  rfl

/-- The 8-bit sum of bytes as a number. -/
theorem byteSum_toNat (bytes : List Byte) :
    (byteSum bytes).toNat = (bytes.map (·.toNat)).sum % 256 := by
  have from_any : ∀ a : Byte,
      (bytes.foldl (· + ·) a).toNat = (a.toNat + (bytes.map (·.toNat)).sum) % 256 := by
    induction bytes with
    | nil => intro a; simp; omega
    | cons b rest ih =>
      intro a
      rw [List.foldl_cons, ih, List.map_cons, List.sum_cons, BitVec.toNat_add]
      omega
  simpa [byteSum] using from_any 0

end Sys2Proof.Machine
end

