-- ==== Sys2Proof/Laws/Arguments.lean ====
section
/-! SUPPORT. Which argument bytes and which frames are taken: the value checks of a window record and of a
field descriptor, the frame check. -/

namespace Sys2Proof.Machine

/-! ### Indices and enumerated bytes -/

theorem byte_eq_iff (b : Byte) (n : Nat) (hn : n < 256) : b = BitVec.ofNat 8 n ↔ b.toNat = n := by
  rw [← BitVec.toNat_inj, BitVec.toNat_ofNat, Nat.mod_eq_of_lt hn]

theorem indexOf?_eq_some (n : Nat) (b : Byte) (i : Fin n) : indexOf? n b = some i ↔ b.toNat = i.val := by
  unfold indexOf?
  split
  · simp [Fin.ext_iff]
  · simp only [reduceCtorEq, false_iff]
    omega

theorem byteOrderOf?_eq (b : Byte) :
    byteOrderOf? b = if b.toNat = 0 then some .little else if b.toNat = 1 then some .big else none := by
  revert b; decide +kernel

theorem policyOf?_eq (b : Byte) :
    policyOf? b
      = if b.toNat = 0 then some .strict else if b.toNat = 1 then some .substitute else none := by
  revert b; decide +kernel

theorem ackOf?_eq (b : Byte) :
    ackOf? b = if b.toNat = 0 then some .posted else if b.toNat = 1 then some .confirmed else none := by
  revert b; decide +kernel

theorem signOf?_eq (b : Byte) :
    signOf? b = if b.toNat = 0 then some .unsigned else if b.toNat = 1 then some .signed else none := by
  revert b; decide +kernel

theorem flagOf?_eq (b : Byte) :
    flagOf? b = if b.toNat = 0 then some false else if b.toNat = 1 then some true else none := by
  revert b; decide +kernel

theorem tableOf?_eq (b : Byte) :
    tableOf? b = if h : b.toNat < 4 then some (some ⟨b.toNat, h⟩)
      else if b.toNat = 255 then some none else none := by
  revert b; decide +kernel

/-! ### Numbers in a payload -/

theorem numAt_two (p : List Byte) (k : Nat) (h : k + 2 ≤ p.length) :
    numAt p k 2 = 256 * (p.getD k 0).toNat + (p.getD (k + 1) 0).toNat := by
  obtain ⟨a, b, rest, hd⟩ : ∃ a b rest, p.drop k = a :: b :: rest := by
    have hl : (p.drop k).length = p.length - k := List.length_drop
    match hp : p.drop k with
    | [] => rw [hp] at hl; simp at hl; omega
    | [_] => rw [hp] at hl; simp at hl; omega
    | a :: b :: rest => exact ⟨a, b, rest, rfl⟩
  have hg : ∀ j, p.getD (k + j) 0 = (a :: b :: rest).getD j 0 := fun j => by
    rw [← hd]; simp [List.getD_eq_getElem?_getD, List.getElem?_drop]
  have h0 := hg 0
  have h1 := hg 1
  rw [Nat.add_zero] at h0
  rw [h0, h1, numAt, hd]
  simp [beNat]
  omega

theorem numAt_four (p : List Byte) (k : Nat) (h : k + 4 ≤ p.length) :
    numAt p k 4 = 256 ^ 3 * (p.getD k 0).toNat + 256 ^ 2 * (p.getD (k + 1) 0).toNat
      + 256 * (p.getD (k + 2) 0).toNat + (p.getD (k + 3) 0).toNat := by
  obtain ⟨a, b, c, d, rest, hd⟩ : ∃ a b c d rest, p.drop k = a :: b :: c :: d :: rest := by
    have hl : (p.drop k).length = p.length - k := List.length_drop
    match hp : p.drop k with
    | [] => rw [hp] at hl; simp at hl; omega
    | [_] => rw [hp] at hl; simp at hl; omega
    | [_, _] => rw [hp] at hl; simp at hl; omega
    | [_, _, _] => rw [hp] at hl; simp at hl; omega
    | a :: b :: c :: d :: rest => exact ⟨a, b, c, d, rest, rfl⟩
  have hg : ∀ j, p.getD (k + j) 0 = (a :: b :: c :: d :: rest).getD j 0 := fun j => by
    rw [← hd]; simp [List.getD_eq_getElem?_getD, List.getElem?_drop]
  have h0 := hg 0
  have h1 := hg 1
  have h2 := hg 2
  have h3 := hg 3
  rw [Nat.add_zero] at h0
  rw [h0, h1, h2, h3, numAt, hd]
  simp [beNat]
  omega

/-! ### The window record (R1, R2, R185) -/

/-- The value checks of a WINDOW-WRITE, and the record it carries. -/
theorem parseWindowCfg_eq_some (p : List Byte) (c : WindowCfg) :
    parseWindowCfg p = some c ↔
      (numAt p 1 4 % 8 = 0 ∧ 1 ≤ numAt p 5 4 ∧ numAt p 5 4 ≤ 65536 ∧ 1 ≤ numAt p 14 2
        ∧ numAt p 14 2 ≤ 4096 ∧ 1 ≤ numAt p 21 2)
      ∧ indexOf? 16 (byteAt p 9) = some c.layout ∧ byteOrderOf? (byteAt p 16) = some c.order
      ∧ policyOf? (byteAt p 18) = some c.policy ∧ ackOf? (byteAt p 19) = some c.ack
      ∧ c.viewBase = numAt p 1 4 ∧ c.recordCount = numAt p 5 4 ∧ c.storeBase = numAt p 10 4
      ∧ c.stride = numAt p 14 2 ∧ c.gatherTimeout = (byteAt p 20).toNat ∧ c.holdLimit = numAt p 21 2
      ∧ c.holeFill = byteAt p 23 ∧ c.viewSub = byteAt p 24 ∧ c.storeSub = byteAt p 25
      ∧ c.overflowMark = byteAt p 17 := by
  unfold parseWindowCfg
  simp only [Option.bind_eq_bind, Option.bind_eq_some_iff]
  constructor
  · rintro ⟨l, hl, o, ho, y, hy, k, hk, h⟩
    split at h
    · next hc =>
      injection h with h
      subst h
      exact ⟨hc, hl, ho, hy, hk, rfl, rfl, rfl, rfl, rfl, rfl, rfl, rfl, rfl, rfl⟩
    · exact absurd h (by simp)
  · rintro ⟨hc, hl, ho, hy, hk, h1, h2, h3, h4, h5, h6, h7, h8, h9, h10⟩
    refine ⟨_, hl, _, ho, _, hy, _, hk, ?_⟩
    rw [if_pos hc, ← h1, ← h2, ← h3, ← h4, ← h5, ← h6, ← h7, ← h8, ← h9, ← h10]

/-- No record is taken exactly when a value is refused. -/
theorem parseWindowCfg_eq_none (p : List Byte) :
    parseWindowCfg p = none ↔
      ¬ (numAt p 1 4 % 8 = 0 ∧ 1 ≤ numAt p 5 4 ∧ numAt p 5 4 ≤ 65536 ∧ (byteAt p 9).toNat ≤ 15
        ∧ 1 ≤ numAt p 14 2 ∧ numAt p 14 2 ≤ 4096 ∧ (byteAt p 16).toNat ≤ 1 ∧ (byteAt p 18).toNat ≤ 1
        ∧ (byteAt p 19).toNat ≤ 1 ∧ 1 ≤ numAt p 21 2) := by
  rw [← Option.not_isSome_iff_eq_none, not_iff_not, Option.isSome_iff_exists]
  simp only [parseWindowCfg_eq_some]
  constructor
  · rintro ⟨c, hc, hl, ho, hy, hk, -⟩
    rw [indexOf?_eq_some] at hl
    have := c.layout.isLt
    rw [byteOrderOf?_eq] at ho
    rw [policyOf?_eq] at hy
    rw [ackOf?_eq] at hk
    refine ⟨hc.1, hc.2.1, hc.2.2.1, by omega, hc.2.2.2.1, hc.2.2.2.2.1, ?_, ?_, ?_, hc.2.2.2.2.2⟩ <;>
      split_ifs at ho hy hk <;> omega
  · rintro ⟨h1, h2, h3, hl, h4, h5, ho, hy, hk, h6⟩
    have e1 : ∃ o, byteOrderOf? (byteAt p 16) = some o := by
      rw [byteOrderOf?_eq]; split_ifs <;> first | exact ⟨_, rfl⟩ | omega
    have e2 : ∃ o, policyOf? (byteAt p 18) = some o := by
      rw [policyOf?_eq]; split_ifs <;> first | exact ⟨_, rfl⟩ | omega
    have e3 : ∃ o, ackOf? (byteAt p 19) = some o := by
      rw [ackOf?_eq]; split_ifs <;> first | exact ⟨_, rfl⟩ | omega
    obtain ⟨o, ho⟩ := e1
    obtain ⟨y, hy⟩ := e2
    obtain ⟨k, hk⟩ := e3
    exact ⟨{ viewBase := _, recordCount := _, layout := ⟨(byteAt p 9).toNat, by omega⟩, storeBase := _
             stride := _, order := o, policy := y, ack := k, gatherTimeout := _, holdLimit := _
             holeFill := _, viewSub := _, storeSub := _, overflowMark := _ },
      ⟨h1, h2, h3, h4, h5, h6⟩, (indexOf?_eq_some _ _ _).mpr rfl, ho, hy, hk, rfl, rfl, rfl, rfl, rfl,
      rfl, rfl, rfl, rfl, rfl⟩

/-! ### The field descriptor (R9, R187) -/

/-- The kind, with what its bytes name, that descriptor bytes give. -/
theorem parseKind_eq_some (d : List Byte) (k : FieldKind) :
    parseKind d = some k ↔ match k with
      | .raw => (byteAt d 4).toNat = 0
      | .text t viewFill storeFill => (byteAt d 4).toNat = 1 ∧ tableOf? (byteAt d 5) = some t
        ∧ viewFill = byteAt d 8 ∧ storeFill = byteAt d 9
      | .packed sign => (byteAt d 4).toNat = 2 ∧ signOf? (byteAt d 7) = some sign
      | .edited t e sign => (byteAt d 4).toNat = 3 ∧ tableOf? (byteAt d 5) = some t
        ∧ indexOf? 32 (byteAt d 6) = some e ∧ signOf? (byteAt d 7) = some sign := by
  unfold parseKind
  have e0 : byteAt d 4 = 0 ↔ _ := byte_eq_iff (byteAt d 4) 0 (by omega)
  have e1 : byteAt d 4 = 1 ↔ _ := byte_eq_iff (byteAt d 4) 1 (by omega)
  have e2 : byteAt d 4 = 2 ↔ _ := byte_eq_iff (byteAt d 4) 2 (by omega)
  have e3 : byteAt d 4 = 3 ↔ _ := byte_eq_iff (byteAt d 4) 3 (by omega)
  simp only [e0, e1, e2, e3]
  generalize (byteAt d 4).toNat = n
  split_ifs with h0 h1 h2 h3
  · subst h0
    cases k <;> simp
  · subst h1
    cases k <;> simp [Option.bind_eq_some_iff]
    exact fun _ => ⟨fun h => ⟨h.1.symm, h.2.symm⟩, fun h => ⟨h.1.symm, h.2.symm⟩⟩
  · subst h2
    cases k <;> simp [Option.bind_eq_some_iff]
  · subst h3
    cases k <;> simp [Option.bind_eq_some_iff]
  · cases k <;> simp <;> omega

/-- The descriptor that 11 bytes give: its kind, its flag, its offsets and lengths, well formed. -/
theorem parseDesc_eq_some (d : List Byte) (f : FieldDesc) :
    parseDesc d = some f ↔ parseKind d = some f.kind ∧ flagOf? (byteAt d 10) = some f.readOnly
      ∧ f.viewOff = (byteAt d 0).toNat ∧ f.viewLen = (byteAt d 1).toNat
      ∧ f.storeOff = (byteAt d 2).toNat ∧ f.storeLen = (byteAt d 3).toNat ∧ f.wellFormed = true := by
  unfold parseDesc
  simp only [Option.bind_eq_bind, Option.bind_eq_some_iff]
  constructor
  · rintro ⟨k, hk, b, hb, h⟩
    split at h
    · next hw =>
      injection h with h
      subst h
      exact ⟨hk, hb, rfl, rfl, rfl, rfl, hw⟩
    · exact absurd h (by simp)
  · rintro ⟨hk, hb, h0, h1, h2, h3, hw⟩
    refine ⟨_, hk, _, hb, ?_⟩
    rw [← h0, ← h1, ← h2, ← h3, if_pos hw]

theorem integerLength_iff (n : Nat) : integerLength n = true ↔ n = 1 ∨ n = 2 ∨ n = 4 ∨ n = 8 := by
  simp [integerLength, or_assoc]

/-- A descriptor is taken exactly when it is well formed (R9). -/
theorem parseDesc_isSome (d : List Byte) :
    (parseDesc d).isSome = true ↔
      let n := fun k => (byteAt d k).toNat
      let integer := n 1 = 1 ∨ n 1 = 2 ∨ n 1 = 4 ∨ n 1 = 8
      (1 ≤ n 1 ∧ n 1 ≤ 32) ∧ (1 ≤ n 3 ∧ n 3 ≤ 32) ∧ n 10 ≤ 1
        ∧ ((n 4 = 0 ∧ n 1 = n 3)
          ∨ (n 4 = 1 ∧ (n 5 ≤ 3 ∨ n 5 = 255))
          ∨ (n 4 = 2 ∧ n 7 ≤ 1 ∧ integer ∧ n 3 ≤ 10)
          ∨ (n 4 = 3 ∧ (n 5 ≤ 3 ∨ n 5 = 255) ∧ n 6 ≤ 31 ∧ n 7 ≤ 1 ∧ integer)) := by
  dsimp only
  rw [Option.isSome_iff_exists]
  have hoff : ∀ k, (byteAt d k).toNat ≤ 255 := fun k => Nat.le_of_lt_succ (byteAt d k).isLt
  have htable : ∀ b : Byte, (∃ t, tableOf? b = some t) ↔ b.toNat ≤ 3 ∨ b.toNat = 255 := by decide +kernel
  have hsign : ∀ b : Byte, (∃ sg, signOf? b = some sg) ↔ b.toNat ≤ 1 := fun b => by
    rw [signOf?_eq]; split_ifs <;> simp <;> omega
  have hflag : ∀ b : Byte, (∃ r, flagOf? b = some r) ↔ b.toNat ≤ 1 := fun b => by
    rw [flagOf?_eq]; split_ifs <;> simp <;> omega
  have hprog : ∀ b : Byte, (∃ e, indexOf? 32 b = some e) ↔ b.toNat ≤ 31 := fun b =>
    ⟨fun ⟨e, he⟩ => by rw [indexOf?_eq_some] at he; omega,
      fun h => ⟨⟨b.toNat, by omega⟩, (indexOf?_eq_some _ _ _).mpr rfl⟩⟩
  constructor
  · rintro ⟨f, hf⟩
    obtain ⟨hk, hb, h0, h1, h2, h3, hw⟩ := (parseDesc_eq_some d f).mp hf
    rw [parseKind_eq_some] at hk
    have hr := (hflag _).mp ⟨_, hb⟩
    unfold FieldDesc.wellFormed FieldDesc.kindFits at hw
    rw [h0, h1, h2, h3] at hw
    cases hkind : f.kind <;> simp only [hkind] at hk hw <;>
      simp only [Bool.and_eq_true, decide_eq_true_eq, beq_iff_eq, integerLength_iff] at hw
    · exact ⟨by omega, by omega, hr, Or.inl ⟨hk, hw.2⟩⟩
    · exact ⟨by omega, by omega, hr, Or.inr (Or.inl ⟨hk.1, (htable _).mp ⟨_, hk.2.1⟩⟩)⟩
    · exact ⟨by omega, by omega, hr,
        Or.inr (Or.inr (Or.inl ⟨hk.1, (hsign _).mp ⟨_, hk.2⟩, hw.2.1, hw.2.2⟩))⟩
    · exact ⟨by omega, by omega, hr, Or.inr (Or.inr (Or.inr ⟨hk.1, (htable _).mp ⟨_, hk.2.1⟩,
        (hprog _).mp ⟨_, hk.2.2.1⟩, (hsign _).mp ⟨_, hk.2.2.2⟩, hw.2⟩))⟩
  · rintro ⟨h1, h3, hr, hkinds⟩
    obtain ⟨r, hr⟩ := (hflag _).mpr hr
    have build : ∀ k : FieldKind, parseKind d = some k →
        (FieldDesc.kindFits { viewOff := (byteAt d 0).toNat, viewLen := (byteAt d 1).toNat
                              storeOff := (byteAt d 2).toNat, storeLen := (byteAt d 3).toNat
                              kind := k, readOnly := r } = true) →
        ∃ f, parseDesc d = some f := fun k hk hfit =>
      ⟨_, (parseDesc_eq_some d _).mpr ⟨hk, hr, rfl, rfl, rfl, rfl, by
        have := hoff 0
        have := hoff 2
        unfold FieldDesc.wellFormed
        rw [hfit]
        simp only [Bool.and_true, Bool.and_eq_true, decide_eq_true_eq]
        omega⟩⟩
    rcases hkinds with ⟨hk, h⟩ | ⟨hk, ht⟩ | ⟨hk, hs, hi, hn⟩ | ⟨hk, ht, he, hs, hi⟩
    · exact build .raw ((parseKind_eq_some _ _).mpr hk) (by simpa [FieldDesc.kindFits] using h)
    · obtain ⟨t, ht⟩ := (htable _).mpr ht
      exact build (.text t _ _) ((parseKind_eq_some _ _).mpr ⟨hk, ht, rfl, rfl⟩) rfl
    · obtain ⟨sg, hs⟩ := (hsign _).mpr hs
      refine build (.packed sg) ((parseKind_eq_some _ _).mpr ⟨hk, hs⟩) ?_
      simp only [FieldDesc.kindFits, Bool.and_eq_true, integerLength_iff, decide_eq_true_eq]
      exact ⟨hi, hn⟩
    · obtain ⟨t, ht⟩ := (htable _).mpr ht
      obtain ⟨sg, hs⟩ := (hsign _).mpr hs
      obtain ⟨e, he⟩ := (hprog _).mpr he
      refine build (.edited t e sg) ((parseKind_eq_some _ _).mpr ⟨hk, ht, he, hs⟩) ?_
      simp only [FieldDesc.kindFits, integerLength_iff]
      exact hi

/-! ### Frames (R178) -/

theorem byteSum_eq_zero (bytes : List Byte) :
    byteSum bytes = 0 ↔ (bytes.map (·.toNat)).sum % 256 = 0 := by
  rw [← byteSum_toNat]
  exact byte_eq_iff (byteSum bytes) 0 (by omega)

/-- A frame of 1 to 3 bytes is bad. -/
theorem frameVerdict_short (bytes : List Byte) (partialByte : Bool) (h : 1 ≤ bytes.length)
    (h' : bytes.length ≤ 3) : frameVerdict bytes partialByte = .bad := by
  match bytes with
  | [] => simp at h
  | [_] | [_, _] | [_, _, _] => rfl
  | _ :: _ :: _ :: _ :: _ => simp only [List.length_cons] at h'; omega

/-- The check of a frame of at least 4 bytes: a RESULT-FETCH with a good header, a good frame, or a bad
one. -/
theorem frameVerdict_long (bytes : List Byte) (partialByte : Bool) (h : 4 ≤ bytes.length) :
    frameVerdict bytes partialByte =
      let one := fun k => (bytes.getD k 0).toNat
      let len := 256 * one 1 + one 2
      if one 0 = 0x7E ∧ len = 0 ∧ ((bytes.take 4).map (·.toNat)).sum % 256 = 0 then .fetch
      else if len ≤ 520 ∧ bytes.length = 4 + len ∧ partialByte = false
          ∧ (bytes.map (·.toNat)).sum % 256 = 0 then
        .good (bytes.getD 0 0) ((bytes.drop 3).take len)
      else .bad := by
  match bytes with
  | [] | [_] | [_, _] | [_, _, _] => simp at h
  | code :: hi :: lo :: b3 :: rest =>
    have hc : code = 0x7E ↔ code.toNat = 0x7E := byte_eq_iff code 0x7E (by omega)
    have e : hi.toNat * 256 + lo.toNat = 256 * hi.toNat + lo.toNat := by omega
    have h1 : Config.maxPayload = 520 := rfl
    have h2 : (code :: hi :: lo :: b3 :: rest).take 4 = [code, hi, lo, b3] := rfl
    have h3 : (code :: hi :: lo :: b3 :: rest).drop 3 = b3 :: rest := rfl
    have h4 : (code :: hi :: lo :: b3 :: rest).getD 0 0 = code := rfl
    have h5 : (code :: hi :: lo :: b3 :: rest).getD 1 0 = hi := rfl
    have h6 : (code :: hi :: lo :: b3 :: rest).getD 2 0 = lo := rfl
    unfold frameVerdict
    simp only [byteSum_eq_zero, hc, e, h1, h2, h3, h4, h5, h6]
    split
    · rfl
    · split
      · rw [if_neg (by omega)]
      · next hl =>
        simp only [Nat.not_lt.mp hl, true_and]

/-- What a period under way is, by the receiver's state. -/
theorem Receiver.verdict_bad (r : Receiver) (partialByte : Bool) :
    r.verdict partialByte = .bad
      ↔ r.state = .discarding ∨ r.state = .receiving ∧ frameVerdict r.bytes partialByte = .bad := by
  unfold Receiver.verdict
  cases r.state <;> simp

theorem Receiver.verdict_good (r : Receiver) (partialByte : Bool) (code : Byte) (payload : List Byte) :
    r.verdict partialByte = .good code payload
      ↔ r.state = .receiving ∧ frameVerdict r.bytes partialByte = .good code payload := by
  unfold Receiver.verdict
  cases r.state <;> simp

/-- When a good frame of a command can be released. -/
theorem State.presents_iff (s : State) (code : Byte) (payload : List Byte) :
    s.presents code payload = true ↔ s.rstLow = false
      ∧ (s.mcsLow = true → s.receiver.state = .receiving
        ∧ frameVerdict s.receiver.bytes false = .good code payload)
      ∧ (s.mcsLow = false → payload.length ≤ 520) := by
  unfold State.presents
  rw [← Receiver.verdict_good]
  cases s.rstLow <;> cases s.mcsLow <;> simp [Config.maxPayload]

/-- When a bad frame of these bytes can be released. -/
theorem State.presentsBad_iff (s : State) (bytes : List Byte) (partialByte : Bool) :
    s.presentsBad bytes partialByte = true ↔ s.rstLow = false
      ∧ (s.mcsLow = true → (s.receiver.state = .discarding
          ∨ s.receiver.state = .receiving ∧ frameVerdict s.receiver.bytes partialByte = .bad)
        ∧ s.receiver.count = bytes.length
        ∧ s.receiver.bytes = bytes.take s.receiver.bytes.length)
      ∧ (s.mcsLow = false → frameVerdict bytes partialByte = .bad) := by
  unfold State.presentsBad
  rw [← Receiver.verdict_bad]
  cases s.rstLow <;> cases s.mcsLow <;> simp [and_assoc]

end Sys2Proof.Machine
end

