-- ==== Sys2Proof/Laws/State.lean ====
section
/-! SUPPORT. What each named update of the state leaves as it is: one lemma per field. -/

namespace Sys2Proof.Machine

/-! `State.setTxn` changes txns only. -/

@[simp] theorem State.setTxn_offers (s : State) (id : Nat) (st : TxnState) : (s.setTxn id st).offers = s.offers := rfl
@[simp] theorem State.setTxn_txnCounter (s : State) (id : Nat) (st : TxnState) : (s.setTxn id st).txnCounter = s.txnCounter := rfl
@[simp] theorem State.setTxn_disp (s : State) (id : Nat) (st : TxnState) : (s.setTxn id st).disp = s.disp := rfl
@[simp] theorem State.setTxn_reoffer (s : State) (id : Nat) (st : TxnState) : (s.setTxn id st).reoffer = s.reoffer := rfl
@[simp] theorem State.setTxn_windows (s : State) (id : Nat) (st : TxnState) : (s.setTxn id st).windows = s.windows := rfl
@[simp] theorem State.setTxn_layouts (s : State) (id : Nat) (st : TxnState) : (s.setTxn id st).layouts = s.layouts := rfl
@[simp] theorem State.setTxn_tables (s : State) (id : Nat) (st : TxnState) : (s.setTxn id st).tables = s.tables := rfl
@[simp] theorem State.setTxn_programs (s : State) (id : Nat) (st : TxnState) : (s.setTxn id st).programs = s.programs := rfl
@[simp] theorem State.setTxn_entries (s : State) (id : Nat) (st : TxnState) : (s.setTxn id st).entries = s.entries := rfl
@[simp] theorem State.setTxn_openCounter (s : State) (id : Nat) (st : TxnState) : (s.setTxn id st).openCounter = s.openCounter := rfl
@[simp] theorem State.setTxn_openList (s : State) (id : Nat) (st : TxnState) : (s.setTxn id st).openList = s.openList := rfl
@[simp] theorem State.setTxn_rankCounter (s : State) (id : Nat) (st : TxnState) : (s.setTxn id st).rankCounter = s.rankCounter := rfl
@[simp] theorem State.setTxn_flushOrder (s : State) (id : Nat) (st : TxnState) : (s.setTxn id st).flushOrder = s.flushOrder := rfl
@[simp] theorem State.setTxn_outstanding (s : State) (id : Nat) (st : TxnState) : (s.setTxn id st).outstanding = s.outstanding := rfl
@[simp] theorem State.setTxn_opCounter (s : State) (id : Nat) (st : TxnState) : (s.setTxn id st).opCounter = s.opCounter := rfl
@[simp] theorem State.setTxn_units (s : State) (id : Nat) (st : TxnState) : (s.setTxn id st).units = s.units := rfl
@[simp] theorem State.setTxn_jobs (s : State) (id : Nat) (st : TxnState) : (s.setTxn id st).jobs = s.jobs := rfl
@[simp] theorem State.setTxn_running (s : State) (id : Nat) (st : TxnState) : (s.setTxn id st).running = s.running := rfl
@[simp] theorem State.setTxn_toPlace (s : State) (id : Nat) (st : TxnState) : (s.setTxn id st).toPlace = s.toPlace := rfl
@[simp] theorem State.setTxn_log (s : State) (id : Nat) (st : TxnState) : (s.setTxn id st).log = s.log := rfl
@[simp] theorem State.setTxn_dropped (s : State) (id : Nat) (st : TxnState) : (s.setTxn id st).dropped = s.dropped := rfl
@[simp] theorem State.setTxn_seqCounter (s : State) (id : Nat) (st : TxnState) : (s.setTxn id st).seqCounter = s.seqCounter := rfl
@[simp] theorem State.setTxn_receiver (s : State) (id : Nat) (st : TxnState) : (s.setTxn id st).receiver = s.receiver := rfl
@[simp] theorem State.setTxn_msdo (s : State) (id : Nat) (st : TxnState) : (s.setTxn id st).msdo = s.msdo := rfl
@[simp] theorem State.setTxn_result (s : State) (id : Nat) (st : TxnState) : (s.setTxn id st).result = s.result := rfl
@[simp] theorem State.setTxn_build (s : State) (id : Nat) (st : TxnState) : (s.setTxn id st).build = s.build := rfl
@[simp] theorem State.setTxn_refusedCount (s : State) (id : Nat) (st : TxnState) : (s.setTxn id st).refusedCount = s.refusedCount := rfl
@[simp] theorem State.setTxn_tickDivider (s : State) (id : Nat) (st : TxnState) : (s.setTxn id st).tickDivider = s.tickDivider := rfl
@[simp] theorem State.setTxn_alertEnable (s : State) (id : Nat) (st : TxnState) : (s.setTxn id st).alertEnable = s.alertEnable := rfl
@[simp] theorem State.setTxn_tickInterval (s : State) (id : Nat) (st : TxnState) : (s.setTxn id st).tickInterval = s.tickInterval := rfl
@[simp] theorem State.setTxn_rstLow (s : State) (id : Nat) (st : TxnState) : (s.setTxn id st).rstLow = s.rstLow := rfl
@[simp] theorem State.setTxn_prstLow (s : State) (id : Nat) (st : TxnState) : (s.setTxn id st).prstLow = s.prstLow := rfl
@[simp] theorem State.setTxn_mcsLow (s : State) (id : Nat) (st : TxnState) : (s.setTxn id st).mcsLow = s.mcsLow := rfl
@[simp] theorem State.setTxn_freeCount (s : State) (id : Nat) (st : TxnState) : (s.setTxn id st).freeCount = s.freeCount := rfl
@[simp] theorem State.setTxn_pending (s : State) (id : Nat) (st : TxnState) : (s.setTxn id st).pending = s.pending := rfl

/-! `State.answer` changes txns only. -/

@[simp] theorem State.answer_offers (s : State) (id : Nat) (a : Answer) (data : List Byte) : (s.answer id a data).offers = s.offers := rfl
@[simp] theorem State.answer_txnCounter (s : State) (id : Nat) (a : Answer) (data : List Byte) : (s.answer id a data).txnCounter = s.txnCounter := rfl
@[simp] theorem State.answer_disp (s : State) (id : Nat) (a : Answer) (data : List Byte) : (s.answer id a data).disp = s.disp := rfl
@[simp] theorem State.answer_reoffer (s : State) (id : Nat) (a : Answer) (data : List Byte) : (s.answer id a data).reoffer = s.reoffer := rfl
@[simp] theorem State.answer_windows (s : State) (id : Nat) (a : Answer) (data : List Byte) : (s.answer id a data).windows = s.windows := rfl
@[simp] theorem State.answer_layouts (s : State) (id : Nat) (a : Answer) (data : List Byte) : (s.answer id a data).layouts = s.layouts := rfl
@[simp] theorem State.answer_tables (s : State) (id : Nat) (a : Answer) (data : List Byte) : (s.answer id a data).tables = s.tables := rfl
@[simp] theorem State.answer_programs (s : State) (id : Nat) (a : Answer) (data : List Byte) : (s.answer id a data).programs = s.programs := rfl
@[simp] theorem State.answer_entries (s : State) (id : Nat) (a : Answer) (data : List Byte) : (s.answer id a data).entries = s.entries := rfl
@[simp] theorem State.answer_openCounter (s : State) (id : Nat) (a : Answer) (data : List Byte) : (s.answer id a data).openCounter = s.openCounter := rfl
@[simp] theorem State.answer_openList (s : State) (id : Nat) (a : Answer) (data : List Byte) : (s.answer id a data).openList = s.openList := rfl
@[simp] theorem State.answer_rankCounter (s : State) (id : Nat) (a : Answer) (data : List Byte) : (s.answer id a data).rankCounter = s.rankCounter := rfl
@[simp] theorem State.answer_flushOrder (s : State) (id : Nat) (a : Answer) (data : List Byte) : (s.answer id a data).flushOrder = s.flushOrder := rfl
@[simp] theorem State.answer_outstanding (s : State) (id : Nat) (a : Answer) (data : List Byte) : (s.answer id a data).outstanding = s.outstanding := rfl
@[simp] theorem State.answer_opCounter (s : State) (id : Nat) (a : Answer) (data : List Byte) : (s.answer id a data).opCounter = s.opCounter := rfl
@[simp] theorem State.answer_units (s : State) (id : Nat) (a : Answer) (data : List Byte) : (s.answer id a data).units = s.units := rfl
@[simp] theorem State.answer_jobs (s : State) (id : Nat) (a : Answer) (data : List Byte) : (s.answer id a data).jobs = s.jobs := rfl
@[simp] theorem State.answer_running (s : State) (id : Nat) (a : Answer) (data : List Byte) : (s.answer id a data).running = s.running := rfl
@[simp] theorem State.answer_toPlace (s : State) (id : Nat) (a : Answer) (data : List Byte) : (s.answer id a data).toPlace = s.toPlace := rfl
@[simp] theorem State.answer_log (s : State) (id : Nat) (a : Answer) (data : List Byte) : (s.answer id a data).log = s.log := rfl
@[simp] theorem State.answer_dropped (s : State) (id : Nat) (a : Answer) (data : List Byte) : (s.answer id a data).dropped = s.dropped := rfl
@[simp] theorem State.answer_seqCounter (s : State) (id : Nat) (a : Answer) (data : List Byte) : (s.answer id a data).seqCounter = s.seqCounter := rfl
@[simp] theorem State.answer_receiver (s : State) (id : Nat) (a : Answer) (data : List Byte) : (s.answer id a data).receiver = s.receiver := rfl
@[simp] theorem State.answer_msdo (s : State) (id : Nat) (a : Answer) (data : List Byte) : (s.answer id a data).msdo = s.msdo := rfl
@[simp] theorem State.answer_result (s : State) (id : Nat) (a : Answer) (data : List Byte) : (s.answer id a data).result = s.result := rfl
@[simp] theorem State.answer_build (s : State) (id : Nat) (a : Answer) (data : List Byte) : (s.answer id a data).build = s.build := rfl
@[simp] theorem State.answer_refusedCount (s : State) (id : Nat) (a : Answer) (data : List Byte) : (s.answer id a data).refusedCount = s.refusedCount := rfl
@[simp] theorem State.answer_tickDivider (s : State) (id : Nat) (a : Answer) (data : List Byte) : (s.answer id a data).tickDivider = s.tickDivider := rfl
@[simp] theorem State.answer_alertEnable (s : State) (id : Nat) (a : Answer) (data : List Byte) : (s.answer id a data).alertEnable = s.alertEnable := rfl
@[simp] theorem State.answer_tickInterval (s : State) (id : Nat) (a : Answer) (data : List Byte) : (s.answer id a data).tickInterval = s.tickInterval := rfl
@[simp] theorem State.answer_rstLow (s : State) (id : Nat) (a : Answer) (data : List Byte) : (s.answer id a data).rstLow = s.rstLow := rfl
@[simp] theorem State.answer_prstLow (s : State) (id : Nat) (a : Answer) (data : List Byte) : (s.answer id a data).prstLow = s.prstLow := rfl
@[simp] theorem State.answer_mcsLow (s : State) (id : Nat) (a : Answer) (data : List Byte) : (s.answer id a data).mcsLow = s.mcsLow := rfl
@[simp] theorem State.answer_freeCount (s : State) (id : Nat) (a : Answer) (data : List Byte) : (s.answer id a data).freeCount = s.freeCount := rfl
@[simp] theorem State.answer_pending (s : State) (id : Nat) (a : Answer) (data : List Byte) : (s.answer id a data).pending = s.pending := rfl

/-! `State.setSlot` changes entries only. -/

@[simp] theorem State.setSlot_offers (s : State) (g : Fin 8) (slot : Slot) : (s.setSlot g slot).offers = s.offers := rfl
@[simp] theorem State.setSlot_txns (s : State) (g : Fin 8) (slot : Slot) : (s.setSlot g slot).txns = s.txns := rfl
@[simp] theorem State.setSlot_txnCounter (s : State) (g : Fin 8) (slot : Slot) : (s.setSlot g slot).txnCounter = s.txnCounter := rfl
@[simp] theorem State.setSlot_disp (s : State) (g : Fin 8) (slot : Slot) : (s.setSlot g slot).disp = s.disp := rfl
@[simp] theorem State.setSlot_reoffer (s : State) (g : Fin 8) (slot : Slot) : (s.setSlot g slot).reoffer = s.reoffer := rfl
@[simp] theorem State.setSlot_windows (s : State) (g : Fin 8) (slot : Slot) : (s.setSlot g slot).windows = s.windows := rfl
@[simp] theorem State.setSlot_layouts (s : State) (g : Fin 8) (slot : Slot) : (s.setSlot g slot).layouts = s.layouts := rfl
@[simp] theorem State.setSlot_tables (s : State) (g : Fin 8) (slot : Slot) : (s.setSlot g slot).tables = s.tables := rfl
@[simp] theorem State.setSlot_programs (s : State) (g : Fin 8) (slot : Slot) : (s.setSlot g slot).programs = s.programs := rfl
@[simp] theorem State.setSlot_openCounter (s : State) (g : Fin 8) (slot : Slot) : (s.setSlot g slot).openCounter = s.openCounter := rfl
@[simp] theorem State.setSlot_openList (s : State) (g : Fin 8) (slot : Slot) : (s.setSlot g slot).openList = s.openList := rfl
@[simp] theorem State.setSlot_rankCounter (s : State) (g : Fin 8) (slot : Slot) : (s.setSlot g slot).rankCounter = s.rankCounter := rfl
@[simp] theorem State.setSlot_flushOrder (s : State) (g : Fin 8) (slot : Slot) : (s.setSlot g slot).flushOrder = s.flushOrder := rfl
@[simp] theorem State.setSlot_outstanding (s : State) (g : Fin 8) (slot : Slot) : (s.setSlot g slot).outstanding = s.outstanding := rfl
@[simp] theorem State.setSlot_opCounter (s : State) (g : Fin 8) (slot : Slot) : (s.setSlot g slot).opCounter = s.opCounter := rfl
@[simp] theorem State.setSlot_units (s : State) (g : Fin 8) (slot : Slot) : (s.setSlot g slot).units = s.units := rfl
@[simp] theorem State.setSlot_jobs (s : State) (g : Fin 8) (slot : Slot) : (s.setSlot g slot).jobs = s.jobs := rfl
@[simp] theorem State.setSlot_running (s : State) (g : Fin 8) (slot : Slot) : (s.setSlot g slot).running = s.running := rfl
@[simp] theorem State.setSlot_toPlace (s : State) (g : Fin 8) (slot : Slot) : (s.setSlot g slot).toPlace = s.toPlace := rfl
@[simp] theorem State.setSlot_log (s : State) (g : Fin 8) (slot : Slot) : (s.setSlot g slot).log = s.log := rfl
@[simp] theorem State.setSlot_dropped (s : State) (g : Fin 8) (slot : Slot) : (s.setSlot g slot).dropped = s.dropped := rfl
@[simp] theorem State.setSlot_seqCounter (s : State) (g : Fin 8) (slot : Slot) : (s.setSlot g slot).seqCounter = s.seqCounter := rfl
@[simp] theorem State.setSlot_receiver (s : State) (g : Fin 8) (slot : Slot) : (s.setSlot g slot).receiver = s.receiver := rfl
@[simp] theorem State.setSlot_msdo (s : State) (g : Fin 8) (slot : Slot) : (s.setSlot g slot).msdo = s.msdo := rfl
@[simp] theorem State.setSlot_result (s : State) (g : Fin 8) (slot : Slot) : (s.setSlot g slot).result = s.result := rfl
@[simp] theorem State.setSlot_build (s : State) (g : Fin 8) (slot : Slot) : (s.setSlot g slot).build = s.build := rfl
@[simp] theorem State.setSlot_refusedCount (s : State) (g : Fin 8) (slot : Slot) : (s.setSlot g slot).refusedCount = s.refusedCount := rfl
@[simp] theorem State.setSlot_tickDivider (s : State) (g : Fin 8) (slot : Slot) : (s.setSlot g slot).tickDivider = s.tickDivider := rfl
@[simp] theorem State.setSlot_alertEnable (s : State) (g : Fin 8) (slot : Slot) : (s.setSlot g slot).alertEnable = s.alertEnable := rfl
@[simp] theorem State.setSlot_tickInterval (s : State) (g : Fin 8) (slot : Slot) : (s.setSlot g slot).tickInterval = s.tickInterval := rfl
@[simp] theorem State.setSlot_rstLow (s : State) (g : Fin 8) (slot : Slot) : (s.setSlot g slot).rstLow = s.rstLow := rfl
@[simp] theorem State.setSlot_prstLow (s : State) (g : Fin 8) (slot : Slot) : (s.setSlot g slot).prstLow = s.prstLow := rfl
@[simp] theorem State.setSlot_mcsLow (s : State) (g : Fin 8) (slot : Slot) : (s.setSlot g slot).mcsLow = s.mcsLow := rfl
@[simp] theorem State.setSlot_freeCount (s : State) (g : Fin 8) (slot : Slot) : (s.setSlot g slot).freeCount = s.freeCount := rfl
@[simp] theorem State.setSlot_pending (s : State) (g : Fin 8) (slot : Slot) : (s.setSlot g slot).pending = s.pending := rfl

/-! `State.requestUnit` changes units only. -/

@[simp] theorem State.requestUnit_offers (s : State) (o : UnitOwner) (ops : List MemOp) : (s.requestUnit o ops).offers = s.offers := rfl
@[simp] theorem State.requestUnit_txns (s : State) (o : UnitOwner) (ops : List MemOp) : (s.requestUnit o ops).txns = s.txns := rfl
@[simp] theorem State.requestUnit_txnCounter (s : State) (o : UnitOwner) (ops : List MemOp) : (s.requestUnit o ops).txnCounter = s.txnCounter := rfl
@[simp] theorem State.requestUnit_disp (s : State) (o : UnitOwner) (ops : List MemOp) : (s.requestUnit o ops).disp = s.disp := rfl
@[simp] theorem State.requestUnit_reoffer (s : State) (o : UnitOwner) (ops : List MemOp) : (s.requestUnit o ops).reoffer = s.reoffer := rfl
@[simp] theorem State.requestUnit_windows (s : State) (o : UnitOwner) (ops : List MemOp) : (s.requestUnit o ops).windows = s.windows := rfl
@[simp] theorem State.requestUnit_layouts (s : State) (o : UnitOwner) (ops : List MemOp) : (s.requestUnit o ops).layouts = s.layouts := rfl
@[simp] theorem State.requestUnit_tables (s : State) (o : UnitOwner) (ops : List MemOp) : (s.requestUnit o ops).tables = s.tables := rfl
@[simp] theorem State.requestUnit_programs (s : State) (o : UnitOwner) (ops : List MemOp) : (s.requestUnit o ops).programs = s.programs := rfl
@[simp] theorem State.requestUnit_entries (s : State) (o : UnitOwner) (ops : List MemOp) : (s.requestUnit o ops).entries = s.entries := rfl
@[simp] theorem State.requestUnit_openCounter (s : State) (o : UnitOwner) (ops : List MemOp) : (s.requestUnit o ops).openCounter = s.openCounter := rfl
@[simp] theorem State.requestUnit_openList (s : State) (o : UnitOwner) (ops : List MemOp) : (s.requestUnit o ops).openList = s.openList := rfl
@[simp] theorem State.requestUnit_rankCounter (s : State) (o : UnitOwner) (ops : List MemOp) : (s.requestUnit o ops).rankCounter = s.rankCounter := rfl
@[simp] theorem State.requestUnit_flushOrder (s : State) (o : UnitOwner) (ops : List MemOp) : (s.requestUnit o ops).flushOrder = s.flushOrder := rfl
@[simp] theorem State.requestUnit_outstanding (s : State) (o : UnitOwner) (ops : List MemOp) : (s.requestUnit o ops).outstanding = s.outstanding := rfl
@[simp] theorem State.requestUnit_opCounter (s : State) (o : UnitOwner) (ops : List MemOp) : (s.requestUnit o ops).opCounter = s.opCounter := rfl
@[simp] theorem State.requestUnit_jobs (s : State) (o : UnitOwner) (ops : List MemOp) : (s.requestUnit o ops).jobs = s.jobs := rfl
@[simp] theorem State.requestUnit_running (s : State) (o : UnitOwner) (ops : List MemOp) : (s.requestUnit o ops).running = s.running := rfl
@[simp] theorem State.requestUnit_toPlace (s : State) (o : UnitOwner) (ops : List MemOp) : (s.requestUnit o ops).toPlace = s.toPlace := rfl
@[simp] theorem State.requestUnit_log (s : State) (o : UnitOwner) (ops : List MemOp) : (s.requestUnit o ops).log = s.log := rfl
@[simp] theorem State.requestUnit_dropped (s : State) (o : UnitOwner) (ops : List MemOp) : (s.requestUnit o ops).dropped = s.dropped := rfl
@[simp] theorem State.requestUnit_seqCounter (s : State) (o : UnitOwner) (ops : List MemOp) : (s.requestUnit o ops).seqCounter = s.seqCounter := rfl
@[simp] theorem State.requestUnit_receiver (s : State) (o : UnitOwner) (ops : List MemOp) : (s.requestUnit o ops).receiver = s.receiver := rfl
@[simp] theorem State.requestUnit_msdo (s : State) (o : UnitOwner) (ops : List MemOp) : (s.requestUnit o ops).msdo = s.msdo := rfl
@[simp] theorem State.requestUnit_result (s : State) (o : UnitOwner) (ops : List MemOp) : (s.requestUnit o ops).result = s.result := rfl
@[simp] theorem State.requestUnit_build (s : State) (o : UnitOwner) (ops : List MemOp) : (s.requestUnit o ops).build = s.build := rfl
@[simp] theorem State.requestUnit_refusedCount (s : State) (o : UnitOwner) (ops : List MemOp) : (s.requestUnit o ops).refusedCount = s.refusedCount := rfl
@[simp] theorem State.requestUnit_tickDivider (s : State) (o : UnitOwner) (ops : List MemOp) : (s.requestUnit o ops).tickDivider = s.tickDivider := rfl
@[simp] theorem State.requestUnit_alertEnable (s : State) (o : UnitOwner) (ops : List MemOp) : (s.requestUnit o ops).alertEnable = s.alertEnable := rfl
@[simp] theorem State.requestUnit_tickInterval (s : State) (o : UnitOwner) (ops : List MemOp) : (s.requestUnit o ops).tickInterval = s.tickInterval := rfl
@[simp] theorem State.requestUnit_rstLow (s : State) (o : UnitOwner) (ops : List MemOp) : (s.requestUnit o ops).rstLow = s.rstLow := rfl
@[simp] theorem State.requestUnit_prstLow (s : State) (o : UnitOwner) (ops : List MemOp) : (s.requestUnit o ops).prstLow = s.prstLow := rfl
@[simp] theorem State.requestUnit_mcsLow (s : State) (o : UnitOwner) (ops : List MemOp) : (s.requestUnit o ops).mcsLow = s.mcsLow := rfl
@[simp] theorem State.requestUnit_freeCount (s : State) (o : UnitOwner) (ops : List MemOp) : (s.requestUnit o ops).freeCount = s.freeCount := rfl
@[simp] theorem State.requestUnit_pending (s : State) (o : UnitOwner) (ops : List MemOp) : (s.requestUnit o ops).pending = s.pending := rfl

/-! `State.awaitPlacement` changes toPlace only. -/

@[simp] theorem State.awaitPlacement_offers (s : State) (j : Job) : (s.awaitPlacement j).offers = s.offers := rfl
@[simp] theorem State.awaitPlacement_txns (s : State) (j : Job) : (s.awaitPlacement j).txns = s.txns := rfl
@[simp] theorem State.awaitPlacement_txnCounter (s : State) (j : Job) : (s.awaitPlacement j).txnCounter = s.txnCounter := rfl
@[simp] theorem State.awaitPlacement_disp (s : State) (j : Job) : (s.awaitPlacement j).disp = s.disp := rfl
@[simp] theorem State.awaitPlacement_reoffer (s : State) (j : Job) : (s.awaitPlacement j).reoffer = s.reoffer := rfl
@[simp] theorem State.awaitPlacement_windows (s : State) (j : Job) : (s.awaitPlacement j).windows = s.windows := rfl
@[simp] theorem State.awaitPlacement_layouts (s : State) (j : Job) : (s.awaitPlacement j).layouts = s.layouts := rfl
@[simp] theorem State.awaitPlacement_tables (s : State) (j : Job) : (s.awaitPlacement j).tables = s.tables := rfl
@[simp] theorem State.awaitPlacement_programs (s : State) (j : Job) : (s.awaitPlacement j).programs = s.programs := rfl
@[simp] theorem State.awaitPlacement_entries (s : State) (j : Job) : (s.awaitPlacement j).entries = s.entries := rfl
@[simp] theorem State.awaitPlacement_openCounter (s : State) (j : Job) : (s.awaitPlacement j).openCounter = s.openCounter := rfl
@[simp] theorem State.awaitPlacement_openList (s : State) (j : Job) : (s.awaitPlacement j).openList = s.openList := rfl
@[simp] theorem State.awaitPlacement_rankCounter (s : State) (j : Job) : (s.awaitPlacement j).rankCounter = s.rankCounter := rfl
@[simp] theorem State.awaitPlacement_flushOrder (s : State) (j : Job) : (s.awaitPlacement j).flushOrder = s.flushOrder := rfl
@[simp] theorem State.awaitPlacement_outstanding (s : State) (j : Job) : (s.awaitPlacement j).outstanding = s.outstanding := rfl
@[simp] theorem State.awaitPlacement_opCounter (s : State) (j : Job) : (s.awaitPlacement j).opCounter = s.opCounter := rfl
@[simp] theorem State.awaitPlacement_units (s : State) (j : Job) : (s.awaitPlacement j).units = s.units := rfl
@[simp] theorem State.awaitPlacement_jobs (s : State) (j : Job) : (s.awaitPlacement j).jobs = s.jobs := rfl
@[simp] theorem State.awaitPlacement_running (s : State) (j : Job) : (s.awaitPlacement j).running = s.running := rfl
@[simp] theorem State.awaitPlacement_log (s : State) (j : Job) : (s.awaitPlacement j).log = s.log := rfl
@[simp] theorem State.awaitPlacement_dropped (s : State) (j : Job) : (s.awaitPlacement j).dropped = s.dropped := rfl
@[simp] theorem State.awaitPlacement_seqCounter (s : State) (j : Job) : (s.awaitPlacement j).seqCounter = s.seqCounter := rfl
@[simp] theorem State.awaitPlacement_receiver (s : State) (j : Job) : (s.awaitPlacement j).receiver = s.receiver := rfl
@[simp] theorem State.awaitPlacement_msdo (s : State) (j : Job) : (s.awaitPlacement j).msdo = s.msdo := rfl
@[simp] theorem State.awaitPlacement_result (s : State) (j : Job) : (s.awaitPlacement j).result = s.result := rfl
@[simp] theorem State.awaitPlacement_build (s : State) (j : Job) : (s.awaitPlacement j).build = s.build := rfl
@[simp] theorem State.awaitPlacement_refusedCount (s : State) (j : Job) : (s.awaitPlacement j).refusedCount = s.refusedCount := rfl
@[simp] theorem State.awaitPlacement_tickDivider (s : State) (j : Job) : (s.awaitPlacement j).tickDivider = s.tickDivider := rfl
@[simp] theorem State.awaitPlacement_alertEnable (s : State) (j : Job) : (s.awaitPlacement j).alertEnable = s.alertEnable := rfl
@[simp] theorem State.awaitPlacement_tickInterval (s : State) (j : Job) : (s.awaitPlacement j).tickInterval = s.tickInterval := rfl
@[simp] theorem State.awaitPlacement_rstLow (s : State) (j : Job) : (s.awaitPlacement j).rstLow = s.rstLow := rfl
@[simp] theorem State.awaitPlacement_prstLow (s : State) (j : Job) : (s.awaitPlacement j).prstLow = s.prstLow := rfl
@[simp] theorem State.awaitPlacement_mcsLow (s : State) (j : Job) : (s.awaitPlacement j).mcsLow = s.mcsLow := rfl
@[simp] theorem State.awaitPlacement_freeCount (s : State) (j : Job) : (s.awaitPlacement j).freeCount = s.freeCount := rfl
@[simp] theorem State.awaitPlacement_pending (s : State) (j : Job) : (s.awaitPlacement j).pending = s.pending := rfl

/-! `State.putResult` changes result only. -/

@[simp] theorem State.putResult_offers (s : State) (c : ResultCode) (b : Byte) (data : List Byte) : (s.putResult c b data).offers = s.offers := rfl
@[simp] theorem State.putResult_txns (s : State) (c : ResultCode) (b : Byte) (data : List Byte) : (s.putResult c b data).txns = s.txns := rfl
@[simp] theorem State.putResult_txnCounter (s : State) (c : ResultCode) (b : Byte) (data : List Byte) : (s.putResult c b data).txnCounter = s.txnCounter := rfl
@[simp] theorem State.putResult_disp (s : State) (c : ResultCode) (b : Byte) (data : List Byte) : (s.putResult c b data).disp = s.disp := rfl
@[simp] theorem State.putResult_reoffer (s : State) (c : ResultCode) (b : Byte) (data : List Byte) : (s.putResult c b data).reoffer = s.reoffer := rfl
@[simp] theorem State.putResult_windows (s : State) (c : ResultCode) (b : Byte) (data : List Byte) : (s.putResult c b data).windows = s.windows := rfl
@[simp] theorem State.putResult_layouts (s : State) (c : ResultCode) (b : Byte) (data : List Byte) : (s.putResult c b data).layouts = s.layouts := rfl
@[simp] theorem State.putResult_tables (s : State) (c : ResultCode) (b : Byte) (data : List Byte) : (s.putResult c b data).tables = s.tables := rfl
@[simp] theorem State.putResult_programs (s : State) (c : ResultCode) (b : Byte) (data : List Byte) : (s.putResult c b data).programs = s.programs := rfl
@[simp] theorem State.putResult_entries (s : State) (c : ResultCode) (b : Byte) (data : List Byte) : (s.putResult c b data).entries = s.entries := rfl
@[simp] theorem State.putResult_openCounter (s : State) (c : ResultCode) (b : Byte) (data : List Byte) : (s.putResult c b data).openCounter = s.openCounter := rfl
@[simp] theorem State.putResult_openList (s : State) (c : ResultCode) (b : Byte) (data : List Byte) : (s.putResult c b data).openList = s.openList := rfl
@[simp] theorem State.putResult_rankCounter (s : State) (c : ResultCode) (b : Byte) (data : List Byte) : (s.putResult c b data).rankCounter = s.rankCounter := rfl
@[simp] theorem State.putResult_flushOrder (s : State) (c : ResultCode) (b : Byte) (data : List Byte) : (s.putResult c b data).flushOrder = s.flushOrder := rfl
@[simp] theorem State.putResult_outstanding (s : State) (c : ResultCode) (b : Byte) (data : List Byte) : (s.putResult c b data).outstanding = s.outstanding := rfl
@[simp] theorem State.putResult_opCounter (s : State) (c : ResultCode) (b : Byte) (data : List Byte) : (s.putResult c b data).opCounter = s.opCounter := rfl
@[simp] theorem State.putResult_units (s : State) (c : ResultCode) (b : Byte) (data : List Byte) : (s.putResult c b data).units = s.units := rfl
@[simp] theorem State.putResult_jobs (s : State) (c : ResultCode) (b : Byte) (data : List Byte) : (s.putResult c b data).jobs = s.jobs := rfl
@[simp] theorem State.putResult_running (s : State) (c : ResultCode) (b : Byte) (data : List Byte) : (s.putResult c b data).running = s.running := rfl
@[simp] theorem State.putResult_toPlace (s : State) (c : ResultCode) (b : Byte) (data : List Byte) : (s.putResult c b data).toPlace = s.toPlace := rfl
@[simp] theorem State.putResult_log (s : State) (c : ResultCode) (b : Byte) (data : List Byte) : (s.putResult c b data).log = s.log := rfl
@[simp] theorem State.putResult_dropped (s : State) (c : ResultCode) (b : Byte) (data : List Byte) : (s.putResult c b data).dropped = s.dropped := rfl
@[simp] theorem State.putResult_seqCounter (s : State) (c : ResultCode) (b : Byte) (data : List Byte) : (s.putResult c b data).seqCounter = s.seqCounter := rfl
@[simp] theorem State.putResult_receiver (s : State) (c : ResultCode) (b : Byte) (data : List Byte) : (s.putResult c b data).receiver = s.receiver := rfl
@[simp] theorem State.putResult_msdo (s : State) (c : ResultCode) (b : Byte) (data : List Byte) : (s.putResult c b data).msdo = s.msdo := rfl
@[simp] theorem State.putResult_build (s : State) (c : ResultCode) (b : Byte) (data : List Byte) : (s.putResult c b data).build = s.build := rfl
@[simp] theorem State.putResult_refusedCount (s : State) (c : ResultCode) (b : Byte) (data : List Byte) : (s.putResult c b data).refusedCount = s.refusedCount := rfl
@[simp] theorem State.putResult_tickDivider (s : State) (c : ResultCode) (b : Byte) (data : List Byte) : (s.putResult c b data).tickDivider = s.tickDivider := rfl
@[simp] theorem State.putResult_alertEnable (s : State) (c : ResultCode) (b : Byte) (data : List Byte) : (s.putResult c b data).alertEnable = s.alertEnable := rfl
@[simp] theorem State.putResult_tickInterval (s : State) (c : ResultCode) (b : Byte) (data : List Byte) : (s.putResult c b data).tickInterval = s.tickInterval := rfl
@[simp] theorem State.putResult_rstLow (s : State) (c : ResultCode) (b : Byte) (data : List Byte) : (s.putResult c b data).rstLow = s.rstLow := rfl
@[simp] theorem State.putResult_prstLow (s : State) (c : ResultCode) (b : Byte) (data : List Byte) : (s.putResult c b data).prstLow = s.prstLow := rfl
@[simp] theorem State.putResult_mcsLow (s : State) (c : ResultCode) (b : Byte) (data : List Byte) : (s.putResult c b data).mcsLow = s.mcsLow := rfl
@[simp] theorem State.putResult_freeCount (s : State) (c : ResultCode) (b : Byte) (data : List Byte) : (s.putResult c b data).freeCount = s.freeCount := rfl
@[simp] theorem State.putResult_pending (s : State) (c : ResultCode) (b : Byte) (data : List Byte) : (s.putResult c b data).pending = s.pending := rfl

/-! `State.turnAway` changes refusedCount only. -/

@[simp] theorem State.turnAway_offers (s : State) : (s.turnAway).offers = s.offers := rfl
@[simp] theorem State.turnAway_txns (s : State) : (s.turnAway).txns = s.txns := rfl
@[simp] theorem State.turnAway_txnCounter (s : State) : (s.turnAway).txnCounter = s.txnCounter := rfl
@[simp] theorem State.turnAway_disp (s : State) : (s.turnAway).disp = s.disp := rfl
@[simp] theorem State.turnAway_reoffer (s : State) : (s.turnAway).reoffer = s.reoffer := rfl
@[simp] theorem State.turnAway_windows (s : State) : (s.turnAway).windows = s.windows := rfl
@[simp] theorem State.turnAway_layouts (s : State) : (s.turnAway).layouts = s.layouts := rfl
@[simp] theorem State.turnAway_tables (s : State) : (s.turnAway).tables = s.tables := rfl
@[simp] theorem State.turnAway_programs (s : State) : (s.turnAway).programs = s.programs := rfl
@[simp] theorem State.turnAway_entries (s : State) : (s.turnAway).entries = s.entries := rfl
@[simp] theorem State.turnAway_openCounter (s : State) : (s.turnAway).openCounter = s.openCounter := rfl
@[simp] theorem State.turnAway_openList (s : State) : (s.turnAway).openList = s.openList := rfl
@[simp] theorem State.turnAway_rankCounter (s : State) : (s.turnAway).rankCounter = s.rankCounter := rfl
@[simp] theorem State.turnAway_flushOrder (s : State) : (s.turnAway).flushOrder = s.flushOrder := rfl
@[simp] theorem State.turnAway_outstanding (s : State) : (s.turnAway).outstanding = s.outstanding := rfl
@[simp] theorem State.turnAway_opCounter (s : State) : (s.turnAway).opCounter = s.opCounter := rfl
@[simp] theorem State.turnAway_units (s : State) : (s.turnAway).units = s.units := rfl
@[simp] theorem State.turnAway_jobs (s : State) : (s.turnAway).jobs = s.jobs := rfl
@[simp] theorem State.turnAway_running (s : State) : (s.turnAway).running = s.running := rfl
@[simp] theorem State.turnAway_toPlace (s : State) : (s.turnAway).toPlace = s.toPlace := rfl
@[simp] theorem State.turnAway_log (s : State) : (s.turnAway).log = s.log := rfl
@[simp] theorem State.turnAway_dropped (s : State) : (s.turnAway).dropped = s.dropped := rfl
@[simp] theorem State.turnAway_seqCounter (s : State) : (s.turnAway).seqCounter = s.seqCounter := rfl
@[simp] theorem State.turnAway_receiver (s : State) : (s.turnAway).receiver = s.receiver := rfl
@[simp] theorem State.turnAway_msdo (s : State) : (s.turnAway).msdo = s.msdo := rfl
@[simp] theorem State.turnAway_result (s : State) : (s.turnAway).result = s.result := rfl
@[simp] theorem State.turnAway_build (s : State) : (s.turnAway).build = s.build := rfl
@[simp] theorem State.turnAway_tickDivider (s : State) : (s.turnAway).tickDivider = s.tickDivider := rfl
@[simp] theorem State.turnAway_alertEnable (s : State) : (s.turnAway).alertEnable = s.alertEnable := rfl
@[simp] theorem State.turnAway_tickInterval (s : State) : (s.turnAway).tickInterval = s.tickInterval := rfl
@[simp] theorem State.turnAway_rstLow (s : State) : (s.turnAway).rstLow = s.rstLow := rfl
@[simp] theorem State.turnAway_prstLow (s : State) : (s.turnAway).prstLow = s.prstLow := rfl
@[simp] theorem State.turnAway_mcsLow (s : State) : (s.turnAway).mcsLow = s.mcsLow := rfl
@[simp] theorem State.turnAway_freeCount (s : State) : (s.turnAway).freeCount = s.freeCount := rfl
@[simp] theorem State.turnAway_pending (s : State) : (s.turnAway).pending = s.pending := rfl

/-! `State.endPeriod` changes mcsLow, msdo, receiver only. -/

@[simp] theorem State.endPeriod_offers (s : State) (shifted : List Byte) : (s.endPeriod shifted).offers = s.offers := rfl
@[simp] theorem State.endPeriod_txns (s : State) (shifted : List Byte) : (s.endPeriod shifted).txns = s.txns := rfl
@[simp] theorem State.endPeriod_txnCounter (s : State) (shifted : List Byte) : (s.endPeriod shifted).txnCounter = s.txnCounter := rfl
@[simp] theorem State.endPeriod_disp (s : State) (shifted : List Byte) : (s.endPeriod shifted).disp = s.disp := rfl
@[simp] theorem State.endPeriod_reoffer (s : State) (shifted : List Byte) : (s.endPeriod shifted).reoffer = s.reoffer := rfl
@[simp] theorem State.endPeriod_windows (s : State) (shifted : List Byte) : (s.endPeriod shifted).windows = s.windows := rfl
@[simp] theorem State.endPeriod_layouts (s : State) (shifted : List Byte) : (s.endPeriod shifted).layouts = s.layouts := rfl
@[simp] theorem State.endPeriod_tables (s : State) (shifted : List Byte) : (s.endPeriod shifted).tables = s.tables := rfl
@[simp] theorem State.endPeriod_programs (s : State) (shifted : List Byte) : (s.endPeriod shifted).programs = s.programs := rfl
@[simp] theorem State.endPeriod_entries (s : State) (shifted : List Byte) : (s.endPeriod shifted).entries = s.entries := rfl
@[simp] theorem State.endPeriod_openCounter (s : State) (shifted : List Byte) : (s.endPeriod shifted).openCounter = s.openCounter := rfl
@[simp] theorem State.endPeriod_openList (s : State) (shifted : List Byte) : (s.endPeriod shifted).openList = s.openList := rfl
@[simp] theorem State.endPeriod_rankCounter (s : State) (shifted : List Byte) : (s.endPeriod shifted).rankCounter = s.rankCounter := rfl
@[simp] theorem State.endPeriod_flushOrder (s : State) (shifted : List Byte) : (s.endPeriod shifted).flushOrder = s.flushOrder := rfl
@[simp] theorem State.endPeriod_outstanding (s : State) (shifted : List Byte) : (s.endPeriod shifted).outstanding = s.outstanding := rfl
@[simp] theorem State.endPeriod_opCounter (s : State) (shifted : List Byte) : (s.endPeriod shifted).opCounter = s.opCounter := rfl
@[simp] theorem State.endPeriod_units (s : State) (shifted : List Byte) : (s.endPeriod shifted).units = s.units := rfl
@[simp] theorem State.endPeriod_jobs (s : State) (shifted : List Byte) : (s.endPeriod shifted).jobs = s.jobs := rfl
@[simp] theorem State.endPeriod_running (s : State) (shifted : List Byte) : (s.endPeriod shifted).running = s.running := rfl
@[simp] theorem State.endPeriod_toPlace (s : State) (shifted : List Byte) : (s.endPeriod shifted).toPlace = s.toPlace := rfl
@[simp] theorem State.endPeriod_log (s : State) (shifted : List Byte) : (s.endPeriod shifted).log = s.log := rfl
@[simp] theorem State.endPeriod_dropped (s : State) (shifted : List Byte) : (s.endPeriod shifted).dropped = s.dropped := rfl
@[simp] theorem State.endPeriod_seqCounter (s : State) (shifted : List Byte) : (s.endPeriod shifted).seqCounter = s.seqCounter := rfl
@[simp] theorem State.endPeriod_result (s : State) (shifted : List Byte) : (s.endPeriod shifted).result = s.result := rfl
@[simp] theorem State.endPeriod_build (s : State) (shifted : List Byte) : (s.endPeriod shifted).build = s.build := rfl
@[simp] theorem State.endPeriod_refusedCount (s : State) (shifted : List Byte) : (s.endPeriod shifted).refusedCount = s.refusedCount := rfl
@[simp] theorem State.endPeriod_tickDivider (s : State) (shifted : List Byte) : (s.endPeriod shifted).tickDivider = s.tickDivider := rfl
@[simp] theorem State.endPeriod_alertEnable (s : State) (shifted : List Byte) : (s.endPeriod shifted).alertEnable = s.alertEnable := rfl
@[simp] theorem State.endPeriod_tickInterval (s : State) (shifted : List Byte) : (s.endPeriod shifted).tickInterval = s.tickInterval := rfl
@[simp] theorem State.endPeriod_rstLow (s : State) (shifted : List Byte) : (s.endPeriod shifted).rstLow = s.rstLow := rfl
@[simp] theorem State.endPeriod_prstLow (s : State) (shifted : List Byte) : (s.endPeriod shifted).prstLow = s.prstLow := rfl
@[simp] theorem State.endPeriod_freeCount (s : State) (shifted : List Byte) : (s.endPeriod shifted).freeCount = s.freeCount := rfl
@[simp] theorem State.endPeriod_pending (s : State) (shifted : List Byte) : (s.endPeriod shifted).pending = s.pending := rfl

/-! `State.setLayout` changes layouts only. -/

@[simp] theorem State.setLayout_offers (s : State) (l : Fin 16) (x : Layout) : (s.setLayout l x).offers = s.offers := rfl
@[simp] theorem State.setLayout_txns (s : State) (l : Fin 16) (x : Layout) : (s.setLayout l x).txns = s.txns := rfl
@[simp] theorem State.setLayout_txnCounter (s : State) (l : Fin 16) (x : Layout) : (s.setLayout l x).txnCounter = s.txnCounter := rfl
@[simp] theorem State.setLayout_disp (s : State) (l : Fin 16) (x : Layout) : (s.setLayout l x).disp = s.disp := rfl
@[simp] theorem State.setLayout_reoffer (s : State) (l : Fin 16) (x : Layout) : (s.setLayout l x).reoffer = s.reoffer := rfl
@[simp] theorem State.setLayout_windows (s : State) (l : Fin 16) (x : Layout) : (s.setLayout l x).windows = s.windows := rfl
@[simp] theorem State.setLayout_tables (s : State) (l : Fin 16) (x : Layout) : (s.setLayout l x).tables = s.tables := rfl
@[simp] theorem State.setLayout_programs (s : State) (l : Fin 16) (x : Layout) : (s.setLayout l x).programs = s.programs := rfl
@[simp] theorem State.setLayout_entries (s : State) (l : Fin 16) (x : Layout) : (s.setLayout l x).entries = s.entries := rfl
@[simp] theorem State.setLayout_openCounter (s : State) (l : Fin 16) (x : Layout) : (s.setLayout l x).openCounter = s.openCounter := rfl
@[simp] theorem State.setLayout_openList (s : State) (l : Fin 16) (x : Layout) : (s.setLayout l x).openList = s.openList := rfl
@[simp] theorem State.setLayout_rankCounter (s : State) (l : Fin 16) (x : Layout) : (s.setLayout l x).rankCounter = s.rankCounter := rfl
@[simp] theorem State.setLayout_flushOrder (s : State) (l : Fin 16) (x : Layout) : (s.setLayout l x).flushOrder = s.flushOrder := rfl
@[simp] theorem State.setLayout_outstanding (s : State) (l : Fin 16) (x : Layout) : (s.setLayout l x).outstanding = s.outstanding := rfl
@[simp] theorem State.setLayout_opCounter (s : State) (l : Fin 16) (x : Layout) : (s.setLayout l x).opCounter = s.opCounter := rfl
@[simp] theorem State.setLayout_units (s : State) (l : Fin 16) (x : Layout) : (s.setLayout l x).units = s.units := rfl
@[simp] theorem State.setLayout_jobs (s : State) (l : Fin 16) (x : Layout) : (s.setLayout l x).jobs = s.jobs := rfl
@[simp] theorem State.setLayout_running (s : State) (l : Fin 16) (x : Layout) : (s.setLayout l x).running = s.running := rfl
@[simp] theorem State.setLayout_toPlace (s : State) (l : Fin 16) (x : Layout) : (s.setLayout l x).toPlace = s.toPlace := rfl
@[simp] theorem State.setLayout_log (s : State) (l : Fin 16) (x : Layout) : (s.setLayout l x).log = s.log := rfl
@[simp] theorem State.setLayout_dropped (s : State) (l : Fin 16) (x : Layout) : (s.setLayout l x).dropped = s.dropped := rfl
@[simp] theorem State.setLayout_seqCounter (s : State) (l : Fin 16) (x : Layout) : (s.setLayout l x).seqCounter = s.seqCounter := rfl
@[simp] theorem State.setLayout_receiver (s : State) (l : Fin 16) (x : Layout) : (s.setLayout l x).receiver = s.receiver := rfl
@[simp] theorem State.setLayout_msdo (s : State) (l : Fin 16) (x : Layout) : (s.setLayout l x).msdo = s.msdo := rfl
@[simp] theorem State.setLayout_result (s : State) (l : Fin 16) (x : Layout) : (s.setLayout l x).result = s.result := rfl
@[simp] theorem State.setLayout_build (s : State) (l : Fin 16) (x : Layout) : (s.setLayout l x).build = s.build := rfl
@[simp] theorem State.setLayout_refusedCount (s : State) (l : Fin 16) (x : Layout) : (s.setLayout l x).refusedCount = s.refusedCount := rfl
@[simp] theorem State.setLayout_tickDivider (s : State) (l : Fin 16) (x : Layout) : (s.setLayout l x).tickDivider = s.tickDivider := rfl
@[simp] theorem State.setLayout_alertEnable (s : State) (l : Fin 16) (x : Layout) : (s.setLayout l x).alertEnable = s.alertEnable := rfl
@[simp] theorem State.setLayout_tickInterval (s : State) (l : Fin 16) (x : Layout) : (s.setLayout l x).tickInterval = s.tickInterval := rfl
@[simp] theorem State.setLayout_rstLow (s : State) (l : Fin 16) (x : Layout) : (s.setLayout l x).rstLow = s.rstLow := rfl
@[simp] theorem State.setLayout_prstLow (s : State) (l : Fin 16) (x : Layout) : (s.setLayout l x).prstLow = s.prstLow := rfl
@[simp] theorem State.setLayout_mcsLow (s : State) (l : Fin 16) (x : Layout) : (s.setLayout l x).mcsLow = s.mcsLow := rfl
@[simp] theorem State.setLayout_freeCount (s : State) (l : Fin 16) (x : Layout) : (s.setLayout l x).freeCount = s.freeCount := rfl
@[simp] theorem State.setLayout_pending (s : State) (l : Fin 16) (x : Layout) : (s.setLayout l x).pending = s.pending := rfl

/-! `State.setMode` changes windows only. -/

@[simp] theorem State.setMode_offers (s : State) (w : Fin 8) (m : LiveMode) : (s.setMode w m).offers = s.offers := rfl
@[simp] theorem State.setMode_txns (s : State) (w : Fin 8) (m : LiveMode) : (s.setMode w m).txns = s.txns := rfl
@[simp] theorem State.setMode_txnCounter (s : State) (w : Fin 8) (m : LiveMode) : (s.setMode w m).txnCounter = s.txnCounter := rfl
@[simp] theorem State.setMode_disp (s : State) (w : Fin 8) (m : LiveMode) : (s.setMode w m).disp = s.disp := rfl
@[simp] theorem State.setMode_reoffer (s : State) (w : Fin 8) (m : LiveMode) : (s.setMode w m).reoffer = s.reoffer := rfl
@[simp] theorem State.setMode_layouts (s : State) (w : Fin 8) (m : LiveMode) : (s.setMode w m).layouts = s.layouts := rfl
@[simp] theorem State.setMode_tables (s : State) (w : Fin 8) (m : LiveMode) : (s.setMode w m).tables = s.tables := rfl
@[simp] theorem State.setMode_programs (s : State) (w : Fin 8) (m : LiveMode) : (s.setMode w m).programs = s.programs := rfl
@[simp] theorem State.setMode_entries (s : State) (w : Fin 8) (m : LiveMode) : (s.setMode w m).entries = s.entries := rfl
@[simp] theorem State.setMode_openCounter (s : State) (w : Fin 8) (m : LiveMode) : (s.setMode w m).openCounter = s.openCounter := rfl
@[simp] theorem State.setMode_openList (s : State) (w : Fin 8) (m : LiveMode) : (s.setMode w m).openList = s.openList := rfl
@[simp] theorem State.setMode_rankCounter (s : State) (w : Fin 8) (m : LiveMode) : (s.setMode w m).rankCounter = s.rankCounter := rfl
@[simp] theorem State.setMode_flushOrder (s : State) (w : Fin 8) (m : LiveMode) : (s.setMode w m).flushOrder = s.flushOrder := rfl
@[simp] theorem State.setMode_outstanding (s : State) (w : Fin 8) (m : LiveMode) : (s.setMode w m).outstanding = s.outstanding := rfl
@[simp] theorem State.setMode_opCounter (s : State) (w : Fin 8) (m : LiveMode) : (s.setMode w m).opCounter = s.opCounter := rfl
@[simp] theorem State.setMode_units (s : State) (w : Fin 8) (m : LiveMode) : (s.setMode w m).units = s.units := rfl
@[simp] theorem State.setMode_jobs (s : State) (w : Fin 8) (m : LiveMode) : (s.setMode w m).jobs = s.jobs := rfl
@[simp] theorem State.setMode_running (s : State) (w : Fin 8) (m : LiveMode) : (s.setMode w m).running = s.running := rfl
@[simp] theorem State.setMode_toPlace (s : State) (w : Fin 8) (m : LiveMode) : (s.setMode w m).toPlace = s.toPlace := rfl
@[simp] theorem State.setMode_log (s : State) (w : Fin 8) (m : LiveMode) : (s.setMode w m).log = s.log := rfl
@[simp] theorem State.setMode_dropped (s : State) (w : Fin 8) (m : LiveMode) : (s.setMode w m).dropped = s.dropped := rfl
@[simp] theorem State.setMode_seqCounter (s : State) (w : Fin 8) (m : LiveMode) : (s.setMode w m).seqCounter = s.seqCounter := rfl
@[simp] theorem State.setMode_receiver (s : State) (w : Fin 8) (m : LiveMode) : (s.setMode w m).receiver = s.receiver := rfl
@[simp] theorem State.setMode_msdo (s : State) (w : Fin 8) (m : LiveMode) : (s.setMode w m).msdo = s.msdo := rfl
@[simp] theorem State.setMode_result (s : State) (w : Fin 8) (m : LiveMode) : (s.setMode w m).result = s.result := rfl
@[simp] theorem State.setMode_build (s : State) (w : Fin 8) (m : LiveMode) : (s.setMode w m).build = s.build := rfl
@[simp] theorem State.setMode_refusedCount (s : State) (w : Fin 8) (m : LiveMode) : (s.setMode w m).refusedCount = s.refusedCount := rfl
@[simp] theorem State.setMode_tickDivider (s : State) (w : Fin 8) (m : LiveMode) : (s.setMode w m).tickDivider = s.tickDivider := rfl
@[simp] theorem State.setMode_alertEnable (s : State) (w : Fin 8) (m : LiveMode) : (s.setMode w m).alertEnable = s.alertEnable := rfl
@[simp] theorem State.setMode_tickInterval (s : State) (w : Fin 8) (m : LiveMode) : (s.setMode w m).tickInterval = s.tickInterval := rfl
@[simp] theorem State.setMode_rstLow (s : State) (w : Fin 8) (m : LiveMode) : (s.setMode w m).rstLow = s.rstLow := rfl
@[simp] theorem State.setMode_prstLow (s : State) (w : Fin 8) (m : LiveMode) : (s.setMode w m).prstLow = s.prstLow := rfl
@[simp] theorem State.setMode_mcsLow (s : State) (w : Fin 8) (m : LiveMode) : (s.setMode w m).mcsLow = s.mcsLow := rfl
@[simp] theorem State.setMode_freeCount (s : State) (w : Fin 8) (m : LiveMode) : (s.setMode w m).freeCount = s.freeCount := rfl
@[simp] theorem State.setMode_pending (s : State) (w : Fin 8) (m : LiveMode) : (s.setMode w m).pending = s.pending := rfl

/-! `State.handOver` changes dropped, log, seqCounter only. -/

@[simp] theorem State.handOver_offers (s : State) (r : ExcRecord) : (s.handOver r).offers = s.offers := by unfold State.handOver; split <;> rfl
@[simp] theorem State.handOver_txns (s : State) (r : ExcRecord) : (s.handOver r).txns = s.txns := by unfold State.handOver; split <;> rfl
@[simp] theorem State.handOver_txnCounter (s : State) (r : ExcRecord) : (s.handOver r).txnCounter = s.txnCounter := by unfold State.handOver; split <;> rfl
@[simp] theorem State.handOver_disp (s : State) (r : ExcRecord) : (s.handOver r).disp = s.disp := by unfold State.handOver; split <;> rfl
@[simp] theorem State.handOver_reoffer (s : State) (r : ExcRecord) : (s.handOver r).reoffer = s.reoffer := by unfold State.handOver; split <;> rfl
@[simp] theorem State.handOver_windows (s : State) (r : ExcRecord) : (s.handOver r).windows = s.windows := by unfold State.handOver; split <;> rfl
@[simp] theorem State.handOver_layouts (s : State) (r : ExcRecord) : (s.handOver r).layouts = s.layouts := by unfold State.handOver; split <;> rfl
@[simp] theorem State.handOver_tables (s : State) (r : ExcRecord) : (s.handOver r).tables = s.tables := by unfold State.handOver; split <;> rfl
@[simp] theorem State.handOver_programs (s : State) (r : ExcRecord) : (s.handOver r).programs = s.programs := by unfold State.handOver; split <;> rfl
@[simp] theorem State.handOver_entries (s : State) (r : ExcRecord) : (s.handOver r).entries = s.entries := by unfold State.handOver; split <;> rfl
@[simp] theorem State.handOver_openCounter (s : State) (r : ExcRecord) : (s.handOver r).openCounter = s.openCounter := by unfold State.handOver; split <;> rfl
@[simp] theorem State.handOver_openList (s : State) (r : ExcRecord) : (s.handOver r).openList = s.openList := by unfold State.handOver; split <;> rfl
@[simp] theorem State.handOver_rankCounter (s : State) (r : ExcRecord) : (s.handOver r).rankCounter = s.rankCounter := by unfold State.handOver; split <;> rfl
@[simp] theorem State.handOver_flushOrder (s : State) (r : ExcRecord) : (s.handOver r).flushOrder = s.flushOrder := by unfold State.handOver; split <;> rfl
@[simp] theorem State.handOver_outstanding (s : State) (r : ExcRecord) : (s.handOver r).outstanding = s.outstanding := by unfold State.handOver; split <;> rfl
@[simp] theorem State.handOver_opCounter (s : State) (r : ExcRecord) : (s.handOver r).opCounter = s.opCounter := by unfold State.handOver; split <;> rfl
@[simp] theorem State.handOver_units (s : State) (r : ExcRecord) : (s.handOver r).units = s.units := by unfold State.handOver; split <;> rfl
@[simp] theorem State.handOver_jobs (s : State) (r : ExcRecord) : (s.handOver r).jobs = s.jobs := by unfold State.handOver; split <;> rfl
@[simp] theorem State.handOver_running (s : State) (r : ExcRecord) : (s.handOver r).running = s.running := by unfold State.handOver; split <;> rfl
@[simp] theorem State.handOver_toPlace (s : State) (r : ExcRecord) : (s.handOver r).toPlace = s.toPlace := by unfold State.handOver; split <;> rfl
@[simp] theorem State.handOver_receiver (s : State) (r : ExcRecord) : (s.handOver r).receiver = s.receiver := by unfold State.handOver; split <;> rfl
@[simp] theorem State.handOver_msdo (s : State) (r : ExcRecord) : (s.handOver r).msdo = s.msdo := by unfold State.handOver; split <;> rfl
@[simp] theorem State.handOver_result (s : State) (r : ExcRecord) : (s.handOver r).result = s.result := by unfold State.handOver; split <;> rfl
@[simp] theorem State.handOver_build (s : State) (r : ExcRecord) : (s.handOver r).build = s.build := by unfold State.handOver; split <;> rfl
@[simp] theorem State.handOver_refusedCount (s : State) (r : ExcRecord) : (s.handOver r).refusedCount = s.refusedCount := by unfold State.handOver; split <;> rfl
@[simp] theorem State.handOver_tickDivider (s : State) (r : ExcRecord) : (s.handOver r).tickDivider = s.tickDivider := by unfold State.handOver; split <;> rfl
@[simp] theorem State.handOver_alertEnable (s : State) (r : ExcRecord) : (s.handOver r).alertEnable = s.alertEnable := by unfold State.handOver; split <;> rfl
@[simp] theorem State.handOver_tickInterval (s : State) (r : ExcRecord) : (s.handOver r).tickInterval = s.tickInterval := by unfold State.handOver; split <;> rfl
@[simp] theorem State.handOver_rstLow (s : State) (r : ExcRecord) : (s.handOver r).rstLow = s.rstLow := by unfold State.handOver; split <;> rfl
@[simp] theorem State.handOver_prstLow (s : State) (r : ExcRecord) : (s.handOver r).prstLow = s.prstLow := by unfold State.handOver; split <;> rfl
@[simp] theorem State.handOver_mcsLow (s : State) (r : ExcRecord) : (s.handOver r).mcsLow = s.mcsLow := by unfold State.handOver; split <;> rfl
@[simp] theorem State.handOver_freeCount (s : State) (r : ExcRecord) : (s.handOver r).freeCount = s.freeCount := by unfold State.handOver; split <;> rfl
@[simp] theorem State.handOver_pending (s : State) (r : ExcRecord) : (s.handOver r).pending = s.pending := by unfold State.handOver; split <;> rfl

/-! `State.noteFreed` changes reoffer only. -/

@[simp] theorem State.noteFreed_offers (s : State) : (s.noteFreed).offers = s.offers := by unfold State.noteFreed; split <;> rfl
@[simp] theorem State.noteFreed_txns (s : State) : (s.noteFreed).txns = s.txns := by unfold State.noteFreed; split <;> rfl
@[simp] theorem State.noteFreed_txnCounter (s : State) : (s.noteFreed).txnCounter = s.txnCounter := by unfold State.noteFreed; split <;> rfl
@[simp] theorem State.noteFreed_disp (s : State) : (s.noteFreed).disp = s.disp := by unfold State.noteFreed; split <;> rfl
@[simp] theorem State.noteFreed_windows (s : State) : (s.noteFreed).windows = s.windows := by unfold State.noteFreed; split <;> rfl
@[simp] theorem State.noteFreed_layouts (s : State) : (s.noteFreed).layouts = s.layouts := by unfold State.noteFreed; split <;> rfl
@[simp] theorem State.noteFreed_tables (s : State) : (s.noteFreed).tables = s.tables := by unfold State.noteFreed; split <;> rfl
@[simp] theorem State.noteFreed_programs (s : State) : (s.noteFreed).programs = s.programs := by unfold State.noteFreed; split <;> rfl
@[simp] theorem State.noteFreed_entries (s : State) : (s.noteFreed).entries = s.entries := by unfold State.noteFreed; split <;> rfl
@[simp] theorem State.noteFreed_openCounter (s : State) : (s.noteFreed).openCounter = s.openCounter := by unfold State.noteFreed; split <;> rfl
@[simp] theorem State.noteFreed_openList (s : State) : (s.noteFreed).openList = s.openList := by unfold State.noteFreed; split <;> rfl
@[simp] theorem State.noteFreed_rankCounter (s : State) : (s.noteFreed).rankCounter = s.rankCounter := by unfold State.noteFreed; split <;> rfl
@[simp] theorem State.noteFreed_flushOrder (s : State) : (s.noteFreed).flushOrder = s.flushOrder := by unfold State.noteFreed; split <;> rfl
@[simp] theorem State.noteFreed_outstanding (s : State) : (s.noteFreed).outstanding = s.outstanding := by unfold State.noteFreed; split <;> rfl
@[simp] theorem State.noteFreed_opCounter (s : State) : (s.noteFreed).opCounter = s.opCounter := by unfold State.noteFreed; split <;> rfl
@[simp] theorem State.noteFreed_units (s : State) : (s.noteFreed).units = s.units := by unfold State.noteFreed; split <;> rfl
@[simp] theorem State.noteFreed_jobs (s : State) : (s.noteFreed).jobs = s.jobs := by unfold State.noteFreed; split <;> rfl
@[simp] theorem State.noteFreed_running (s : State) : (s.noteFreed).running = s.running := by unfold State.noteFreed; split <;> rfl
@[simp] theorem State.noteFreed_toPlace (s : State) : (s.noteFreed).toPlace = s.toPlace := by unfold State.noteFreed; split <;> rfl
@[simp] theorem State.noteFreed_log (s : State) : (s.noteFreed).log = s.log := by unfold State.noteFreed; split <;> rfl
@[simp] theorem State.noteFreed_dropped (s : State) : (s.noteFreed).dropped = s.dropped := by unfold State.noteFreed; split <;> rfl
@[simp] theorem State.noteFreed_seqCounter (s : State) : (s.noteFreed).seqCounter = s.seqCounter := by unfold State.noteFreed; split <;> rfl
@[simp] theorem State.noteFreed_receiver (s : State) : (s.noteFreed).receiver = s.receiver := by unfold State.noteFreed; split <;> rfl
@[simp] theorem State.noteFreed_msdo (s : State) : (s.noteFreed).msdo = s.msdo := by unfold State.noteFreed; split <;> rfl
@[simp] theorem State.noteFreed_result (s : State) : (s.noteFreed).result = s.result := by unfold State.noteFreed; split <;> rfl
@[simp] theorem State.noteFreed_build (s : State) : (s.noteFreed).build = s.build := by unfold State.noteFreed; split <;> rfl
@[simp] theorem State.noteFreed_refusedCount (s : State) : (s.noteFreed).refusedCount = s.refusedCount := by unfold State.noteFreed; split <;> rfl
@[simp] theorem State.noteFreed_tickDivider (s : State) : (s.noteFreed).tickDivider = s.tickDivider := by unfold State.noteFreed; split <;> rfl
@[simp] theorem State.noteFreed_alertEnable (s : State) : (s.noteFreed).alertEnable = s.alertEnable := by unfold State.noteFreed; split <;> rfl
@[simp] theorem State.noteFreed_tickInterval (s : State) : (s.noteFreed).tickInterval = s.tickInterval := by unfold State.noteFreed; split <;> rfl
@[simp] theorem State.noteFreed_rstLow (s : State) : (s.noteFreed).rstLow = s.rstLow := by unfold State.noteFreed; split <;> rfl
@[simp] theorem State.noteFreed_prstLow (s : State) : (s.noteFreed).prstLow = s.prstLow := by unfold State.noteFreed; split <;> rfl
@[simp] theorem State.noteFreed_mcsLow (s : State) : (s.noteFreed).mcsLow = s.mcsLow := by unfold State.noteFreed; split <;> rfl
@[simp] theorem State.noteFreed_freeCount (s : State) : (s.noteFreed).freeCount = s.freeCount := by unfold State.noteFreed; split <;> rfl
@[simp] theorem State.noteFreed_pending (s : State) : (s.noteFreed).pending = s.pending := by unfold State.noteFreed; split <;> rfl

/-! `State.noteFlushStart` changes reoffer only. -/

@[simp] theorem State.noteFlushStart_offers (s : State) : (s.noteFlushStart).offers = s.offers := by unfold State.noteFlushStart; split <;> rfl
@[simp] theorem State.noteFlushStart_txns (s : State) : (s.noteFlushStart).txns = s.txns := by unfold State.noteFlushStart; split <;> rfl
@[simp] theorem State.noteFlushStart_txnCounter (s : State) : (s.noteFlushStart).txnCounter = s.txnCounter := by unfold State.noteFlushStart; split <;> rfl
@[simp] theorem State.noteFlushStart_disp (s : State) : (s.noteFlushStart).disp = s.disp := by unfold State.noteFlushStart; split <;> rfl
@[simp] theorem State.noteFlushStart_windows (s : State) : (s.noteFlushStart).windows = s.windows := by unfold State.noteFlushStart; split <;> rfl
@[simp] theorem State.noteFlushStart_layouts (s : State) : (s.noteFlushStart).layouts = s.layouts := by unfold State.noteFlushStart; split <;> rfl
@[simp] theorem State.noteFlushStart_tables (s : State) : (s.noteFlushStart).tables = s.tables := by unfold State.noteFlushStart; split <;> rfl
@[simp] theorem State.noteFlushStart_programs (s : State) : (s.noteFlushStart).programs = s.programs := by unfold State.noteFlushStart; split <;> rfl
@[simp] theorem State.noteFlushStart_entries (s : State) : (s.noteFlushStart).entries = s.entries := by unfold State.noteFlushStart; split <;> rfl
@[simp] theorem State.noteFlushStart_openCounter (s : State) : (s.noteFlushStart).openCounter = s.openCounter := by unfold State.noteFlushStart; split <;> rfl
@[simp] theorem State.noteFlushStart_openList (s : State) : (s.noteFlushStart).openList = s.openList := by unfold State.noteFlushStart; split <;> rfl
@[simp] theorem State.noteFlushStart_rankCounter (s : State) : (s.noteFlushStart).rankCounter = s.rankCounter := by unfold State.noteFlushStart; split <;> rfl
@[simp] theorem State.noteFlushStart_flushOrder (s : State) : (s.noteFlushStart).flushOrder = s.flushOrder := by unfold State.noteFlushStart; split <;> rfl
@[simp] theorem State.noteFlushStart_outstanding (s : State) : (s.noteFlushStart).outstanding = s.outstanding := by unfold State.noteFlushStart; split <;> rfl
@[simp] theorem State.noteFlushStart_opCounter (s : State) : (s.noteFlushStart).opCounter = s.opCounter := by unfold State.noteFlushStart; split <;> rfl
@[simp] theorem State.noteFlushStart_units (s : State) : (s.noteFlushStart).units = s.units := by unfold State.noteFlushStart; split <;> rfl
@[simp] theorem State.noteFlushStart_jobs (s : State) : (s.noteFlushStart).jobs = s.jobs := by unfold State.noteFlushStart; split <;> rfl
@[simp] theorem State.noteFlushStart_running (s : State) : (s.noteFlushStart).running = s.running := by unfold State.noteFlushStart; split <;> rfl
@[simp] theorem State.noteFlushStart_toPlace (s : State) : (s.noteFlushStart).toPlace = s.toPlace := by unfold State.noteFlushStart; split <;> rfl
@[simp] theorem State.noteFlushStart_log (s : State) : (s.noteFlushStart).log = s.log := by unfold State.noteFlushStart; split <;> rfl
@[simp] theorem State.noteFlushStart_dropped (s : State) : (s.noteFlushStart).dropped = s.dropped := by unfold State.noteFlushStart; split <;> rfl
@[simp] theorem State.noteFlushStart_seqCounter (s : State) : (s.noteFlushStart).seqCounter = s.seqCounter := by unfold State.noteFlushStart; split <;> rfl
@[simp] theorem State.noteFlushStart_receiver (s : State) : (s.noteFlushStart).receiver = s.receiver := by unfold State.noteFlushStart; split <;> rfl
@[simp] theorem State.noteFlushStart_msdo (s : State) : (s.noteFlushStart).msdo = s.msdo := by unfold State.noteFlushStart; split <;> rfl
@[simp] theorem State.noteFlushStart_result (s : State) : (s.noteFlushStart).result = s.result := by unfold State.noteFlushStart; split <;> rfl
@[simp] theorem State.noteFlushStart_build (s : State) : (s.noteFlushStart).build = s.build := by unfold State.noteFlushStart; split <;> rfl
@[simp] theorem State.noteFlushStart_refusedCount (s : State) : (s.noteFlushStart).refusedCount = s.refusedCount := by unfold State.noteFlushStart; split <;> rfl
@[simp] theorem State.noteFlushStart_tickDivider (s : State) : (s.noteFlushStart).tickDivider = s.tickDivider := by unfold State.noteFlushStart; split <;> rfl
@[simp] theorem State.noteFlushStart_alertEnable (s : State) : (s.noteFlushStart).alertEnable = s.alertEnable := by unfold State.noteFlushStart; split <;> rfl
@[simp] theorem State.noteFlushStart_tickInterval (s : State) : (s.noteFlushStart).tickInterval = s.tickInterval := by unfold State.noteFlushStart; split <;> rfl
@[simp] theorem State.noteFlushStart_rstLow (s : State) : (s.noteFlushStart).rstLow = s.rstLow := by unfold State.noteFlushStart; split <;> rfl
@[simp] theorem State.noteFlushStart_prstLow (s : State) : (s.noteFlushStart).prstLow = s.prstLow := by unfold State.noteFlushStart; split <;> rfl
@[simp] theorem State.noteFlushStart_mcsLow (s : State) : (s.noteFlushStart).mcsLow = s.mcsLow := by unfold State.noteFlushStart; split <;> rfl
@[simp] theorem State.noteFlushStart_freeCount (s : State) : (s.noteFlushStart).freeCount = s.freeCount := by unfold State.noteFlushStart; split <;> rfl
@[simp] theorem State.noteFlushStart_pending (s : State) : (s.noteFlushStart).pending = s.pending := by unfold State.noteFlushStart; split <;> rfl

/-! `State.noteWindowChange` changes reoffer only. -/

@[simp] theorem State.noteWindowChange_offers (s : State) : (s.noteWindowChange).offers = s.offers := by unfold State.noteWindowChange; split <;> rfl
@[simp] theorem State.noteWindowChange_txns (s : State) : (s.noteWindowChange).txns = s.txns := by unfold State.noteWindowChange; split <;> rfl
@[simp] theorem State.noteWindowChange_txnCounter (s : State) : (s.noteWindowChange).txnCounter = s.txnCounter := by unfold State.noteWindowChange; split <;> rfl
@[simp] theorem State.noteWindowChange_disp (s : State) : (s.noteWindowChange).disp = s.disp := by unfold State.noteWindowChange; split <;> rfl
@[simp] theorem State.noteWindowChange_windows (s : State) : (s.noteWindowChange).windows = s.windows := by unfold State.noteWindowChange; split <;> rfl
@[simp] theorem State.noteWindowChange_layouts (s : State) : (s.noteWindowChange).layouts = s.layouts := by unfold State.noteWindowChange; split <;> rfl
@[simp] theorem State.noteWindowChange_tables (s : State) : (s.noteWindowChange).tables = s.tables := by unfold State.noteWindowChange; split <;> rfl
@[simp] theorem State.noteWindowChange_programs (s : State) : (s.noteWindowChange).programs = s.programs := by unfold State.noteWindowChange; split <;> rfl
@[simp] theorem State.noteWindowChange_entries (s : State) : (s.noteWindowChange).entries = s.entries := by unfold State.noteWindowChange; split <;> rfl
@[simp] theorem State.noteWindowChange_openCounter (s : State) : (s.noteWindowChange).openCounter = s.openCounter := by unfold State.noteWindowChange; split <;> rfl
@[simp] theorem State.noteWindowChange_openList (s : State) : (s.noteWindowChange).openList = s.openList := by unfold State.noteWindowChange; split <;> rfl
@[simp] theorem State.noteWindowChange_rankCounter (s : State) : (s.noteWindowChange).rankCounter = s.rankCounter := by unfold State.noteWindowChange; split <;> rfl
@[simp] theorem State.noteWindowChange_flushOrder (s : State) : (s.noteWindowChange).flushOrder = s.flushOrder := by unfold State.noteWindowChange; split <;> rfl
@[simp] theorem State.noteWindowChange_outstanding (s : State) : (s.noteWindowChange).outstanding = s.outstanding := by unfold State.noteWindowChange; split <;> rfl
@[simp] theorem State.noteWindowChange_opCounter (s : State) : (s.noteWindowChange).opCounter = s.opCounter := by unfold State.noteWindowChange; split <;> rfl
@[simp] theorem State.noteWindowChange_units (s : State) : (s.noteWindowChange).units = s.units := by unfold State.noteWindowChange; split <;> rfl
@[simp] theorem State.noteWindowChange_jobs (s : State) : (s.noteWindowChange).jobs = s.jobs := by unfold State.noteWindowChange; split <;> rfl
@[simp] theorem State.noteWindowChange_running (s : State) : (s.noteWindowChange).running = s.running := by unfold State.noteWindowChange; split <;> rfl
@[simp] theorem State.noteWindowChange_toPlace (s : State) : (s.noteWindowChange).toPlace = s.toPlace := by unfold State.noteWindowChange; split <;> rfl
@[simp] theorem State.noteWindowChange_log (s : State) : (s.noteWindowChange).log = s.log := by unfold State.noteWindowChange; split <;> rfl
@[simp] theorem State.noteWindowChange_dropped (s : State) : (s.noteWindowChange).dropped = s.dropped := by unfold State.noteWindowChange; split <;> rfl
@[simp] theorem State.noteWindowChange_seqCounter (s : State) : (s.noteWindowChange).seqCounter = s.seqCounter := by unfold State.noteWindowChange; split <;> rfl
@[simp] theorem State.noteWindowChange_receiver (s : State) : (s.noteWindowChange).receiver = s.receiver := by unfold State.noteWindowChange; split <;> rfl
@[simp] theorem State.noteWindowChange_msdo (s : State) : (s.noteWindowChange).msdo = s.msdo := by unfold State.noteWindowChange; split <;> rfl
@[simp] theorem State.noteWindowChange_result (s : State) : (s.noteWindowChange).result = s.result := by unfold State.noteWindowChange; split <;> rfl
@[simp] theorem State.noteWindowChange_build (s : State) : (s.noteWindowChange).build = s.build := by unfold State.noteWindowChange; split <;> rfl
@[simp] theorem State.noteWindowChange_refusedCount (s : State) : (s.noteWindowChange).refusedCount = s.refusedCount := by unfold State.noteWindowChange; split <;> rfl
@[simp] theorem State.noteWindowChange_tickDivider (s : State) : (s.noteWindowChange).tickDivider = s.tickDivider := by unfold State.noteWindowChange; split <;> rfl
@[simp] theorem State.noteWindowChange_alertEnable (s : State) : (s.noteWindowChange).alertEnable = s.alertEnable := by unfold State.noteWindowChange; split <;> rfl
@[simp] theorem State.noteWindowChange_tickInterval (s : State) : (s.noteWindowChange).tickInterval = s.tickInterval := by unfold State.noteWindowChange; split <;> rfl
@[simp] theorem State.noteWindowChange_rstLow (s : State) : (s.noteWindowChange).rstLow = s.rstLow := by unfold State.noteWindowChange; split <;> rfl
@[simp] theorem State.noteWindowChange_prstLow (s : State) : (s.noteWindowChange).prstLow = s.prstLow := by unfold State.noteWindowChange; split <;> rfl
@[simp] theorem State.noteWindowChange_mcsLow (s : State) : (s.noteWindowChange).mcsLow = s.mcsLow := by unfold State.noteWindowChange; split <;> rfl
@[simp] theorem State.noteWindowChange_freeCount (s : State) : (s.noteWindowChange).freeCount = s.freeCount := by unfold State.noteWindowChange; split <;> rfl
@[simp] theorem State.noteWindowChange_pending (s : State) : (s.noteWindowChange).pending = s.pending := by unfold State.noteWindowChange; split <;> rfl

/-! What each named update writes. -/

@[simp] theorem State.setTxn_txns (s : State) (id : Nat) (st : TxnState) :
    (s.setTxn id st).txns = withTxn s.txns id st := rfl
@[simp] theorem State.answer_txns (s : State) (id : Nat) (a : Answer) (data : List Byte) :
    (s.answer id a data).txns = withTxn s.txns id (.ready a data) := rfl
@[simp] theorem State.setSlot_entries (s : State) (g : Fin 8) (slot : Slot) :
    (s.setSlot g slot).entries = s.entries.set g { s.entries[g] with slot := slot } := rfl
@[simp] theorem State.requestUnit_units (s : State) (o : UnitOwner) (ops : List MemOp) :
    (s.requestUnit o ops).units = s.units ++ [{ owner := o, ops }] := rfl
@[simp] theorem State.awaitPlacement_toPlace (s : State) (j : Job) :
    (s.awaitPlacement j).toPlace = s.toPlace ++ [j] := rfl
@[simp] theorem State.putResult_result (s : State) (c : ResultCode) (k : Byte) (data : List Byte) :
    (s.putResult c k data).result = { code := c, command := k, data } := rfl
@[simp] theorem State.turnAway_refusedCount (s : State) :
    s.turnAway.refusedCount = min 255 (s.refusedCount + 1) := rfl
@[simp] theorem State.endPeriod_receiver (s : State) (x : List Byte) :
    (s.endPeriod x).receiver = .idle := rfl
@[simp] theorem State.endPeriod_mcsLow (s : State) (x : List Byte) :
    (s.endPeriod x).mcsLow = false := rfl
@[simp] theorem State.endPeriod_msdo (s : State) (x : List Byte) :
    (s.endPeriod x).msdo = if s.mcsLow then s.msdo else x := rfl
@[simp] theorem State.setLayout_layouts (s : State) (l : Fin 16) (x : Layout) :
    (s.setLayout l x).layouts = s.layouts.set l x := rfl
@[simp] theorem State.setMode_windows (s : State) (w : Fin 8) (m : LiveMode) :
    (s.setMode w m).windows = s.windows.set w (s.windows[w].withMode m) := rfl
theorem State.handOver_log (s : State) (r : ExcRecord) :
    (s.handOver r).log = if s.log.length < 16 then s.log ++ [{ r with seq := s.seqCounter }] else s.log := by
  unfold State.handOver; split <;> rfl
theorem State.handOver_dropped (s : State) (r : ExcRecord) :
    (s.handOver r).dropped = if s.log.length < 16 then s.dropped else min 255 (s.dropped + 1) := by
  unfold State.handOver; split <;> rfl
@[simp] theorem State.handOver_seqCounter (s : State) (r : ExcRecord) :
    (s.handOver r).seqCounter = s.seqCounter + 1 := by
  unfold State.handOver; split <;> rfl

end Sys2Proof.Machine
end

