-- ==== Sys2Proof/Laws/Frames.lean ====
section
/-! SUPPORT. What the traffic side cannot reach: every operation below the maintenance port, and with
them every internal step and the settling of the part, leaves the configuration stores, the port, the
pins, the offers and the queue as they are. -/

namespace Sys2Proof.Machine

/-- The two states agree on all that the traffic side never writes, but for the windows. -/
structure SameSetup (s t : State) : Prop where
  offers : t.offers = s.offers
  txnCounter : t.txnCounter = s.txnCounter
  layouts : t.layouts = s.layouts
  tables : t.tables = s.tables
  programs : t.programs = s.programs
  receiver : t.receiver = s.receiver
  msdo : t.msdo = s.msdo
  result : t.result = s.result
  build : t.build = s.build
  refusedCount : t.refusedCount = s.refusedCount
  tickDivider : t.tickDivider = s.tickDivider
  alertEnable : t.alertEnable = s.alertEnable
  tickInterval : t.tickInterval = s.tickInterval
  rstLow : t.rstLow = s.rstLow
  prstLow : t.prstLow = s.prstLow
  mcsLow : t.mcsLow = s.mcsLow
  pending : t.pending = s.pending

/-- They agree on the windows as well. -/
structure SameConfig (s t : State) : Prop extends SameSetup s t where
  windows : t.windows = s.windows

theorem SameSetup.refl (s : State) : SameSetup s s := by constructor <;> rfl

theorem SameConfig.refl (s : State) : SameConfig s s := ⟨SameSetup.refl s, rfl⟩

theorem SameSetup.trans {s t u : State} (h : SameSetup s t) (k : SameSetup t u) : SameSetup s u := by
  constructor
  · exact k.offers.trans h.offers
  · exact k.txnCounter.trans h.txnCounter
  · exact k.layouts.trans h.layouts
  · exact k.tables.trans h.tables
  · exact k.programs.trans h.programs
  · exact k.receiver.trans h.receiver
  · exact k.msdo.trans h.msdo
  · exact k.result.trans h.result
  · exact k.build.trans h.build
  · exact k.refusedCount.trans h.refusedCount
  · exact k.tickDivider.trans h.tickDivider
  · exact k.alertEnable.trans h.alertEnable
  · exact k.tickInterval.trans h.tickInterval
  · exact k.rstLow.trans h.rstLow
  · exact k.prstLow.trans h.prstLow
  · exact k.mcsLow.trans h.mcsLow
  · exact k.pending.trans h.pending

theorem SameConfig.trans {s t u : State} (h : SameConfig s t) (k : SameConfig t u) : SameConfig s u :=
  ⟨h.toSameSetup.trans k.toSameSetup, k.windows.trans h.windows⟩

/-- A fold of steps that keep the configuration keeps it. -/
theorem SameConfig.foldl {α : Type} {f : State → α → State} (hf : ∀ s x, SameConfig s (f s x))
    (xs : List α) (s : State) : SameConfig s (xs.foldl f s) := by
  induction xs generalizing s with
  | nil => exact SameConfig.refl s
  | cons x xs ih => exact (hf s x).trans (ih (f s x))

/-- Every traffic-side field may differ. -/
theorem SameConfig.mk' {s t : State} (hw : t.windows = s.windows) (h : SameSetup s t) :
    SameConfig s t := ⟨h, hw⟩

theorem State.handOver_same (s : State) (r : ExcRecord) : SameConfig s (s.handOver r) := by
  unfold State.handOver
  split <;> exact ⟨by constructor <;> rfl, rfl⟩

theorem State.handOverAll_same (s : State) (rs : List ExcRecord) : SameConfig s (s.handOverAll rs) :=
  SameConfig.foldl State.handOver_same rs s

theorem State.setTxn_same (s : State) (id : Nat) (st : TxnState) : SameConfig s (s.setTxn id st) :=
  ⟨by constructor <;> rfl, rfl⟩

theorem State.answer_same (s : State) (id : Nat) (a : Answer) (data : List Byte) :
    SameConfig s (s.answer id a data) := s.setTxn_same id _

theorem State.setSlot_same (s : State) (g : Fin 8) (slot : Slot) : SameConfig s (s.setSlot g slot) :=
  ⟨by constructor <;> rfl, rfl⟩

theorem State.requestUnit_same (s : State) (o : UnitOwner) (ops : List MemOp) :
    SameConfig s (s.requestUnit o ops) := ⟨by constructor <;> rfl, rfl⟩

theorem State.awaitPlacement_same (s : State) (j : Job) : SameConfig s (s.awaitPlacement j) :=
  ⟨by constructor <;> rfl, rfl⟩

theorem State.noteFreed_same (s : State) : SameConfig s s.noteFreed := by
  unfold State.noteFreed
  split <;> exact ⟨by constructor <;> rfl, rfl⟩

theorem State.noteFlushStart_same (s : State) : SameConfig s s.noteFlushStart := by
  unfold State.noteFlushStart
  split <;> exact ⟨by constructor <;> rfl, rfl⟩

theorem State.noteWindowChange_same (s : State) : SameConfig s s.noteWindowChange := by
  unfold State.noteWindowChange
  split <;> exact ⟨by constructor <;> rfl, rfl⟩

theorem State.requestFieldUnit_same (s : State) (g : Fin 8) (stage : Stage) (kind : OpKind)
    (data : List Byte) (b : Gather) : SameConfig s (s.requestFieldUnit g stage kind data b) :=
  ⟨by constructor <;> rfl, rfl⟩

theorem State.startFlush_same (s : State) (g : Fin 8) : SameConfig s (s.startFlush g) := by
  unfold State.startFlush
  split
  · refine SameConfig.trans (t := State.noteFlushStart
      { s with rankCounter := s.rankCounter + 1, flushOrder := s.flushOrder ++ [g] }) ?_ ?_
    · refine SameConfig.trans ?_ (State.noteFlushStart_same _)
      exact ⟨by constructor <;> rfl, rfl⟩
    · dsimp only
      split
      · exact (State.setSlot_same _ _ _).trans (State.awaitPlacement_same _ _)
      · exact State.requestFieldUnit_same _ _ _ _ _ _
  all_goals exact SameConfig.refl s

theorem State.startFlushes_same (s : State) (gs : List (Fin 8)) : SameConfig s (s.startFlushes gs) :=
  SameConfig.foldl State.startFlush_same gs s

theorem State.freeEntry_same (s : State) (g : Fin 8) (o : Answer) : SameConfig s (s.freeEntry g o) := by
  unfold State.freeEntry
  split
  · exact SameConfig.refl s
  · refine SameConfig.trans ?_ (State.noteFreed_same _)
    exact ⟨by constructor <;> rfl, rfl⟩

theorem State.openEntry_same (s : State) (k : Key) : SameConfig s (s.openEntry k) := by
  unfold State.openEntry
  split <;> exact ⟨by constructor <;> rfl, rfl⟩

theorem State.editEntry_same (s : State) (k : Key) (f : Gather → Gather) :
    SameConfig s (s.editEntry k f) := by
  unfold State.editEntry
  split <;> exact ⟨by constructor <;> rfl, rfl⟩

theorem State.acknowledge_same (s : State) (t : Txn) (d : Decode) (keys : List Key) :
    SameConfig s (s.acknowledge t d keys) := by
  unfold State.acknowledge
  split
  · exact State.answer_same _ _ _ _
  · exact (SameConfig.foldl (fun s k => s.editEntry_same k _) keys s).trans (State.setTxn_same _ _ _)

/-- A change of the dispatcher's own fields keeps the configuration. -/
theorem State.disp_same (s : State) (d : Disp) (r : Bool) :
    SameConfig s { s with disp := d, reoffer := r } := ⟨by constructor <;> rfl, rfl⟩

theorem State.setDisp_same (s : State) (d : Disp) : SameConfig s { s with disp := d } :=
  ⟨by constructor <;> rfl, rfl⟩

theorem State.dispatchWrite_same (s : State) (t : Txn) (d : Decode) (data : List Byte) :
    SameConfig s (s.dispatchWrite t d data) := by
  unfold State.dispatchWrite
  refine SameConfig.trans ?_ (State.disp_same _ _ _)
  refine SameConfig.trans ?_ (State.startFlushes_same _ _)
  refine SameConfig.trans ?_ (State.acknowledge_same _ _ _ _)
  refine SameConfig.trans ?_ (State.handOverAll_same _ _)
  refine SameConfig.trans ?_ (SameConfig.foldl (fun s x => s.editEntry_same _ _) _ _)
  exact SameConfig.foldl State.openEntry_same _ s

theorem State.offerWrite_same (s : State) (t : Txn) (d : Decode) (data : List Byte) :
    SameConfig s (s.offerWrite t d data) := by
  unfold State.offerWrite
  dsimp only
  split
  · exact ((s.handOver_same _).trans (State.answer_same _ _ _ _)).trans (State.setDisp_same _ _)
  all_goals
    split
    · exact ((s.handOverAll_same _).trans (State.answer_same _ _ _ _)).trans (State.setDisp_same _ _)
    · split
      · exact s.dispatchWrite_same t d data
      · exact (s.startFlushes_same _).trans (State.disp_same _ _ _)

theorem State.offerRead_same (s : State) (t : Txn) (d : Decode) (n : Nat) :
    SameConfig s (s.offerRead t d n) := by
  unfold State.offerRead
  split
  · exact s.setDisp_same _
  · dsimp only
    split
    · exact (s.answer_same _ _ _).trans (State.setDisp_same _ _)
    · exact ((s.setTxn_same _ _).trans (State.setDisp_same _ _)).trans (State.requestUnit_same _ _ _)

theorem State.offerPassThrough_same (s : State) (t : Txn) : SameConfig s (s.offerPassThrough t) := by
  unfold State.offerPassThrough
  dsimp only
  split
  · exact (s.startFlushes_same _).trans (State.disp_same _ _ _)
  · exact ((s.setTxn_same _ _).trans (State.setDisp_same _ _)).trans (State.requestUnit_same _ _ _)

theorem State.offerFence_same (s : State) (t : Txn) : SameConfig s (s.offerFence t) := by
  unfold State.offerFence
  exact ((s.startFlushes_same _).trans (State.setTxn_same _ _ _)).trans (State.setDisp_same _ _)

theorem State.offerHeld_same (s : State) : SameConfig s s.offerHeld := by
  unfold State.offerHeld
  split
  · exact SameConfig.refl s
  all_goals exact s.setDisp_same _

theorem State.offerAccess_same (s : State) (t : Txn) : SameConfig s (s.offerAccess t) := by
  unfold State.offerAccess
  split
  · exact s.offerPassThrough_same t
  · split
    · exact s.offerHeld_same
    · exact s.offerHeld_same
    · split
      · exact s.offerRead_same _ _ _
      · exact s.offerWrite_same _ _ _
      · exact SameConfig.refl s

theorem State.offerNext_same (s : State) (t : Txn) : SameConfig s (s.offerNext t) := by
  unfold State.offerNext
  split
  · exact s.offerFence_same t
  all_goals
    split
    · exact s.offerAccess_same t
    · exact (s.answer_same _ _ _).trans (State.setDisp_same _ _)

/-- An offer keeps the configuration, the port and the windows. -/
theorem State.offer_same (s : State) : SameConfig s s.offer := by
  unfold State.offer
  split
  · split
    · refine SameConfig.trans (t := { s with reoffer := false }) ⟨by constructor <;> rfl, rfl⟩ ?_
      exact State.offerNext_same _ _
    · exact SameConfig.refl s
  · exact SameConfig.refl s

theorem State.issueUnit_same (s : State) (u : MemUnit) : SameConfig s (s.issueUnit u) := by
  unfold State.issueUnit
  dsimp only
  split
  · exact ⟨by constructor <;> rfl, rfl⟩
  · unfold State.afterDispatcherIssue
    split <;> exact ⟨by constructor <;> rfl, rfl⟩

theorem State.issue_same (s : State) : SameConfig s s.issue := by
  unfold State.issue
  split
  · split
    · exact s.issueUnit_same _
    · exact SameConfig.refl s
  · exact SameConfig.refl s

theorem State.placeJob_same (s : State) : SameConfig s s.placeJob := by
  unfold State.placeJob
  split
  · split <;> exact ⟨by constructor <;> rfl, rfl⟩
  · exact SameConfig.refl s

theorem State.startJob_same (s : State) : SameConfig s s.startJob := by
  unfold State.startJob
  split <;> exact ⟨by constructor <;> rfl, rfl⟩

theorem State.triggerAges_same (s : State) : SameConfig s s.triggerAges := s.startFlushes_same _

theorem State.expireHold_same (s : State) : SameConfig s s.expireHold := by
  unfold State.expireHold
  split
  · next q w _ =>
    exact ((s.handOver_same (heldRecord q w)).trans (State.answer_same _ q.id .error [])).trans
      (State.disp_same _ _ _)
  · exact SameConfig.refl s

theorem State.dispatcherStep_same (s : State) : SameConfig s s.dispatcherStep := by
  unfold State.dispatcherStep
  split
  · exact s.expireHold_same
  · exact s.offer_same

theorem State.timerStep_same (s : State) : SameConfig s s.timerStep := by
  unfold State.timerStep
  refine SameConfig.trans (t := { s with freeCount := s.freeCount + 1 }) ⟨by constructor <;> rfl, rfl⟩ ?_
  dsimp only
  split
  · exact State.dispatcherStep_same _
  · exact State.triggerAges_same _

theorem State.completeDrain_same (s : State) (w : Fin 8) : SameSetup s (s.completeDrain w) := by
  unfold State.completeDrain
  split
  · exact SameSetup.trans (by constructor <;> rfl) (State.noteWindowChange_same _).toSameSetup
  · exact SameSetup.refl s

/-- What an internal step that is due is. -/
theorem State.internalStep_cases (b : Bool) (s t : State) (h : s.internalStep b = some t) :
    t = s.placeJob ∨ t = s.startJob ∨ t = s.issue ∨ (∃ w, t = s.completeDrain w)
      ∨ t = s.dispatcherStep ∨ t = s.timerStep ∨ t = s.triggerAges := by
  unfold State.internalStep at h
  dsimp only at h
  split at h
  · exact Or.inl (Option.some.inj h).symm
  split at h
  · exact Or.inr (Or.inl (Option.some.inj h).symm)
  split at h
  · exact Or.inr (Or.inr (Or.inl (Option.some.inj h).symm))
  split at h
  · next w _ => exact Or.inr (Or.inr (Or.inr (Or.inl ⟨w, (Option.some.inj h).symm⟩)))
  split at h
  · split at h
    · exact Or.inr (Or.inr (Or.inr (Or.inr (Or.inl (Option.some.inj h).symm))))
    · exact absurd h (by simp)
  · split at h
    · exact Or.inr (Or.inr (Or.inr (Or.inr (Or.inr (Or.inl (Option.some.inj h).symm)))))
    · exact Or.inr (Or.inr (Or.inr (Or.inr (Or.inr (Or.inr (Option.some.inj h).symm)))))

theorem State.internalStep_same (b : Bool) (s t : State) (h : s.internalStep b = some t) :
    SameSetup s t := by
  rcases State.internalStep_cases b s t h with h | h | h | ⟨w, h⟩ | h | h | h <;> subst h
  · exact s.placeJob_same.toSameSetup
  · exact s.startJob_same.toSameSetup
  · exact s.issue_same.toSameSetup
  · exact s.completeDrain_same w
  · exact s.dispatcherStep_same.toSameSetup
  · exact s.timerStep_same.toSameSetup
  · exact s.triggerAges_same.toSameSetup

/-- A property that every internal step keeps, settling keeps. -/
theorem State.settleWithin_induction {P : State → Prop} (b : Bool)
    (hstep : ∀ s t, P s → s.internalStep b = some t → P t) (n : Nat) (s : State) (h : P s) :
    P (s.settleWithin b n) := by
  induction n generalizing s with
  | zero => exact h
  | succ n ih =>
    unfold State.settleWithin
    split
    · next t ht => exact ih t (hstep s t h ht)
    · exact h

theorem State.settle_induction {P : State → Prop}
    (hstep : ∀ s t, P s → s.internalStep false = some t → P t) (s : State) (h : P s) : P s.settle :=
  State.settleWithin_induction false hstep _ s h

theorem State.settleToExpiry_induction {P : State → Prop}
    (hstep : ∀ s t, P s → s.internalStep true = some t → P t)
    (hclear : ∀ (s : State) (r : Bool), P s → P { s with reoffer := r }) (s : State) (h : P s) :
    P s.settleToExpiry :=
  hclear _ _ (State.settleWithin_induction true hstep _ s h)

/-- Settling keeps the configuration stores, the port, the pins, the offers and the queue. -/
theorem State.settleWithin_same (b : Bool) (n : Nat) (s : State) : SameSetup s (s.settleWithin b n) :=
  State.settleWithin_induction (P := fun t => SameSetup s t) b
    (fun t u h k => h.trans (State.internalStep_same b t u k)) n s (SameSetup.refl s)

theorem State.settle_same (s : State) : SameSetup s s.settle := s.settleWithin_same false _

theorem State.settleToExpiry_same (s : State) : SameSetup s s.settleToExpiry :=
  (s.settleWithin_same true _).trans (by constructor <;> rfl)

/-- What the release of a frame looks at is what it was before settling. -/
theorem SameSetup.presents {s t : State} (h : SameSetup s t) (code : Byte) (payload : List Byte) :
    t.presents code payload = s.presents code payload := by
  unfold State.presents
  rw [h.rstLow, h.mcsLow, h.receiver]

theorem SameSetup.takesFrame {s t : State} (h : SameSetup s t) (code : Byte) (payload : List Byte) :
    t.takesFrame code payload ↔ s.takesFrame code payload := by
  unfold State.takesFrame
  rw [h.presents, h.build]

/-- A part with nothing due takes no internal step. -/
theorem State.internalStep_of_quiet (b : Bool) (s : State) (h : s.quiet = true) :
    s.internalStep b = none := by
  unfold State.quiet at h
  simp only [Bool.and_eq_true, Bool.not_eq_true'] at h
  obtain ⟨⟨⟨⟨⟨⟨h1, h2⟩, h3⟩, h4⟩, h5⟩, h6⟩, h7⟩ := h
  have hd : (List.finRange 8).find? s.drainDue = none := by
    rw [List.find?_eq_none]
    intro w hw
    have := List.any_eq_false.mp h4 w hw
    simpa using this
  unfold State.internalStep
  simp only [h1, h2, h3, hd, h5, h7, Option.isNone_iff_eq_none.mp h6]
  simp

/-- A part with nothing due is settled. -/
theorem State.settle_of_quiet (s : State) (h : s.quiet = true) : s.settle = s := by
  show State.settleWithin false 256 s = s
  unfold State.settleWithin
  rw [State.internalStep_of_quiet false s h]

/-- A part with nothing due stands as a window command finds it. -/
theorem State.settleToExpiry_of_quiet (s : State) (h : s.quiet = true)
    (hf : s.followsExpiry = false) : s.settleToExpiry = s := by
  have : s.settleWithin true 256 = s := by
    unfold State.settleWithin
    rw [State.internalStep_of_quiet true s h]
  unfold State.settleToExpiry
  simp only [Config.settleBound, this, hf, Bool.not_false, Bool.and_true]

theorem State.completeCommand_same (s : State) (g : Fin 8) (c : Completion) :
    SameConfig s (s.entryCompletion g c) := by
  unfold State.entryCompletion
  split
  · dsimp only
    split
    · exact s.setSlot_same _ _
    · split
      · unfold State.mergeDone
        split
        · exact (s.handOver_same _).trans (State.freeEntry_same _ _ _)
        · exact (s.setSlot_same _ _).trans (State.awaitPlacement_same _ _)
      · unfold State.writeDone
        split
        · exact (s.handOver_same _).trans (State.freeEntry_same _ _ _)
        · exact s.freeEntry_same _ _
      · exact SameConfig.refl s
      · exact SameConfig.refl s
  · exact SameConfig.refl s

theorem State.readCompletion_same (s : State) (id field : Nat) (c : Completion) :
    SameConfig s (s.readCompletion id field c) := by
  unfold State.readCompletion
  split
  · exact SameConfig.refl s
  · split
    · dsimp only
      split
      · exact s.setTxn_same _ _
      · split
        · exact (s.handOverAll_same _).trans (State.answer_same _ _ _ _)
        · exact (s.setTxn_same _ _).trans (State.awaitPlacement_same _ _)
    all_goals exact SameConfig.refl s

theorem State.route_same (s : State) (op : MemOp) (c : Completion) : SameConfig s (s.route op c) := by
  unfold State.route
  split
  · exact s.completeCommand_same _ _
  · exact s.readCompletion_same _ _ _
  · exact s.answer_same _ _ _
  · exact SameConfig.refl s

theorem State.fenceTold_same (s : State) (i : Issued) : SameConfig s (s.fenceTold i) := by
  unfold State.fenceTold
  split
  · exact ⟨by constructor <;> rfl, rfl⟩
  · exact SameConfig.refl s

/-- The arrival of a completion keeps the configuration, the port and the windows. -/
theorem State.complete_same (s : State) (c : Completion) : SameConfig s (s.complete c) := by
  unfold State.complete
  split
  · exact SameConfig.refl s
  · split
    · exact SameConfig.refl s
    · split
      · refine SameConfig.trans ?_ (State.fenceTold_same _ _)
        refine SameConfig.trans ?_ (State.route_same _ _ _)
        exact ⟨by constructor <;> rfl, rfl⟩
      · exact SameConfig.refl s

theorem State.beginWrite_same (s : State) (g : Fin 8) (base : Option (List Byte)) (store : List Byte) :
    SameConfig s (s.beginWrite g base store) := by
  unfold State.beginWrite
  split
  · exact s.requestFieldUnit_same _ _ _ _ _
  · exact SameConfig.refl s

theorem State.forwardStep_same (s : State) (g : Fin 8) (k : Key) (bytes : List (Option Byte))
    (base : Option (List Byte)) : SameConfig s (s.forwardStep g k bytes base) := by
  unfold State.forwardStep
  dsimp only
  split
  · exact s.beginWrite_same _ _ _
  · exact (s.handOver_same _).trans (State.freeEntry_same _ _ _)
  · exact (s.handOver_same _).trans (State.beginWrite_same _ _ _ _)

theorem State.finishFlush_same (s : State) (g : Fin 8) (k : Key) (bytes : List (Option Byte))
    (base merge : Option (List Byte)) : SameConfig s (s.finishFlush g k bytes base merge) := by
  unfold State.finishFlush
  dsimp only
  split
  · exact s.forwardStep_same _ _ _ _
  · split
    · exact s.forwardStep_same _ _ _ _
    · exact (s.handOver_same _).trans (State.freeEntry_same _ _ _)
    · exact (s.handOver_same _).trans (State.forwardStep_same _ _ _ _ _)

/-- The end of a FLUSH job keeps the configuration, the port and the windows. -/
theorem State.endFlushJob_same (s : State) : SameConfig s s.endFlushJob := by
  unfold State.endFlushJob
  split
  · dsimp only
    split
    · refine SameConfig.trans ?_ (State.finishFlush_same _ _ _ _ _ _)
      exact ⟨by constructor <;> rfl, rfl⟩
    · exact ⟨by constructor <;> rfl, rfl⟩
  all_goals exact SameConfig.refl s

theorem State.offerBackfill_same (s : State) (x : FieldOutcome) : SameConfig s (s.offerBackfill x) := by
  unfold State.offerBackfill
  split
  · unfold State.backfill
    split
    · split
      · exact s.setSlot_same _ _
      · exact SameConfig.refl s
    all_goals exact SameConfig.refl s
  all_goals exact SameConfig.refl s

theorem State.answerRead_same (s : State) (id : Nat) (p : Policy) (fields : List FieldDesc)
    (outs : List FieldOutcome) : SameConfig s (s.answerRead id p fields outs) := by
  unfold State.answerRead
  split
  · exact SameConfig.refl s
  · split
    · split <;> exact s.answer_same _ _ _
    all_goals exact SameConfig.refl s

/-- The end of a READ job keeps the configuration, the port and the windows. -/
theorem State.endReadJob_same (s : State) : SameConfig s s.endReadJob := by
  unfold State.endReadJob
  split
  · unfold State.finishRead
    refine SameConfig.trans ?_ (SameConfig.foldl State.offerBackfill_same _ _)
    refine SameConfig.trans ?_ (State.answerRead_same _ _ _ _ _)
    refine SameConfig.trans ?_ (State.handOverAll_same _ _)
    exact ⟨by constructor <;> rfl, rfl⟩
  all_goals exact SameConfig.refl s

end Sys2Proof.Machine
end

