-- ==== Sys2Proof/Laws/Flush.lean ====
section
/-! SUPPORT. What starting a flush changes and what it leaves: entries, ranks, units, jobs that wait. -/

namespace Sys2Proof.Machine

/-! ### Vectors at a place -/

theorem setAt_self {α : Type} {n : Nat} (v : Vector α n) (i : Fin n) (x : α) :
    (v.set i x)[i] = x := Vector.getElem_set_self _

theorem setAt_ne {α : Type} {n : Nat} (v : Vector α n) (i j : Fin n) (x : α) (h : i ≠ j) :
    (v.set i x)[j] = v[j] := Vector.getElem_set_ne _ _ fun e => h (Fin.ext e)

/-! ### One flush -/

@[simp] theorem State.startFlush_txns (s : State) (g : Fin 8) : (s.startFlush g).txns = s.txns := by
  unfold State.startFlush
  split
  · dsimp only
    split <;> simp [State.requestFieldUnit]
  all_goals rfl

@[simp] theorem State.startFlush_openCounter (s : State) (g : Fin 8) : (s.startFlush g).openCounter = s.openCounter := by
  unfold State.startFlush
  split
  · dsimp only
    split <;> simp [State.requestFieldUnit]
  all_goals rfl

@[simp] theorem State.startFlush_openList (s : State) (g : Fin 8) : (s.startFlush g).openList = s.openList := by
  unfold State.startFlush
  split
  · dsimp only
    split <;> simp [State.requestFieldUnit]
  all_goals rfl

@[simp] theorem State.startFlush_disp (s : State) (g : Fin 8) : (s.startFlush g).disp = s.disp := by
  unfold State.startFlush
  split
  · dsimp only
    split <;> simp [State.requestFieldUnit]
  all_goals rfl

@[simp] theorem State.startFlush_outstanding (s : State) (g : Fin 8) : (s.startFlush g).outstanding = s.outstanding := by
  unfold State.startFlush
  split
  · dsimp only
    split <;> simp [State.requestFieldUnit]
  all_goals rfl

@[simp] theorem State.startFlush_opCounter (s : State) (g : Fin 8) : (s.startFlush g).opCounter = s.opCounter := by
  unfold State.startFlush
  split
  · dsimp only
    split <;> simp [State.requestFieldUnit]
  all_goals rfl

@[simp] theorem State.startFlush_jobs (s : State) (g : Fin 8) : (s.startFlush g).jobs = s.jobs := by
  unfold State.startFlush
  split
  · dsimp only
    split <;> simp [State.requestFieldUnit]
  all_goals rfl

@[simp] theorem State.startFlush_running (s : State) (g : Fin 8) : (s.startFlush g).running = s.running := by
  unfold State.startFlush
  split
  · dsimp only
    split <;> simp [State.requestFieldUnit]
  all_goals rfl

@[simp] theorem State.startFlush_log (s : State) (g : Fin 8) : (s.startFlush g).log = s.log := by
  unfold State.startFlush
  split
  · dsimp only
    split <;> simp [State.requestFieldUnit]
  all_goals rfl

@[simp] theorem State.startFlush_dropped (s : State) (g : Fin 8) : (s.startFlush g).dropped = s.dropped := by
  unfold State.startFlush
  split
  · dsimp only
    split <;> simp [State.requestFieldUnit]
  all_goals rfl

@[simp] theorem State.startFlush_seqCounter (s : State) (g : Fin 8) : (s.startFlush g).seqCounter = s.seqCounter := by
  unfold State.startFlush
  split
  · dsimp only
    split <;> simp [State.requestFieldUnit]
  all_goals rfl

@[simp] theorem State.startFlush_freeCount (s : State) (g : Fin 8) : (s.startFlush g).freeCount = s.freeCount := by
  unfold State.startFlush
  split
  · dsimp only
    split <;> simp [State.requestFieldUnit]
  all_goals rfl

/-! ### Several flushes -/

/-- What every flush start keeps, starting several keeps. -/
theorem State.startFlushes_keeps {α : Type} (f : State → α) (h : ∀ s g, f (s.startFlush g) = f s)
    (gs : List (Fin 8)) (s : State) : f (s.startFlushes gs) = f s := by
  unfold State.startFlushes
  induction gs generalizing s with
  | nil => rfl
  | cons g gs ih => rw [List.foldl_cons, ih, h]

@[simp] theorem State.startFlushes_txns (s : State) (gs : List (Fin 8)) :
    (s.startFlushes gs).txns = s.txns := State.startFlushes_keeps _ (fun s g => s.startFlush_txns g) gs s

@[simp] theorem State.startFlushes_openCounter (s : State) (gs : List (Fin 8)) :
    (s.startFlushes gs).openCounter = s.openCounter := State.startFlushes_keeps _ (fun s g => s.startFlush_openCounter g) gs s

@[simp] theorem State.startFlushes_openList (s : State) (gs : List (Fin 8)) :
    (s.startFlushes gs).openList = s.openList := State.startFlushes_keeps _ (fun s g => s.startFlush_openList g) gs s

@[simp] theorem State.startFlushes_disp (s : State) (gs : List (Fin 8)) :
    (s.startFlushes gs).disp = s.disp := State.startFlushes_keeps _ (fun s g => s.startFlush_disp g) gs s

@[simp] theorem State.startFlushes_outstanding (s : State) (gs : List (Fin 8)) :
    (s.startFlushes gs).outstanding = s.outstanding := State.startFlushes_keeps _ (fun s g => s.startFlush_outstanding g) gs s

@[simp] theorem State.startFlushes_opCounter (s : State) (gs : List (Fin 8)) :
    (s.startFlushes gs).opCounter = s.opCounter := State.startFlushes_keeps _ (fun s g => s.startFlush_opCounter g) gs s

@[simp] theorem State.startFlushes_jobs (s : State) (gs : List (Fin 8)) :
    (s.startFlushes gs).jobs = s.jobs := State.startFlushes_keeps _ (fun s g => s.startFlush_jobs g) gs s

@[simp] theorem State.startFlushes_running (s : State) (gs : List (Fin 8)) :
    (s.startFlushes gs).running = s.running := State.startFlushes_keeps _ (fun s g => s.startFlush_running g) gs s

@[simp] theorem State.startFlushes_log (s : State) (gs : List (Fin 8)) :
    (s.startFlushes gs).log = s.log := State.startFlushes_keeps _ (fun s g => s.startFlush_log g) gs s

@[simp] theorem State.startFlushes_dropped (s : State) (gs : List (Fin 8)) :
    (s.startFlushes gs).dropped = s.dropped := State.startFlushes_keeps _ (fun s g => s.startFlush_dropped g) gs s

@[simp] theorem State.startFlushes_seqCounter (s : State) (gs : List (Fin 8)) :
    (s.startFlushes gs).seqCounter = s.seqCounter := State.startFlushes_keeps _ (fun s g => s.startFlush_seqCounter g) gs s

@[simp] theorem State.startFlushes_freeCount (s : State) (gs : List (Fin 8)) :
    (s.startFlushes gs).freeCount = s.freeCount := State.startFlushes_keeps _ (fun s g => s.startFlush_freeCount g) gs s

@[simp] theorem State.startFlushes_windows (s : State) (gs : List (Fin 8)) :
    (s.startFlushes gs).windows = s.windows := (s.startFlushes_same gs).windows

@[simp] theorem State.startFlushes_layouts (s : State) (gs : List (Fin 8)) :
    (s.startFlushes gs).layouts = s.layouts := (s.startFlushes_same gs).layouts

@[simp] theorem State.startFlushes_tables (s : State) (gs : List (Fin 8)) :
    (s.startFlushes gs).tables = s.tables := (s.startFlushes_same gs).tables

@[simp] theorem State.startFlushes_programs (s : State) (gs : List (Fin 8)) :
    (s.startFlushes gs).programs = s.programs := (s.startFlushes_same gs).programs

/-! ### The entries -/

/-- A flush start leaves the other entries. -/
theorem State.startFlush_entries_ne (s : State) (g h : Fin 8) (hne : g ≠ h) :
    (s.startFlush g).entries[h] = s.entries[h] := by
  have hne' : g.val ≠ h.val := fun e => hne (Fin.ext e)
  unfold State.startFlush
  split
  · dsimp only
    split <;> simp [State.requestFieldUnit, hne']
  all_goals rfl

/-- The start of a flush, as one update of the part. -/
theorem State.noteFlushStart_eq (s : State) :
    s.noteFlushStart = { s with reoffer := s.reoffer || decide (s.disp = .blocked .gatherBuffer) } := by
  unfold State.noteFlushStart
  split
  · next h => rw [show decide (s.disp = .blocked .gatherBuffer) = true by simp [h], Bool.or_true]
  all_goals
    next h =>
      rw [show decide (s.disp = .blocked .gatherBuffer) = false by simp [h], Bool.or_false]

/-- The flush of a whole entry, or of one with a base image, starts with its FLUSH job. -/
theorem State.startFlush_convert (s : State) (g : Fin 8) (b : Gather)
    (hg : s.entries[g].slot = .held .gathering b) (h : (b.whole || b.base.isSome) = true) :
    s.startFlush g = { s with
      rankCounter := s.rankCounter + 1, flushOrder := s.flushOrder ++ [g]
      reoffer := s.reoffer || decide (s.disp = .blocked .gatherBuffer)
      entries := s.entries.set g { s.entries[g] with
        slot := .held .converting { b with rank := some s.rankCounter } }
      toPlace := s.toPlace ++ [.flush g s.entries[g].openOrder b.key b.bytes b.base none] } := by
  unfold State.startFlush
  rw [hg]
  dsimp only
  rw [if_pos h, State.noteFlushStart_eq]
  rfl

/-- The flush of any other GATHERING entry starts with its merge read. -/
theorem State.startFlush_merge (s : State) (g : Fin 8) (b : Gather)
    (hg : s.entries[g].slot = .held .gathering b) (h : (b.whole || b.base.isSome) = false) :
    let ops := splitOps .mread (s.storeAddrOf b.key) (s.descOf b.key).storeLen []
      fun _ => .entry g .merging
    s.startFlush g = { s with
      rankCounter := s.rankCounter + 1, flushOrder := s.flushOrder ++ [g]
      reoffer := s.reoffer || decide (s.disp = .blocked .gatherBuffer)
      entries := s.entries.set g { s.entries[g] with
        slot := (.held .merging { b with
          rank := some s.rankCounter, opsLeft := ops.length, got := [], failed := false }) }
      units := s.units ++ [{ owner := .entry g, ops }] } := by
  unfold State.startFlush
  rw [hg]
  dsimp only
  rw [if_neg (by simp [h]), State.noteFlushStart_eq]
  rfl

/-- A GATHERING entry leaves GATHERING at the start of its flush; its key, opening and fault marker
stay. -/
theorem State.startFlush_entry (s : State) (g : Fin 8) (b : Gather)
    (hg : s.entries[g].slot = .held .gathering b) :
    ∃ stage b', (s.startFlush g).entries[g]
        = { openOrder := s.entries[g].openOrder, fault := s.entries[g].fault, slot := .held stage b' }
      ∧ (stage = .converting ∨ stage = .merging) ∧ b'.key = b.key
      ∧ b'.bytes = b.bytes ∧ b'.base = b.base ∧ b'.confirm = b.confirm := by
  cases h : (b.whole || b.base.isSome)
  · rw [s.startFlush_merge g b hg h]
    exact ⟨_, _, setAt_self _ _ _, Or.inr rfl, rfl, rfl, rfl, rfl⟩
  · rw [s.startFlush_convert g b hg h]
    exact ⟨_, _, setAt_self _ _ _, Or.inl rfl, rfl, rfl, rfl, rfl⟩

/-- A flush starts at GATHERING entries only. -/
theorem State.startFlush_of_not_gathering (s : State) (g : Fin 8)
    (h : s.entries[g].isGathering = false) : s.startFlush g = s := by
  unfold State.startFlush
  split
  · next b hb => rw [Entry.isGathering, hb] at h; simp at h
  all_goals rfl

/-- No entry is GATHERING after its flush has started. -/
theorem State.startFlush_not_gathering (s : State) (g : Fin 8) :
    (s.startFlush g).entries[g].isGathering = false := by
  by_cases h : s.entries[g].isGathering = true
  · unfold Entry.isGathering at h
    split at h
    · next b hb =>
      obtain ⟨stage, b', he, hs, -⟩ := s.startFlush_entry g b hb
      rw [he]
      rcases hs with rfl | rfl <;> rfl
    all_goals simp at h
  · rw [s.startFlush_of_not_gathering g (by simpa using h)]
    simpa using h

/-- What a flush start keeps of every entry: key, opening, fault marker, confirm list. -/
theorem State.startFlush_kept (s : State) (g h : Fin 8) :
    (s.startFlush g).entries[h].key? = s.entries[h].key?
      ∧ (s.startFlush g).entries[h].openOrder = s.entries[h].openOrder
      ∧ (s.startFlush g).entries[h].fault = s.entries[h].fault
      ∧ ((s.startFlush g).entries[h].isGathering = true → s.entries[h].isGathering = true) := by
  by_cases hne : g = h
  · subst hne
    by_cases hg : s.entries[g].isGathering = true
    · unfold Entry.isGathering at hg
      split at hg
      · next b hb =>
        obtain ⟨stage, b', he, hs, hk, -, -, -⟩ := s.startFlush_entry g b hb
        rw [he]
        refine ⟨?_, rfl, rfl, fun _ => ?_⟩
        · simp only [Entry.key?]
          rw [hb, hk]
        · rw [Entry.isGathering, hb]
      all_goals simp at hg
    · rw [s.startFlush_of_not_gathering g (by simpa using hg)]
      exact ⟨rfl, rfl, rfl, id⟩
  · rw [s.startFlush_entries_ne g h hne]
    exact ⟨rfl, rfl, rfl, id⟩

/-- What the start of several flushes keeps of every entry. -/
theorem State.startFlushes_kept (gs : List (Fin 8)) (s : State) (h : Fin 8) :
    (s.startFlushes gs).entries[h].key? = s.entries[h].key?
      ∧ (s.startFlushes gs).entries[h].openOrder = s.entries[h].openOrder
      ∧ (s.startFlushes gs).entries[h].fault = s.entries[h].fault
      ∧ ((s.startFlushes gs).entries[h].isGathering = true → s.entries[h].isGathering = true) := by
  induction gs generalizing s with
  | nil => exact ⟨rfl, rfl, rfl, id⟩
  | cons g gs ih =>
    obtain ⟨a, b, c, d⟩ := ih (s.startFlush g)
    obtain ⟨a', b', c', d'⟩ := s.startFlush_kept g h
    exact ⟨a.trans a', b.trans b', c.trans c', fun x => d' (d x)⟩

/-- After flushes have started, none of their entries is GATHERING. -/
theorem State.startFlushes_not_gathering (gs : List (Fin 8)) (s : State) (g : Fin 8) (hg : g ∈ gs) :
    (s.startFlushes gs).entries[g].isGathering = false := by
  induction gs generalizing s with
  | nil => simp at hg
  | cons x gs ih =>
    by_cases hx : g ∈ gs
    · exact ih (s.startFlush x) hx
    · have : g = x := by simpa [hx] using hg
      subst this
      cases hc : ((s.startFlush g).startFlushes gs).entries[g].isGathering
      · exact hc
      · have := (State.startFlushes_kept gs (s.startFlush g) g).2.2.2 hc
        rw [s.startFlush_not_gathering g] at this
        exact absurd this (by simp)

end Sys2Proof.Machine
end

