-- ==== Sys2Proof/Laws/Backfills.lean ====
section
/-! SUPPORT. What the backfills of a READ job do together (R83, R100). -/

namespace Sys2Proof.Machine

/-- What one memory field's outcome makes of entry g: its base image, when the read recorded this entry in
this opening, the outcome is clean, and the entry is GATHERING without a base image. -/
def Entry.backfilled (g : Fin 8) (e : Entry) (x : FieldOutcome) : Entry :=
  match e.slot with
  | .held .gathering b =>
    if x.1.backfill = some (g, e.openOrder) ∧ x.2.exc = none ∧ b.base = none then
      { e with slot := .held .gathering { b with base := some x.2.result } }
    else e
  | .held .merging _ | .held .converting _ | .held .writing _ | .free => e

/-- A backfill changes entries alone. -/
theorem State.offerBackfill_frame (s : State) (x : FieldOutcome) :
    s.offerBackfill x = { s with entries := (s.offerBackfill x).entries } := by
  unfold State.offerBackfill
  split
  · unfold State.backfill
    split
    · split <;> rfl
    all_goals rfl
  all_goals rfl

theorem State.offerBackfill_entries (s : State) (x : FieldOutcome) (g : Fin 8) :
    (s.offerBackfill x).entries[g] = s.entries[g].backfilled g x := by
  have hno : (¬ ∃ o, x.1.backfill = some (g, o) ∧ x.2.exc = none) →
      s.entries[g].backfilled g x = s.entries[g] := by
    intro h
    unfold Entry.backfilled
    split
    · rw [if_neg (fun hc => h ⟨_, hc.1, hc.2.1⟩)]
    all_goals rfl
  unfold State.offerBackfill
  split
  · next h o hb hx =>
    unfold State.backfill
    by_cases hg : h = g
    · subst hg
      unfold Entry.backfilled
      split
      · next b hs =>
        simp only [hs]
        by_cases hc : s.entries[h].openOrder = o ∧ b.base.isNone = true
        · rw [if_pos hc, if_pos ⟨by rw [hb, hc.1], hx, by simpa using hc.2⟩]
          exact setAt_self _ _ _
        · rw [if_neg hc, if_neg]
          rintro ⟨h1, -, h2⟩
          rw [hb] at h1
          simp only [Option.some.injEq, Prod.mk.injEq, true_and] at h1
          exact hc ⟨h1.symm, by simp [h2]⟩
      all_goals (next hs => simp only [hs])
    · rw [hno (by rintro ⟨o', h1, -⟩; rw [hb] at h1; simp only [Option.some.injEq, Prod.mk.injEq] at h1; exact hg h1.1)]
      split
      · split
        · exact setAt_ne _ _ _ _ hg
        · rfl
      all_goals rfl
  · next hb hx => rw [hno (by rintro ⟨o, h1, h2⟩; rw [hx] at h2; exact absurd h2 (by simp))]
  · next hb => rw [hno (by rintro ⟨o, h1, h2⟩; rw [hb] at h1; exact absurd h1 (by simp))]

/-- The backfills of a READ job change entries alone. -/
theorem State.offerBackfills_frame (outs : List FieldOutcome) (s : State) :
    outs.foldl State.offerBackfill s = { s with entries := (outs.foldl State.offerBackfill s).entries } := by
  induction outs generalizing s with
  | nil => rfl
  | cons x xs ih =>
    have h1 := s.offerBackfill_frame x
    have h2 := ih (s.offerBackfill x)
    rw [List.foldl_cons]
    generalize (s.offerBackfill x).entries = es at h1
    generalize hu : s.offerBackfill x = u at h1 h2 ⊢
    rw [h2, h1]

theorem Entry.backfilled_foldl (g : Fin 8) (outs : List FieldOutcome) (e : Entry) :
    outs.foldl (Entry.backfilled g) e = match e.slot with
      | .held .gathering b =>
        match outs.find? fun x => x.1.backfill == some (g, e.openOrder) && x.2.exc.isNone with
        | some x => if b.base.isNone then
            { e with slot := .held .gathering { b with base := some x.2.result } } else e
        | none => e
      | .held .merging _ | .held .converting _ | .held .writing _ | .free => e := by
  induction outs generalizing e with
  | nil => simp only [List.foldl_nil, List.find?_nil]; split <;> rfl
  | cons x xs ih =>
    rw [List.foldl_cons, ih]
    cases hs : e.slot with
    | free => simp only [Entry.backfilled, hs]
    | held stage b =>
      cases stage with
      | merging | converting | writing => simp only [Entry.backfilled, hs]
      | gathering =>
        simp only [Entry.backfilled, hs, List.find?_cons]
        cases hb : b.base with
        | some base =>
          simp only [hs, hb, reduceCtorEq, and_false, if_false, Option.isNone_some, Bool.false_eq_true]
          split <;> split <;> rfl
        | none =>
          by_cases hc : x.1.backfill = some (g, e.openOrder) ∧ x.2.exc = none
          · simp only [hc, and_self, if_true, BEq.rfl, Option.isNone_none, Bool.and_self]
            split <;> simp
          · rw [if_neg (fun h => hc ⟨h.1, h.2.1⟩)]
            have : (x.1.backfill == some (g, e.openOrder) && x.2.exc.isNone) = false := by
              rw [Bool.and_eq_false_iff]
              by_contra hn
              simp only [not_or, Bool.not_eq_false, beq_iff_eq, Option.isNone_iff_eq_none] at hn
              exact hc hn
            simp only [this, hs, hb]

/-- The first clean outcome that recorded an entry in its opening gives a GATHERING one without a base
image its base image; every other backfill is dropped. -/
theorem State.offerBackfills_entries (outs : List FieldOutcome) (s : State) (g : Fin 8) :
    (outs.foldl State.offerBackfill s).entries[g] = outs.foldl (Entry.backfilled g) s.entries[g] := by
  induction outs generalizing s with
  | nil => rfl
  | cons x xs ih => rw [List.foldl_cons, List.foldl_cons, ih, s.offerBackfill_entries]

end Sys2Proof.Machine
end

