-- ==== Sys2Proof/Laws/Offers.lean ====
section
/-! SUPPORT. The dispatcher's offer taken apart, the owner of a record byte, and the offers taken from
the bus. -/

namespace Sys2Proof.Machine

/-! ### The offer -/

/-- An offer that is due presents the next transaction. -/
theorem State.offer_of_due (s : State) (q : Txn) (h1 : s.nextTxn = some q) (h2 : s.offerDue = true) :
    s.offer = { s with reoffer := false }.offerNext q := by
  unfold State.offer
  rw [h1]
  exact if_pos h2

/-- A well-formed READ or WRITE goes to classification. -/
theorem State.offerNext_access (s : State) (q : Txn) (h : ∀ tag, q.req ≠ .fence tag)
    (hw : wellFormedAccess q.req.addr q.req.size = true) : s.offerNext q = s.offerAccess q := by
  unfold State.offerNext
  split
  · next tag hr => exact absurd hr (h tag)
  all_goals rw [if_pos hw]

/-- A READ or WRITE that is not well formed is answered with ERROR. -/
theorem State.offerNext_malformed (s : State) (q : Txn) (h : ∀ tag, q.req ≠ .fence tag)
    (hw : wellFormedAccess q.req.addr q.req.size = false) : s.offerNext q = s.answerMalformed q := by
  unfold State.offerNext
  split
  · next tag hr => exact absurd hr (h tag)
  all_goals rw [if_neg (by simp [hw])]

/-! ### Owners -/

/-- The field that owns a byte of an access is touched by it. -/
theorem ownerOf_touched (fields : List FieldDesc) (o n k : Nat) (x : FieldDesc × Nat) (hk : k < n)
    (h : ownerOf fields (o + k) = some x) : x ∈ touchedFields fields o n := by
  unfold ownerOf at h
  have hmem := List.mem_of_find?_eq_some h
  have hc := List.find?_some h
  unfold touchedFields
  rw [List.mem_filter]
  refine ⟨hmem, ?_⟩
  simp only [FieldDesc.covers, FieldDesc.touched, rangesMeet, Bool.and_eq_true, decide_eq_true_eq] at hc ⊢
  omega

/-! ### Offers on the bus -/

/-- A part that takes no requests takes no offer. -/
theorem State.takeOffers_of_full (s : State) (h : s.takesRequests = false) : s.takeOffers = s := by
  have h1 : s.takeOffer = s := by
    unfold State.takeOffer
    split
    · rfl
    · rw [if_neg (by simp [h])]
  have aux : ∀ l : List Request, l.foldl (fun s _ => s.takeOffer) s = s := by
    intro l
    induction l with
    | nil => rfl
    | cons x xs ih => rw [List.foldl_cons, h1, ih]
  exact aux _

/-- Without an offer nothing is taken. -/
theorem State.takeOffers_of_none (s : State) (h : s.offers = []) : s.takeOffers = s := by
  unfold State.takeOffers
  rw [h]
  rfl

/-- The first offer is taken, then the others. -/
theorem State.takeOffers_cons (s : State) (r : Request) (more : List Request)
    (h : s.offers = r :: more) (ht : s.takesRequests = true) :
    s.takeOffers = State.takeOffers { s with
      offers := more, txnCounter := s.txnCounter + 1
      txns := s.txns ++ [{ id := s.txnCounter, req := r, state := .queued }] } := by
  unfold State.takeOffers
  rw [h, List.foldl_cons]
  have : s.takeOffer = { s with
      offers := more, txnCounter := s.txnCounter + 1
      txns := s.txns ++ [{ id := s.txnCounter, req := r, state := .queued }] } := by
    unfold State.takeOffer
    rw [h]
    exact if_pos ht
  rw [this]

/-- Taking offers changes the transactions, the offers that wait and the counter of names. -/
theorem State.takeOffers_frame (s : State) : s.takeOffers = { s with
    txns := s.takeOffers.txns, offers := s.takeOffers.offers, txnCounter := s.takeOffers.txnCounter } := by
  have one : ∀ v : State, v.takeOffer = { v with
      txns := v.takeOffer.txns, offers := v.takeOffer.offers, txnCounter := v.takeOffer.txnCounter } := by
    intro v
    unfold State.takeOffer
    split
    · rfl
    · split <;> rfl
  have aux : ∀ (l : List Request) (v : State),
      v = { s with txns := v.txns, offers := v.offers, txnCounter := v.txnCounter } →
      let w := l.foldl (fun s _ => s.takeOffer) v
      w = { s with txns := w.txns, offers := w.offers, txnCounter := w.txnCounter } := by
    intro l
    induction l with
    | nil => intro v h; exact h
    | cons x xs ih =>
      intro v h
      refine ih v.takeOffer ?_
      have h1 := one v
      generalize v.takeOffer = w at h1 ⊢
      rw [h1, h]
  exact aux _ s rfl

/-- A part that takes requests takes the offers in the order offered, as many as the list has room for. -/
theorem State.takeOffers_takes (offers : List Request) (s : State) (ho : s.offers = offers)
    (hr : s.rstLow = false) (hp : s.prstLow = false) (hl : s.txns.length ≤ 8)
    (hq : ∀ x ∈ s.txns, x.state = .queued) :
    s.takeOffers.txns.map (·.req) = s.txns.map (·.req) ++ offers.take (8 - s.txns.length)
      ∧ (∀ x ∈ s.takeOffers.txns, x.state = .queued)
      ∧ s.takeOffers.offers = offers.drop (8 - s.txns.length) := by
  induction offers generalizing s with
  | nil =>
    rw [s.takeOffers_of_none ho]
    simp only [List.take_nil, List.append_nil, List.drop_nil]
    exact ⟨trivial, hq, ho⟩
  | cons r more ih =>
    by_cases hf : s.txns.length < 8
    · have ht : s.takesRequests = true := by simp [State.takesRequests, hr, hp, hf]
      rw [s.takeOffers_cons r more ho ht]
      obtain ⟨n, hn⟩ : ∃ n, 8 - s.txns.length = n + 1 := ⟨7 - s.txns.length, by omega⟩
      have hn' : 8 - (s.txns.length + 1) = n := by omega
      obtain ⟨a, b, c⟩ := ih { s with
        offers := more, txnCounter := s.txnCounter + 1
        txns := s.txns ++ [{ id := s.txnCounter, req := r, state := .queued }] } rfl hr hp
        (by simp only [List.length_append, List.length_singleton]; omega) (by
          intro x hx
          simp only [List.mem_append, List.mem_singleton] at hx
          rcases hx with hx | rfl
          · exact hq x hx
          · rfl)
      simp only [List.length_append, List.length_singleton, List.map_append, List.map_cons, List.map_nil,
        hn', List.append_assoc, List.singleton_append] at a c
      rw [hn, List.take_succ_cons, List.drop_succ_cons]
      exact ⟨a, b, c⟩
    · have h8 : s.txns.length = 8 := by omega
      rw [s.takeOffers_of_full (by simp [State.takesRequests, h8])]
      simp only [h8, Nat.sub_self, List.take_zero, List.append_nil, List.drop_zero]
      exact ⟨trivial, hq, ho⟩

end Sys2Proof.Machine
end

