-- ==== Sys2Proof/Laws/Config.lean ====
section
/-! SUPPORT. What the part computes from its configuration alone: two parts that agree on it compute
the same. -/

namespace Sys2Proof.Machine

variable {s t : State}

theorem SameConfig.fieldsOf (h : SameConfig s t) (w : Fin 8) : t.fieldsOf w = s.fieldsOf w := by
  simp only [State.fieldsOf, h.windows, h.layouts]

theorem SameConfig.fieldDesc (h : SameConfig s t) (w : Fin 8) (i : Nat) : t.fieldDesc w i = s.fieldDesc w i := by
  simp only [State.fieldDesc, h.fieldsOf]

theorem SameConfig.descOf (h : SameConfig s t) (k : Key) : t.descOf k = s.descOf k := h.fieldDesc k.window k.field

theorem SameConfig.storeAddrOf (h : SameConfig s t) (k : Key) : t.storeAddrOf k = s.storeAddrOf k := by
  simp only [State.storeAddrOf, h.descOf, h.windows]

theorem SameConfig.decode (h : SameConfig s t) (a : Nat) : t.decode a = s.decode a := by
  simp only [State.decode, h.windows]

theorem SameConfig.overlaps (h : SameConfig s t) (a n : Nat) (k : Key) : t.overlaps a n k = s.overlaps a n k := by
  simp only [State.overlaps, h.descOf, h.storeAddrOf]

theorem SameConfig.layoutInUse (h : SameConfig s t) (l : Fin 16) : t.layoutInUse l = s.layoutInUse l := by
  simp only [State.layoutInUse, h.windows]

theorem SameConfig.freeDescriptors (h : SameConfig s t) : t.freeDescriptors = s.freeDescriptors := by
  simp only [State.freeDescriptors, h.layouts]

theorem SameConfig.convertForward (h : SameConfig s t) (c : WindowCfg) (f : FieldDesc) (image : List Byte) :
    t.convertForward c f image = s.convertForward c f image := by
  simp only [State.convertForward, h.tables, h.programs]

theorem SameConfig.convertReverse (h : SameConfig s t) (c : WindowCfg) (f : FieldDesc) (store : List Byte) :
    t.convertReverse c f store = s.convertReverse c f store := by
  simp only [State.convertReverse, h.tables, h.programs]

theorem SameConfig.readOutcomes (h : SameConfig s t) (w : Fin 8) (fields : List MemField) :
    t.readOutcomes w fields = s.readOutcomes w fields := by
  simp only [State.readOutcomes, h.convertReverse, h.fieldDesc, h.windows]

/-! ### Queues and keys -/

/-- The entry found for a key holds it. -/
theorem State.entryFor_slot (s : State) (k : Key) (g : Fin 8) (stage : Stage) (b : Gather)
    (h : s.entryFor k = some (g, stage, b)) : s.entries[g].slot = .held stage b ∧ b.key = k := by
  unfold State.entryFor at h
  obtain ⟨_, g', _, _, hx, _⟩ := List.findSome?_eq_some_iff.mp h
  split at hx
  · next st b' hb =>
    split at hx
    · next hk =>
      simp only [Option.some.injEq, Prod.mk.injEq] at hx
      obtain ⟨rfl, rfl, rfl⟩ := hx
      exact ⟨hb, hk⟩
    · exact absurd hx (by simp)
  · exact absurd hx (by simp)

/-- No entry holds a key that none is found for. -/
theorem State.entryFor_none (s : State) (k : Key) (h : s.entryFor k = none) (g : Fin 8) :
    s.entries[g].key? ≠ some k := by
  unfold State.entryFor at h
  rw [List.findSome?_eq_none_iff] at h
  have hg := h g (List.mem_finRange g)
  unfold Entry.key?
  split at hg
  · next st b hb =>
    rw [hb]
    split at hg
    · exact absurd hg (by simp)
    · next hk => simpa using hk
  · next hb => rw [hb]; simp

/-- With keys apart, the entry that holds a key is the one found for it. -/
theorem State.entryFor_of_slot (s : State) (ha : s.KeysApart) (g : Fin 8) (stage : Stage) (b : Gather)
    (h : s.entries[g].slot = .held stage b) : s.entryFor b.key = some (g, stage, b) := by
  have hk : s.entries[g].key? = some b.key := by unfold Entry.key?; rw [h]
  cases he : s.entryFor b.key with
  | none => exact absurd hk (s.entryFor_none b.key he g)
  | some x =>
    obtain ⟨g', st, b'⟩ := x
    obtain ⟨h1, h2⟩ := s.entryFor_slot b.key g' st b' he
    have hk' : s.entries[g'].key? = some b.key := by unfold Entry.key?; rw [h1, ← h2]
    have hg : g' = g := ha g' g b.key hk' hk
    subst hg
    rw [h] at h1
    injection h1 with h1 h3
    subst h1
    subst h3
    rfl

end Sys2Proof.Machine
end

