-- ==== Sys2Proof/Laws/Checks.lean ====
section
/-! SUPPORT. What two conditions of the part say, without the searches that decide them: the drain condition
and the commit checks. -/

namespace Sys2Proof.Machine

/-! ### The drain condition (R164) -/

/-- A transaction is not WAITING as a window READ or WRITE of a window. -/
theorem Txn.waitsOn_false (x : Txn) (w : Fin 8) :
    x.waitsOn w = false ↔ (∀ ctx, x.state = .waiting (.windowRead ctx) → ctx.window ≠ w)
      ∧ ∀ v count errorFlag, x.state = .waiting (.windowWrite v count errorFlag) → v ≠ w := by
  unfold Txn.waitsOn
  split <;> simp_all

/-- The three parts of the drain condition. -/
theorem State.drained_iff (s : State) (w : Fin 8) :
    s.drained w = true ↔
      (∀ (g : Fin 8) (stage : Stage) (b : Gather), s.entries[g].slot = .held stage b → b.key.window ≠ w)
      ∧ (∀ x ∈ s.txns, (∀ ctx, x.state = .waiting (.windowRead ctx) → ctx.window ≠ w)
        ∧ ∀ v count errorFlag, x.state = .waiting (.windowWrite v count errorFlag) → v ≠ w)
      ∧ (∀ id v record offset size fields,
        Job.read id v record offset size fields ∈ s.jobs ++ s.toPlace → v ≠ w) := by
  unfold State.drained
  rw [Bool.and_eq_true, Bool.and_eq_true, and_assoc, List.all_eq_true, List.all_eq_true, List.all_eq_true]
  refine and_congr ⟨fun h g stage b hb => ?_, fun h e he => ?_⟩
    (and_congr (forall₂_congr fun x _ => ?_) ⟨fun h id v r o n f hj => ?_, fun h j hj => ?_⟩)
  · have := h s.entries[g] (by simp)
    rw [Entry.key?, hb] at this
    simpa using this
  · obtain ⟨n, hn, rfl⟩ := List.mem_iff_getElem.mp he
    rw [Vector.getElem_toList]
    have hn8 : n < 8 := by simpa using hn
    unfold Entry.key?
    split
    · next k hk =>
      split at hk
      · next stage b hb =>
        have := h ⟨n, hn8⟩ stage b hb
        injection hk with hk
        rw [← hk]
        simpa using this
      · exact absurd hk (by simp)
    · rfl
  · rw [Bool.not_eq_true', x.waitsOn_false w]
  · have := h _ hj
    simpa [Job.readsWindow] using this
  · cases j with
    | flush => rfl
    | read id v r o n f => simpa [Job.readsWindow] using h id v r o n f hj

/-! ### The commit checks (R13) -/

/-- The lowest field index that fails a check. -/
theorem firstFailing_some (fields : List FieldDesc) (bad : FieldDesc → Nat → Bool) (j : Nat)
    (f : FieldDesc) (hf : fields[j]? = some f) (hb : bad f j = true)
    (hl : ∀ j' f', j' < j → fields[j']? = some f' → bad f' j' = false) :
    firstFailing fields bad = some j := by
  have hj : j < fields.length := (List.getElem?_eq_some_iff.mp hf).1
  unfold firstFailing
  have hfind : fields.zipIdx.find? (fun x => bad x.1 x.2) = some (f, j) := by
    rw [List.find?_eq_some_iff_getElem]
    refine ⟨hb, j, by simpa using hj, ?_, fun j' hj' => ?_⟩
    · simp only [List.getElem_zipIdx, Nat.zero_add, Prod.mk.injEq, and_true]
      exact (List.getElem?_eq_some_iff.mp hf).2
    · simp only [List.getElem_zipIdx, Nat.zero_add]
      rw [hl j' _ hj' (List.getElem?_eq_getElem (Nat.lt_trans hj' hj))]
      rfl
  rw [hfind]
  rfl

/-- No field fails a check. -/
theorem firstFailing_none (fields : List FieldDesc) (bad : FieldDesc → Nat → Bool)
    (h : ∀ j f, fields[j]? = some f → bad f j = false) : firstFailing fields bad = none := by
  unfold firstFailing
  rw [Option.map_eq_none_iff, List.find?_eq_none]
  rintro ⟨f, j⟩ hx
  have := h j f (by simpa [List.mem_zipIdx_iff_getElem?] using hx)
  simp [this]

theorem CodeTable.isLoaded_false (t : CodeTable) : t.isLoaded = false ↔ t = .empty := by
  cases t <;> simp [CodeTable.isLoaded]

theorem Program.isLoaded_false (e : Program) : e.isLoaded = false ↔ e = .empty := by
  cases e <;> simp [Program.isLoaded]

end Sys2Proof.Machine
end

