-- ==== Sys2Proof/Laws/Completions.lean ====
section
/-! SUPPORT. A completion taken apart: what it is matched to, what an entry keeps of it, and what freeing an
entry does. -/

namespace Sys2Proof

/-- ERROR is the only answer that is not OKAY (R126). -/
theorem Completion.answer_error (c : Completion) :
    (c.answer == Machine.Answer.error) = decide (c = .error) := by
  cases c <;> rfl

end Sys2Proof

namespace Sys2Proof.Machine

/-- A completion that the oldest outstanding operation accepts goes to its source, and fence handling is
told. -/
theorem State.complete_matched (s : State) (i : Issued) (rest : List Issued) (c : Completion)
    (hr : s.rstLow = false) (ho : s.outstanding = i :: rest) (ha : i.op.accepts c = true) :
    s.complete c = (({ s with outstanding := rest } : State).route i.op c).fenceTold i := by
  unfold State.complete
  rw [if_neg (by simp [hr]), ho]
  exact if_pos ha

/-- A completion that finds nothing outstanding is discarded. -/
theorem State.complete_none (s : State) (c : Completion) (ho : s.outstanding = []) :
    s.complete c = s := by
  unfold State.complete
  rw [ho]
  split <;> rfl

theorem State.fenceTold_mread (s : State) (i : Issued) (h : i.op.kind = .mread) : s.fenceTold i = s := by
  unfold State.fenceTold
  rw [h]

theorem State.fenceTold_mwrite (s : State) (i : Issued) (h : i.op.kind = .mwrite) :
    s.fenceTold i = { s with txns := s.txns.map (Txn.fenceWritten i.id) } := by
  unfold State.fenceTold
  rw [h]

/-- What an entry has after one more completion. -/
def Gather.keep (b : Gather) (c : Completion) : Gather :=
  { b with opsLeft := b.opsLeft - 1, got := b.got ++ c.bytes, failed := b.failed || decide (c = .error) }

/-- A completion before the last of its unit is kept. -/
theorem State.entryCompletion_more (s : State) (g : Fin 8) (stage : Stage) (b : Gather) (c : Completion)
    (hb : s.entries[g].slot = .held stage b) (hl : 1 < b.opsLeft) :
    s.entryCompletion g c = s.setSlot g (.held stage (b.keep c)) := by
  unfold State.entryCompletion
  rw [hb]
  dsimp only
  rw [if_pos hl, c.answer_error]
  rfl

/-- The last completion of a merge read. -/
theorem State.entryCompletion_merged (s : State) (g : Fin 8) (b : Gather) (c : Completion)
    (hb : s.entries[g].slot = .held .merging b) (hl : b.opsLeft ≤ 1) :
    s.entryCompletion g c = s.mergeDone g (b.keep c) := by
  unfold State.entryCompletion
  rw [hb]
  dsimp only
  rw [if_neg (by omega), c.answer_error]
  rfl

/-- The last completion of a field write. -/
theorem State.entryCompletion_written (s : State) (g : Fin 8) (b : Gather) (c : Completion)
    (hb : s.entries[g].slot = .held .writing b) (hl : b.opsLeft ≤ 1) :
    s.entryCompletion g c = s.writeDone g (b.keep c) := by
  unfold State.entryCompletion
  rw [hb]
  dsimp only
  rw [if_neg (by omega), c.answer_error]
  rfl

/-- An entry that is not FREE is freed: its fault marker, the open and the flush order, the confirm list
and the FENCEs, and the offer of a BLOCKED transaction. -/
theorem State.freeEntry_held (s : State) (g : Fin 8) (outcome : Answer) (stage : Stage) (b : Gather)
    (hb : s.entries[g].slot = .held stage b) :
    s.freeEntry g outcome = { s with
      entries := s.entries.set g
        { openOrder := s.entries[g].openOrder, fault := outcome == .error, slot := .free }
      openList := s.openList.filter fun e => e != g
      flushOrder := s.flushOrder.filter fun e => e != g
      txns := s.txns.map fun t =>
        (if b.confirm.contains t.id then t.confirm outcome else t).fenceFreed g
      reoffer := s.reoffer || match s.disp with
        | .blocked _ => true
        | .idle | .holding _ | .issuing _ _ => false } := by
  unfold State.freeEntry
  rw [hb]
  unfold State.noteFreed
  cases s.disp <;> simp

/-! ### Outcomes at the transactions (R82, R119) -/

/-- An outcome at a window WRITE that waits for several entries. -/
theorem Txn.confirm_more (x : Txn) (outcome : Answer) (w : Fin 8) (count : Nat) (errorFlag : Bool)
    (h : x.state = .waiting (.windowWrite w count errorFlag)) (hc : 1 < count) :
    x.confirm outcome
      = { x with state := .waiting (.windowWrite w (count - 1) (errorFlag || outcome == .error)) } := by
  unfold Txn.confirm
  rw [h]
  exact if_neg (by omega)

/-- The last outcome of a window WRITE answers it. -/
theorem Txn.confirm_last (x : Txn) (outcome : Answer) (w : Fin 8) (count : Nat) (errorFlag : Bool)
    (h : x.state = .waiting (.windowWrite w count errorFlag)) (hc : count ≤ 1) :
    x.confirm outcome
      = { x with state := .ready (if errorFlag || outcome == .error then .error else .okay) [] } := by
  unfold Txn.confirm
  rw [h]
  exact if_pos hc

theorem Txn.confirm_other (x : Txn) (outcome : Answer)
    (h : ∀ w count errorFlag, x.state ≠ .waiting (.windowWrite w count errorFlag)) :
    x.confirm outcome = x := by
  unfold Txn.confirm
  split
  · next heq => exact absurd heq (h _ _ _)
  all_goals rfl

/-- A FENCE's record. -/
theorem fenceState_eq (entries : List (Fin 8)) (lastWrite : Option Nat) :
    fenceState entries lastWrite
      = if entries = [] ∧ lastWrite = none then .ready .okay [] else .waiting (.fence entries lastWrite) := by
  unfold fenceState
  congr 1
  simp

/-- A FENCE loses a freed entry and a completed MWRITE from its record. -/
theorem Txn.fence_waiting (x : Txn) (g : Fin 8) (op : Nat) (entries : List (Fin 8)) (last : Option Nat)
    (h : x.state = .waiting (.fence entries last)) :
    x.fenceFreed g = { x with state := fenceState (entries.filter fun e => e != g) last }
      ∧ x.fenceWritten op = { x with state := fenceState entries (if last = some op then none else last) } := by
  unfold Txn.fenceFreed Txn.fenceWritten
  rw [h]
  simp

theorem Txn.fence_other (x : Txn) (g : Fin 8) (op : Nat)
    (h : ∀ entries last, x.state ≠ .waiting (.fence entries last)) :
    x.fenceFreed g = x ∧ x.fenceWritten op = x := by
  unfold Txn.fenceFreed Txn.fenceWritten
  constructor
  all_goals
    split
    · next heq => exact absurd heq (h _ _)
    all_goals rfl

end Sys2Proof.Machine
end

