-- ==== Sys2Proof/Laws/Flushes.lean ====
section
/-! SUPPORT. What the flushes of one event do together: ranks, jobs and merge reads in their order, what
every entry keeps. -/

namespace Sys2Proof.Machine

/-! ### Flushes of one event -/

/-- A GATHERING entry with what it gathers, as a flush that starts at it finds it. -/
def State.gatheringAt (s : State) (g : Fin 8) : Option (Fin 8 × Gather) :=
  match s.entries[g].slot with
  | .held .gathering b => some (g, b)
  | .held .merging _ | .held .converting _ | .held .writing _ | .free => none

/-- The flush of this goes straight to CONVERTING (R74). -/
def Gather.direct (b : Gather) : Bool := b.bytes.all (·.isSome) || b.base.isSome

/-- The merge read of an entry. -/
def State.mergeOps (s : State) (g : Fin 8) (b : Gather) : List MemOp :=
  splitOps .mread (s.storeAddrOf b.key) (s.descOf b.key).storeLen [] fun _ => .entry g .merging

/-- The flushes of one event take consecutive ranks, and their jobs and merge reads stand in the order in
which they start. -/
theorem State.startFlushes_spec (gs : List (Fin 8)) (s : State) (hn : gs.Nodup)
    (hg : ∀ g ∈ gs, s.entries[g].isGathering = true) :
    let u := s.startFlushes gs
    let started := gs.filterMap s.gatheringAt
    u = { s with
        rankCounter := s.rankCounter + BitVec.ofNat 32 gs.length, flushOrder := s.flushOrder ++ gs
        reoffer := s.reoffer || (!gs.isEmpty && decide (s.disp = .blocked .gatherBuffer))
        toPlace := s.toPlace ++ (started.filter fun x => x.2.direct).map fun x =>
          .flush x.1 s.entries[x.1].openOrder x.2.key x.2.bytes x.2.base none
        units := s.units ++ (started.filter fun x => !x.2.direct).map fun x =>
          { owner := .entry x.1, ops := s.mergeOps x.1 x.2 }
        entries := u.entries }
      ∧ (∀ (j : Nat) (g : Fin 8) (b : Gather), gs[j]? = some g → s.entries[g].slot = .held .gathering b →
          let ranked : Gather := { b with rank := some (s.rankCounter + BitVec.ofNat 32 j) }
          u.entries[g] = { s.entries[g] with
            slot := if b.direct then .held .converting ranked
              else .held .merging
                { ranked with opsLeft := (s.mergeOps g b).length, got := [], failed := false } })
      ∧ (∀ g : Fin 8, g ∉ gs → u.entries[g] = s.entries[g]) := by
  induction gs generalizing s with
  | nil =>
    refine ⟨?_, ?_, fun _ _ => rfl⟩
    · simp [State.startFlushes]
    · intro j g b h; simp at h
  | cons g gs ih =>
    obtain ⟨hgn, hn'⟩ := List.nodup_cons.mp hn
    have hgg := hg g (by simp)
    obtain ⟨b, hb⟩ : ∃ b, s.entries[g].slot = .held .gathering b := by
      unfold Entry.isGathering at hgg
      split at hgg
      · next b hb => exact ⟨b, hb⟩
      all_goals simp at hgg
    have hsame := s.startFlush_same g
    have hother : ∀ h : Fin 8, h ≠ g → (s.startFlush g).entries[h] = s.entries[h] :=
      fun h hne => s.startFlush_entries_ne g h (Ne.symm hne)
    have hne : ∀ h ∈ gs, h ≠ g := fun h hh e => hgn (e ▸ hh)
    obtain ⟨i1, i2, i3⟩ := ih (s.startFlush g) hn' (fun h hh => by
      rw [hother h (hne h hh)]; exact hg h (by simp [hh]))
    have hstart : gs.filterMap (s.startFlush g).gatheringAt = gs.filterMap s.gatheringAt := by
      apply List.filterMap_congr
      intro h hh
      unfold State.gatheringAt
      rw [hother h (hne h hh)]
    have hops : ∀ x : Fin 8 × Gather, (s.startFlush g).mergeOps x.1 x.2 = s.mergeOps x.1 x.2 := by
      intro x
      unfold State.mergeOps
      rw [hsame.storeAddrOf, hsame.descOf]
    have hcons : s.startFlushes (g :: gs) = (s.startFlush g).startFlushes gs := rfl
    have hfirst : (g :: gs).filterMap s.gatheringAt = (g, b) :: gs.filterMap s.gatheringAt := by
      rw [List.filterMap_cons]
      unfold State.gatheringAt
      rw [hb]
    have hjob : ((gs.filterMap s.gatheringAt).filter fun x => x.2.direct).map (fun x =>
        (Job.flush x.1 (s.startFlush g).entries[x.1].openOrder x.2.key x.2.bytes x.2.base none))
        = ((gs.filterMap s.gatheringAt).filter fun x => x.2.direct).map (fun x =>
        (Job.flush x.1 s.entries[x.1].openOrder x.2.key x.2.bytes x.2.base none)) := by
      apply List.map_congr_left
      intro x _
      rw [(s.startFlush_kept g x.1).2.1]
    have hunit : ((gs.filterMap s.gatheringAt).filter fun x => !x.2.direct).map (fun x =>
        ({ owner := .entry x.1, ops := (s.startFlush g).mergeOps x.1 x.2 } : MemUnit))
        = ((gs.filterMap s.gatheringAt).filter fun x => !x.2.direct).map (fun x =>
        ({ owner := .entry x.1, ops := s.mergeOps x.1 x.2 } : MemUnit)) := by
      apply List.map_congr_left
      intro x _
      rw [hops]
    dsimp only at i1 i2 i3 ⊢
    rw [hstart, hjob, hunit] at i1
    rw [hcons, hfirst]
    have hlen : BitVec.ofNat 32 (gs.length + 1) = 1 + BitVec.ofNat 32 gs.length := by
      rw [Nat.add_comm, BitVec.ofNat_add]; rfl
    have hsucc : ∀ j, BitVec.ofNat 32 (j + 1) = 1 + BitVec.ofNat 32 j := by
      intro j; rw [Nat.add_comm, BitVec.ofNat_add]; rfl
    have hidx : ∀ (j : Nat) (h : Fin 8) (b' : Gather), (g :: gs)[j]? = some h →
        s.entries[h].slot = .held .gathering b' → (h = g ∧ j = 0 ∧ b' = b) ∨ (h ≠ g ∧ ∃ j', j = j' + 1 ∧ gs[j']? = some h) := by
      intro j h b' hj hs
      cases j with
      | zero =>
        simp at hj
        subst hj
        rw [hb] at hs
        injection hs with _ hs
        exact Or.inl ⟨rfl, rfl, hs.symm⟩
      | succ j =>
        rw [List.getElem?_cons_succ] at hj
        exact Or.inr ⟨hne h (List.mem_of_getElem? hj), j, rfl, hj⟩
    cases hd : b.direct with
    | true =>
      have he := s.startFlush_convert g b hb hd
      have hw : (s.startFlush g).entries[g] = { s.entries[g] with slot := .held .converting { b with rank := some s.rankCounter } } := by
        rw [he]; exact setAt_self _ _ _
      refine ⟨?_, ?_, ?_⟩
      · rw [i1]
        apply State.ext <;> first | rfl | skip
        all_goals simp only [he, hd, List.filter_cons, List.map_cons, List.length_cons, hlen, BitVec.add_assoc, List.append_assoc, List.singleton_append, Bool.or_assoc, Bool.not_true, if_true, Bool.false_eq_true, if_false, List.isEmpty_cons, Bool.not_false, Bool.true_and]
        cases decide (s.disp = .blocked .gatherBuffer) <;> simp
      · intro j h b' hj hs
        rcases hidx j h b' hj hs with ⟨rfl, rfl, rfl⟩ | ⟨hh, j', rfl, hj'⟩
        · rw [i3 _ hgn, hw, hd]
          simp
        · have := i2 j' h b' hj' (by rw [hother h hh]; exact hs)
          rw [this, hother h hh, hops (h, b'), he]
          simp only [hsucc, BitVec.add_assoc]
      · intro h hh
        simp only [List.mem_cons, not_or] at hh
        rw [i3 h hh.2, hother h hh.1]
    | false =>
      have he := s.startFlush_merge g b hb hd
      dsimp only at he
      have hw : (s.startFlush g).entries[g] = { s.entries[g] with slot := (.held .merging { b with rank := some s.rankCounter, opsLeft := (s.mergeOps g b).length, got := [], failed := false }) } := by
        rw [he]; exact setAt_self _ _ _
      refine ⟨?_, ?_, ?_⟩
      · rw [i1]
        apply State.ext <;> first | rfl | skip
        all_goals simp only [he, hd, List.filter_cons, List.map_cons, List.length_cons, hlen, BitVec.add_assoc, List.append_assoc, List.singleton_append, Bool.or_assoc, if_true, Bool.false_eq_true, if_false, List.isEmpty_cons, Bool.not_false, Bool.true_and]
        · cases decide (s.disp = .blocked .gatherBuffer) <;> simp
        · rfl
      · intro j h b' hj hs
        rcases hidx j h b' hj hs with ⟨rfl, rfl, rfl⟩ | ⟨hh, j', rfl, hj'⟩
        · rw [i3 _ hgn, hw, hd]
          simp
        · have := i2 j' h b' hj' (by rw [hother h hh]; exact hs)
          rw [this, hother h hh, hops (h, b'), he]
          simp only [hsucc, BitVec.add_assoc]
      · intro h hh
        simp only [List.mem_cons, not_or] at hh
        rw [i3 h hh.2, hother h hh.1]

/-! ### What every entry keeps -/

/-- A flush start leaves FREE entries, and keeps of every other its opening, fault marker, key, bytes, base
image, age and confirm list, and the state of one that is not GATHERING. -/
theorem State.startFlush_held (s : State) (g h : Fin 8) (stage : Stage) (b : Gather)
    (hb : s.entries[h].slot = .held stage b) :
    ∃ stage' b', (s.startFlush g).entries[h]
        = { openOrder := s.entries[h].openOrder, fault := s.entries[h].fault, slot := .held stage' b' }
      ∧ b'.key = b.key ∧ b'.bytes = b.bytes ∧ b'.base = b.base ∧ b'.age = b.age
      ∧ b'.confirm = b.confirm ∧ (stage ≠ .gathering → stage' = stage) := by
  have hself : s.entries[h] = { openOrder := s.entries[h].openOrder, fault := s.entries[h].fault
                                slot := .held stage b } := by rw [← hb]
  by_cases hne : g = h
  · subst hne
    cases stage with
    | gathering =>
      cases hd : (b.whole || b.base.isSome)
      · rw [s.startFlush_merge g b hb hd]
        exact ⟨_, _, setAt_self _ _ _, rfl, rfl, rfl, rfl, rfl, fun hn => absurd rfl hn⟩
      · rw [s.startFlush_convert g b hb hd]
        exact ⟨_, _, setAt_self _ _ _, rfl, rfl, rfl, rfl, rfl, fun hn => absurd rfl hn⟩
    | merging | converting | writing =>
      rw [s.startFlush_of_not_gathering g (by rw [Entry.isGathering, hb])]
      exact ⟨_, b, hself, rfl, rfl, rfl, rfl, rfl, fun _ => rfl⟩
  · rw [s.startFlush_entries_ne g h hne]
    exact ⟨stage, b, hself, rfl, rfl, rfl, rfl, rfl, fun _ => rfl⟩

theorem State.startFlush_free (s : State) (g h : Fin 8) (hb : s.entries[h].slot = .free) :
    (s.startFlush g).entries[h] = s.entries[h] := by
  by_cases hne : g = h
  · subst hne
    rw [s.startFlush_of_not_gathering g (by rw [Entry.isGathering, hb])]
  · exact s.startFlush_entries_ne g h hne

theorem State.startFlushes_held (gs : List (Fin 8)) (s : State) (h : Fin 8) (stage : Stage) (b : Gather)
    (hb : s.entries[h].slot = .held stage b) :
    ∃ stage' b', (s.startFlushes gs).entries[h]
        = { openOrder := s.entries[h].openOrder, fault := s.entries[h].fault, slot := .held stage' b' }
      ∧ b'.key = b.key ∧ b'.bytes = b.bytes ∧ b'.base = b.base ∧ b'.age = b.age
      ∧ b'.confirm = b.confirm ∧ (stage ≠ .gathering → stage' = stage) := by
  induction gs generalizing s stage b with
  | nil =>
    refine ⟨stage, b, ?_, rfl, rfl, rfl, rfl, rfl, fun _ => rfl⟩
    show s.entries[h] = _
    rw [← hb]
  | cons g gs ih =>
    obtain ⟨st, b1, he, k1, k2, k3, k4, k5, k6⟩ := s.startFlush_held g h stage b hb
    obtain ⟨st', b2, he', l1, l2, l3, l4, l5, l6⟩ := ih (s.startFlush g) st b1 (by rw [he])
    refine ⟨st', b2, ?_, l1.trans k1, l2.trans k2, l3.trans k3, l4.trans k4, l5.trans k5, fun hn => ?_⟩
    · rw [he] at he'
      exact he'
    · have hst := k6 hn
      exact (l6 (by rw [hst]; exact hn)).trans hst

theorem State.startFlushes_free (gs : List (Fin 8)) (s : State) (h : Fin 8)
    (hb : s.entries[h].slot = .free) : (s.startFlushes gs).entries[h] = s.entries[h] := by
  induction gs generalizing s with
  | nil => rfl
  | cons g gs ih =>
    have h1 := s.startFlush_free g h hb
    exact (ih (s.startFlush g) (by rw [h1]; exact hb)).trans h1

/-! ### What is appended -/

theorem State.startFlush_appends (s : State) (g : Fin 8) :
    s.units <+: (s.startFlush g).units ∧ s.toPlace <+: (s.startFlush g).toPlace
      ∧ s.flushOrder <+: (s.startFlush g).flushOrder := by
  by_cases hg : s.entries[g].isGathering = true
  · unfold Entry.isGathering at hg
    split at hg
    · next b hb =>
      cases hd : (b.whole || b.base.isSome)
      · rw [s.startFlush_merge g b hb hd]
        exact ⟨List.prefix_append _ _, List.prefix_rfl, List.prefix_append _ _⟩
      · rw [s.startFlush_convert g b hb hd]
        exact ⟨List.prefix_rfl, List.prefix_append _ _, List.prefix_append _ _⟩
    all_goals simp at hg
  · rw [s.startFlush_of_not_gathering g (by simpa using hg)]
    exact ⟨List.prefix_rfl, List.prefix_rfl, List.prefix_rfl⟩

/-- Starting flushes appends units, jobs that wait, and ranked entries, and removes none. -/
theorem State.startFlushes_appends (gs : List (Fin 8)) (s : State) :
    s.units <+: (s.startFlushes gs).units ∧ s.toPlace <+: (s.startFlushes gs).toPlace
      ∧ s.flushOrder <+: (s.startFlushes gs).flushOrder := by
  induction gs generalizing s with
  | nil => exact ⟨List.prefix_rfl, List.prefix_rfl, List.prefix_rfl⟩
  | cons g gs ih =>
    obtain ⟨a, b, c⟩ := s.startFlush_appends g
    obtain ⟨a', b', c'⟩ := ih (s.startFlush g)
    exact ⟨a.trans a', b.trans b', c.trans c'⟩

/-- The GATHERING entries that a test picks are GATHERING, each named once when the open order names
each entry once. -/
theorem State.gatheringWhere_gathering (s : State) (test : Key → Bool) (g : Fin 8)
    (h : g ∈ s.gatheringWhere test) : s.entries[g].isGathering = true := by
  unfold State.gatheringWhere at h
  rw [List.mem_filter] at h
  have h2 := h.2
  unfold Entry.isGathering
  split at h2
  · next b hb => rw [hb]
  all_goals simp at h2

theorem State.gatheringWhere_nodup (s : State) (test : Key → Bool) (h : s.openList.Nodup) :
    (s.gatheringWhere test).Nodup := h.filter _

end Sys2Proof.Machine
end

