-- ==== Sys2Proof/Laws/Formats.lean ====
section
/-! SUPPORT. Formatting and parsing of edit programs position by position: the positions of a step list,
what each position shows, what each position accepts; the weights of bytes, digits and nibbles. -/

namespace Sys2Proof.Machine

/-! ### Positions (R44, R48) -/

/-- A digit position: DIG or REQ (R44). -/
def TextPos.isDigit : TextPos → Bool
  | .dig _ _ | .req _ _ => true
  | .mark _ _ _ | .fixed _ _ _ | .minus _ _ _ | .plus _ _ _ => false

/-- The positions a step produces under the fill and the float character in force (R44). -/
def EditStep.positions (s : EditStep) (fill : Byte) (float : Option Byte) : List TextPos :=
  match s.op with
  | .dig => List.replicate s.operand.toNat (.dig fill float)
  | .req => List.replicate s.operand.toNat (.req fill float)
  | .mark => [.mark s.operand fill float]
  | .fixed => [.fixed s.operand fill float]
  | .minus => [.minus s.operand fill float]
  | .plus => [.plus s.operand fill float]
  | .fill | .float => []

/-- The operand of the last step of an opcode, if there is one (R48). -/
def lastOperand (op : StepOp) (steps : List EditStep) : Option Byte :=
  (steps.reverse.find? fun s => s.op == op).map (·.operand)

theorem lastOperand_append (op : StepOp) (steps : List EditStep) (s : EditStep) :
    lastOperand op (steps ++ [s]) = if s.op = op then some s.operand else lastOperand op steps := by
  unfold lastOperand
  rw [List.reverse_append, List.reverse_singleton, List.singleton_append, List.find?_cons]
  by_cases h : s.op = op
  · simp [h]
  · simp [h, beq_eq_false_iff_ne.mpr h]

theorem textPositions_cons (s : EditStep) (rest : List EditStep) (fill : Byte) (float : Option Byte) :
    textPositions (s :: rest) fill float = s.positions fill float
      ++ textPositions rest (if s.op = .fill then s.operand else fill)
        (if s.op = .float then some s.operand else float) := by
  unfold EditStep.positions
  rw [textPositions]
  cases s.op <;> simp

theorem textPositions_after (earlier rest : List EditStep) :
    textPositions rest ((lastOperand .fill earlier).getD 0x20) (lastOperand .float earlier)
      = (rest.zipIdx earlier.length).flatMap fun x =>
          let before := (earlier ++ rest).take x.2
          x.1.positions ((lastOperand .fill before).getD 0x20) (lastOperand .float before) := by
  induction rest generalizing earlier with
  | nil => rfl
  | cons s rest ih =>
    have h := ih (earlier ++ [s])
    rw [lastOperand_append, lastOperand_append, List.length_append, List.length_singleton,
      List.append_assoc, List.singleton_append] at h
    rw [textPositions_cons, List.zipIdx_cons, List.flatMap_cons, ← h]
    dsimp only
    rw [List.take_left' rfl]
    congr 2
    split <;> rfl

/-- The positions of a program: each step's, under the last FILL and the last FLOAT before it. -/
theorem positionsOf_eq (steps : List EditStep) :
    positionsOf steps = steps.zipIdx.flatMap fun x =>
      x.1.positions ((lastOperand .fill (steps.take x.2)).getD 0x20)
        (lastOperand .float (steps.take x.2)) := by
  have h := textPositions_after [] steps
  simp only [List.length_nil, List.nil_append] at h
  exact h

theorem EditStep.positions_counts (s : EditStep) (fill : Byte) (float : Option Byte) :
    ((s.positions fill float).filter TextPos.isDigit).length
        = (if s.op = .dig ∨ s.op = .req then s.operand.toNat else 0)
      ∧ (s.positions fill float).length = (if s.op = .dig ∨ s.op = .req then s.operand.toNat else 0)
        + if s.op = .mark ∨ s.op = .fixed ∨ s.op = .minus ∨ s.op = .plus then 1 else 0 := by
  unfold EditStep.positions
  cases s.op <;> simp [TextPos.isDigit, List.filter_replicate]

/-- The digit count is the number of digit positions, the output length that of all positions. -/
theorem textPositions_counts (steps : List EditStep) (fill : Byte) (float : Option Byte) :
    ((textPositions steps fill float).filter TextPos.isDigit).length = digitCount steps
      ∧ (textPositions steps fill float).length = outputLength steps := by
  induction steps generalizing fill float with
  | nil => exact ⟨rfl, rfl⟩
  | cons s rest ih =>
    obtain ⟨h1, h2⟩ := s.positions_counts fill float
    obtain ⟨i1, i2⟩ := ih (if s.op = .fill then s.operand else fill)
      (if s.op = .float then some s.operand else float)
    rw [textPositions_cons, List.filter_append, List.length_append, List.length_append, h1, i1, h2, i2]
    unfold outputLength digitCount
    rw [List.map_cons, List.sum_cons, List.filter_cons]
    refine ⟨rfl, ?_⟩
    by_cases h : s.op = .mark ∨ s.op = .fixed ∨ s.op = .minus ∨ s.op = .plus
    · simp only [h, if_true, decide_true, List.length_cons]
      omega
    · simp only [h, if_false, decide_false, Bool.false_eq_true]
      omega

/-! ### Formatting (R50, R51) -/

/-- The digit of the next digit position after the first j positions. -/
def digitAt (ps : List TextPos) (ds : List Nat) (j : Nat) : Nat :=
  ds.getD ((ps.take j).filter TextPos.isDigit).length 0

/-- Position j turns significance on if it is off: a REQ position, or a DIG position with a nonzero digit
(R50). -/
def turnsAt (ps : List TextPos) (ds : List Nat) (j : Nat) : Bool :=
  match ps[j]? with
  | some (.dig _ _) => digitAt ps ds j != 0
  | some (.req _ _) => true
  | _ => false

/-- Significance at position q. -/
def onAt (on : Bool) (ps : List TextPos) (ds : List Nat) (q : Nat) : Bool :=
  on || (List.range (q + 1)).any (turnsAt ps ds)

/-- What position q shows before the float character is placed (R50). -/
def shownAt (negative on : Bool) (ps : List TextPos) (ds : List Nat) (q : Nat) (pos : TextPos) : Byte :=
  match pos with
  | .dig fill _ => if onAt on ps ds q then toByte (0x30 + digitAt ps ds q) else fill
  | .req _ _ => toByte (0x30 + digitAt ps ds q)
  | .mark c fill _ => if onAt on ps ds q then c else fill
  | .fixed c _ _ => c
  | .minus c fill _ => if negative then c else fill
  | .plus c fill _ => if negative then fill else c

/-- A suppressed fill (R50). -/
def suppressedAt (on : Bool) (ps : List TextPos) (ds : List Nat) (q : Nat) : Bool :=
  !onAt on ps ds q && match ps[q]? with
    | some (.dig _ _) | some (.mark _ _ _) => true
    | _ => false

/-- The float character that takes the place of a suppressed fill (R51). -/
def floatAt (on : Bool) (ps : List TextPos) (ds : List Nat) (q : Nat) : Option Byte :=
  if suppressedAt on ps ds q && turnsAt ps ds (q + 1) then ps[q + 1]?.bind TextPos.float else none

theorem digitAt_cons (pos : TextPos) (ps : List TextPos) (ds : List Nat) (j : Nat) :
    digitAt (pos :: ps) ds (j + 1) = digitAt ps (if pos.isDigit then ds.tail else ds) j := by
  unfold digitAt
  rw [List.take_succ_cons, List.filter_cons]
  split <;> simp [List.getD_eq_getElem?_getD, List.getElem?_tail]

theorem turnsAt_cons (pos : TextPos) (ps : List TextPos) (ds : List Nat) (j : Nat) :
    turnsAt (pos :: ps) ds (j + 1) = turnsAt ps (if pos.isDigit then ds.tail else ds) j := by
  unfold turnsAt
  rw [digitAt_cons, List.getElem?_cons_succ]

theorem onAt_zero (on : Bool) (ps : List TextPos) (ds : List Nat) :
    onAt on ps ds 0 = (on || turnsAt ps ds 0) := by
  simp [onAt]

theorem onAt_cons (on : Bool) (pos : TextPos) (ps : List TextPos) (ds : List Nat) (q : Nat) :
    onAt on (pos :: ps) ds (q + 1)
      = onAt (on || turnsAt (pos :: ps) ds 0) ps (if pos.isDigit then ds.tail else ds) q := by
  unfold onAt
  rw [List.range_succ_eq_map, List.any_cons, List.any_map, Bool.or_assoc]
  congr 2
  exact congrArg _ (funext fun j => turnsAt_cons pos ps ds j)

theorem shownAt_cons (negative on : Bool) (pos : TextPos) (ps : List TextPos) (ds : List Nat) (q : Nat)
    (at_ : TextPos) :
    shownAt negative on (pos :: ps) ds (q + 1) at_
      = shownAt negative (on || turnsAt (pos :: ps) ds 0) ps (if pos.isDigit then ds.tail else ds) q
        at_ := by
  unfold shownAt
  rw [digitAt_cons, onAt_cons]

theorem floatAt_cons (on : Bool) (pos : TextPos) (ps : List TextPos) (ds : List Nat) (q : Nat) :
    floatAt on (pos :: ps) ds (q + 1)
      = floatAt (on || turnsAt (pos :: ps) ds 0) ps (if pos.isDigit then ds.tail else ds) q := by
  unfold floatAt suppressedAt
  rw [turnsAt_cons, onAt_cons, List.getElem?_cons_succ, List.getElem?_cons_succ]

/-- The text of the positions from some place on, with the digits left and whether significance is on. -/
def textFrom (negative : Bool) : List TextPos → List Nat → Bool → List Byte
  | [], _, _ => []
  | pos :: rest, ds, on =>
    (floatAt on (pos :: rest) ds 0).getD (shownAt negative on (pos :: rest) ds 0 pos)
      :: textFrom negative rest (if pos.isDigit then ds.tail else ds) (on || turnsAt (pos :: rest) ds 0)

theorem textFrom_getElem? (negative : Bool) (ps : List TextPos) (ds : List Nat) (on : Bool) (q : Nat) :
    (textFrom negative ps ds on)[q]?
      = ps[q]?.map fun pos => (floatAt on ps ds q).getD (shownAt negative on ps ds q pos) := by
  induction ps generalizing ds on q with
  | nil => rfl
  | cons pos rest ih =>
    cases q with
    | zero => rfl
    | succ q =>
      rw [textFrom, List.getElem?_cons_succ, List.getElem?_cons_succ, ih]
      simp only [shownAt_cons, floatAt_cons]

/-- The text so far, its last suppressed fill replaced when significance turns on next. -/
def settled (on : Bool) (rest : List TextPos) (ds : List Nat) (sofar : TextSoFar) : TextSoFar :=
  if !on && turnsAt rest ds 0 then placeFloat (rest[0]?.bind TextPos.float) sofar else sofar

theorem settled_cons (on : Bool) (rest : List TextPos) (ds : List Nat) (b : Byte) (suppressed : Bool)
    (sofar : TextSoFar) :
    (settled on rest ds ((b, suppressed) :: sofar)).map (·.1)
      = ((if suppressed && !on && turnsAt rest ds 0 then rest[0]?.bind TextPos.float else none).getD b)
        :: sofar.map (·.1) := by
  unfold settled placeFloat
  cases on <;> cases suppressed <;> cases turnsAt rest ds 0 <;> simp
  cases rest[0]?.bind TextPos.float <;> rfl

theorem formatWalk_cons (negative : Bool) (pos : TextPos) (rest : List TextPos) (ds : List Nat)
    (on : Bool) (sofar : TextSoFar) :
    formatWalk negative (pos :: rest) ds on sofar
      = formatWalk negative rest (if pos.isDigit then ds.tail else ds) (on || turnsAt (pos :: rest) ds 0)
        ((shownAt negative on (pos :: rest) ds 0 pos, suppressedAt on (pos :: rest) ds 0)
          :: settled on (pos :: rest) ds sofar) := by
  have hd : digitAt (pos :: rest) ds 0 = ds.headD 0 := by
    unfold digitAt
    cases ds <;> rfl
  unfold suppressedAt shownAt settled
  rw [onAt_zero, hd]
  unfold turnsAt
  cases pos <;> simp only [formatWalk, List.getElem?_cons_zero, TextPos.isDigit, hd, digitCode] <;>
    cases on <;> simp [TextPos.float]
  by_cases h : ds.head?.getD 0 = 0
  · simp [h]
  · simp [h, bne_iff_ne.mpr h]

theorem formatWalk_eq (negative : Bool) (ps : List TextPos) (ds : List Nat) (on : Bool)
    (sofar : TextSoFar) :
    ((formatWalk negative ps ds on sofar).reverse.map (·.1))
      = ((settled on ps ds sofar).map (·.1)).reverse ++ textFrom negative ps ds on := by
  induction ps generalizing ds on sofar with
  | nil => simp [formatWalk, settled, textFrom, turnsAt]
  | cons pos rest ih =>
    have hf : floatAt on (pos :: rest) ds 0
        = if suppressedAt on (pos :: rest) ds 0 && !(on || turnsAt (pos :: rest) ds 0)
            && turnsAt rest (if pos.isDigit then ds.tail else ds) 0 then
          rest[0]?.bind TextPos.float else none := by
      unfold floatAt
      rw [turnsAt_cons, List.getElem?_cons_succ]
      unfold suppressedAt
      rw [onAt_zero]
      congr 2
      cases (on || turnsAt (pos :: rest) ds 0) <;> simp
    rw [formatWalk_cons, ih, settled_cons, textFrom, hf, List.reverse_cons, List.append_assoc]
    rfl

/-- What each position of the text shows (R50, R51). -/
theorem formatText_getElem? (steps : List EditStep) (x : Int) (q : Nat) :
    let ps := positionsOf steps
    let ds := decimalDigits (digitCount steps) x.natAbs
    (formatText steps x)[q]?
      = ps[q]?.map fun pos =>
          (floatAt false ps ds q).getD (shownAt (decide (x < 0)) false ps ds q pos) := by
  dsimp only
  unfold formatText
  rw [formatWalk_eq, ← textFrom_getElem?]
  unfold settled placeFloat
  split <;> [split; skip] <;> simp_all

/-! ### Parsing (R54 to R57) -/

/-- A position that is read as a digit whatever came before it. -/
def countsAs (z : TextPos × Byte) : Bool :=
  match z.1 with
  | .req _ _ => isDigitCode z.2
  | .dig fill _ => isDigitCode z.2 && z.2 != fill
  | .mark _ _ _ | .fixed _ _ _ | .minus _ _ _ | .plus _ _ _ => false

/-- A REQ position. -/
def isReq (z : TextPos × Byte) : Bool :=
  match z.1 with
  | .req _ _ => true
  | .dig _ _ | .mark _ _ _ | .fixed _ _ _ | .minus _ _ _ | .plus _ _ _ => false

/-- A MINUS position that shows its operand. -/
def showsMinus (z : TextPos × Byte) : Bool :=
  match z.1 with
  | .minus c _ _ => z.2 == c
  | .dig _ _ | .req _ _ | .mark _ _ _ | .fixed _ _ _ | .plus _ _ _ => false

/-- A PLUS position that shows its operand. -/
def showsPlus (z : TextPos × Byte) : Bool :=
  match z.1 with
  | .plus c _ _ => z.2 == c
  | .dig _ _ | .req _ _ | .mark _ _ _ | .fixed _ _ _ | .minus _ _ _ => false

/-- A test held before the positions, or holds at one of the first q. -/
def anyBefore (before : Bool) (zs : List (TextPos × Byte)) (test : TextPos × Byte → Bool) (q : Nat) :
    Bool := before || (zs.take q).any test

/-- The float character is accepted at position q (R55). -/
def floatPasses (st : ParseState) (zs : List (TextPos × Byte)) (q : Nat) (x : Byte) : Bool :=
  match zs[q + 1]? with
  | some (.dig _ float, y) => float == some x && isDigitCode y
  | some (.req _ float, _) => float == some x && !anyBefore st.reqPassed zs isReq q
  | _ => false

/-- Position q is accepted when the positions before it are (R54 to R57). -/
def passesAt (st : ParseState) (zs : List (TextPos × Byte)) (q : Nat) (z : TextPos × Byte) : Bool :=
  let seen := anyBefore st.seen zs countsAs q
  match z.1 with
  | .dig fill _ => isDigitCode z.2 || !seen && (z.2 == fill || floatPasses st zs q z.2)
  | .req _ _ => isDigitCode z.2
  | .mark c fill _ => z.2 == c || !seen && (z.2 == fill || floatPasses st zs q z.2)
  | .fixed c _ _ => z.2 == c
  | .minus c fill _ => if z.2 == c then !anyBefore st.plusShown zs showsPlus q else z.2 == fill
  | .plus c fill _ => if z.2 == c then !anyBefore st.minusShown zs showsMinus q else z.2 == fill

/-- The digit that position q adds to the parsed digit string, when it is a digit position (R54, R56). -/
def valueAt (seen : Bool) (zs : List (TextPos × Byte)) (q : Nat) (z : TextPos × Byte) : Option Nat :=
  match z.1 with
  | .dig fill _ =>
    some (if isDigitCode z.2 && (anyBefore seen zs countsAs q || z.2 != fill) then digitOf z.2 else 0)
  | .req _ _ => some (digitOf z.2)
  | .mark _ _ _ | .fixed _ _ _ | .minus _ _ _ | .plus _ _ _ => none

theorem anyBefore_zero (before : Bool) (zs : List (TextPos × Byte)) (test : TextPos × Byte → Bool) :
    anyBefore before zs test 0 = before := by
  simp [anyBefore]

theorem anyBefore_succ (before : Bool) (z : TextPos × Byte) (zs : List (TextPos × Byte))
    (test : TextPos × Byte → Bool) (q : Nat) :
    anyBefore before (z :: zs) test (q + 1) = anyBefore (before || test z) zs test q := by
  simp [anyBefore, Bool.or_assoc]

/-- The run state after an accepted position. -/
def ParseState.advance (st : ParseState) (z : TextPos × Byte) : ParseState :=
  { seen := st.seen || countsAs z, reqPassed := st.reqPassed || isReq z
    minusShown := st.minusShown || showsMinus z, plusShown := st.plusShown || showsPlus z
    digits := (valueAt st.seen [] 0 z).toList ++ st.digits }

theorem parseStepAt_eq (st : ParseState) (pos : TextPos) (x : Byte) (rest : List (TextPos × Byte)) :
    parseStepAt st pos x rest
      = if passesAt st ((pos, x) :: rest) 0 (pos, x) then some (st.advance (pos, x)) else none := by
  have hfloat : floatAccepted x st.reqPassed rest = floatPasses st ((pos, x) :: rest) 0 x := by
    unfold floatAccepted floatPasses
    rw [anyBefore_zero]
    cases rest with
    | nil => rfl
    | cons z rest =>
      obtain ⟨p, y⟩ := z
      cases p <;> rfl
  unfold parseStepAt passesAt ParseState.advance
  rw [hfloat]
  unfold countsAs isReq showsMinus showsPlus valueAt
  simp only [anyBefore_zero]
  clear hfloat
  cases pos with
  | dig fill float =>
    cases hok : floatPasses st ((.dig fill float, x) :: rest) 0 x <;> obtain ⟨seen, _, _, _, _⟩ := st <;>
      by_cases h : x = fill <;> cases hd : isDigitCode x <;> cases seen <;> simp_all
  | req fill float => cases isDigitCode x <;> simp
  | mark c fill float =>
    cases hok : floatPasses st ((.mark c fill float, x) :: rest) 0 x <;>
      obtain ⟨seen, _, _, _, _⟩ := st <;> by_cases h : x = c <;> by_cases h' : x = fill <;>
      cases seen <;> simp_all
  | fixed c fill float => by_cases h : x = c <;> simp_all
  | minus c fill float =>
    obtain ⟨_, _, _, plus, _⟩ := st
    by_cases h : x = c <;> by_cases h' : x = fill <;> cases plus <;> simp_all
  | plus c fill float =>
    obtain ⟨_, _, minus, _, _⟩ := st
    by_cases h : x = c <;> by_cases h' : x = fill <;> cases minus <;> simp_all

theorem passesAt_succ (st : ParseState) (z : TextPos × Byte) (rest : List (TextPos × Byte)) (q : Nat)
    (y : TextPos × Byte) : passesAt st (z :: rest) (q + 1) y = passesAt (st.advance z) rest q y := by
  unfold passesAt floatPasses
  simp only [anyBefore_succ]
  rfl

theorem valueAt_succ (seen : Bool) (z : TextPos × Byte) (rest : List (TextPos × Byte)) (q : Nat)
    (y : TextPos × Byte) :
    valueAt seen (z :: rest) (q + 1) y = valueAt (seen || countsAs z) rest q y := by
  unfold valueAt
  rw [anyBefore_succ]

/-- The parse fails at the first position that is not accepted. -/
theorem parseWalk_error (st : ParseState) (zs : List (TextPos × Byte)) (n q : Nat) (z : TextPos × Byte)
    (hz : zs[q]? = some z) (hq : passesAt st zs q z = false)
    (hb : ∀ j y, j < q → zs[j]? = some y → passesAt st zs j y = true) :
    parseWalk n st zs = .error (n + q) := by
  induction zs generalizing st n q with
  | nil => simp at hz
  | cons y rest ih =>
    rw [parseWalk, parseStepAt_eq]
    cases q with
    | zero =>
      simp only [List.getElem?_cons_zero, Option.some.injEq] at hz
      subst hz
      rw [hq]
      rfl
    | succ q =>
      rw [hb 0 y (by omega) rfl]
      rw [passesAt_succ] at hq
      rw [show n + (q + 1) = n + 1 + q by omega]
      exact ih _ _ _ (by simpa using hz) hq fun j y' hj hy => by
        rw [← passesAt_succ]
        exact hb (j + 1) y' (by omega) (by simpa using hy)

/-- The parse of accepted positions: whether a MINUS position showed its operand, and the digits. -/
theorem parseWalk_ok (st : ParseState) (zs : List (TextPos × Byte)) (n : Nat)
    (h : ∀ q z, zs[q]? = some z → passesAt st zs q z = true) :
    ∃ st', parseWalk n st zs = .ok st'
      ∧ st'.minusShown = (st.minusShown || zs.any showsMinus)
      ∧ st'.digits.reverse
        = st.digits.reverse ++ zs.zipIdx.filterMap fun y => valueAt st.seen zs y.2 y.1 := by
  induction zs generalizing st n with
  | nil => exact ⟨st, rfl, by simp, by simp⟩
  | cons z rest ih =>
    rw [parseWalk, parseStepAt_eq, h 0 z rfl]
    obtain ⟨st', h1, h2, h3⟩ := ih (st.advance z) (n + 1) fun q y hy => by
      rw [← passesAt_succ]
      exact h (q + 1) y (by simpa using hy)
    refine ⟨st', h1, ?_, ?_⟩
    · rw [h2, List.any_cons, ← Bool.or_assoc]
      rfl
    · have hv : ∀ y : (TextPos × Byte) × Nat, valueAt st.seen (z :: rest) (y.2 + 1) y.1
          = valueAt (st.advance z).seen rest y.2 y.1 := fun y => valueAt_succ _ _ _ _ _
      have h0 : valueAt st.seen (z :: rest) 0 z = valueAt st.seen [] 0 z := by
        unfold valueAt
        simp only [anyBefore_zero]
      rw [h3, List.zipIdx_cons, List.filterMap_cons, Nat.zero_add, List.zipIdx_succ, List.filterMap_map]
      dsimp only [Function.comp_def]
      simp only [hv, h0]
      unfold ParseState.advance
      cases valueAt st.seen [] 0 z <;> simp

/-! ### Weights (R38, R39) -/

theorem decimalDigits_getElem? (n v k : Nat) (h : k < n) :
    (decimalDigits n v)[k]? = some (v / 10 ^ (n - 1 - k) % 10) := by
  induction n generalizing k with
  | zero => omega
  | succ n ih =>
    cases k with
    | zero => rfl
    | succ k =>
      rw [decimalDigits, List.getElem?_cons_succ, ih k (by omega)]
      congr 4
      omega

/-- Digits have weights that fall to 1 (R39, R59). -/
theorem digitsValue_eq (ds : List Nat) :
    digitsValue ds = ((List.range ds.length).map fun k => ds.getD k 0 * 10 ^ (ds.length - 1 - k)).sum := by
  induction ds with
  | nil => rfl
  | cons d rest ih =>
    have h := digitsValue_foldl rest d
    have hd : digitsValue (d :: rest) = rest.foldl (fun acc d => acc * 10 + d) d := by
      simp [digitsValue]
    rw [hd, h, ih, List.length_cons, List.range_succ_eq_map, List.map_cons, List.sum_cons, List.map_map]
    congr 1
    refine congrArg _ (List.map_congr_left fun k hk => ?_)
    simp only [Function.comp_apply, List.getD_cons_succ, Nat.succ_eq_add_one]
    congr 2
    omega

theorem leNat_eq (bytes : List Byte) :
    leNat bytes = ((List.range bytes.length).map fun p => (bytes.getD p 0).toNat * 256 ^ p).sum := by
  induction bytes with
  | nil => rfl
  | cons b rest ih =>
    rw [leNat, ih, List.length_cons, List.range_succ_eq_map, List.map_cons, List.sum_cons, List.map_map,
      ← List.sum_map_mul_left]
    congr 1
    · simp
    · refine congrArg _ (List.map_congr_left fun k _ => ?_)
      simp only [Function.comp_apply, List.getD_cons_succ, Nat.succ_eq_add_one]
      rw [Nat.pow_succ]
      ring

/-- The number that bytes spell under a byte order: each byte with its weight (R38). -/
theorem leNat_arrange (o : ByteOrder) (bytes : List Byte) :
    leNat (o.arrange bytes) = ((List.range bytes.length).map fun p =>
      (bytes.getD p 0).toNat * 256 ^ (if o = .little then p else bytes.length - 1 - p)).sum := by
  rw [leNat_eq, arrange_length]
  cases o with
  | little => simp [ByteOrder.arrange]
  | big =>
    rw [← List.sum_reverse]
    refine congrArg _ (List.ext_getElem (by simp) fun p h1 h2 => ?_)
    simp only [List.length_reverse, List.length_map, List.length_range] at h1 h2
    have hp : bytes.length - 1 - (bytes.length - 1 - p) = p := by omega
    simp only [ByteOrder.arrange, List.getElem_reverse, List.length_map, List.length_range,
      List.getElem_map, List.getElem_range, List.getD_eq_getElem?_getD, reduceCtorEq, if_false]
    rw [List.getElem?_reverse (by omega), hp]

theorem packNibbles_getElem? (ns : List Nat) (m : Nat) (h : ns.length = 2 * m) :
    (packNibbles ns).length = m
      ∧ ∀ p < m, (packNibbles ns)[p]? = some (toByte (16 * ns.getD (2 * p) 0 + ns.getD (2 * p + 1) 0)) := by
  induction m generalizing ns with
  | zero =>
    rw [List.length_eq_zero_iff.mp (by omega : ns.length = 0)]
    exact ⟨rfl, fun p hp => by omega⟩
  | succ m ih =>
    match ns with
    | [] => simp at h
    | [_] => simp at h; omega
    | hi :: lo :: rest =>
      obtain ⟨h1, h2⟩ := ih rest (by simp only [List.length_cons] at h; omega)
      refine ⟨by rw [packNibbles, List.length_cons, h1], fun p hp => ?_⟩
      cases p with
      | zero => simp [packNibbles, Nat.mul_comm]
      | succ p =>
        rw [packNibbles, List.getElem?_cons_succ, h2 p (by omega), show 2 * (p + 1) = 2 * p + 1 + 1 by omega]
        simp

theorem unpackNibbles_getElem? (bytes : List Byte) (p : Nat) :
    (unpackNibbles bytes)[2 * p]? = bytes[p]?.map (fun b => b.toNat / 16)
      ∧ (unpackNibbles bytes)[2 * p + 1]? = bytes[p]?.map (fun b => b.toNat % 16) := by
  induction bytes generalizing p with
  | nil => simp [unpackNibbles]
  | cons b rest ih =>
    cases p with
    | zero => simp [unpackNibbles]
    | succ p =>
      have := ih p
      rw [unpackNibbles, show 2 * (p + 1) = 2 * p + 1 + 1 by omega]
      simpa using this

end Sys2Proof.Machine
end

