-- ==== Sys2Proof/Laws/Split.lean ====
section
/-! SUPPORT. What the part finds for an address and for a request: the decode, the split of a request into
fields and holes, objects in use, overlapped entries, entries by key, the last MWRITE. -/

namespace Sys2Proof.Machine

/-! ### Ranges -/

/-- Two ranges meet when they share an address. -/
theorem rangesMeet_iff (a b c d : Nat) :
    rangesMeet a b c d = true ↔ ∃ x, (a ≤ x ∧ x < b) ∧ c ≤ x ∧ x < d := by
  unfold rangesMeet
  simp only [Bool.and_eq_true, decide_eq_true_eq]
  exact ⟨fun h => ⟨max a c, by omega⟩, fun ⟨x, h⟩ => by omega⟩

theorem FieldDesc.covers_iff (f : FieldDesc) (off : Nat) :
    f.covers off = true ↔ f.viewOff ≤ off ∧ off < f.viewOff + f.viewLen := by
  simp [FieldDesc.covers]

/-! ### The decode (R4) -/

/-- The decode of one live window. -/
theorem Window.decode_live (w : Window) (i : Fin 8) (a : Nat) (mode : LiveMode) (va sa : Nat)
    (hw : w.status = .live mode va sa) :
    w.decode i a =
      if w.cfg.viewBase ≤ a ∧ a < w.cfg.viewBase + w.cfg.recordCount * va then
        some { window := i, mode, record := (a - w.cfg.viewBase) / va
               offset := (a - w.cfg.viewBase) % va }
      else none := by
  unfold Window.decode Window.holdsAddr
  simp only [hw, Bool.and_eq_true, decide_eq_true_eq]
  rfl

theorem Window.decode_off (w : Window) (i : Fin 8) (a : Nat) (hw : w.status = .off) :
    w.decode i a = none := by
  unfold Window.decode
  rw [hw]

/-- No live window holds an address that no window decodes. -/
theorem State.decode_none (s : State) (a : Nat) :
    s.decode a = none ↔ ∀ (w : Fin 8) mode va sa, s.windows[w].status = .live mode va sa →
      ¬ (s.windows[w].cfg.viewBase ≤ a
        ∧ a < s.windows[w].cfg.viewBase + s.windows[w].cfg.recordCount * va) := by
  unfold State.decode
  rw [List.findSome?_eq_none_iff]
  refine ⟨fun h w mode va sa hw hr => ?_, fun h w _ => ?_⟩
  · have := h w (List.mem_finRange w)
    rw [Window.decode_live _ _ _ _ _ _ hw, if_pos hr] at this
    exact absurd this (by simp)
  · cases hw : s.windows[w].status with
    | off => exact Window.decode_off _ _ _ hw
    | live mode va sa =>
      rw [Window.decode_live _ _ _ _ _ _ hw, if_neg (h w mode va sa hw)]

/-- In a part with sound windows, the live window that holds an address is the one decoded. -/
theorem State.decode_some (s : State) (hs : s.WindowsSound) (a : Nat) (w : Fin 8) (mode : LiveMode)
    (va sa : Nat) (hw : s.windows[w].status = .live mode va sa)
    (hr : s.windows[w].cfg.viewBase ≤ a
      ∧ a < s.windows[w].cfg.viewBase + s.windows[w].cfg.recordCount * va) :
    s.decode a = some { window := w, mode, record := (a - s.windows[w].cfg.viewBase) / va
                        offset := (a - s.windows[w].cfg.viewBase) % va } := by
  have hdec := (Window.decode_live _ w a _ _ _ hw).trans (if_pos hr)
  cases hd : s.decode a with
  | none => exact absurd hr ((s.decode_none a).mp hd w mode va sa hw)
  | some d =>
    unfold State.decode at hd
    obtain ⟨v, -, hv⟩ := List.exists_of_findSome?_eq_some hd
    by_cases hwv : w = v
    · subst hwv
      rw [← hv, hdec]
    · cases hst : s.windows[v].status with
      | off =>
        rw [Window.decode_off _ _ _ hst] at hv
        exact absurd hv (by simp)
      | live mode' va' sa' =>
        rw [Window.decode_live _ _ _ _ _ _ hst] at hv
        split at hv
        · next hin =>
          have := (hs.apart w v mode mode' va sa va' sa' hwv hw hst).1
          rw [Bool.eq_false_iff, ne_eq, rangesMeet_iff] at this
          exact absurd ⟨a, hr, hin⟩ this
        · exact absurd hv (by simp)

/-! ### Fields and holes of a request (R16, R20, R67) -/

/-- A field is touched when its view range shares a byte with the request. -/
theorem mem_touchedFields (fields : List FieldDesc) (o n : Nat) (f : FieldDesc) (i : Nat) :
    (f, i) ∈ touchedFields fields o n
      ↔ fields[i]? = some f ∧ ∃ x, (o ≤ x ∧ x < o + n) ∧ f.viewOff ≤ x ∧ x < f.viewOff + f.viewLen := by
  unfold touchedFields FieldDesc.touched
  rw [List.mem_filter, List.mem_zipIdx_iff_getElem?]
  exact and_congr_right fun _ => rangesMeet_iff _ _ _ _

/-- Touched fields stand in ascending field index. -/
theorem touchedFields_ascending (fields : List FieldDesc) (o n : Nat) :
    (touchedFields fields o n).Pairwise fun x y => x.2 < y.2 := by
  refine List.Pairwise.filter _ ?_
  rw [List.pairwise_iff_getElem]
  intro i j hi hj hij
  simpa using hij

/-- The field that a byte is given to covers it, and it is the first that does. -/
theorem ownerOf_some (fields : List FieldDesc) (off : Nat) (f : FieldDesc) (i : Nat) :
    ownerOf fields off = some (f, i)
      ↔ fields[i]? = some f ∧ (f.viewOff ≤ off ∧ off < f.viewOff + f.viewLen)
        ∧ ∀ j g, j < i → fields[j]? = some g → ¬ (g.viewOff ≤ off ∧ off < g.viewOff + g.viewLen) := by
  unfold ownerOf
  rw [List.find?_eq_some_iff_getElem]
  constructor
  · rintro ⟨hc, j, hj, he, hl⟩
    rw [List.getElem_zipIdx, Nat.zero_add, Prod.mk.injEq] at he
    obtain ⟨rfl, rfl⟩ := he
    have hlen : j < fields.length := by simpa using hj
    refine ⟨List.getElem?_eq_getElem hlen, (FieldDesc.covers_iff _ _).mp hc, fun j' g hj' hg => ?_⟩
    have := hl j' hj'
    rw [List.getElem_zipIdx, (List.getElem?_eq_some_iff.mp hg).2] at this
    rw [← FieldDesc.covers_iff]
    simpa using this
  · rintro ⟨hf, hc, hl⟩
    obtain ⟨hlen, he⟩ := List.getElem?_eq_some_iff.mp hf
    refine ⟨(FieldDesc.covers_iff _ _).mpr hc, i, by simpa using hlen, by simp [he], fun j hj => ?_⟩
    have := hl j _ hj (List.getElem?_eq_getElem (Nat.lt_trans hj hlen))
    rw [← FieldDesc.covers_iff] at this
    simpa using this

/-- A hole byte lies in no field. -/
theorem ownerOf_none (fields : List FieldDesc) (off : Nat) :
    ownerOf fields off = none
      ↔ ∀ f ∈ fields, ¬ (f.viewOff ≤ off ∧ off < f.viewOff + f.viewLen) := by
  unfold ownerOf
  rw [List.find?_eq_none]
  constructor
  · intro h f hf
    obtain ⟨i, hi, rfl⟩ := List.mem_iff_getElem.mp hf
    rw [← FieldDesc.covers_iff]
    exact h (fields[i], i) (by rw [List.mem_zipIdx_iff_getElem?]; exact List.getElem?_eq_getElem hi)
  · rintro h ⟨f, i⟩ hx
    rw [FieldDesc.covers_iff]
    exact h f (List.mem_of_getElem? (List.mem_zipIdx_iff_getElem?.mp hx))

theorem holeTouching_iff (fields : List FieldDesc) (o n : Nat) :
    holeTouching fields o n = true
      ↔ ∃ k < n, ∀ f ∈ fields, ¬ (f.viewOff ≤ o + k ∧ o + k < f.viewOff + f.viewLen) := by
  unfold holeTouching
  simp only [List.any_eq_true, List.mem_range, Option.isNone_iff_eq_none, ownerOf_none]

/-- The field of a PROTECT record: the lowest touched read-only one. -/
theorem protectField_some (fields : List FieldDesc) (o n i : Nat) :
    protectField fields o n = some i
      ↔ (∃ f, (f, i) ∈ touchedFields fields o n ∧ f.readOnly = true)
        ∧ ∀ f j, (f, j) ∈ touchedFields fields o n → f.readOnly = true → i ≤ j := by
  unfold protectField
  have hasc := touchedFields_ascending fields o n
  generalize touchedFields fields o n = l at hasc
  induction l with
  | nil => simp
  | cons x rest ih =>
    rw [List.pairwise_cons] at hasc
    by_cases hx : x.1.readOnly = true
    · rw [List.find?_cons_of_pos (p := fun y : FieldDesc × Nat => y.1.readOnly) hx]
      simp only [Option.map_some, Option.some.injEq, List.mem_cons]
      constructor
      · rintro rfl
        refine ⟨⟨x.1, Or.inl rfl, hx⟩, ?_⟩
        rintro f j (h | h) -
        · rw [← h]
        · exact Nat.le_of_lt (hasc.1 _ h)
      · rintro ⟨⟨f, h, -⟩, hl⟩
        have h1 := hl x.1 x.2 (Or.inl rfl) hx
        rcases h with h | h
        · rw [← h]
        · have := hasc.1 _ h
          simp only at this
          omega
    · rw [List.find?_cons_of_neg (p := fun y : FieldDesc × Nat => y.1.readOnly) hx]
      refine (ih hasc.2).trans ?_
      constructor
      · rintro ⟨⟨f, h, hf⟩, hl⟩
        refine ⟨⟨f, List.mem_cons_of_mem _ h, hf⟩, fun g j hg hr => ?_⟩
        rcases List.mem_cons.mp hg with hg | hg
        · rw [← hg] at hx
          exact absurd hr hx
        · exact hl g j hg hr
      · rintro ⟨⟨f, h, hf⟩, hl⟩
        refine ⟨⟨f, ?_, hf⟩, fun g j hg hr => hl g j (List.mem_cons_of_mem _ hg) hr⟩
        rcases List.mem_cons.mp h with h | h
        · rw [← h] at hx
          exact absurd hf hx
        · exact h

theorem protectField_none (fields : List FieldDesc) (o n : Nat) :
    protectField fields o n = none
      ↔ ∀ f i, (f, i) ∈ touchedFields fields o n → f.readOnly = false := by
  unfold protectField
  rw [Option.map_eq_none_iff, List.find?_eq_none]
  exact ⟨fun h f i hm => by simpa using h (f, i) hm, fun h x hx => by simpa using h x.1 x.2 hx⟩

/-- The kept fields are the touched ones that are not read-only, in ascending index. -/
theorem mem_keptFields (fields : List FieldDesc) (o n i : Nat) :
    i ∈ keptFields fields o n ↔ ∃ f, (f, i) ∈ touchedFields fields o n ∧ f.readOnly = false := by
  unfold keptFields
  rw [List.mem_map]
  constructor
  · rintro ⟨⟨f, j⟩, h, rfl⟩
    rw [List.mem_filter] at h
    exact ⟨f, h.1, by simpa using h.2⟩
  · rintro ⟨f, h, hf⟩
    exact ⟨(f, i), List.mem_filter.mpr ⟨h, by simpa using hf⟩, rfl⟩

theorem keptFields_ascending (fields : List FieldDesc) (o n : Nat) :
    (keptFields fields o n).Pairwise (· < ·) := by
  unfold keptFields
  rw [List.pairwise_map]
  exact (touchedFields_ascending fields o n).filter _

/-! ### Objects in use (R6, R22, R46) -/

theorem Window.locks_iff (w : Window) :
    w.locks = true ↔ ∃ va sa, w.status = .live .active va sa ∨ w.status = .live .draining va sa := by
  unfold Window.locks
  split <;> simp_all

theorem State.layoutInUse_iff (s : State) (l : Fin 16) :
    s.layoutInUse l = true
      ↔ ∃ (w : Fin 8) (va sa : Nat), s.windows[w].cfg.layout = l
        ∧ (s.windows[w].status = .live .active va sa ∨ s.windows[w].status = .live .draining va sa) := by
  unfold State.layoutInUse
  rw [List.any_eq_true]
  constructor
  · rintro ⟨w, hw, h⟩
    rw [Bool.and_eq_true, Window.locks_iff, beq_iff_eq] at h
    obtain ⟨i, hi, rfl⟩ := List.mem_iff_getElem.mp hw
    obtain ⟨⟨va, sa, h1⟩, h2⟩ := h
    exact ⟨⟨i, by simpa using hi⟩, va, sa, by simpa using h2, by simpa using h1⟩
  · rintro ⟨w, va, sa, h2, h1⟩
    exact ⟨s.windows[w], by simp, by
      rw [Bool.and_eq_true, Window.locks_iff, beq_iff_eq]
      exact ⟨⟨va, sa, h1⟩, h2⟩⟩

theorem State.tableInUse_iff (s : State) (t : Fin 4) :
    s.tableInUse t = true
      ↔ ∃ l : Fin 16, s.layoutInUse l = true ∧ ∃ f ∈ s.layouts[l].fields, f.kind.table? = some t := by
  simp [State.tableInUse, Layout.namesTable]

theorem State.programInUse_iff (s : State) (e : Fin 32) :
    s.programInUse e = true
      ↔ ∃ l : Fin 16, s.layoutInUse l = true ∧ ∃ f ∈ s.layouts[l].fields, f.kind.program? = some e := by
  simp [State.programInUse, Layout.namesProgram]

/-! ### Overlapped entries (R116) and the last MWRITE (R118) -/

theorem State.overlaps_iff (s : State) (a n : Nat) (k : Key) :
    s.overlaps a n k = true ↔ ∃ x, (a ≤ x ∧ x < a + n)
      ∧ s.storeAddrOf k ≤ x ∧ x < s.storeAddrOf k + (s.descOf k).storeLen := rangesMeet_iff _ _ _ _

theorem State.anyOverlapped_iff (s : State) (a n : Nat) :
    s.anyOverlapped a n = true ↔ ∃ (g : Fin 8) (stage : Stage) (b : Gather),
      s.entries[g].slot = .held stage b ∧ s.overlaps a n b.key = true := by
  unfold State.anyOverlapped
  rw [List.any_eq_true]
  constructor
  · rintro ⟨e, he, h⟩
    obtain ⟨i, hi, rfl⟩ := List.mem_iff_getElem.mp he
    rw [Vector.getElem_toList] at h
    unfold Entry.key? at h
    split at h
    · next k hk =>
      split at hk
      · next stage b hb =>
        injection hk with hk
        subst hk
        exact ⟨⟨i, by simpa using hi⟩, stage, b, hb, h⟩
      · exact absurd hk (by simp)
    · exact absurd h (by simp)
  · rintro ⟨g, stage, b, hb, h⟩
    exact ⟨s.entries[g], by simp, by unfold Entry.key?; rw [hb]; exact h⟩

/-- The last outstanding MWRITE is followed by MREADs only. -/
theorem State.lastMwrite_some (s : State) (id : Nat) :
    s.lastMwrite = some id ↔ ∃ earlier i later, s.outstanding = earlier ++ i :: later ∧ i.id = id
      ∧ i.op.kind = .mwrite ∧ ∀ j ∈ later, j.op.kind = .mread := by
  unfold State.lastMwrite
  have hk : ∀ k : OpKind, k ≠ .mwrite ↔ k = .mread := by intro k; cases k <;> simp
  rw [Option.map_eq_some_iff]
  constructor
  · rintro ⟨i, hi, rfl⟩
    obtain ⟨h1, as, bs, he, hl⟩ := List.find?_eq_some_iff_append.mp hi
    refine ⟨bs.reverse, i, as.reverse, ?_, rfl, by simpa using h1, fun j hj => ?_⟩
    · rw [← List.reverse_reverse s.outstanding, he]
      simp
    · have := hl j (by simpa using hj)
      exact (hk _).mp (by simpa using this)
  · rintro ⟨earlier, i, later, he, rfl, hw, hl⟩
    refine ⟨i, ?_, rfl⟩
    rw [he, List.find?_eq_some_iff_append]
    exact ⟨by simpa using hw, later.reverse, earlier.reverse, by simp, fun j hj => by
      have := hl j (by simpa using hj)
      simp [this]⟩

theorem State.lastMwrite_none (s : State) :
    s.lastMwrite = none ↔ ∀ i ∈ s.outstanding, i.op.kind = .mread := by
  unfold State.lastMwrite
  have hk : ∀ k : OpKind, ¬ (k == .mwrite) = true ↔ k = .mread := by intro k; cases k <;> simp
  rw [Option.map_eq_none_iff, List.find?_eq_none]
  simp only [List.mem_reverse, hk]

/-! ### Entries by key and by state (R61, R62, R69, R73) -/

/-- No entry holds a key that none is found for. -/
theorem State.entryFor_none_iff (s : State) (k : Key) :
    s.entryFor k = none ↔ ∀ (g : Fin 8) (stage : Stage) (b : Gather),
      s.entries[g].slot = .held stage b → b.key ≠ k := by
  unfold State.entryFor
  rw [List.findSome?_eq_none_iff]
  refine ⟨fun h g stage b hb hk => ?_, fun h g _ => ?_⟩
  · have := h g (List.mem_finRange g)
    simp only [hb, hk, if_true] at this
    exact absurd this (by simp)
  · split
    · next stage b hb => rw [if_neg (h g stage b hb)]
    · rfl

theorem Entry.isFree_iff (e : Entry) : e.isFree = true ↔ e.slot = .free := by
  unfold Entry.isFree
  split <;> simp_all

/-- The FREE entry with the lowest index. -/
theorem State.lowestFree_some (s : State) (g : Fin 8) :
    s.lowestFree = some g
      ↔ s.entries[g].slot = .free ∧ ∀ h : Fin 8, h < g → s.entries[h].slot ≠ .free := by
  unfold State.lowestFree
  rw [List.find?_eq_some_iff_getElem]
  simp only [List.getElem_finRange, Entry.isFree_iff, Bool.not_eq_true', List.length_finRange]
  constructor
  · rintro ⟨hf, i, hi, rfl, hl⟩
    refine ⟨hf, fun h hh => ?_⟩
    have := hl h.val hh
    rw [ne_eq, ← Entry.isFree_iff]
    simpa using this
  · rintro ⟨hf, hl⟩
    refine ⟨hf, g.val, g.isLt, rfl, fun j hj => ?_⟩
    have := hl ⟨j, by omega⟩ hj
    rw [ne_eq, ← Entry.isFree_iff] at this
    simpa using this

theorem State.lowestFree_none (s : State) :
    s.lowestFree = none ↔ ∀ g : Fin 8, s.entries[g].slot ≠ .free := by
  unfold State.lowestFree
  rw [List.find?_eq_none]
  simp only [List.mem_finRange, Entry.isFree_iff, ne_eq, true_implies]

theorem State.mem_gatheringWhere (s : State) (test : Key → Bool) (g : Fin 8) :
    g ∈ s.gatheringWhere test
      ↔ g ∈ s.openList ∧ ∃ b, s.entries[g].slot = .held .gathering b ∧ test b.key = true := by
  unfold State.gatheringWhere
  rw [List.mem_filter]
  refine and_congr_right fun _ => ?_
  split <;> simp_all

/-- They stand in open order. -/
theorem State.gatheringWhere_sublist (s : State) (test : Key → Bool) :
    (s.gatheringWhere test).Sublist s.openList := List.filter_sublist

/-! ### The next transaction and its offer (R108, R109) -/

theorem Txn.isQueued_iff (x : Txn) : x.isQueued = true ↔ x.state = .queued := by
  unfold Txn.isQueued
  split <;> simp_all

/-- The oldest QUEUED transaction. -/
theorem State.nextTxn_some (s : State) (q : Txn) :
    s.nextTxn = some q ↔ q.state = .queued
      ∧ ∃ earlier later, s.txns = earlier ++ q :: later ∧ ∀ x ∈ earlier, x.state ≠ .queued := by
  unfold State.nextTxn
  rw [List.find?_eq_some_iff_append]
  simp only [Txn.isQueued_iff, Bool.not_eq_true', ← Bool.not_eq_true, ne_eq]

theorem State.offerDue_iff (s : State) :
    s.offerDue = true ↔ (∃ q, s.nextTxn = some q) ∧ (s.disp = .idle
      ∨ ((∃ on, s.disp = .blocked on) ∨ ∃ timer, s.disp = .holding timer) ∧ s.reoffer = true) := by
  unfold State.offerDue
  rw [Bool.and_eq_true, Option.isSome_iff_exists]
  refine and_congr_right fun _ => ?_
  split <;> simp_all

end Sys2Proof.Machine
end

