-- ==== Sys2Proof/Laws/Step.lean ====
section
/-! SUPPORT. What a step can do, said once, and what carries a property through the release of a
frame. -/

namespace Sys2Proof.Machine

/-- A step idles on an empty queue and otherwise runs the front command. -/
theorem step_cases (s t : State) (h : step s = .next t) :
    (s.pending = [] ∧ t = s)
      ∨ ∃ c rest, s.pending = c :: rest ∧ exec c { s with pending := rest } = .next t := by
  unfold step at h
  split at h
  · next hp => exact Or.inl ⟨hp, by injection h with h; exact h.symm⟩
  · next c rest hp => exact Or.inr ⟨c, rest, hp, h⟩

/-- A property that the end of a period, a turned-away frame, a result and the command itself keep, the
release of a frame keeps. -/
theorem State.releaseFrame_keeps {P : State → Prop} (s : State) (code : Byte) (payload : List Byte)
    (run : State → State × CmdResult) (h : P s) (hend : ∀ t x, P t → P (t.endPeriod x))
    (haway : ∀ t, P t → P t.turnAway) (hput : ∀ t c k d, P t → P (t.putResult c k d))
    (hrun : ∀ t, P t → P (run t).1) : P (s.releaseFrame code payload run) := by
  unfold State.releaseFrame
  split
  · dsimp only
    split
    · exact haway _ (hend _ _ h)
    · exact hput _ _ _ _ (hrun _ (hend _ _ h))
  · exact h

/-- A payload of the table's length runs the command; any other changes nothing. -/
theorem withLength_keeps {P : State → Prop} (payload : List Byte) (len : Nat)
    (run : State → State × CmdResult) (s : State) (h : P s) (hrun : P (run s).1) :
    P (withLength payload len run s).1 := by
  unfold withLength
  split
  · exact hrun
  · exact h

/-- A command on a named window keeps what it keeps for every window. -/
theorem withWindow_keeps {P : State → Prop} (payload : List Byte)
    (run : Fin 8 → State → State × CmdResult) (s : State) (h : P s) (hrun : ∀ w, P (run w s).1) :
    P (withWindow payload run s).1 := by
  unfold withWindow
  split
  · exact hrun _
  · exact h

/-- The release of a frame that the part takes runs the command at the release. -/
theorem State.releaseFrame_taken (s : State) (code : Byte) (payload : List Byte)
    (run : State → State × CmdResult) (h : s.takesFrame code payload) :
    s.releaseFrame code payload run
      = (run (s.endPeriod (List.replicate (payload.length + 4) 0xFF))).1.putResult
          (run (s.endPeriod (List.replicate (payload.length + 4) 0xFF))).2.code code
          (run (s.endPeriod (List.replicate (payload.length + 4) 0xFF))).2.data := by
  obtain ⟨h1, h2⟩ := h
  unfold State.releaseFrame
  rw [if_pos h1]
  dsimp only
  rw [if_neg]
  show ¬ s.build.isSome = true
  rw [h2]
  simp

/-- The same at the settled part. -/
theorem State.settle_releaseFrame_taken (s : State) (code : Byte) (payload : List Byte)
    (run : State → State × CmdResult) (h : s.takesFrame code payload) :
    s.settle.releaseFrame code payload run
      = (run (s.atRelease payload)).1.putResult (run (s.atRelease payload)).2.code code
          (run (s.atRelease payload)).2.data :=
  s.settle.releaseFrame_taken code payload run ((s.settle_same.takesFrame code payload).mpr h)

/-- A window command that the part takes acts on the part at its release. -/
theorem State.windowCommand_taken (s : State) (code : Byte) (b : Byte) (w : Fin 8)
    (run : Fin 8 → State → State × CmdResult) (hw : indexOf? 8 b = some w)
    (h : s.takesFrame code [b]) :
    s.windowCommand code [b] run
      = (run w (s.atWindowRelease [b])).1.putResult (run w (s.atWindowRelease [b])).2.code code
          (run w (s.atWindowRelease [b])).2.data := by
  unfold State.windowCommand
  rw [State.releaseFrame_taken _ _ _ _ ((s.settleToExpiry_same.takesFrame code [b]).mpr h)]
  have hr : withLength [b] 1 (withWindow [b] run) (s.atWindowRelease [b])
      = run w (s.atWindowRelease [b]) := by
    unfold withLength withWindow
    rw [if_pos (show [b].length = 1 from rfl)]
    show (match indexOf? 8 b with
      | some w => run w (s.atWindowRelease [b])
      | none => State.reply _ _ _) = _
    rw [hw]
  unfold State.atWindowRelease at hr ⊢
  rw [hr]

/-- A command of the table's length that the part takes acts on the part at its release. -/
theorem State.command_taken (s : State) (code : Byte) (payload : List Byte) (len : Nat)
    (run : State → State × CmdResult) (hl : payload.length = len) (h : s.takesFrame code payload) :
    s.command code payload len run
      = (run (s.atRelease payload)).1.putResult (run (s.atRelease payload)).2.code code
          (run (s.atRelease payload)).2.data := by
  unfold State.command
  rw [s.settle_releaseFrame_taken _ _ _ h]
  unfold withLength
  rw [if_pos hl]

/-- A window command that names no window answers BADARG. -/
theorem State.windowCommand_none (s : State) (code b : Byte) (run : Fin 8 → State → State × CmdResult)
    (hb : 7 < b.toNat) (h : s.takesFrame code [b]) :
    s.windowCommand code [b] run = (s.atWindowRelease [b]).putResult .badArg code [] := by
  unfold State.windowCommand
  rw [State.releaseFrame_taken _ _ _ _ ((s.settleToExpiry_same.takesFrame code [b]).mpr h)]
  have hr : ∀ t, withLength [b] 1 (withWindow [b] run) t = t.reply .badArg [] := by
    intro t
    have hi : indexOf? 8 (byteAt [b] 0) = none := by
      unfold indexOf?
      rw [dif_neg (by show ¬ b.toNat < 8; omega)]
    unfold withLength withWindow
    rw [if_pos (show [b].length = 1 from rfl), hi]
  rw [hr]
  rfl

/-- A frame released while a build runs is counted, and its command is not executed. -/
theorem State.releaseFrame_turnedAway (s : State) (code : Byte) (payload : List Byte)
    (run : State → State × CmdResult) (h : s.presents code payload = true)
    (hb : s.build.isSome = true) : s.releaseFrame code payload run
      = { s.endPeriod (List.replicate (payload.length + 4) 0xFF) with
          refusedCount := min 255 (s.refusedCount + 1) } := by
  unfold State.releaseFrame
  rw [if_pos h]
  exact if_pos hb

end Sys2Proof.Machine
end

