-- ==== Sys2Proof/Laws/Units.lean ====
section
/-! SUPPORT. What the shared operations of a flush give: the operations of a unit, the composite image, the
first waiting unit. -/

namespace Sys2Proof.Machine

/-! ### The operations of a unit (R125, R128) -/

/-- Bytes inside one block give one operation. -/
theorem splitOps_one (kind : OpKind) (start len : Nat) (data : List Byte) (source : Half → Source)
    (h : start + len ≤ 32 * (start / 32 + 1)) :
    splitOps kind start len data source
      = [{ kind, addr := start, size := len, data, source := source .whole }] :=
  if_pos (by rw [Nat.mul_comm]; exact h)

/-- Bytes across a block boundary give a pair, divided at the boundary. -/
theorem splitOps_pair (kind : OpKind) (start len : Nat) (data : List Byte) (source : Half → Source)
    (h : 32 * (start / 32 + 1) < start + len) :
    splitOps kind start len data source
      = [{ kind, addr := start, size := 32 * (start / 32 + 1) - start
           data := data.take (32 * (start / 32 + 1) - start), source := source .lower },
         { kind, addr := 32 * (start / 32 + 1), size := start + len - 32 * (start / 32 + 1)
           data := data.drop (32 * (start / 32 + 1) - start), source := source .upper }] := by
  rw [Nat.mul_comm 32] at h ⊢
  exact if_neg (Nat.not_le.mpr h)

/-- The operations of a unit cover its bytes and no other, in pieces whose sizes and data add up. -/
theorem splitOps_covers (kind : OpKind) (start len : Nat) (data : List Byte) (source : Half → Source) :
    (∀ a, (start ≤ a ∧ a < start + len)
        ↔ ∃ op ∈ splitOps kind start len data source, op.addr ≤ a ∧ a < op.addr + op.size)
      ∧ ((splitOps kind start len data source).map (·.size)).sum = len
      ∧ (splitOps kind start len data source).flatMap (·.data) = data := by
  by_cases h : start + len ≤ 32 * (start / 32 + 1)
  · rw [splitOps_one _ _ _ _ _ h]
    simp
  · rw [splitOps_pair _ _ _ _ _ (Nat.lt_of_not_le h)]
    refine ⟨fun a => ?_, ?_, ?_⟩
    · simp only [List.mem_cons, List.not_mem_nil, or_false, exists_eq_or_imp, exists_eq_left]
      omega
    · simp only [List.map_cons, List.map_nil, List.sum_cons, List.sum_nil]
      omega
    · simp

/-- Every operation of at most 32 bytes lies in one block. -/
theorem splitOps_inBlock (kind : OpKind) (start len : Nat) (data : List Byte) (source : Half → Source)
    (h1 : 1 ≤ len) (h32 : len ≤ 32) :
    ∀ op ∈ splitOps kind start len data source,
      1 ≤ op.size ∧ op.addr / 32 = (op.addr + op.size - 1) / 32 := by
  by_cases h : start + len ≤ 32 * (start / 32 + 1)
  · rw [splitOps_one _ _ _ _ _ h]
    simp only [List.mem_singleton, forall_eq]
    omega
  · rw [splitOps_pair _ _ _ _ _ (Nat.lt_of_not_le h)]
    simp only [List.mem_cons, List.not_mem_nil, or_false, forall_eq_or_imp, forall_eq]
    omega

/-- Each operation carries as many bytes as it covers. -/
theorem splitOps_data (kind : OpKind) (start len : Nat) (data : List Byte) (source : Half → Source)
    (hd : data.length = len) :
    ∀ op ∈ splitOps kind start len data source, op.data.length = op.size := by
  by_cases h : start + len ≤ 32 * (start / 32 + 1)
  · rw [splitOps_one _ _ _ _ _ h]
    simpa using hd
  · rw [splitOps_pair _ _ _ _ _ (Nat.lt_of_not_le h)]
    simp only [List.mem_cons, List.not_mem_nil, or_false, forall_eq_or_imp, forall_eq, List.length_take,
      List.length_drop]
    omega

/-! ### The composite image (R76) -/

@[simp] theorem composite_length (bytes : List (Option Byte)) (base : Option (List Byte)) :
    (composite bytes base).length = bytes.length := by simp [composite]

/-- A position of the composite. -/
theorem composite_at (bytes : List (Option Byte)) (base : Option (List Byte)) (p : Nat) :
    (composite bytes base)[p]? = bytes[p]?.map fun x => x.getD ((base.getD []).getD p 0) := by
  simp only [composite, List.getElem?_map, List.getElem?_zipIdx, Option.map_map, Nat.zero_add]
  rfl

/-! ### The first waiting unit (R130) -/

/-- With one unit an owner, a waiting unit is the one that is found for its owner. -/
theorem find_owner (units : List MemUnit) (u : MemUnit) (hn : (units.map (·.owner)).Nodup)
    (hu : u ∈ units) : units.find? (fun v => v.owner == u.owner) = some u := by
  induction units with
  | nil => exact absurd hu (List.not_mem_nil)
  | cons v rest ih =>
    rw [List.map_cons, List.nodup_cons] at hn
    by_cases h : v.owner = u.owner
    · rcases List.mem_cons.mp hu with rfl | hr
      · exact List.find?_cons_of_pos (by simp)
      · exact absurd (List.mem_map.mpr ⟨u, hr, h.symm⟩) hn.1
    · rw [List.find?_cons_of_neg (by simpa using h)]
      exact ih hn.2 ((List.mem_cons.mp hu).resolve_left fun e => h (by rw [e]))

theorem find_owner_none (units : List MemUnit) (owner : UnitOwner) (h : ∀ v ∈ units, v.owner ≠ owner) :
    units.find? (fun v => v.owner == owner) = none := by
  rw [List.find?_eq_none]
  exact fun v hv => by simpa using h v hv

/-- The flush unit whose entry was triggered first is the first waiting unit. -/
theorem State.firstUnit_flush (s : State) (u : MemUnit) (g : Fin 8) (earlier later : List (Fin 8))
    (hn : (s.units.map (·.owner)).Nodup) (hu : u ∈ s.units) (ho : u.owner = .entry g)
    (hf : s.flushOrder = earlier ++ g :: later)
    (he : ∀ h ∈ earlier, ∀ v ∈ s.units, v.owner ≠ .entry h) : s.firstUnit = some u := by
  have hg : s.units.find? (fun v => v.owner == .entry g) = some u := ho ▸ find_owner s.units u hn hu
  have hnone : (earlier.findSome? fun g => s.units.find? fun v => v.owner == .entry g) = none := by
    rw [List.findSome?_eq_none_iff]
    exact fun h hh => find_owner_none _ _ (he h hh)
  unfold State.firstUnit
  rw [hf, List.findSome?_append, hnone, List.findSome?_cons, hg]
  rfl

/-- The dispatcher's unit is the first waiting unit exactly when no flush unit waits. -/
theorem State.firstUnit_dispatcher (s : State) (u : MemUnit) (hn : (s.units.map (·.owner)).Nodup)
    (hu : u ∈ s.units) (ho : u.owner = .dispatcher) :
    s.firstUnit = some u ↔ ∀ g ∈ s.flushOrder, ∀ v ∈ s.units, v.owner ≠ .entry g := by
  have hd : s.units.find? (fun v => v.owner == .dispatcher) = some u := ho ▸ find_owner s.units u hn hu
  unfold State.firstUnit
  cases hx : s.flushOrder.findSome? fun g => s.units.find? fun v => v.owner == .entry g with
  | none =>
    rw [hd]
    refine ⟨fun _ g hg v hv ho' => ?_, fun _ => rfl⟩
    have := List.findSome?_eq_none_iff.mp hx g hg
    exact absurd (List.find?_eq_none.mp this v hv) (by simp [ho'])
  | some v =>
    obtain ⟨g, hg, hv⟩ := List.exists_of_findSome?_eq_some hx
    have hvo : v.owner = .entry g := by simpa using List.find?_some hv
    refine ⟨fun h => ?_, fun h => absurd hvo (h g hg v (List.mem_of_find?_eq_some hv))⟩
    have : v = u := Option.some.inj h
    rw [this, ho] at hvo
    exact absurd hvo (by simp)

end Sys2Proof.Machine
end

