-- ==== Sys2Proof/Tests/Slice0.lean ====
section
/-! SUPPORT. The model's own tests: ill-formed commands that WellFormed refuses, the spec's worked values,
and for every statement with hypotheses a concrete part that meets them. -/

namespace Sys2Proof.Tests

open Sys2Proof Sys2Proof.Machine

set_option Elab.async false

/-! ### WellFormed refuses -/

theorem test_wf_completion_too_long :
    (Instr.completion (.okay (List.replicate 33 0))).wellFormed = false := by decide

theorem test_wf_empty_bad_frame : (Instr.badFrame [] true).wellFormed = false := by decide

theorem test_wf_unknown_names_a_command : (Instr.unknown 0x01 []).wellFormed = false := by decide

theorem test_wf_unknown_too_long :
    (Instr.unknown 0x03 (List.replicate 521 0)).wellFormed = false := by decide +kernel

theorem test_wf_payload_too_long :
    (Instr.tableLoad (List.replicate 521 0)).wellFormed = false := by decide +kernel

theorem test_wf_accepts :
    (Instr.completion (.okay (List.replicate 32 0))).wellFormed = true
      ∧ (Instr.badFrame [0] false).wellFormed = true ∧ (Instr.unknown 0x03 []).wellFormed = true
      ∧ (Instr.tableLoad (List.replicate 520 0)).wellFormed = true := by decide +kernel

/-! ### The spec's worked values -/

/-- The frame of STATUS and the header of RESULT-FETCH (10_maintenance_port.md, Frame Examples). -/
theorem test_frames :
    frameBytes 0x01 [] = [0x01, 0x00, 0x00, 0xFF]
      ∧ frameVerdict [0x01, 0x00, 0x00, 0xFF] false = .good 0x01 []
      ∧ frameVerdict [0x01, 0x00, 0x00, 0xFE] false = .bad
      ∧ frameVerdict [0x7E, 0x00, 0x00, 0x82] false = .fetch
      ∧ frameVerdict [0x01, 0x02, 0x09] false = .bad := by decide

/-- Program E5 (03_edit_programs.md). -/
def e5 : List EditStep :=
  [⟨.float, 0x24, false⟩, ⟨.dig, 4, false⟩, ⟨.req, 1, false⟩, ⟨.minus, 0x2D, true⟩]

/-- Program E7 (03_edit_programs.md). -/
def e7 : List EditStep :=
  [⟨.fill, 0x2A, false⟩, ⟨.dig, 2, false⟩, ⟨.mark, 0x2C, false⟩, ⟨.dig, 3, false⟩,
    ⟨.fixed, 0x2E, false⟩, ⟨.req, 2, false⟩, ⟨.minus, 0x43, false⟩, ⟨.minus, 0x52, true⟩]

theorem test_program_sizes :
    (digitCount e5, outputLength e5, digitCount e7, outputLength e7) = (5, 6, 7, 11) := by decide

/-- "*****5.05CR" and "12,345.67**" (03_edit_programs.md, Program E7). -/
theorem test_format_e7 :
    formatText e7 (-505) = [0x2A, 0x2A, 0x2A, 0x2A, 0x2A, 0x35, 0x2E, 0x30, 0x35, 0x43, 0x52]
      ∧ formatText e7 1234567
        = [0x31, 0x32, 0x2C, 0x33, 0x34, 0x35, 0x2E, 0x36, 0x37, 0x2A, 0x2A] := by decide

/-- "$1234 " and "   $7-" parse; "$$1234" fails at 0, "  12A " and "  12 3" at 4. -/
theorem test_parse_e5 :
    editedReverse some .big .signed 8 e5 [0x24, 0x31, 0x32, 0x33, 0x34, 0x20]
        = { result := [0, 0, 0, 0, 0, 0, 0x04, 0xD2], exc := none }
      ∧ editedReverse some .big .signed 8 e5 [0x20, 0x20, 0x20, 0x24, 0x37, 0x2D]
        = { result := [0xFF, 0xFF, 0xFF, 0xFF, 0xFF, 0xFF, 0xFF, 0xF9], exc := none }
      ∧ (editedReverse some .big .signed 8 e5 [0x24, 0x24, 0x31, 0x32, 0x33, 0x34]).exc
        = some (.syntaxError, some (0, 0x24))
      ∧ (editedReverse some .big .signed 8 e5 [0x20, 0x20, 0x31, 0x32, 0x41, 0x20]).exc
        = some (.syntaxError, some (4, 0x41))
      ∧ (editedReverse some .big .signed 8 e5 [0x20, 0x20, 0x31, 0x32, 0x20, 0x33]).exc
        = some (.syntaxError, some (4, 0x20)) := by decide +kernel

/-- The PACKED examples (02_code_tables_and_field_conversions.md). -/
theorem test_packed :
    packedForward .big .signed 6 [0xFF, 0xFF, 0xFB, 0x2E]
        = { result := [0, 0, 0, 0x01, 0x23, 0x4D], exc := none }
      ∧ packedReverse .big .signed 4 [0, 0, 0, 0x01, 0x2A, 0x4D]
        = { result := [0, 0, 0, 0], exc := some (.digit, some (4, 0xA)) }
      ∧ packedReverse .big .signed 4 [0, 0, 0, 0, 0x07, 0x5B]
        = { result := [0xFF, 0xFF, 0xFF, 0xB5], exc := none }
      ∧ packedForward .little .signed 3 [0xC0, 0x1D, 0xFE, 0xFF]
        = { result := [0x99, 0x99, 0x9D], exc := some (.overflow, none) }
      ∧ packedReverse .little .signed 1 [0x20, 0x0D] = { result := [0x80], exc := some (.range, none) }
      ∧ packedReverse .little .signed 1 [0x37]
        = { result := [0], exc := some (.sign, some (0, 0x7)) } := by decide +kernel

/-- Code table T1 (02_code_tables_and_field_conversions.md, Loading Table T1). -/
def t1 : List (Option Byte) :=
  (List.range 256).map fun v =>
    if v = 0x20 then some 0x40
    else if 0x30 ≤ v ∧ v ≤ 0x39 then some (toByte (v + 0x50))
    else if 0x41 ≤ v ∧ v ≤ 0x5A then some (toByte (v + 0x60))
    else if 0x61 ≤ v ∧ v ≤ 0x7A then some (toByte (v + 0x40))
    else none

theorem test_table_t1 :
    reverseEntry t1 0xA1 = some 0x41 ∧ reverseEntry t1 0x85 = some 0x35 ∧ reverseEntry t1 0x5F = none
      ∧ isBijective t1 = false := by decide +kernel

theorem test_unreached : unreachedCount [some 0, some 1, some 0, none] = 254 := by decide +kernel

/-! ### A small part

W0 is ACTIVE at view base 0x1000 over layout L0: field 0 RAW of 4 bytes, field 1 RAW of 2 bytes and
read-only, bytes 6 and 7 holes. Its store base is 0x100. -/

def field0 : FieldDesc :=
  { viewOff := 0, viewLen := 4, storeOff := 0, storeLen := 4, kind := .raw, readOnly := false }

def field1 : FieldDesc :=
  { viewOff := 4, viewLen := 2, storeOff := 4, storeLen := 2, kind := .raw, readOnly := true }

def cfg0 : WindowCfg :=
  { WindowCfg.powerOn with
    viewBase := 0x1000, recordCount := 16, storeBase := 0x100, stride := 8, gatherTimeout := 5
    holdLimit := 3 }

def inMode (mode : LiveMode) (cfg : WindowCfg) : State :=
  { State.reset with
    windows := State.reset.windows.set 0 { cfg, status := .live mode 8 8 }
    layouts := State.reset.layouts.set 0 (.built .valid 8 8 [field0, field1]) }

def live : State := inMode .active cfg0

def substituting : State := inMode .active { cfg0 with policy := .substitute }

def asked (s : State) (r : Request) : State :=
  { s with txns := [{ id := 0, req := r, state := .queued }], txnCounter := 1 }

/-- Entry g holds field 0 of record i. -/
def holding (s : State) (g : Fin 8) (i : Nat) (stage : Stage) (bytes : List (Option Byte)) (age : Nat) :
    State :=
  { s with
    entries := s.entries.set g
      { openOrder := 0, fault := false, slot := .held stage
          { key := { window := 0, record := i, field := 0 }, bytes, base := none, age, confirm := []
            rank := none, opsLeft := 1, got := [], failed := false } }
    openList := s.openList ++ [g] }

def part3 : List (Option Byte) := [some 1, some 2, some 3, none]

def whole4 : List (Option Byte) := [some 1, some 2, some 3, some 4]

def gathered (bytes : List (Option Byte)) : State := holding live 0 0 .gathering bytes 0

theorem keysApart_of_check (s : State)
    (h : ∀ g h : Fin 8, s.entries[g].key?.isSome = true → s.entries[g].key? = s.entries[h].key? →
      g = h) : s.KeysApart := by
  intro g k key hg hk
  exact h g k (by rw [hg]; rfl) (by rw [hg, hk])

theorem test_live_is_sound_part : live.decode 0x1007 = some ⟨0, .active, 0, 7⟩
    ∧ live.decode 0x1080 = none ∧ live.decode 0x0FFF = none ∧ live.quiet = true := by decide +kernel

/-! ### Witnesses: resets and the P-port -/

def okTxn (id : Nat) : Txn := { id, req := .fence 0, state := .ready .okay [] }

def full (n : Nat) : State := { live with txns := (List.range n).map okTxn, txnCounter := n }

theorem witness_StepRunsFrontCommand : State.reset.pending = [] := by decide

theorem witness_PowerOnResetRestoresReset :
    State.reset.settle.offers = []
      ∧ (let t := State.settle { State.reset with rstLow := true, offers := List.replicate 9 (.fence 0) }
        t.prstLow = false ∧ t.txns = [] ∧ t.offers.length = 9)
      ∧ (State.settle { State.reset with rstLow := true, prstLow := true }).prstLow = true := by
  decide +kernel

theorem witness_BusResetDropsProcessorSide :
    (gathered part3).settle.prstLow = false
      ∧ (∀ g : Fin 8, (gathered part3).settle.entries[g].isGathering = true →
        g ∈ (gathered part3).settle.openList)
      ∧ (gathered part3).settle.entries[(0 : Fin 8)].isGathering = true
      ∧ (gathered part3).settle.entries[(7 : Fin 8)].isFree = true
      ∧ (gathered part3).settle.openList.Nodup
      ∧ (holding live 0 0 .writing whole4 0).settle.entries[(0 : Fin 8)].isFlushing = true := by
  decide +kernel

theorem witness_BusResetReleaseTakesOffers :
    let s : State := { live with prstLow := true, offers := List.replicate 9 (.fence 0) }
    s.settle.rstLow = false ∧ s.settle.txns = [] ∧ s.settle.offers.length = 9 := by decide +kernel

theorem witness_RequestTakenOrWaits :
    ((full 7).settle.offers = [] ∧ (full 7).settle.rstLow = false ∧ (full 7).settle.prstLow = false
        ∧ (full 7).settle.txns.length < 8)
      ∧ 8 ≤ (full 8).settle.txns.length
      ∧ (State.settle { live with prstLow := true }).prstLow = true
      ∧ (State.settle { live with rstLow := true }).rstLow = true := by decide +kernel

theorem witness_ResponseTakenRemovesOldest :
    ((full 1).settle.txns = [okTxn 0] ∧ (full 1).settle.offers = [])
      ∧ (let t := State.settle { full 8 with offers := [.fence 1] }
        t.txns = okTxn 0 :: t.txns.tail ∧ t.offers = [.fence 1] ∧ t.rstLow = false
          ∧ t.prstLow = false ∧ t.txns.tail.length = 7)
      ∧ live.settle.released = none := by decide +kernel

/-- A request that is next and due, with its access well formed or not as said. -/
def offered (s : State) (r : Request) (ok : Bool) : Prop :=
  (asked s r).nextTxn = some { id := 0, req := r, state := .queued } ∧ (asked s r).offerDue = true
    ∧ (∀ tag, r ≠ .fence tag) ∧ wellFormedAccess r.addr r.size = ok

theorem witness_MalformedRequestAnswered :
    offered live (.read 0x1001 2 3) false ∧ offered live (.read 0x1002 3 3) false
      ∧ offered live (.write 0x1000 [] 3) false :=
  ⟨⟨by decide +kernel, by decide +kernel, nofun, by decide⟩,
    ⟨by decide +kernel, by decide +kernel, nofun, by decide⟩,
    ⟨by decide +kernel, by decide +kernel, nofun, by decide⟩⟩

theorem witness_RefusedAndDiscardedWrites :
    offered live (.write 0x1006 [7] 3) true ∧ live.decode 0x1006 = some ⟨0, .active, 0, 6⟩
      ∧ live.windows[(0 : Fin 8)].cfg.policy = .strict
      ∧ holeTouching (live.fieldsOf 0) 6 1 = true
      ∧ offered live (.write 0x1004 [7, 8] 3) true
      ∧ (protectField (live.fieldsOf 0) 4 2).isSome = true :=
  ⟨⟨by decide +kernel, by decide +kernel, nofun, by decide⟩, by decide +kernel, by decide +kernel,
    by decide +kernel, ⟨by decide +kernel, by decide +kernel, nofun, by decide⟩, by decide +kernel⟩

theorem witness_RefusedAndDiscardedWrites_discarded :
    offered substituting (.write 0x1004 [7, 8, 9, 10] 3) true
      ∧ substituting.decode 0x1004 = some ⟨0, .active, 0, 4⟩
      ∧ substituting.windows[(0 : Fin 8)].cfg.policy = .substitute
      ∧ keptFields (substituting.fieldsOf 0) 4 4 = [] :=
  ⟨⟨by decide +kernel, by decide +kernel, nofun, by decide⟩, by decide +kernel⟩

/-- The first byte of field 0 and the last, the first hole; the record of a HOLE and of a PROTECT write. -/
theorem witness_RefusedAndDiscardedWrites_split :
    let fields := live.fieldsOf 0
    live.layouts[live.windows[(0 : Fin 8)].cfg.layout] = .built .valid 8 8 [field0, field1]
      ∧ fields = [field0, field1] ∧ ownerOf fields 3 = some (field0, 0) ∧ ownerOf fields 4 = some (field1, 1)
      ∧ ownerOf fields 5 = some (field1, 1) ∧ ownerOf fields 6 = none
      ∧ touchedFields fields 3 2 = [(field0, 0), (field1, 1)] ∧ touchedFields fields 3 1 = [(field0, 0)]
      ∧ holeTouching fields 5 1 = false ∧ holeTouching fields 5 2 = true
      ∧ protectField fields 3 2 = some 1 ∧ protectField fields 0 4 = none
      ∧ keptFields fields 3 2 = [0] := by decide +kernel

theorem witness_WritesGathered :
    offered live (.write 0x1003 [7] 3) true ∧ live.decode 0x1003 = some ⟨0, .active, 0, 3⟩
      ∧ ownerOf (live.fieldsOf 0) 3 = some (field0, 0)
      ∧ touchedFields (live.fieldsOf 0) 3 1 = [(field0, 0)] ∧ live.KeysApart
      ∧ live.entryFor ⟨0, 0, 0⟩ = none ∧ live.lowestFree = some 0 :=
  ⟨⟨by decide +kernel, by decide +kernel, nofun, by decide⟩, by decide +kernel, by decide +kernel,
    by decide +kernel, keysApart_of_check _ (by decide +kernel), by decide +kernel⟩

theorem witness_WritesGathered_entry :
    (gathered part3).KeysApart
      ∧ ((gathered part3).entryFor ⟨0, 0, 0⟩).map (·.1) = some 0
      ∧ (part3.set 0 (some 9)).all (·.isSome) = false ∧ (part3.set 3 (some 9)).all (·.isSome) = true
      ∧ ((gathered part3).openList.filter fun h => h == 0) = [0] :=
  ⟨keysApart_of_check _ (by decide +kernel), by decide +kernel, by decide, by decide, by decide⟩

/-- Field 0 of one byte, field 1 of two, field 2 of one byte and read-only, four holes. -/
def wide (policy : Policy) (ack : Ack) : State :=
  { inMode .active { cfg0 with policy, ack } with
    layouts := State.reset.layouts.set 0 (.built .valid 8 8
      [{ field0 with viewLen := 1, storeLen := 1 }, { field1 with viewOff := 1, readOnly := false },
        { field1 with viewOff := 3, viewLen := 1, storeLen := 1 }]) }

theorem wide_apart (policy : Policy) (ack : Ack) : (wide policy ack).KeysApart :=
  keysApart_of_check _ (by cases policy <;> cases ack <;> decide +kernel)

theorem wide_opens (policy : Policy) (ack : Ack) : (wide policy ack).OpensInOrder :=
  ⟨List.nodup_nil, by cases policy <;> cases ack <;> decide +kernel⟩

/-- A write over both writable fields, with and without discarded bytes, and with every entry taken but
two. -/
theorem witness_WritesGathered_several :
    let fields := (wide .substitute .confirmed).fieldsOf 0
    offered (wide .strict .posted) (.write 0x1000 [7, 8] 3) true
      ∧ keptFields fields 0 2 = [0, 1] ∧ holeTouching fields 0 2 = false
      ∧ protectField fields 0 2 = none
      ∧ offered (wide .substitute .confirmed) (.write 0x1000 [1, 2, 3, 4, 5, 6, 7, 8] 3) true
      ∧ keptFields fields 0 8 = [0, 1] ∧ holeTouching fields 0 8 = true
      ∧ (wide .substitute .confirmed).decode 0x1000 = some ⟨0, .active, 0, 0⟩
      ∧ ((List.finRange 8).filter fun g => (wide .strict .posted).entries[g].isFree).length = 8
      ∧ (wide .strict .posted).entryFor ⟨0, 0, 1⟩ = none
      ∧ (gathered part3).stageOf ⟨0, 0, 0⟩ = some .gathering :=
  ⟨⟨by decide +kernel, by decide +kernel, nofun, by decide⟩, by decide +kernel, by decide +kernel,
    by decide +kernel, ⟨by decide +kernel, by decide +kernel, nofun, by decide⟩, by decide +kernel⟩

theorem witness_WritesGathered_oneByteField :
    let s := wide .strict .posted
    let f : FieldDesc := { field0 with viewLen := 1, storeLen := 1 }
    offered s (.write 0x1000 [7] 3) true ∧ s.decode 0x1000 = some ⟨0, .active, 0, 0⟩
      ∧ ownerOf (s.fieldsOf 0) 0 = some (f, 0) ∧ touchedFields (s.fieldsOf 0) 0 1 = [(f, 0)]
      ∧ s.entryFor ⟨0, 0, 0⟩ = none ∧ s.lowestFree = some 0 ∧ (0 : Fin 8) ∉ s.openList :=
  ⟨⟨by decide +kernel, by decide +kernel, nofun, by decide⟩, by decide +kernel, by decide +kernel,
    by decide +kernel, by decide +kernel, by decide +kernel, by decide⟩

/-- The entries G0 to G7 gather field 0 of records 1 to 8. -/
def crowded : State :=
  (List.finRange 8).foldl (fun s g => holding s g (g.val + 1) .gathering part3 0) live

theorem witness_WriteWaitsAndEvicts :
    offered live (.write 0x1000 [7] 3) true ∧ keptFields (live.fieldsOf 0) 0 1 = [0]
      ∧ holeTouching (live.fieldsOf 0) 0 1 = false ∧ protectField (live.fieldsOf 0) 0 1 = none
      ∧ crowded.stageOf ⟨0, 0, 0⟩ = none ∧ crowded.countEntries Entry.isFree = 0
      ∧ (holding live 0 0 .writing part3 0).stageOf ⟨0, 0, 0⟩ = some .writing :=
  ⟨⟨by decide +kernel, by decide +kernel, nofun, by decide⟩, by decide +kernel⟩

theorem witness_WriteWaitsAndEvicts_lookups :
    (gathered part3).KeysApart ∧ (gathered part3).entries[(0 : Fin 8)].key? = some ⟨0, 0, 0⟩
      ∧ (gathered part3).entryFor ⟨0, 1, 0⟩ = none ∧ (gathered part3).lowestFree = some 1
      ∧ crowded.lowestFree = none
      ∧ crowded.gatheringWhere (fun k => k.record == 8) = [7] :=
  ⟨keysApart_of_check _ (by decide +kernel), by decide +kernel⟩

theorem witness_ReadOfHolesAnswered :
    offered live (.read 0x1006 2 3) true ∧ live.decode 0x1006 = some ⟨0, .active, 0, 6⟩
      ∧ touchedFields (live.fieldsOf 0) 6 2 = [] :=
  ⟨⟨by decide +kernel, by decide +kernel, nofun, by decide⟩, by decide +kernel⟩

theorem witness_ReadsDispatched :
    offered live (.read 0x1000 4 3) true ∧ live.decode 0x1000 = some ⟨0, .active, 0, 0⟩
      ∧ touchedFields (live.fieldsOf 0) 0 4 = [(field0, 0)]
      ∧ (∀ k < 4, ownerOf (live.fieldsOf 0) (0 + k) = some (field0, 0))
      ∧ live.entryFor ⟨0, 0, 0⟩ = none
      ∧ ((gathered whole4).entryFor ⟨0, 0, 0⟩).map (fun x => (x.1, x.2.2.bytes)) = some (0, whole4) :=
  ⟨⟨by decide +kernel, by decide +kernel, nofun, by decide⟩, by decide +kernel⟩

/-- A read over both fields and the holes: it waits behind a flushing entry, takes a partly written one as
snapshot, and goes to memory for the other field. -/
theorem witness_ReadsDispatched_mixed :
    offered live (.read 0x1000 8 3) true
      ∧ touchedFields (live.fieldsOf 0) 0 8 = [(field0, 0), (field1, 1)]
      ∧ ownerOf (live.fieldsOf 0) 6 = none
      ∧ (holding live 0 0 .merging part3 0).stageOf ⟨0, 0, 0⟩ = some .merging
      ∧ ((gathered part3).entryFor ⟨0, 0, 0⟩).map (·.2.2.bytes) = some part3
      ∧ (gathered part3).entryFor ⟨0, 0, 1⟩ = none
      ∧ offered live (.read 0x1004 4 3) true
      ∧ touchedFields (live.fieldsOf 0) 4 4 = [(field1, 1)] :=
  ⟨⟨by decide +kernel, by decide +kernel, nofun, by decide⟩, by decide +kernel, by decide +kernel,
    by decide +kernel, by decide +kernel, by decide +kernel,
    ⟨by decide +kernel, by decide +kernel, nofun, by decide⟩, by decide +kernel⟩

theorem witness_PassThroughDispatched :
    offered live (.read 0x2000 8 3) true ∧ offered live (.write 0x1080 [7] 3) true
      ∧ live.decode 0x2000 = none ∧ live.decode 0x1080 = none
      ∧ live.anyOverlapped 0x2000 8 = false ∧ (gathered part3).anyOverlapped 0x104 4 = false :=
  ⟨⟨by decide +kernel, by decide +kernel, nofun, by decide⟩,
    ⟨by decide +kernel, by decide +kernel, nofun, by decide⟩, by decide +kernel⟩

theorem witness_RawOverlapWaits :
    offered (gathered part3) (.read 0x103 1 3) true ∧ (gathered part3).decode 0x103 = none
      ∧ (gathered part3).anyOverlapped 0x103 1 = true :=
  ⟨⟨by decide +kernel, by decide +kernel, nofun, by decide⟩, by decide +kernel⟩

theorem witness_HeldRequestWaits :
    let s := inMode .suspended cfg0
    offered s (.read 0x1000 1 3) true ∧ s.decode 0x1000 = some ⟨0, .suspended, 0, 0⟩
      ∧ s.disp ≠ .holding 0
      ∧ (State.offerDue { asked s (.read 0x1000 1 3) with disp := .holding 2, reoffer := true }) = true :=
  ⟨⟨by decide +kernel, by decide +kernel, nofun, by decide⟩, by decide +kernel, by decide,
    by decide +kernel⟩

theorem witness_FenceDispatched :
    (asked (gathered part3) (.fence 3)).nextTxn = some { id := 0, req := .fence 3, state := .queued }
      ∧ (asked (gathered part3) (.fence 3)).offerDue = true := by decide +kernel

/-- The MWRITE behind which two MREADs stand, and none. -/
theorem witness_FenceDispatched_lastMwrite :
    let read : MemOp := { kind := .mread, addr := 0, size := 1, data := [], source := .nobody }
    let write : MemOp := { kind := .mwrite, addr := 0, size := 1, data := [7], source := .nobody }
    State.lastMwrite { live with outstanding := [⟨0, write⟩, ⟨1, write⟩, ⟨2, read⟩, ⟨3, read⟩] } = some 1
      ∧ State.lastMwrite { live with outstanding := [⟨2, read⟩] } = none := by decide +kernel

/-! ### Witnesses: timers, memory queue, drain, conversion -/

def aging (bytes : List (Option Byte)) : State := holding live 0 0 .gathering bytes 5

theorem witness_AgeTriggerFlushes :
    (aging part3).aged = [0] ∧ (aging whole4).aged = [0] ∧ whole4.all (·.isSome) = true
      ∧ part3.all (·.isSome) = false ∧ (holding live 0 0 .gathering part3 4).aged = []
      ∧ (holding (aging part3) 7 1 .gathering whole4 6).aged = [0, 7]
      ∧ (holding (aging part3) 7 1 .gathering whole4 6).openList.Nodup := by
  decide +kernel

/-- G7 and G0 are flushed at one event, in this order. -/
theorem witness_AgeTriggerFlushes_general :
    let s := holding (aging part3) 7 1 .gathering whole4 6
    ([7, 0] : List (Fin 8)).Nodup ∧ (∀ g ∈ ([7, 0] : List (Fin 8)), s.entries[g].isGathering = true)
      ∧ (s.startFlushes [7, 0]).flushOrder = [7, 0] := by decide +kernel

theorem witness_HoldExpiryAnswers :
    let s : State := { asked (inMode .draining cfg0) (.read 0x1000 1 3) with disp := .holding 3 }
    s.nextTxn = some { id := 0, req := .read 0x1000 1 3, state := .queued }
      ∧ s.decode 0x1000 = some ⟨0, .draining, 0, 0⟩ ∧ s.windows[(0 : Fin 8)].cfg.holdLimit = 3 := by
  decide +kernel

theorem witness_HoldExpiryAnswers_expired :
    let s : State := { asked live (.read 0x1000 1 3) with reoffer := true }
    s.disp = .idle ∧ s.placementDue = false ∧ s.startDue = false ∧ s.issueDue = false
      ∧ (∀ w : Fin 8, s.drainDue w = false) ∧ s.aged = [] := by decide +kernel

def readOp (source : Source) : MemOp := { kind := .mread, addr := 0x100, size := 4, data := [], source }

def writeOp (source : Source) : MemOp :=
  { kind := .mwrite, addr := 0x100, size := 4, data := [1, 2, 3, 4], source }

def busy (n : Nat) (units : List MemUnit) (disp : Disp) : State :=
  { live with outstanding := List.replicate n ⟨0, readOp .nobody⟩, units, disp }

def dispUnit (n : Nat) : MemUnit := { owner := .dispatcher, ops := List.replicate n (readOp .nobody) }

def flushUnit : MemUnit := { owner := .entry 0, ops := [readOp (.entry 0 .merging)] }

theorem witness_UnitIssuedInOrder :
    (busy 7 [dispUnit 1] (.issuing 0 [])).firstUnit = some (dispUnit 1)
      ∧ 7 + (dispUnit 1).ops.length ≤ 8 ∧ 8 < 7 + (dispUnit 2).ops.length
      ∧ State.firstUnit { busy 0 [dispUnit 1, flushUnit] .idle with flushOrder := [0] }
        = some flushUnit := by decide +kernel

/-- Both entries' units wait, with the dispatcher's; G3 was triggered before G0. -/
theorem witness_UnitIssuedInOrder_ranks :
    let later : MemUnit := { owner := .entry 3, ops := [readOp (.entry 3 .merging)] }
    let s : State := { busy 0 [dispUnit 1, flushUnit, later] (.issuing 0 []) with flushOrder := [3, 0] }
    (s.units.map (·.owner)).Nodup ∧ s.flushOrder = [] ++ 3 :: [0] ∧ later ∈ s.units
      ∧ s.firstUnit = some later
      ∧ (∀ h ∈ [(3 : Fin 8)], ∀ v ∈ [dispUnit 1, flushUnit], v.owner ≠ .entry h)
      ∧ State.firstUnit { s with units := [dispUnit 1, flushUnit] } = some flushUnit
      ∧ State.firstUnit { s with units := [dispUnit 1] } = some (dispUnit 1) := by decide +kernel

def awaiting (op : MemOp) (disp : Disp := .idle) : State :=
  { live with outstanding := [⟨0, op⟩], disp }

theorem witness_PassThroughCompleted :
    (awaiting (readOp (.passThrough 0))).settle.outstanding = [⟨0, readOp (.passThrough 0)⟩]
      ∧ (awaiting (writeOp (.passThrough 0))).settle.outstanding = [⟨0, writeOp (.passThrough 0)⟩]
      ∧ (awaiting (readOp .nobody)).settle.outstanding = [⟨0, readOp .nobody⟩]
      ∧ (awaiting (writeOp .nobody)).settle.outstanding = [⟨0, writeOp .nobody⟩]
      ∧ (readOp .nobody).accepts (.okay [1, 2, 3, 4]) = true
      ∧ (writeOp .nobody).accepts (.okay []) = true ∧ (writeOp .nobody).accepts .error = true
      ∧ live.settle.outstanding = [] ∧ live.settle.rstLow = false := by decide +kernel

/-- Every entry that is not FREE awaits as many completions, one of which has failed or none. -/
def withOps (s : State) (left : Nat) (failed : Bool) : State :=
  { s with
    entries := s.entries.map fun e => match e.slot with
      | .held stage b => { e with slot := .held stage { b with opsLeft := left, failed } }
      | .free => e }

theorem witness_FieldWriteCompleted :
    let t := State.settle
      { holding live 0 0 .writing whole4 0 with outstanding := [⟨0, writeOp (.entry 0 .writing)⟩] }
    t.rstLow = false ∧ t.outstanding = [⟨0, writeOp (.entry 0 .writing)⟩] ∧ t.log.length < 16
      ∧ t.entries[(0 : Fin 8)] = (holding live 0 0 .writing whole4 0).entries[(0 : Fin 8)] := by
  decide +kernel

/-- The first completion of a pair, and the last one after one that failed. -/
theorem witness_FieldWriteCompleted_pair :
    let op : Issued := ⟨0, writeOp (.entry 0 .writing)⟩
    let s := { holding live 0 0 .writing whole4 0 with outstanding := [op, op] }
    (withOps s 2 false).settle.outstanding = [op, op] ∧ op.op.accepts .error = true
      ∧ op.op.accepts (.okay []) = true
      ∧ (withOps s 2 false).settle.entries[(0 : Fin 8)] = (withOps s 2 false).entries[(0 : Fin 8)]
      ∧ (withOps s 1 true).settle.entries[(0 : Fin 8)] = (withOps s 1 true).entries[(0 : Fin 8)] := by
  decide +kernel

def waitingTxn (w : Waiting) : Txn := { id := 0, req := .fence 0, state := .waiting w }

/-- Outcomes at a window WRITE with two entries to go and with one, and at FENCEs. -/
theorem witness_FieldWriteCompleted_transactions :
    ((waitingTxn (.windowWrite 0 2 false)).confirm .error).state = .waiting (.windowWrite 0 1 true)
      ∧ ((waitingTxn (.windowWrite 0 1 true)).confirm .okay).state = .ready .error []
      ∧ ((waitingTxn (.windowWrite 0 1 false)).confirm .okay).state = .ready .okay []
      ∧ ((waitingTxn (.fence [0, 3] none)).fenceFreed 3).state = .waiting (.fence [0] none)
      ∧ ((waitingTxn (.fence [3] none)).fenceFreed 3).state = .ready .okay []
      ∧ ((waitingTxn (.fence [3] (some 9))).fenceFreed 3).state = .waiting (.fence [] (some 9))
      ∧ ((waitingTxn (.fence [] (some 9))).fenceWritten 8).state = .waiting (.fence [] (some 9))
      ∧ ((waitingTxn (.fence [] (some 9))).fenceWritten 9).state = .ready .okay []
      ∧ (waitingTxn .passThrough).confirm .error = waitingTxn .passThrough
      ∧ (gathered part3).entries[(0 : Fin 8)].isFree = false := by decide +kernel

/-- A window READ of four bytes that waits for its one field read. -/
def readCtx0 : ReadCtx :=
  { window := 0, record := 0, offset := 0, size := 4, image := List.replicate 4 none
    fields := [{ field := 0, snapshot := [], backfill := none, got := [], failed := false }]
    opsLeft := 1 }

def reading : State :=
  { live with
    txns := [{ id := 0, req := .read 0x1000 4 3, state := .waiting (.windowRead readCtx0) }] }

theorem witness_ReadsOfMemoryCompleted :
    let op := readOp (.windowRead 0 0 .whole)
    let t := State.settle { reading with outstanding := [⟨0, op⟩] }
    t.outstanding = [⟨0, op⟩] ∧ op.accepts (.okay [1, 2, 3, 4]) = true ∧ op.accepts .error = true
      ∧ (t.txn? 0).map (·.state) = some (.waiting (.windowRead readCtx0))
      ∧ (State.settle { holding live 0 0 .merging part3 0 with
          outstanding := [⟨0, readOp (.entry 0 .merging)⟩] }).outstanding
        = [⟨0, readOp (.entry 0 .merging)⟩] := by decide +kernel

/-- The first completion of a pair of merge reads and of a window READ, and the last after a failed one. -/
theorem witness_ReadsOfMemoryCompleted_pair :
    let op : Issued := ⟨0, readOp (.entry 0 .merging)⟩
    let s := { holding live 0 0 .merging part3 0 with outstanding := [op, op] }
    let ctx : ReadCtx := { readCtx0 with opsLeft := 2 }
    let q : Txn := { id := 0, req := .read 0x1000 4 3, state := .waiting (.windowRead ctx) }
    let r : Issued := ⟨0, readOp (.windowRead 0 0 .lower)⟩
    (withOps s 2 false).settle.outstanding = [op, op]
      ∧ (withOps s 2 false).settle.entries[(0 : Fin 8)] = (withOps s 2 false).entries[(0 : Fin 8)]
      ∧ (withOps s 1 true).settle.entries[(0 : Fin 8)] = (withOps s 1 true).entries[(0 : Fin 8)]
      ∧ (State.settle { live with txns := [q], outstanding := [r, r] }).txn? 0 = some q
      ∧ (State.settle { live with txns := [q], outstanding := [r, r] }).outstanding = [r, r] := by
  decide +kernel

/-- The drain condition holds, and each of its three parts fails alone (`State.drained_iff` writes them
out). -/
theorem witness_DrainCompletes :
    let s := inMode .draining cfg0
    s.windows[(0 : Fin 8)].status = .live .draining 8 8 ∧ s.drained 0 = true
      ∧ (holding s 0 0 .writing part3 0).drained 0 = false
      ∧ State.drained { s with txns := reading.txns } 0 = false
      ∧ State.drained { s with txns := [waitingTxn (.windowWrite 0 1 false)] } 0 = false
      ∧ State.drained { s with toPlace := [.read 0 0 0 0 4 []] } 0 = false
      ∧ State.drained { s with jobs := [.read 0 1 0 0 4 []] } 0 = true := by decide +kernel

/-- The three parts in the words of the statements. -/
theorem witness_DrainCompletes_parts : let s := inMode .draining cfg0
    (∀ (g : Fin 8) (stage : Stage) (b : Gather), s.entries[g].slot = .held stage b → b.key.window ≠ 0)
      ∧ (∀ x ∈ s.txns, (∀ ctx, x.state = .waiting (.windowRead ctx) → ctx.window ≠ 0)
        ∧ ∀ v count errorFlag, x.state = .waiting (.windowWrite v count errorFlag) → v ≠ 0)
      ∧ (∀ id v record offset size fields,
        Job.read id v record offset size fields ∈ s.jobs ++ s.toPlace → v ≠ 0) :=
  ((inMode .draining cfg0).drained_iff 0).mp (by decide +kernel)

def flushJob (bytes : List (Option Byte)) (merge : Option (List Byte)) : Job :=
  .flush 0 0 ⟨0, 0, 0⟩ bytes none merge

/-- One PACKED field of one byte on either side: 255 overflows it, 0x37 has no sign. -/
def packed0 : FieldDesc :=
  { viewOff := 0, viewLen := 1, storeOff := 0, storeLen := 1, kind := .packed .unsigned
    readOnly := false }

def packedPart (policy : Policy) : State :=
  { inMode .active { cfg0 with policy } with
    layouts := State.reset.layouts.set 0 (.built .valid 8 8 [packed0]) }

def converting (s : State) (bytes : List (Option Byte)) (merge : Option (List Byte)) : State :=
  { holding s 0 0 .converting bytes 0 with jobs := [flushJob bytes merge], running := true }

theorem witness_JobsPlacedAndStarted :
    let s : State := { live with
      toPlace := [flushJob part3 none], jobs := List.replicate 15 (flushJob part3 none) }
    s.jobs.length < 16 ∧ s.running = false ∧ s.jobs ≠ []
      ∧ (List.replicate 16 (flushJob part3 none)).length = 16 := by decide +kernel

theorem witness_FlushJobEnds :
    let s := converting (packedPart .strict) [some 0xFF]
    (s (some [0x37])).settle.running = true
      ∧ (s (some [0x37])).settle.jobs = [flushJob [some 0xFF] (some [0x37])]
      ∧ (s none).settle.jobs = [flushJob [some 0xFF] none]
      ∧ (s none).settle.entries[(0 : Fin 8)] = (s none).entries[(0 : Fin 8)]
      ∧ ((s none).convertReverse cfg0 packed0 [0x37]).exc = some (.sign, some (0, 7))
      ∧ ((s none).convertReverse cfg0 packed0 [0x7C]).exc = none
      ∧ ((s none).convertForward cfg0 packed0 (composite [some 0xFF] none)).exc
        = some (.overflow, none)
      ∧ (packedPart .substitute).windows[(0 : Fin 8)].cfg.policy = .substitute := by decide +kernel

/-- A field that ends at a block boundary, one that crosses it by a byte, and a composite over a base. -/
theorem witness_FlushJobEnds_units :
    let sizes := fun start len =>
      (splitOps .mwrite start len (List.replicate len 7) fun _ => .nobody).map fun op => (op.addr, op.size)
    sizes 0x11C 4 = [(0x11C, 4)] ∧ sizes 0x11C 5 = [(0x11C, 4), (0x120, 1)]
      ∧ sizes 0x101 32 = [(0x101, 31), (0x120, 1)] ∧ sizes 0x100 32 = [(0x100, 32)]
      ∧ composite part3 (some [9, 9, 9, 9]) = [1, 2, 3, 9]
      ∧ (live.fieldsOf 0)[1]? = some field1 ∧ live.storeAddrOf ⟨0, 15, 1⟩ = 0x17C := by decide +kernel

def memField0 (got : List Byte) : MemField :=
  { field := 0, snapshot := [], backfill := none, got, failed := false }

def readEnding (s : State) (got : List Byte) : State :=
  { s with
    txns := [{ id := 0, req := .read 0x1000 4 3, state := .waiting (.windowRead readCtx0) }]
    jobs := [.read 0 0 0 0 4 [memField0 got]], running := true }

theorem witness_ReadJobEnds :
    let s := readEnding live [1, 2, 3, 4]
    let t := s.settle
    t.running = true ∧ t.jobs = s.jobs
      ∧ (t.txn? 0).map (·.state) = some (.waiting (.windowRead readCtx0))
      ∧ ((t.readOutcomes 0 [memField0 [1, 2, 3, 4]]).all fun x => x.2.exc.isNone) = true
      ∧ (((readEnding (packedPart .strict) [0x37]).settle.readOutcomes 0 [memField0 [0x37]]).any
          fun x => x.2.exc.isSome) = true
      ∧ (readEnding (packedPart .substitute) [0x37]).settle.running = true := by
  decide +kernel

/-- A READ job whose transaction bus reset has removed, with a backfill recorded for a GATHERING entry. -/
theorem witness_ReadJobEnds_removed :
    let m : MemField := { memField0 [1, 2, 3, 4] with backfill := some (0, 0) }
    let s : State := { gathered part3 with jobs := [.read 0 0 0 0 4 [m]], running := true }
    s.settle.running = true ∧ s.settle.jobs = s.jobs ∧ s.settle.txn? 0 = none
      ∧ s.settle.entries[(0 : Fin 8)] = (gathered part3).entries[(0 : Fin 8)]
      ∧ (s.convertReverse cfg0 field0 [1, 2, 3, 4]).exc = none := by decide +kernel

/-- A load buffer of 256 entries, every view code on store code 5. -/
def buffer5 : List (Option Byte) := List.replicate 256 (some 5)

theorem witness_TableBuildCompletes :
    (State.settle { live with build := some { table := 0, entries := buffer5 } }).build
        = some { table := 0, entries := buffer5 }
      ∧ buffer5.length = 256 ∧ live.settle.build = none := by decide +kernel

/-- A recheck of a VALID layout that passes, of one that fails, and of a DRAFT. -/
theorem witness_TableBuildCompletes_recheck :
    let text : Layout := .built .valid 8 8 [{ field0 with kind := .text (some 0) 0 0 }]
    let bad : Layout :=
      .built (.invalid .notLoaded (some 0)) 8 8 [{ field0 with kind := .text (some 0) 0 0 }]
    text.rechecked live.tables live.programs = bad
      ∧ text.rechecked (live.tables.set 0 (.loaded [] [] false 0)) live.programs = text
      ∧ (Layout.built .draft 8 8 []).rechecked live.tables live.programs = .built .draft 8 8 [] := by
  decide +kernel

/-! ### Witnesses: conversions -/

/-- TEXT over T0, two bytes on the view side and one on the store side. -/
def text0 : FieldDesc :=
  { field0 with viewLen := 2, storeLen := 1, kind := .text (some 0) 0x20 0x40 }

/-- UNMAPPED before TRUNCATE, TRUNCATE at a byte that is not the fill, and neither at the fill; RAW. -/
theorem witness_ReverseMapAndTextConversions :
    let s : State := { live with tables := State.reset.tables.set 0 (.ofForward t1) }
    t1.length = 256 ∧ text0.kind = .text (some 0) 0x20 0x40 ∧ field0.kind = .raw
      ∧ (s.convertForward cfg0 text0 [0x00, 0x41]).exc = some (.unmapped, some (0, 0x00))
      ∧ s.convertForward cfg0 text0 [0x41, 0x41]
        = { result := [0xA1], exc := some (.truncate, some (1, 0x41)) }
      ∧ s.convertForward cfg0 text0 [0x41, 0x20] = { result := [0xA1], exc := none }
      ∧ s.convertReverse cfg0 text0 [0xA1] = { result := [0x41, 0x20], exc := none } := by
  decide +kernel

theorem witness_LoadReportOfTable :
    (List.replicate 256 (none : Option Byte)).length = 256
      ∧ (List.replicate 256 (some (7 : Byte))).length = 256 := by decide +kernel

theorem witness_PackedAndEditedOutcomes_packed :
    (packedForward .big .signed 6 [0xFF, 0xFF, 0xFB, 0x2E]).exc = none
      ∧ (packedForward .little .unsigned 2 [0xFF]).exc = none
      ∧ (viewInteger .little .unsigned [9]).natAbs < 10 ^ (2 * 1 - 1)
      ∧ 10 ^ (2 * 1 - 1) ≤ (viewInteger .little .unsigned [10]).natAbs
      ∧ unpackNibbles [0x9A] = [9, 10] ∧ unpackNibbles [0xA0] = [10, 0] ∧ unpackNibbles [0x09] = [0, 9]
      ∧ viewMin .signed 1 = -128 ∧ viewMax .signed 1 = 127 ∧ viewMax .unsigned 1 = 255
      ∧ packedReverse .little .unsigned 1 [0x1D] = { result := [0], exc := some (.range, none) }
      ∧ packedReverse .little .unsigned 1 [0x25, 0x6C]
        = { result := [255], exc := some (.range, none) } := by decide +kernel

/-- OVERFLOW by magnitude and by a negative value without MINUS, UNMAPPED and SYNTAX. -/
theorem witness_PackedAndEditedOutcomes_edited :
    digitCount e5 = 5 ∧ 10 ^ 5 ≤ (viewInteger .big .signed [0x01, 0x86, 0xA0]).natAbs
      ∧ (viewInteger .big .signed [0x01, 0x86, 0x9F]).natAbs < 10 ^ 5
      ∧ viewInteger .big .signed [0xFF] < 0 ∧ (∀ step ∈ [EditStep.mk .req 1 true], step.op ≠ .minus)
      ∧ (∃ step ∈ e5, step.op = .minus)
      ∧ (editedForward (fun c => if c = 0x24 then none else some c) 0x3F 0x2A .big .signed 6 e5 [7]).exc
        = some (.unmapped, some (3, 0x24))
      ∧ (editedReverse (fun c => if c = 0x24 then none else some c) .big .signed 1 e5
          [0x20, 0x20, 0x20, 0x24, 0x37, 0x20]).exc = some (.unmapped, some (3, 0x24))
      ∧ parseWalk 0 .start ((positionsOf e5).zip [0x24, 0x24, 0x31, 0x32, 0x33, 0x34]) = .error 0
      ∧ editedReverse some .big .unsigned 1 e5 [0x20, 0x20, 0x20, 0x24, 0x37, 0x2D]
        = { result := [0], exc := some (.range, none) } := by decide +kernel

/-- The formatting of E5 where significance turns on at position 0, just after a suppressed fill, and at the
REQ position; the parse of E5 and E7 where it fails at each kind of position, and where it does not. -/
theorem witness_PackedAndEditedOutcomes_walks :
    let parsed := fun (steps : List EditStep) (text : List Byte) =>
      match parseWalk 0 .start ((positionsOf steps).zip text) with
      | .error q => (some q, false, 0)
      | .ok st => (none, st.minusShown, digitsValue st.digits.reverse)
    let texts : List (Int × List Byte) :=
      [(12345, [0x31, 0x32, 0x33, 0x34, 0x35, 0x20]), (1234, [0x24, 0x31, 0x32, 0x33, 0x34, 0x20]),
        (-7, [0x20, 0x20, 0x20, 0x24, 0x37, 0x2D]), (0, [0x20, 0x20, 0x20, 0x24, 0x30, 0x20])]
    let parses : List (List EditStep × List Byte × Option Nat × Bool × Nat) :=
      [(e5, [0x20, 0x20, 0x20, 0x24, 0x37, 0x2D], none, true, 7),
        (e5, [0x24, 0x31, 0x32, 0x33, 0x34, 0x20], none, false, 1234),
        (e5, [0x20, 0x20, 0x20, 0x24, 0x41, 0x20], some 4, false, 0),
        (e5, [0x20, 0x20, 0x24, 0x20, 0x37, 0x20], some 2, false, 0),
        (e5, [0x20, 0x20, 0x31, 0x20, 0x37, 0x20], some 3, false, 0),
        (e5, [0x20, 0x20, 0x20, 0x20, 0x37, 0x43], some 5, false, 0),
        (e7, [0x2A, 0x2A, 0x2A, 0x2A, 0x2A, 0x35, 0x2E, 0x30, 0x35, 0x43, 0x52], none, true, 505),
        (e7, [0x31, 0x32, 0x2A, 0x33, 0x34, 0x35, 0x2E, 0x36, 0x37, 0x2A, 0x2A], some 2, false, 0),
        (e7, [0x31, 0x32, 0x2C, 0x33, 0x34, 0x35, 0x2C, 0x36, 0x37, 0x2A, 0x2A], some 6, false, 0),
        ([⟨.plus, 0x2B, false⟩, ⟨.req, 1, false⟩, ⟨.minus, 0x2D, true⟩], [0x2B, 0x31, 0x2D], some 2,
          false, 0),
        ([⟨.minus, 0x2D, false⟩, ⟨.req, 1, false⟩, ⟨.plus, 0x2B, true⟩], [0x2D, 0x31, 0x2B], some 2,
          false, 0)]
    (∀ x ∈ texts, formatText e5 x.1 = x.2) ∧ (∀ x ∈ parses, parsed x.1 x.2.1 = x.2.2)
      ∧ packNibbles [1, 2, 3, 0xC] = [0x12, 0x3C] ∧ digitsValue [1, 2, 3] = 123
      ∧ decimalDigits 3 12 = [0, 1, 2] := by decide +kernel

theorem readsBack_e7 : ReadsBack e7 (-505) where
  positions := by
    intro p hp
    have h : p ∈ positionsOf e7 → p = .dig 0x2A none ∨ p = .mark 0x2C 0x2A none
        ∨ p = .fixed 0x2E 0x2A none ∨ p = .req 0x2A none ∨ p = .minus 0x43 0x2A none
        ∨ p = .minus 0x52 0x2A none := by
      revert p
      decide +kernel
    rcases h hp with h | h | h | h | h | h <;> subst h <;> simp [TextPos.readsBack, isDigitCode]
  float := by
    intro p c hp hc
    have h : significancePos (positionsOf e7) (decimalDigits (digitCount e7) (Int.natAbs (-505)))
        = some (.dig 0x2A none) := by decide +kernel
    rw [h] at hp
    injection hp with hp
    subst hp
    exact absurd hc (by simp [TextPos.float])

theorem witness_EditedRoundTrip :
    let image : List Byte := [0xFF, 0xFF, 0xFE, 0x07]
    viewInteger .big .signed image = -505 ∧ ReadsBack e7 (-505)
      ∧ (editedForward (translateForward State.reset.tables none) 0 0 .big .signed 11 e7 image).exc
        = none
      ∧ ∀ c ∈ formatText e7 (-505), ∀ c' : Byte,
        translateForward State.reset.tables none c' = translateForward State.reset.tables none c →
          c.toNat ≤ c'.toNat := by
  refine ⟨by decide +kernel, readsBack_e7, by decide +kernel, ?_⟩
  intro c _ c' h
  injection h with h
  subst h
  exact Nat.le_refl _

/-! ### Witnesses: the maintenance port -/

theorem witness_BadAndUnknownFramesAnswered :
    live.settle.presentsBad [0x01, 0x00] true = true ∧ live.settle.build = none
      ∧ (0x03 : Byte) ∉ commandCodes ∧ live.takesFrame 0x03 [1] :=
  ⟨by decide +kernel, by decide +kernel, by decide, by decide +kernel, by decide +kernel⟩

/-- A frame of every length up to 4, a payload byte too few and too many, a partial byte, a length of 520
and of 521, a checksum that does not match, and the header of a RESULT-FETCH. -/
theorem witness_BadAndUnknownFramesAnswered_check :
    let cases : List (List Byte × Bool × Verdict) :=
      [([], true, .empty), ([0x7E], false, .bad), ([0x01, 0], false, .bad), ([0x01, 0, 0], false, .bad),
        ([0x01, 0, 0, 0xFF], false, .good 0x01 []), ([0x01, 0, 0, 0xFF], true, .bad),
        ([0x01, 0, 0, 0xFE], false, .bad), ([0x11, 0, 1, 0xEE], false, .bad),
        ([0x11, 0, 1, 7, 0xE7], false, .good 0x11 [7]), ([0x11, 0, 1, 7, 0xE7, 0], false, .bad),
        ([0x7E, 0, 0, 0x82], true, .fetch), ([0x7E, 0, 0, 0x83], false, .bad)]
    (∀ x ∈ cases, frameVerdict x.1 x.2.1 = x.2.2)
      ∧ frameVerdict (frameBytes 0x30 (List.replicate 520 0)) false = .good 0x30 (List.replicate 520 0)
      ∧ frameVerdict (frameBytes 0x30 (List.replicate 521 0)) false = .bad := by decide +kernel

def inPeriod (state : RxState) (bytes : List Byte) (count : Nat) (readOut : List Byte) : State :=
  { live with mcsLow := true, receiver := { state, bytes, count, readOut } }

theorem witness_ResultFetchKeepsResult :
    live.settle.rstLow = false ∧ live.settle.mcsLow = false
      ∧ (inPeriod .readout [0x7E, 0, 0, 0x82] 4 [0]).settle.mcsLow = true
      ∧ (inPeriod .readout [0x7E, 0, 0, 0x82] 4 [0]).settle.receiver.state = .readout := by
  decide +kernel

theorem witness_ChipSelectPeriods :
    live.settle.mcsLow = false
      ∧ (inPeriod .receiving [] 0 []).settle.receiver = Receiver.fresh
      ∧ 520 < (0x02 : Byte).toNat * 256 + (0x09 : Byte).toNat
      ∧ ¬ 520 < (0x02 : Byte).toNat * 256 + (0x08 : Byte).toNat
      ∧ (inPeriod .receiving [0x01, 0x02] 2 []).settle.receiver.bytes = [0x01, 0x02]
      ∧ (inPeriod .receiving [0x7E, 0, 0] 3 []).settle.receiver.bytes = [0x7E, 0, 0]
      ∧ (inPeriod .readout [0x7E, 0, 0, 0x82] 4 [9]).settle.receiver.readOut = [9]
      ∧ (inPeriod .receiving [] 0 []).settle.receiver.count = 0 := by decide +kernel

/-- The last byte that is kept, the one beyond, and the periods in which none is. -/
theorem witness_ChipSelectPeriods_capacity :
    (inPeriod .receiving (List.replicate 523 0) 523 []).settle.receiver.bytes.length = 523
      ∧ (inPeriod .receiving (List.replicate 524 0) 524 []).settle.receiver.bytes.length = 524
      ∧ (inPeriod .receiving (List.replicate 524 0) 524 []).settle.receiver.state = .receiving
      ∧ (inPeriod .discarding [1, 2, 9] 3 []).settle.receiver.state = .discarding
      ∧ (inPeriod .readout [0x7E, 0, 0, 0x82] 5 []).settle.receiver.readOut = []
      ∧ (inPeriod .idle [] 0 []).settle.receiver.state = .idle
      ∧ (inPeriod .idle [] 0 []).settle.mcsLow = true := by decide +kernel

/-- A period that carries a STATUS frame byte by byte presents it at its release. -/
theorem witness_frame_by_bytes :
    (inPeriod .receiving [0x01, 0x00, 0x00, 0xFF] 4 []).takesFrame 0x01 [] :=
  ⟨by decide +kernel, by decide +kernel⟩

theorem witness_FramesTurnedAwayDuringBuild :
    let s : State := { live with build := some { table := 0, entries := buffer5 } }
    s.build.isSome = true ∧ (Instr.status []).frame? = some (0x01, []) ∧ s.presents 0x01 [] = true
      ∧ (Instr.suspend [0]).frame? = some (0x13, [0]) ∧ s.presents 0x13 [0] = true
      ∧ (0x03 : Byte) ∉ commandCodes ∧ s.presents 0x03 [] = true ∧ s.presents 0x7E [1] = true
      ∧ s.settle.presentsBad [0x01] false = true := by decide +kernel

theorem witness_WrongLengthIsBadArg :
    (Instr.status [0]).frame? = some (0x01, [0]) ∧ payloadLength 0x01 = some 0
      ∧ live.takesFrame 0x01 [0] ∧ (Instr.setGlobal [0]).frame? = some (0x02, [0])
      ∧ payloadLength 0x02 = some 2 ∧ live.takesFrame 0x02 [0] :=
  ⟨by decide, by decide, ⟨by decide +kernel, by decide +kernel⟩, by decide, by decide,
    ⟨by decide +kernel, by decide +kernel⟩⟩

/-- A part without a build, outside a chip-select period, takes every frame that fits. -/
theorem takes (s : State) (hr : s.rstLow = false) (hm : s.mcsLow = false) (hb : s.build = none)
    (code : Byte) (payload : List Byte) (hl : payload.length ≤ 520) : s.takesFrame code payload := by
  refine ⟨?_, hb⟩
  unfold State.presents
  rw [hr, hm]
  simpa using hl

theorem live_takes (code : Byte) (payload : List Byte) (hl : payload.length ≤ 520) :
    live.takesFrame code payload :=
  takes live (by decide) (by decide) (by decide) code payload hl

theorem reset_takes (code : Byte) (payload : List Byte) (hl : payload.length ≤ 520) :
    State.reset.takesFrame code payload :=
  takes State.reset (by decide) (by decide) (by decide) code payload hl

theorem live_takes_all (frames : List (Byte × List Byte)) (h : ∀ x ∈ frames, x.2.length ≤ 520) :
    ∀ x ∈ frames, live.takesFrame x.1 x.2 := fun x hx => live_takes x.1 x.2 (h x hx)

theorem witness_WrongLengthIsBadArg_others :
    (Instr.suspend []).frame? = some (0x13, [])
      ∧ ∀ x ∈ ([(0x38, []), (0x38, [0]), (0x38, [0, 1]), (0x38, [0, 16, 1]), (0x38, [0, 0]),
        (0x38, [0, 17]), (0x7E, [0]), (0x13, [])] : List (Byte × List Byte)), live.takesFrame x.1 x.2 :=
  ⟨by decide, live_takes_all _ (by decide)⟩

/-- A frame for the first index above each range is taken. -/
theorem witness_indices_above_range :
    ∀ x ∈ ([(0x10, 8 :: List.replicate 25 0), (0x11, [8]), (0x12, [8]), (0x13, [8]), (0x14, [8]),
      (0x21, 16 :: field0.encode), (0x24, [16]), (0x30, 4 :: List.replicate 512 0), (0x31, [4]),
      (0x32, [4]), (0x38, [32, 1, 2, 19, 1]), (0x39, [32]), (0x3A, [32])] : List (Byte × List Byte)),
      live.takesFrame x.1 x.2 :=
  live_takes_all _ (by decide +kernel)

theorem witness_ReadBackCommandsReport :
    ∀ x ∈ ([(0x01, []), (0x40, []), (0x49, []), (0x11, [7]), (0x24, [15]), (0x32, [3]),
      (0x3A, [31])] : List (Byte × List Byte)), live.takesFrame x.1 x.2 :=
  live_takes_all _ (by decide)

theorem witness_SetGlobalWritesBothOrNeither :
    ∀ x ∈ ([(0x02, [8, 1]), (0x02, [250, 0]), (0x02, [7, 0]), (0x02, [251, 0]), (0x02, [8, 2])] :
      List (Byte × List Byte)), live.takesFrame x.1 x.2 :=
  live_takes_all _ (by decide)

theorem witness_WindowWriteReplacesRecord :
    (windowBytes 7 cfg0).length = 26 ∧ (windowBytes 7 cfg0).head? = some (toByte 7)
      ∧ parseWindowCfg (windowBytes 7 cfg0) = some cfg0 ∧ live.takesFrame 0x10 (windowBytes 7 cfg0)
      ∧ live.windows[(7 : Fin 8)].status = .off ∧ live.windows[(0 : Fin 8)].status ≠ .off
      ∧ parseWindowCfg (List.replicate 26 0) = none ∧ live.takesFrame 0x10 (List.replicate 26 0) :=
  ⟨by decide, by decide, by decide +kernel, live_takes _ _ (by decide), by decide, by decide,
    by decide +kernel, live_takes _ _ (by decide)⟩

/-- Each value of a window record at the ends of its range and one beyond: payload bytes from a place on,
and whether the record is taken. -/
theorem witness_WindowWriteReplacesRecord_values :
    let changed := fun (k : Nat) (bytes : List Byte) =>
      (windowBytes 7 cfg0).take k ++ bytes ++ (windowBytes 7 cfg0).drop (k + bytes.length)
    let cases : List (Nat × List Byte × Bool) :=
      [(1, [0xFF, 0xFF, 0xFF, 0xF8], true), (1, [0, 0, 0, 4], false), (5, [0, 0, 0, 0], false),
        (5, [0, 0, 0, 1], true), (5, [0, 1, 0, 0], true), (5, [0, 1, 0, 1], false), (9, [15], true),
        (9, [16], false), (10, [0xFF, 0xFF, 0xFF, 0xFF], true), (14, [0, 0], false), (14, [0, 1], true),
        (14, [0x10, 0], true), (14, [0x10, 1], false), (16, [1], true), (16, [2], false),
        (17, [0xFF], true), (18, [1], true), (18, [2], false), (19, [1], true), (19, [2], false),
        (20, [0xFF], true), (21, [0, 0], false), (21, [0, 1], true), (21, [0xFF, 0xFF], true)]
    ∀ x ∈ cases, (changed x.1 x.2.1).length = 26
      ∧ (parseWindowCfg (changed x.1 x.2.1)).isSome = x.2.2 := by decide +kernel

/-- W0 is SUSPENDED and W1 stands OFF on ranges of its own, both over L0; W2 names L1, which is EMPTY. -/
def standing : State :=
  { inMode .suspended cfg0 with
    windows := ((inMode .suspended cfg0).windows.set 1
      { cfg := { cfg0 with viewBase := 0x2000, storeBase := 0x400 }, status := .off }).set 2
      { cfg := { cfg0 with layout := 1 }, status := .off } }

theorem standing_takes (code : Byte) (payload : List Byte) (hl : payload.length ≤ 520) :
    standing.takesFrame code payload :=
  takes standing (by decide) (by decide) (by decide) code payload hl

theorem witness_ActivateLatchesSizes :
    let c := standing.windows[(1 : Fin 8)].cfg
    standing.takesFrame 0x12 [1] ∧ standing.windows[(1 : Fin 8)].locks = false
      ∧ standing.layouts[c.layout] = .built .valid 8 8 [field0, field1]
      ∧ commitCheck standing.tables standing.programs 8 8 [field0, field1] = none
      ∧ c.viewEnd 8 ≤ 2 ^ 32 ∧ c.storeEnd 8 ≤ 2 ^ 32 ∧ 8 ≤ c.stride ∧ c.ack = .posted
      ∧ (∀ v : Fin 8, standing.overlapCode 1 8 8 v = 0)
      ∧ standing.layouts[standing.windows[(2 : Fin 8)].cfg.layout] = .empty
      ∧ live.windows[(0 : Fin 8)].locks = true :=
  ⟨standing_takes _ _ (by decide), by decide, by decide +kernel, by decide +kernel, by decide,
    by decide, by decide, by decide, by decide +kernel, by decide +kernel, by decide⟩

/-- W1 with another record, still OFF. -/
def refit (cfg : WindowCfg) : State :=
  { standing with windows := standing.windows.set 1 { cfg, status := .off } }

/-- Each of the checks 2 to 5 of R161 fails first somewhere: no records, a view end and a store end one
record beyond 2^32, a stride of 7, shared view, store and both ranges, CONFIRMED without a timeout. -/
theorem witness_ActivateLatchesSizes_refusals :
    let ok : WindowCfg := { cfg0 with viewBase := 0x2000, storeBase := 0x400 }
    let cases : List (WindowCfg × Option (ResultCode × List Byte)) :=
      [({ ok with recordCount := 0 }, some (.badArg, [2])),
        ({ ok with viewBase := 0xFFFFFF88 }, some (.badArg, [2])),
        ({ ok with viewBase := 0xFFFFFF80 }, none),
        ({ ok with storeBase := 0xFFFFFF81 }, some (.badArg, [2])),
        ({ ok with storeBase := 0xFFFFFF80 }, none),
        ({ ok with stride := 7 }, some (.badArg, [3])),
        ({ ok with viewBase := 0x1078 }, some (.overlap, [0, 1])),
        ({ ok with storeBase := 0x17F }, some (.overlap, [0, 2])),
        (cfg0, some (.overlap, [0, 3])),
        ({ ok with ack := .confirmed, gatherTimeout := 0 }, some (.badArg, [5])),
        ({ ok with ack := .confirmed }, none)]
    (∀ cfg, (refit cfg).takesFrame 0x12 [1])
      ∧ ∀ x ∈ cases, ((refit x.1).rangeChecks 1 8 8).map (fun r => (r.code, r.data)) = x.2 :=
  ⟨fun _ => takes _ rfl rfl rfl _ _ (by decide), by decide +kernel⟩

theorem witness_SuspendStartsDrain :
    live.takesFrame 0x13 [0] ∧ live.windows[(0 : Fin 8)].status = .live .active 8 8
      ∧ live.drained 0 = true ∧ (gathered part3).takesFrame 0x13 [0]
      ∧ (gathered part3).drained 0 = false ∧ standing.takesFrame 0x13 [0]
      ∧ standing.windows[(0 : Fin 8)].status = .live .suspended 8 8 :=
  ⟨live_takes _ _ (by decide), by decide, by decide +kernel,
    takes _ (by decide) (by decide) (by decide) _ _ (by decide),
    by decide +kernel, standing_takes _ _ (by decide), by decide⟩

theorem witness_DeactivateTurnsOff :
    standing.takesFrame 0x14 [0] ∧ standing.windows[(0 : Fin 8)].status = .live .suspended 8 8
      ∧ standing.takesFrame 0x14 [1] ∧ standing.windows[(1 : Fin 8)].status = .off
      ∧ live.takesFrame 0x14 [0] ∧ live.windows[(0 : Fin 8)].locks = true :=
  ⟨standing_takes _ _ (by decide), by decide, standing_takes _ _ (by decide), by decide,
    live_takes _ _ (by decide), by decide⟩

theorem witness_LayoutBeginStartsDraft :
    live.takesFrame 0x20 (15 :: (beBytes 2 256 ++ beBytes 2 256)) ∧ live.layoutInUse 15 = false
      ∧ live.takesFrame 0x20 (0 :: (beBytes 2 8 ++ beBytes 2 1)) ∧ live.layoutInUse 0 = true
      ∧ live.takesFrame 0x20 (16 :: (beBytes 2 8 ++ beBytes 2 1))
      ∧ live.takesFrame 0x20 (1 :: (beBytes 2 264 ++ beBytes 2 257)) :=
  ⟨live_takes _ _ (by decide), by decide +kernel, live_takes _ _ (by decide), by decide +kernel,
    live_takes _ _ (by decide), live_takes _ _ (by decide)⟩

theorem witness_LayoutEraseEmpties :
    live.takesFrame 0x23 [15] ∧ live.layoutInUse 15 = false ∧ live.takesFrame 0x23 [0]
      ∧ live.layoutInUse 0 = true ∧ live.takesFrame 0x23 [16] :=
  ⟨live_takes _ _ (by decide), by decide +kernel, live_takes _ _ (by decide), by decide +kernel,
    live_takes _ _ (by decide)⟩

def drafting (n : Nat) : State :=
  { State.reset with
    layouts := State.reset.layouts.set 15 (.built .draft 8 8 (List.replicate n field0)) }

theorem witness_FieldAppendExtendsDraft :
    field0.encode.length = 11 ∧ parseDesc field0.encode = some field0
      ∧ parseDesc (List.replicate 11 0) = none
      ∧ (drafting 23).takesFrame 0x21 (15 :: field0.encode)
      ∧ (drafting 23).layouts[(15 : Fin 16)] = .built .draft 8 8 (List.replicate 23 field0)
      ∧ (drafting 23).freeDescriptors = 105 ∧ (drafting 24).freeDescriptors = 104
      ∧ (drafting 0).layouts[(0 : Fin 16)] = .empty :=
  ⟨by decide, by decide +kernel, by decide +kernel,
    takes _ (by decide) (by decide) (by decide) _ _ (by decide),
    by decide +kernel⟩

/-- Descriptors of each kind at the ends of their ranges and one beyond, and whether they are taken. -/
theorem witness_FieldAppendExtendsDraft_descriptors :
    let cases : List (List Byte × Bool) :=
      [([0, 1, 0, 1, 0, 9, 9, 9, 9, 9, 0], true), ([255, 32, 255, 32, 0, 9, 9, 9, 9, 9, 1], true),
        ([0, 0, 0, 0, 0, 0, 0, 0, 0, 0, 0], false), ([0, 33, 0, 33, 0, 0, 0, 0, 0, 0, 0], false),
        ([0, 1, 0, 2, 0, 0, 0, 0, 0, 0, 0], false), ([0, 1, 0, 1, 0, 0, 0, 0, 0, 0, 2], false),
        ([0, 1, 0, 32, 1, 3, 9, 9, 7, 8, 0], true), ([0, 32, 0, 1, 1, 255, 9, 9, 7, 8, 0], true),
        ([0, 1, 0, 32, 1, 4, 9, 9, 7, 8, 0], false), ([0, 8, 0, 10, 2, 9, 9, 1, 9, 9, 0], true),
        ([0, 8, 0, 11, 2, 9, 9, 1, 9, 9, 0], false), ([0, 3, 0, 10, 2, 9, 9, 1, 9, 9, 0], false),
        ([0, 8, 0, 10, 2, 9, 9, 2, 9, 9, 0], false), ([0, 4, 0, 32, 3, 3, 31, 0, 9, 9, 0], true),
        ([0, 4, 0, 32, 3, 3, 32, 0, 9, 9, 0], false), ([0, 4, 0, 32, 3, 4, 31, 0, 9, 9, 0], false),
        ([0, 16, 0, 32, 3, 3, 31, 0, 9, 9, 0], false), ([0, 4, 0, 4, 4, 0, 0, 0, 0, 0, 0], false)]
    (∀ x ∈ cases, x.1.length = 11 ∧ (parseDesc x.1).isSome = x.2)
      ∧ parseDesc [1, 4, 2, 32, 3, 255, 31, 1, 9, 9, 1]
        = some { viewOff := 1, viewLen := 4, storeOff := 2, storeLen := 32
                 kind := .edited none 31 .signed, readOnly := true } := by decide +kernel

theorem witness_LayoutCommitDecides :
    live.takesFrame 0x22 [16] ∧ live.takesFrame 0x22 [0]
      ∧ live.layouts[(0 : Fin 16)] = .built .valid 8 8 [field0, field1]
      ∧ commitCheck live.tables live.programs 8 8 [field0, field1] = none
      ∧ live.layouts[(15 : Fin 16)] = .empty
      ∧ commitCheck live.tables live.programs 8 8 [] = some (.noFields, none)
      ∧ commitCheck live.tables live.programs 8 8 [field0, field0] = some (.order, some 1) :=
  ⟨live_takes _ _ (by decide), live_takes _ _ (by decide), by decide +kernel⟩

/-- T0 is LOADED, E0 is LOADED with E5's steps; W0 is ACTIVE over a layout that names T1 and E1. -/
def loaded : State :=
  { inMode .active cfg0 with
    tables := State.reset.tables.set 0 (.loaded [] [] false 0)
    programs := State.reset.programs.set 0 (.loaded e5 6 5)
    layouts := State.reset.layouts.set 0 (.built .valid 8 8
      [{ field0 with kind := .edited (some 1) 1 .unsigned }]) }

theorem loaded_takes (code : Byte) (payload : List Byte) (hl : payload.length ≤ 520) :
    loaded.takesFrame code payload :=
  takes loaded (by decide) (by decide) (by decide) code payload hl

/-- Each commit check as the first that fails: fields out of order, a shared store byte, a field beyond
either record, an EMPTY table and an EMPTY program, a store length that is not the output length, and more
digits than a one-byte integer has. -/
theorem witness_LayoutCommitDecides_checks :
    let at8 : FieldDesc := { field0 with viewOff := 4, storeOff := 4 }
    let edited := fun (e : Fin 32) (viewLen storeLen : Nat) =>
      { field0 with viewLen, storeLen, kind := .edited none e .signed }
    let cases : List (List FieldDesc × Option (InvalidReason × Option Nat)) :=
      [([], some (.noFields, none)), ([at8, field0], some (.order, some 1)),
        ([field0, { at8 with storeOff := 3 }], some (.storeOverlap, some 1)),
        ([field0, { at8 with viewOff := 5 }], some (.bounds, some 1)),
        ([field0, { at8 with storeOff := 5 }], some (.bounds, some 1)),
        ([{ field0 with kind := .text (some 3) 0 0 }], some (.notLoaded, some 0)),
        ([edited 31 4 6], some (.notLoaded, some 0)), ([edited 0 4 5], some (.length, some 0)),
        ([edited 0 1 6], some (.digits, some 0)), ([edited 0 2 6], none), ([field0, at8], none)]
    ∀ x ∈ cases, commitCheck loaded.tables loaded.programs 8 8 x.1 = x.2 := by decide +kernel

theorem witness_TableLoadAndErase :
    loaded.takesFrame 0x30 (toByte 0 :: (List.replicate 256 none).flatMap entryBytes)
      ∧ loaded.tableInUse 0 = false ∧ loaded.tableInUse 1 = true ∧ loaded.takesFrame 0x31 [0]
      ∧ loaded.tables[(0 : Fin 4)].isLoaded = true ∧ loaded.tables[(3 : Fin 4)] = .empty
      ∧ loaded.tableInUse 3 = false :=
  ⟨loaded_takes _ _ (by decide +kernel), by decide +kernel, by decide +kernel,
    loaded_takes _ _ (by decide), by decide +kernel⟩

/-- The last entry, and the first, with a marker of its own. -/
theorem witness_TableLoadAndErase_badMarker :
    let good : List (Byte × Byte) := List.replicate 255 (1, 9)
    (∀ x ∈ good, x.1 = 0 ∨ x.1 = 1) ∧ 1 < (2 : Byte).toNat
      ∧ (0 :: ((good.flatMap fun x => [x.1, x.2]) ++ [2, 7]) : List Byte).length = 513 := by
  refine ⟨fun x h => Or.inr ?_, by decide, ?_⟩
  · rw [List.eq_of_mem_replicate h]
  · simp only [List.length_cons, List.length_append, List.length_flatMap, List.map_replicate,
      List.sum_replicate, List.length_nil]
    decide

theorem witness_TableLoadAndErase_firstMarker :
    loaded.takesFrame 0x30 (0 :: 2 :: 7 :: List.replicate 510 0) :=
  loaded_takes _ _ (by simp only [List.length_cons, List.length_replicate]; decide)

theorem witness_ProgramLoadAndErase :
    loaded.takesFrame 0x38 (toByte 0 :: toByte 4 :: e5.flatMap EditStep.encode)
      ∧ digitCount e5 = 5 ∧ loaded.programInUse 0 = false ∧ loaded.programInUse 1 = true
      ∧ loaded.takesFrame 0x39 [0] ∧ loaded.programs[(0 : Fin 32)].isLoaded = true
      ∧ loaded.programs[(31 : Fin 32)] = .empty ∧ loaded.programInUse 31 = false
      ∧ (∀ x ∈ e5.dropLast, x.last = false) ∧ EditStep.legal true ⟨.req, 19, true⟩
      ∧ EditStep.legal false ⟨.dig, 1, false⟩ :=
  ⟨loaded_takes _ _ (by decide), by decide, by decide +kernel, by decide +kernel,
    loaded_takes _ _ (by decide), by decide +kernel, by decide +kernel, by decide +kernel, by decide,
    ⟨fun _ => by decide, rfl⟩, ⟨fun _ => by decide, rfl⟩⟩

/-- The refusals of R45: an opcode of 0 and of 9, an operand of 0 and of 20, a last flag set early, clear
on the final step or 2, no digit, and 20 digits. -/
theorem witness_ProgramLoadAndErase_refusals :
    let cases : List (List Byte × List Byte) :=
      [([31, 1, 0, 1, 1], [0]), ([31, 1, 9, 1, 1], [0]), ([31, 1, 1, 0, 1], [0]),
        ([31, 1, 2, 20, 1], [0]), ([31, 2, 1, 1, 1, 2, 1, 1], [0]), ([31, 2, 1, 1, 0, 2, 1, 0], [1]),
        ([31, 2, 1, 1, 0, 2, 1, 2], [1]), ([31, 1, 4, 0x2E, 1], [0xFF]),
        ([31, 2, 1, 19, 0, 2, 1, 1], [0xFF]), ([32, 1, 2, 1, 1], [0xFF]), ([31, 1, 2, 19, 1], [19, 19])]
    loaded.takesFrame 0x38 [31, 1, 0, 1, 1]
      ∧ ∀ x ∈ cases, (State.loadProgram x.1 State.reset).2.data = x.2 :=
  ⟨loaded_takes _ _ (by decide), by decide +kernel⟩

/-- A table and a program that an ACTIVE window's layout names, and ones that none does. -/
theorem witness_objects_in_use :
    loaded.tableInUse 1 = true ∧ loaded.tableInUse 2 = false ∧ loaded.programInUse 1 = true
      ∧ loaded.programInUse 2 = false ∧ standing.layoutInUse 0 = false ∧ Layout.empty.namesTable 0 = false
      ∧ Layout.empty.namesProgram 0 = false
      ∧ (Layout.built .draft 8 8 [{ field0 with kind := .text (some 3) 0 0 }]).namesTable 3 = true
      ∧ (Layout.built .draft 8 8 [{ field0 with kind := .edited (some 2) 31 .signed }]).namesTable 2 = true
      ∧ (Layout.built .draft 8 8 [{ field0 with kind := .edited none 31 .signed }]).namesProgram 31
        = true := by decide +kernel

/-! ### Witnesses: the log, FLUSH-ALL, CLEAR, invariants -/

theorem witness_RecordHandedOver :
    let r := heldRecord (okTxn 0) 0
    ({ live with log := List.replicate 15 r } : State).log.length < 16
      ∧ 16 ≤ (List.replicate 16 r).length ∧ (254 : Nat) < 255 := by decide +kernel

theorem witness_LogTakenAndCleared : live.takesFrame 0x48 [] ∧ live.takesFrame 0x4A [] :=
  ⟨live_takes _ _ (by decide), live_takes _ _ (by decide)⟩

theorem witness_FlushAllAndClear :
    live.takesFrame 0x50 [] ∧ live.takesFrame 0x5F []
      ∧ (∃ w : Fin 8, live.windows[w].status ≠ .off)
      ∧ State.reset.takesFrame 0x5F [] ∧ (∀ w : Fin 8, State.reset.windows[w].status = .off) :=
  ⟨live_takes _ _ (by decide), live_takes _ _ (by decide), ⟨0, by decide⟩,
    reset_takes _ _ (by decide), by decide +kernel⟩

theorem witness_KeysStayApart :
    (gathered part3).KeysApart ∧ (gathered part3).OpensInOrder
      ∧ step (gathered part3) = .next (gathered part3) :=
  ⟨keysApart_of_check _ (by decide +kernel), ⟨by decide, by decide +kernel⟩, rfl⟩

theorem witness_LimitsKept : live.WithinLimits ∧ live.UnitsSound ∧ step live = .next live :=
  ⟨⟨by decide, by decide, by decide, by decide, by decide, by decide, by decide, by decide, by decide,
      by decide +kernel, by decide +kernel, by
        intro g stage b h
        have hf : ∀ g : Fin 8, live.entries[g].slot = .free := by decide +kernel
        rw [hf g] at h
        exact absurd h (by simp)⟩,
    ⟨by decide, nofun, nofun, nofun, fun _ h => absurd rfl h⟩, rfl⟩

theorem live_windowsSound : live.WindowsSound where
  formed := by
    intro w mode va sa h
    have this : ∀ w : Fin 8, live.windows[w].status ≠ .off → w = 0 := by decide +kernel
    have hw := this w (by rw [h]; simp)
    subst hw
    have h0 : live.windows[(0 : Fin 8)].status = .live .active 8 8 := by decide
    rw [h0] at h
    injection h with _ h1 h2
    subst h1
    subst h2
    decide
  apart := by
    intro w v mode mode' va sa va' sa' hne h h'
    have : ∀ w : Fin 8, live.windows[w].status ≠ .off → w = 0 := by decide +kernel
    exact absurd ((this w (by rw [h]; simp)).trans (this v (by rw [h']; simp)).symm) hne

theorem witness_WindowsStaySound : live.WindowsSound ∧ step live = .next live :=
  ⟨live_windowsSound, rfl⟩

/-- The first and the last address of W0, and those just outside. -/
theorem witness_HeldRequestWaits_decode :
    live.WindowsSound ∧ live.windows[(0 : Fin 8)].status = .live .active 8 8
      ∧ live.decode 0x1000 = some ⟨0, .active, 0, 0⟩ ∧ live.decode 0x107F = some ⟨0, .active, 15, 7⟩
      ∧ live.decode 0x0FFF = none ∧ live.decode 0x1080 = none :=
  ⟨live_windowsSound, by decide +kernel⟩

theorem live_layoutsSound : live.LayoutsSound where
  valid := by
    intro l va sa fields h
    have hl : ∀ l : Fin 16, live.layouts[l] ≠ .empty → l = 0 := by decide +kernel
    have := hl l (by rw [h]; simp)
    subst this
    have h0 : live.layouts[(0 : Fin 16)] = .built .valid 8 8 [field0, field1] := by decide +kernel
    rw [h0] at h
    injection h with _ h1 h2 h3
    subst h1
    subst h2
    subst h3
    decide +kernel
  locked := by
    intro w mode va sa _ h
    have : ∀ w : Fin 8, live.windows[w].status ≠ .off → w = 0 := by decide +kernel
    have hw := this w (by rw [h]; simp)
    subst hw
    have h0 : live.windows[(0 : Fin 8)].status = .live .active 8 8 := by decide
    rw [h0] at h
    injection h with _ h1 h2
    subst h1
    subst h2
    exact ⟨[field0, field1], by decide +kernel⟩

theorem witness_LayoutCommitDecides_inUse :
    (live.atRelease [0]).LayoutsSound ∧ (live.atRelease [0]).layoutInUse 0 = true := by
  unfold State.atRelease
  rw [live.settle_of_quiet (by decide +kernel)]
  exact ⟨⟨live_layoutsSound.valid, live_layoutsSound.locked⟩, by decide +kernel⟩

theorem witness_LayoutsStaySound : live.LayoutsSound ∧ step live = .next live :=
  ⟨live_layoutsSound, rfl⟩

theorem witness_EncodingsReadBack :
    cfg0.legal ∧ field0.wellFormed = true ∧ (∀ x ∈ e5.dropLast, x.last = false) :=
  ⟨by unfold WindowCfg.legal; decide, by decide, by decide⟩

/-! ### One step each on the small part -/

/-- The part after a command. -/
def after (s : State) (c : Instr) : State :=
  match exec c s with
  | .next t => t
  | .fault f => nomatch f
  | .refused _ => s

/-- STATUS right after reset (R183). -/
theorem test_status : (after State.reset (.status [])).result =
    { code := .done, command := 0x01
      data := [100, 0, 0, 0, 0, 0, 0, 0, 0, 0, 0, 0, 0, 8, 0, 0, 0, 0, 0, 0, 0, 0, 0, 0, 128, 0xFF, 0xFF] } := by
  decide +kernel

/-- GATHER-READ of an entry with three of four bytes written: state, window, field, length, written set, the
image's first bytes (R191). -/
theorem test_gatherRead :
    let data := (after (gathered part3) (.gatherRead [])).result.data
    data.length = 656 ∧ data.take 19 = [1, 0, 0, 0, 0, 0, 0, 0, 0, 0, 4, 0, 0, 0, 7, 1, 2, 3, 0] := by
  decide +kernel

/-- LOG-PEEK of a HELD record (R192). -/
theorem test_logPeek :
    (after (({ live with seqCounter := 0x0102 } : State).handOver (heldRecord (okTxn 0) 3))
      (.logPeek [])).result.data
      = [1, 1, 2, 11, 1, 5, 3, 0xFF, 0, 0, 0xFF, 0, 0, 0, 0, 0, 0, 1, 0, 1, 3] := by decide +kernel

/-- A one-byte write is gathered and answered; the flush of the whole field is one MWRITE. -/
theorem test_write_flushes :
    let s := after (after (gathered part3) (.requestTaken (.write 0x1003 [4] 1))) .flushJobEnd
    s.settle.outstanding.map (·.op) = [writeOp (.entry 0 .writing)]
      ∧ s.settle.released = some (1, .okay, []) := by decide +kernel

/-- A read of a gathered field is answered from its entry. -/
theorem test_read_entry :
    (after (gathered whole4) (.requestTaken (.read 0x1000 4 1))).settle.released
      = some (1, .okay, [1, 2, 3, 4]) := by decide +kernel

/-- A layout is built, committed, and its window activated. -/
theorem test_activate :
    (after (after standing (.layoutCommit [0])) (.activate [1])).result
      = { code := .done, command := 0x12, data := [0, 8, 0, 8] } := by decide +kernel

theorem reverseMap_buffer5 :
    reverseMap buffer5 = (List.range 256).map fun c => if toByte c = 5 then some 0 else none := by
  unfold reverseMap reverseEntry buffer5
  congr 1
  funext c
  rw [List.findIdx?_replicate]
  by_cases h : toByte c = 5
  · rw [h]
    rfl
  · have hc : ((some 5 : Option Byte) == some (toByte c)) = false := by
      rw [beq_eq_false_iff_ne]
      exact fun he => h (Option.some.inj he).symm
    rw [hc, if_neg h, if_neg (by simp only [Bool.false_eq_true, and_false, not_false_eq_true])]
    rfl

/-- A table build ends with the load report: one store code reached, view codes that share it. -/
theorem test_build :
    (after { live with build := some { table := 3, entries := buffer5 } } .tableBuildComplete).result
      = { code := .done, command := 0x30, data := [0, 0, 255] } := by
  have h1 : unreachedCount buffer5 = 255 := by
    unfold unreachedCount
    rw [reverseMap_buffer5]
    decide +kernel
  have h2 : isBijective buffer5 = false := by
    unfold isBijective buffer5
    simp only [List.nodup_replicate]
    rw [Bool.and_eq_false_iff]
    exact Or.inr (by decide)
  unfold after
  simp only [exec, execTableBuildComplete]
  rw [State.settle_of_quiet _ (by decide +kernel)]
  simp only [State.completeBuild, State.putResult, h1, h2]
  decide

/-- W0 is ACTIVE; W1 is SUSPENDED with a hold limit of 1 and holds the oldest request. The next request is
for W0. -/
def expiring : State :=
  { live with
    windows := live.windows.set 1
      { cfg := { cfg0 with viewBase := 0x2000, storeBase := 0x400, holdLimit := 1 }
        status := .live .suspended 8 8 }
    txns := [{ id := 0, req := .read 0x2000 1 0, state := .queued },
      { id := 1, req := .read 0x1006 1 1, state := .queued }]
    txnCounter := 2, disp := .holding 0 }

/-- A SUSPEND that comes with the expiry acts before the next offer: the request for W0 is held. -/
theorem test_suspend_with_expiry :
    let s := (after (after expiring .tick) (.suspend [0])).settle
    s.disp = .holding 0 ∧ s.txns.map (·.state) = [.ready .error [], .queued] := by decide +kernel

/-- A SUSPEND after the offer finds the request for W0 answered. -/
theorem test_suspend_after_offer :
    let s := after (after (after expiring .tick) .holdExpiry) .dispatcherOffer
    (after s (.suspend [0])).settle.txns.map (·.state) = [.ready .error [], .ready .okay [0]] := by
  decide +kernel

end Sys2Proof.Tests
end

section
/-! PROOF. The load report of a code table (R27): the unreached count counts the store codes missing from the
forward entries, and a table of 256 entries is bijective exactly when its entries are the 256 store codes
in some order. -/

namespace Sys2Proof.Machine

/-! ### The store codes -/

/-- The 256 store codes in order, over which the reverse map is built (R26). -/
def storeCodes : List Byte := (List.range 256).map toByte

theorem toNat_toByte_of_lt {n : Nat} (h : n < 256) : (toByte n).toNat = n := by
  rw [toByte_toNat, Nat.mod_eq_of_lt h]

theorem toByte_inj_of_lt {m n : Nat} (hm : m < 256) (hn : n < 256) (h : toByte m = toByte n) : m = n := by
  rw [← toNat_toByte_of_lt hm, h, toNat_toByte_of_lt hn]

@[simp] theorem length_storeCodes : storeCodes.length = 256 := by simp [storeCodes]

theorem mem_storeCodes (c : Byte) : c ∈ storeCodes :=
  List.mem_map.mpr ⟨c.toNat, List.mem_range.mpr c.isLt, toByte_of_toNat c⟩

theorem nodup_storeCodes : storeCodes.Nodup :=
  List.Nodup.map_on
    (fun _ hm _ hn => toByte_inj_of_lt (List.mem_range.mp hm) (List.mem_range.mp hn)) List.nodup_range

/-! ### The reverse map and the unreached count -/

theorem reverseMap_eq_map_storeCodes (forward : List (Option Byte)) :
    reverseMap forward = storeCodes.map (reverseEntry forward) := by
  simp [reverseMap, storeCodes]

theorem reverseEntry_eq_none_iff (forward : List (Option Byte)) (c : Byte) :
    reverseEntry forward c = none ↔ some c ∉ forward := by
  rw [reverseEntry, Option.map_eq_none_iff, List.findIdx?_eq_none_iff]
  refine ⟨fun h hc => by simpa using h (some c) hc, fun h e he => ?_⟩
  exact beq_false_of_ne fun hec => h (hec ▸ he)

/-- R27 over the model's list: the count is over the store codes whose place in the reverse map is NONE. -/
theorem unreachedCount_eq_length_filter_range (forward : List (Option Byte)) :
    unreachedCount forward
      = ((List.range 256).filter fun c => (reverseMap forward)[c]? == some none).length := by
  rw [unreachedCount, reverseMap, List.filter_map, List.length_map]
  refine congrArg List.length (List.filter_congr fun c hc => ?_)
  rw [List.getElem?_map, List.getElem?_range (List.mem_range.mp hc)]
  cases h : reverseEntry forward (toByte c) <;> simp [h]

theorem unreachedCount_eq_length_filter (forward : List (Option Byte)) :
    unreachedCount forward = (storeCodes.filter fun c => some c ∉ forward).length := by
  rw [unreachedCount, reverseMap_eq_map_storeCodes, List.filter_map, List.length_map]
  refine congrArg List.length (List.filter_congr fun c _ => ?_)
  rw [Bool.eq_iff_iff, Function.comp_apply, Option.isNone_iff_eq_none, decide_eq_true_iff]
  exact reverseEntry_eq_none_iff forward c

theorem unreachedCount_le (forward : List (Option Byte)) : unreachedCount forward ≤ 256 := by
  rw [unreachedCount_eq_length_filter, ← length_storeCodes]
  exact List.length_filter_le ..

theorem unreachedCount_eq_zero_iff (forward : List (Option Byte)) :
    unreachedCount forward = 0 ↔ ∀ c : Byte, some c ∈ forward := by
  simp [unreachedCount_eq_length_filter, mem_storeCodes]

theorem unreachedCount_of_forall_none {forward : List (Option Byte)} (h : ∀ e ∈ forward, e = none) :
    unreachedCount forward = 256 := by
  have hmissing : ∀ c : Byte, some c ∉ forward := fun c hc => Option.some_ne_none c (h _ hc)
  simp [unreachedCount_eq_length_filter, hmissing]

/-- A table of one store code misses every other one. -/
theorem unreachedCount_of_forall_some {forward : List (Option Byte)} {c : Byte} (hne : forward ≠ [])
    (h : ∀ e ∈ forward, e = some c) : unreachedCount forward = 255 := by
  have hc : some c ∈ forward := by
    obtain ⟨e, he⟩ := List.exists_mem_of_ne_nil forward hne
    exact h e he ▸ he
  have hreached : ∀ d : Byte, some d ∈ forward ↔ d = c :=
    fun d => ⟨fun hd => Option.some.inj (h _ hd), fun hd => hd ▸ hc⟩
  have herase : (storeCodes.filter fun d => some d ∉ forward) = storeCodes.erase c := by
    rw [nodup_storeCodes.erase_eq_filter]
    exact List.filter_congr fun d _ => by simp [hreached, bne, beq_eq_decide]
  rw [unreachedCount_eq_length_filter, herase, List.length_erase_of_mem (mem_storeCodes c),
    length_storeCodes]

/-! ### The bijective flag -/

theorem isBijective_iff (forward : List (Option Byte)) :
    isBijective forward = true ↔ none ∉ forward ∧ forward.Nodup := by
  rw [isBijective, Bool.and_eq_true, decide_eq_true_iff, List.all_eq_true]
  refine and_congr_left fun _ => ⟨fun h hn => by simpa using h none hn, fun h e he => ?_⟩
  exact Option.isSome_iff_ne_none.mpr fun hn => h (hn ▸ he)

theorem none_notMem_iff_getElem? {forward : List (Option Byte)} (hlen : forward.length = 256) :
    none ∉ forward ↔ ∀ v : Byte, forward[v.toNat]? ≠ some none := by
  rw [List.mem_iff_getElem?, not_exists]
  refine ⟨fun h v => h v.toNat, fun h i hi => ?_⟩
  have hlt : i < 256 := hlen ▸ (List.getElem?_eq_some_iff.mp hi).1
  exact h (toByte i) (by rwa [toNat_toByte_of_lt hlt])

theorem nodup_iff_getElem?_ne {forward : List (Option Byte)} (hlen : forward.length = 256) :
    forward.Nodup ↔ ∀ v v' : Byte, v ≠ v' → forward[v.toNat]? ≠ forward[v'.toNat]? := by
  constructor
  · intro hnodup v v' hv heq
    have hlt : v.toNat < forward.length := hlen ▸ v.isLt
    exact hv (BitVec.eq_of_toNat_eq ((List.getElem?_inj hlt hnodup).mp heq))
  · intro h
    refine List.nodup_iff_getElem?_ne_getElem?.mpr fun i j hij hj => ?_
    have hj' : j < 256 := hlen ▸ hj
    have hi' : i < 256 := hij.trans hj'
    have hne : toByte i ≠ toByte j := fun he => hij.ne (toByte_inj_of_lt hi' hj' he)
    rw [← toNat_toByte_of_lt hi', ← toNat_toByte_of_lt hj']
    exact h (toByte i) (toByte j) hne

/-! ### Bijective exactly when every store code is reached -/

theorem nodup_map_some_storeCodes : (storeCodes.map some).Nodup :=
  nodup_storeCodes.map (Option.some_injective Byte)

/-- 256 distinct store codes are all the store codes (R27). -/
theorem isBijective_iff_perm {forward : List (Option Byte)} (hlen : forward.length = 256) :
    isBijective forward = true ↔ forward.Perm (storeCodes.map some) := by
  rw [isBijective_iff]
  constructor
  · rintro ⟨hnone, hnodup⟩
    have hsub : forward ⊆ storeCodes.map some := fun e he => by
      cases e with
      | none => exact absurd he hnone
      | some c => exact List.mem_map_of_mem (mem_storeCodes c)
    exact (List.subperm_of_subset hnodup hsub).perm_of_length_le (by simp [hlen])
  · intro hperm
    exact ⟨fun hn => by simpa using hperm.mem_iff.mp hn, hperm.nodup_iff.mpr nodup_map_some_storeCodes⟩

/-- 256 entries that reach each of the 256 store codes reach each once (R27). -/
theorem forall_mem_iff_perm {forward : List (Option Byte)} (hlen : forward.length = 256) :
    (∀ c : Byte, some c ∈ forward) ↔ forward.Perm (storeCodes.map some) := by
  constructor
  · intro h
    have hsub : storeCodes.map some ⊆ forward := List.forall_mem_map.mpr fun c _ => h c
    exact ((List.subperm_of_subset nodup_map_some_storeCodes hsub).perm_of_length_le
      (by simp [hlen])).symm
  · exact fun hperm c => hperm.mem_iff.mpr (List.mem_map_of_mem (mem_storeCodes c))

theorem isBijective_iff_unreachedCount_eq_zero {forward : List (Option Byte)}
    (hlen : forward.length = 256) : isBijective forward = true ↔ unreachedCount forward = 0 := by
  rw [isBijective_iff_perm hlen, unreachedCount_eq_zero_iff, forall_mem_iff_perm hlen]

end Sys2Proof.Machine

namespace Sys2Proof

open Sys2Proof.Machine

/-- Settles O31: the unreached count counts the store codes that are no forward entry, and both the flag
and the count 0 say that the forward entries are a permutation of the store codes. -/
theorem loadReportOfTable : Obligations.LoadReportOfTable := by
  intro forward hlen
  have hne : forward ≠ [] := List.ne_nil_of_length_pos (by omega)
  refine ⟨unreachedCount_eq_length_filter_range forward, unreachedCount_le forward, ?_,
    isBijective_iff_unreachedCount_eq_zero hlen, unreachedCount_of_forall_none,
    fun _ => unreachedCount_of_forall_some hne⟩
  rw [isBijective_iff, none_notMem_iff_getElem? hlen, nodup_iff_getElem?_ne hlen]

end Sys2Proof
end

section
/-! PROOF. The round trip of an EDITED value (R60). The parse walks over the text that formatting produced and
accepts each position for what it shows (R54 to R57): the digit string, the sign and so the value read are the
ones written. A table whose text is made of least preimages translates it back unchanged (R53). -/

namespace Sys2Proof.Machine

/-! ### Digit codes and sign positions -/

/-- A MINUS position (R44). -/
@[simp] def TextPos.isMinus : TextPos → Bool
  | .minus _ _ _ => true
  | .dig _ _ | .req _ _ | .mark _ _ _ | .fixed _ _ _ | .plus _ _ _ => false

/-- A PLUS position (R44). -/
@[simp] def TextPos.isPlus : TextPos → Bool
  | .plus _ _ _ => true
  | .dig _ _ | .req _ _ | .mark _ _ _ | .fixed _ _ _ | .minus _ _ _ => false

theorem digitCode_toNat {d : Nat} (h : d < 10) : (digitCode d).toNat = 0x30 + d :=
  toNat_toByte_of_lt (by omega)

theorem isDigitCode_digitCode {d : Nat} (h : d < 10) : isDigitCode (digitCode d) = true := by
  have hd := digitCode_toNat h
  simp only [isDigitCode, Bool.and_eq_true, decide_eq_true_eq]
  omega

theorem digitOf_digitCode {d : Nat} (h : d < 10) : digitOf (digitCode d) = d := by
  rw [digitOf, digitCode_toNat h]
  omega

/-- Under condition 1 of R60 a digit shown as itself is the fill only when it is 0. -/
theorem digitCode_ne_fill {d : Nat} {fill : Byte} {float : Option Byte} (h : d < 10) (hd : d ≠ 0)
    (hfill : (TextPos.dig fill float).readsBack) : digitCode d ≠ fill := by
  rintro rfl
  have h30 := congrArg BitVec.toNat (hfill (isDigitCode_digitCode h))
  rw [digitCode_toNat h] at h30
  change 48 + d = 48 at h30
  omega

theorem any_isMinus_textPositions (steps : List EditStep) (fill : Byte) (float : Option Byte)
    (hm : hasMinus steps = true) : (textPositions steps fill float).any TextPos.isMinus = true := by
  induction steps generalizing fill float with
  | nil => simp [hasMinus] at hm
  | cons s rest ih =>
    rw [textPositions_cons, List.any_append, Bool.or_eq_true]
    by_cases hs : s.op = .minus
    · exact .inl (by simp [EditStep.positions, hs, TextPos.isMinus])
    · exact .inr (ih _ _ (by simpa [hasMinus, hs] using hm))

/-! ### What the first of the positions shows (R50, R51) -/

/-- The digits left after a position. -/
def digitsAfter (pos : TextPos) (ds : List Nat) : List Nat := if pos.isDigit then ds.tail else ds

/-- The float character that shows in a suppressed fill just before the positions (R51). -/
def floatAhead (ps : List TextPos) (ds : List Nat) : Option Byte :=
  if turnsAt ps ds 0 then ps[0]?.bind TextPos.float else none

/-- The character at the first of the positions. -/
def headShown (negative : Bool) (pos : TextPos) (rest : List TextPos) (ds : List Nat) (on : Bool) :
    Byte :=
  (floatAt on (pos :: rest) ds 0).getD (shownAt negative on (pos :: rest) ds 0 pos)

/-- Significance after the first of the positions. -/
def onAfter (pos : TextPos) (ds : List Nat) (on : Bool) : Bool := on || turnsAt [pos] ds 0

theorem digitAt_head (ps : List TextPos) (ds : List Nat) : digitAt ps ds 0 = ds.headD 0 := by
  cases ds <;> rfl

theorem turnsAt_head (pos : TextPos) (rest : List TextPos) (ds : List Nat) :
    turnsAt (pos :: rest) ds 0 = turnsAt [pos] ds 0 := by
  cases pos <;> rfl

theorem textFrom_cons (negative : Bool) (pos : TextPos) (rest : List TextPos) (ds : List Nat)
    (on : Bool) :
    textFrom negative (pos :: rest) ds on
      = headShown negative pos rest ds on
        :: textFrom negative rest (digitsAfter pos ds) (onAfter pos ds on) := by
  rw [textFrom, turnsAt_head]
  rfl

theorem floatAt_head (on : Bool) (pos : TextPos) (rest : List TextPos) (ds : List Nat) :
    floatAt on (pos :: rest) ds 0
      = if suppressedAt on (pos :: rest) ds 0 then floatAhead rest (digitsAfter pos ds) else none := by
  rw [floatAt, turnsAt_cons, List.getElem?_cons_succ, floatAhead, digitsAfter]
  cases suppressedAt on (pos :: rest) ds 0 <;> simp

section
variable (negative : Bool) (rest : List TextPos) (ds : List Nat) (on : Bool) (c fill : Byte)
  (float : Option Byte)

theorem onAfter_dig : onAfter (.dig fill float) ds on = (on || ds.headD 0 != 0) := by
  simp [onAfter, turnsAt, digitAt_head]

theorem onAfter_req : onAfter (.req fill float) ds on = true := by
  simp [onAfter, turnsAt]

theorem onAfter_of_not_isDigit {pos : TextPos} (h : pos.isDigit = false) : onAfter pos ds on = on := by
  cases pos <;> simp_all [onAfter, turnsAt, TextPos.isDigit]

theorem headShown_dig :
    headShown negative (.dig fill float) rest ds on
      = if on || ds.headD 0 != 0 then digitCode (ds.headD 0) else (floatAhead rest ds.tail).getD fill := by
  rw [headShown, floatAt_head, suppressedAt, shownAt, onAt_zero, turnsAt_head, ← onAfter, onAfter_dig,
    digitAt_head]
  cases on || ds.headD 0 != 0 <;> rfl

theorem headShown_req : headShown negative (.req fill float) rest ds on = digitCode (ds.headD 0) := by
  rw [headShown, floatAt_head, suppressedAt, shownAt, digitAt_head]
  simp [digitCode]

theorem headShown_mark :
    headShown negative (.mark c fill float) rest ds on
      = if on then c else (floatAhead rest ds).getD fill := by
  rw [headShown, floatAt_head, suppressedAt, shownAt, onAt_zero, turnsAt_head, ← onAfter,
    onAfter_of_not_isDigit _ _ rfl]
  cases on <;> rfl

theorem headShown_fixed : headShown negative (.fixed c fill float) rest ds on = c := by
  simp [headShown, floatAt_head, suppressedAt, shownAt]

theorem headShown_minus :
    headShown negative (.minus c fill float) rest ds on = if negative then c else fill := by
  simp [headShown, floatAt_head, suppressedAt, shownAt]

theorem headShown_plus :
    headShown negative (.plus c fill float) rest ds on = if negative then fill else c := by
  simp [headShown, floatAt_head, suppressedAt, shownAt]

end

/-! ### Conditions 1 to 3 of R60 from some position on -/

theorem significancePos_cons (pos : TextPos) (rest : List TextPos) (ds : List Nat) :
    significancePos (pos :: rest) ds
      = if onAfter pos ds false then some pos else significancePos rest (digitsAfter pos ds) := by
  cases pos <;> simp [significancePos, onAfter, turnsAt, digitAt_head, digitsAfter, TextPos.isDigit]

/-- The rest of a program formats with these digits under conditions 1 to 3 of R60: the digits are one
decimal digit for each digit position, and the float character at the place where significance is still
to turn on is no digit code. -/
structure Readable (ps : List TextPos) (ds : List Nat) (on : Bool) : Prop where
  positions : ∀ p ∈ ps, p.readsBack
  float : on = false → ∀ p c, significancePos ps ds = some p → p.float = some c → isDigitCode c = false
  digits : ∀ d ∈ ds, d < 10
  count : ds.length = (ps.filter TextPos.isDigit).length

theorem Readable.head_lt {ps : List TextPos} {ds : List Nat} {on : Bool} (h : Readable ps ds on) :
    ds.headD 0 < 10 := by
  have hd := h.digits
  cases ds with
  | nil => simp
  | cons d ds => exact hd d (by simp)

theorem Readable.digits_eq_cons {pos : TextPos} {rest : List TextPos} {ds : List Nat} {on : Bool}
    (h : Readable (pos :: rest) ds on) (hp : pos.isDigit = true) : ds = ds.headD 0 :: ds.tail := by
  have hc := h.count
  cases ds with
  | nil => simp [hp] at hc
  | cons d ds => rfl

theorem Readable.tail {pos : TextPos} {rest : List TextPos} {ds : List Nat} {on : Bool}
    (h : Readable (pos :: rest) ds on) : Readable rest (digitsAfter pos ds) (onAfter pos ds on) where
  positions p hp := h.positions p (List.mem_cons_of_mem _ hp)
  float hon := by
    obtain ⟨hoff, hpos⟩ : on = false ∧ onAfter pos ds false = false := by
      simpa [onAfter] using hon
    have hf := h.float hoff
    rwa [significancePos_cons, if_neg (by simp [hpos])] at hf
  digits d hd := by
    unfold digitsAfter at hd
    split at hd
    · exact h.digits d (List.mem_of_mem_tail hd)
    · exact h.digits d hd
  count := by
    have hc := h.count
    unfold digitsAfter
    cases hp : pos.isDigit <;> simp [hp] at hc ⊢ <;> omega

/-- A float character ahead is no digit code, and the position after it accepts it there (R55). -/
theorem Readable.floatAhead_accepted {ps : List TextPos} {ds : List Nat} {c : Byte} (negative : Bool)
    (h : Readable ps ds false) (hc : floatAhead ps ds = some c) :
    isDigitCode c = false
      ∧ floatAccepted c false (ps.zip (textFrom negative ps ds false)) = true := by
  cases ps with
  | nil => simp [floatAhead] at hc
  | cons pos rest =>
    obtain ⟨hon, hfloat⟩ : onAfter pos ds false = true ∧ pos.float = some c := by
      simpa [floatAhead, onAfter, turnsAt_head pos rest] using hc
    refine ⟨h.float rfl pos c (by rw [significancePos_cons, if_pos hon]) hfloat, ?_⟩
    rw [textFrom_cons, List.zip_cons_cons]
    cases pos with
    | dig fill float =>
      rw [onAfter_dig, Bool.false_or] at hon
      rw [headShown_dig, Bool.false_or, if_pos hon]
      rw [floatAccepted, isDigitCode_digitCode h.head_lt, Bool.and_true]
      exact beq_iff_eq.mpr hfloat
    | req fill float =>
      rw [floatAccepted, Bool.not_false, Bool.and_true]
      exact beq_iff_eq.mpr hfloat
    | mark | fixed | minus | plus => simp [onAfter, turnsAt] at hon

/-- A suppressed fill shows the fill, or a float character that is accepted there. -/
theorem Readable.suppressed_cases {ps : List TextPos} {ds : List Nat} (negative : Bool) (fill : Byte)
    (h : Readable ps ds false) :
    (floatAhead ps ds).getD fill = fill
      ∨ isDigitCode ((floatAhead ps ds).getD fill) = false
        ∧ floatAccepted ((floatAhead ps ds).getD fill) false
          (ps.zip (textFrom negative ps ds false)) = true := by
  cases hc : floatAhead ps ds with
  | none => exact .inl rfl
  | some c => exact .inr (h.floatAhead_accepted negative hc)

/-! ### The parse follows the text (R54 to R57) -/

/-- The run state of a parse agrees with the run state of the formatting that wrote the text. -/
structure ParseState.Follows (st : ParseState) (negative on : Bool) : Prop where
  seen : st.seen = on
  req : on = false → st.reqPassed = false
  minus : negative = false → st.minusShown = false
  plus : negative = true → st.plusShown = false

/-- The run state after a position of the text is read. -/
def ParseState.read (st : ParseState) (negative : Bool) (pos : TextPos) (ds : List Nat) : ParseState :=
  { seen := onAfter pos ds st.seen
    reqPassed := st.reqPassed || isReq (pos, 0)
    minusShown := st.minusShown || (negative && pos.isMinus)
    plusShown := st.plusShown || (!negative && pos.isPlus)
    digits := if pos.isDigit then ds.headD 0 :: st.digits else st.digits }

theorem ParseState.Follows.read {st : ParseState} {negative on : Bool} (hst : st.Follows negative on)
    (pos : TextPos) (ds : List Nat) :
    (st.read negative pos ds).Follows negative (onAfter pos ds on) where
  seen := by rw [ParseState.read, hst.seen]
  req hon := by
    obtain ⟨hoff, hpos⟩ : on = false ∧ onAfter pos ds false = false := by
      simpa [onAfter] using hon
    cases pos <;> simp_all [ParseState.read, isReq, hst.req hoff, onAfter, turnsAt]
  minus hn := by simp [ParseState.read, hst.minus hn, hn]
  plus hn := by simp [ParseState.read, hst.plus hn, hn]

section
variable (st : ParseState) (negative : Bool) (ds : List Nat) (c fill : Byte) (float : Option Byte)

theorem read_dig : st.read negative (.dig fill float) ds
    = { st with seen := st.seen || ds.headD 0 != 0, digits := ds.headD 0 :: st.digits } := by
  simp [ParseState.read, onAfter_dig, isReq, TextPos.isDigit]

theorem read_req : st.read negative (.req fill float) ds
    = { st with seen := true, reqPassed := true, digits := ds.headD 0 :: st.digits } := by
  simp [ParseState.read, onAfter_req, isReq, TextPos.isDigit]

theorem read_mark : st.read negative (.mark c fill float) ds = st := by
  simp [ParseState.read, onAfter, turnsAt, isReq, TextPos.isDigit]

theorem read_fixed : st.read negative (.fixed c fill float) ds = st := by
  simp [ParseState.read, onAfter, turnsAt, isReq, TextPos.isDigit]

theorem read_minus : st.read negative (.minus c fill float) ds
    = { st with minusShown := st.minusShown || negative } := by
  simp [ParseState.read, onAfter, turnsAt, isReq, TextPos.isDigit]

theorem read_plus : st.read negative (.plus c fill float) ds
    = { st with plusShown := st.plusShown || !negative } := by
  simp [ParseState.read, onAfter, turnsAt, isReq, TextPos.isDigit]

end

section
variable {st : ParseState} {negative on : Bool} {rest : List TextPos} {ds : List Nat} {c fill : Byte}
  {float : Option Byte}

theorem parseStepAt_headShown_dig (h : Readable (.dig fill float :: rest) ds on)
    (hst : st.Follows negative on) :
    parseStepAt st (.dig fill float) (headShown negative (.dig fill float) rest ds on)
        (rest.zip (textFrom negative rest (digitsAfter (.dig fill float) ds)
          (onAfter (.dig fill float) ds on)))
      = some (st.read negative (.dig fill float) ds) := by
  have hfill := h.positions (.dig fill float) (by simp)
  have hlt := h.head_lt
  have htail := h.tail
  have hseen := hst.seen
  rw [headShown_dig, read_dig]
  rw [onAfter_dig] at htail ⊢
  rw [digitsAfter, TextPos.isDigit, if_pos rfl] at htail ⊢
  generalize ds.headD 0 = d at *
  cases on with
  | true => simp [parseStepAt, hseen, isDigitCode_digitCode hlt, digitOf_digitCode hlt]
  | false =>
    by_cases hd : d = 0
    · subst hd
      have hreq := hst.req rfl
      simp only [bne_self_eq_false, Bool.or_false, Bool.false_eq_true, if_false] at htail ⊢
      obtain hx | ⟨hx, haccept⟩ := htail.suppressed_cases negative fill
      · simp [parseStepAt, hseen, hx]
      · simp [parseStepAt, hseen, hreq, hx, haccept]
    · simp [parseStepAt, hseen, hd, isDigitCode_digitCode hlt, digitOf_digitCode hlt,
        digitCode_ne_fill hlt hd hfill]

theorem parseStepAt_headShown_mark (h : Readable (.mark c fill float :: rest) ds on)
    (hst : st.Follows negative on) :
    parseStepAt st (.mark c fill float) (headShown negative (.mark c fill float) rest ds on)
      (rest.zip (textFrom negative rest ds on)) = some st := by
  have htail : Readable rest ds (onAfter (.mark c fill float) ds on) := h.tail
  have hseen := hst.seen
  rw [onAfter_of_not_isDigit _ _ rfl] at htail
  rw [headShown_mark]
  cases on with
  | true => simp [parseStepAt]
  | false =>
    have hreq := hst.req rfl
    simp only [Bool.false_eq_true, if_false]
    obtain hx | ⟨-, haccept⟩ := htail.suppressed_cases negative fill
    · simp [parseStepAt, hseen, hx]
    · simp [parseStepAt, hseen, hreq, haccept]

end

/-- Each position of the text is accepted, and read as what it shows. -/
theorem parseStepAt_headShown {st : ParseState} {negative on : Bool} {pos : TextPos}
    {rest : List TextPos} {ds : List Nat} (h : Readable (pos :: rest) ds on)
    (hst : st.Follows negative on) :
    parseStepAt st pos (headShown negative pos rest ds on)
        (rest.zip (textFrom negative rest (digitsAfter pos ds) (onAfter pos ds on)))
      = some (st.read negative pos ds) := by
  cases pos with
  | dig fill float => exact parseStepAt_headShown_dig h hst
  | req fill float =>
    rw [headShown_req, read_req, parseStepAt, if_pos (isDigitCode_digitCode h.head_lt),
      digitOf_digitCode h.head_lt]
  | mark c fill float =>
    rw [read_mark, onAfter_of_not_isDigit _ _ rfl]
    exact parseStepAt_headShown_mark h hst
  | fixed c fill float => rw [headShown_fixed, read_fixed, parseStepAt, if_pos rfl]
  | minus c fill float =>
    have hne : c ≠ fill := h.positions (.minus c fill float) (by simp)
    rw [headShown_minus, read_minus]
    cases hn : negative with
    | true => simp [parseStepAt, hst.plus hn]
    | false => simp [parseStepAt, hne.symm]
  | plus c fill float =>
    have hne : c ≠ fill := h.positions (.plus c fill float) (by simp)
    rw [headShown_plus, read_plus]
    cases hn : negative with
    | true => simp [parseStepAt, hne.symm]
    | false => simp [parseStepAt, hst.minus hn]

/-- The parse of the text from some position on: the digits are the ones written. -/
theorem parseWalk_textFrom {negative on : Bool} {ps : List TextPos} {ds : List Nat} {st : ParseState}
    (n : Nat) (h : Readable ps ds on) (hst : st.Follows negative on) :
    ∃ st', parseWalk n st (ps.zip (textFrom negative ps ds on)) = .ok st'
      ∧ st'.minusShown = (st.minusShown || (negative && ps.any TextPos.isMinus))
      ∧ st'.digits.reverse = st.digits.reverse ++ ds := by
  induction ps generalizing n ds on st with
  | nil =>
    have hds : ds = [] := List.length_eq_zero_iff.mp h.count
    exact ⟨st, rfl, by simp, by simp [hds]⟩
  | cons pos rest ih =>
    obtain ⟨st', hwalk, hminus, hdigits⟩ := ih (n + 1) h.tail (hst.read pos ds)
    refine ⟨st', ?_, ?_, ?_⟩
    · rw [textFrom_cons, List.zip_cons_cons, parseWalk, parseStepAt_headShown h hst]
      exact hwalk
    · rw [hminus, List.any_cons, ParseState.read, Bool.or_assoc, Bool.and_or_distrib_left]
    · rw [hdigits, ParseState.read, digitsAfter]
      cases hp : pos.isDigit with
      | false => rfl
      | true =>
        rw [if_pos rfl, if_pos rfl, List.reverse_cons, List.append_assoc, List.singleton_append,
          ← h.digits_eq_cons hp]

/-! ### The value that is read (R59) -/

theorem ReadsBack.readable {steps : List EditStep} {x : Int} (h : ReadsBack steps x) :
    Readable (positionsOf steps) (decimalDigits (digitCount steps) x.natAbs) false where
  positions := h.positions
  float _ := h.float
  digits := decimalDigits_lt _ _
  count := by rw [decimalDigits_length, ← (textPositions_counts steps 0x20 none).1]; rfl

theorem ParseState.start_follows (negative : Bool) : ParseState.start.Follows negative false where
  seen := rfl
  req _ := rfl
  minus _ := rfl
  plus _ := rfl

theorem formatText_eq_textFrom (steps : List EditStep) (x : Int) :
    formatText steps x = textFrom (decide (x < 0)) (positionsOf steps)
      (decimalDigits (digitCount steps) x.natAbs) false := by
  refine List.ext_getElem? fun q => ?_
  rw [textFrom_getElem?]
  exact formatText_getElem? steps x q

theorem signed_natAbs (x : Int) : (if decide (x < 0) then -(x.natAbs : Int) else x.natAbs) = x := by
  simp only [decide_eq_true_eq]
  split <;> omega

/-- The parse of a formatted value finds its digits and its sign. -/
theorem parseWalk_formatText {steps : List EditStep} {x : Int} (h : ReadsBack steps x)
    (hminus : x < 0 → hasMinus steps = true) :
    ∃ st, parseWalk 0 .start ((positionsOf steps).zip (formatText steps x)) = .ok st
      ∧ st.minusShown = decide (x < 0)
      ∧ st.digits.reverse = decimalDigits (digitCount steps) x.natAbs := by
  rw [formatText_eq_textFrom]
  obtain ⟨st, hwalk, hsign, hdigits⟩ :=
    parseWalk_textFrom 0 h.readable (ParseState.start_follows (decide (x < 0)))
  refine ⟨st, hwalk, ?_, hdigits⟩
  rw [hsign]
  by_cases hx : x < 0
  · have hany : (positionsOf steps).any TextPos.isMinus = true :=
      any_isMinus_textPositions steps 0x20 none (hminus hx)
    simp [hx, hany]
  · simp [hx, ParseState.start]

/-! ### The translated text (R52, R53) -/

/-- No byte meets a test that no first byte meets. -/
theorem forall_of_firstByte_eq_none {start : Nat} {bytes : List Byte} {test : Byte → Bool}
    (h : firstByte start bytes test = none) : ∀ b ∈ bytes, test b = false := by
  intro b hb
  obtain ⟨i, hi, rfl⟩ := List.mem_iff_getElem.mp hb
  rw [firstByte, Option.map_eq_none_iff, List.find?_eq_none] at h
  simpa using h (bytes[i], start + i) (List.mk_add_mem_zipIdx_iff_getElem?.mpr (by simp [hi]))

theorem translateForward_ofForward {tables : Vector CodeTable 4} {i : Fin 4}
    {forward : List (Option Byte)} (h : tables[i] = .ofForward forward) (v : Byte) :
    translateForward tables (some i) v = forward.getD v.toNat none := by
  simp [translateForward, h, CodeTable.ofForward]

theorem translateReverse_ofForward {tables : Vector CodeTable 4} {i : Fin 4}
    {forward : List (Option Byte)} (h : tables[i] = .ofForward forward) (c : Byte) :
    translateReverse tables (some i) c = reverseEntry forward c := by
  have hc : c.toNat < 256 := c.isLt
  simp [translateReverse, h, CodeTable.ofForward, reverseMap, hc, toByte_of_toNat]

/-- The least view code of a store code is its reverse entry (R26). -/
theorem reverseEntry_of_least {forward : List (Option Byte)} {v c : Byte}
    (hv : forward[v.toNat]? = some (some c))
    (hleast : ∀ v' : Byte, forward[v'.toNat]? = some (some c) → v.toNat ≤ v'.toNat) :
    reverseEntry forward c = some v := by
  obtain ⟨hlt, hget⟩ := List.getElem?_eq_some_iff.mp hv
  have hfind : forward.findIdx? (fun e => e == some c) = some v.toNat := by
    rw [List.findIdx?_eq_some_iff_getElem]
    refine ⟨hlt, by simp [hget], fun j hj => ?_⟩
    have hj' : j < 256 := hj.trans v.isLt
    have hmin := hleast (toByte j)
    rw [toNat_toByte_of_lt hj', List.getElem?_eq_getElem (hj.trans hlt)] at hmin
    intro he
    have := hmin (congrArg some (beq_iff_eq.mp he))
    omega
  rw [reverseEntry, hfind, Option.map_some, toByte_of_toNat]

/-- Condition 4 of R60: a view code that is the least with its store code is translated back to itself. -/
theorem translateReverse_of_least {tables : Vector CodeTable 4} {t : Option (Fin 4)} {v c : Byte}
    (ht : ∀ i, t = some i → ∃ forward, forward.length = 256 ∧ tables[i] = .ofForward forward)
    (hv : translateForward tables t v = some c)
    (hleast : ∀ v' : Byte, translateForward tables t v' = translateForward tables t v →
      v.toNat ≤ v'.toNat) :
    translateReverse tables t c = some v := by
  cases t with
  | none => exact hv.symm
  | some i =>
    obtain ⟨forward, hlen, htable⟩ := ht i rfl
    have hget (v' : Byte) : translateForward tables (some i) v' = some c
        ↔ forward[v'.toNat]? = some (some c) := by
      have hlt : v'.toNat < forward.length := hlen ▸ v'.isLt
      simp [translateForward_ofForward htable, hlt]
    rw [translateReverse_ofForward htable]
    exact reverseEntry_of_least ((hget v).mp hv) fun v' h' => hleast v' (((hget v').mpr h').trans hv.symm)

/-! ### The two conversions (R49, R52, R59) -/

/-- Without exception the value fits the program and the store image is its translated text. -/
theorem editedForward_faithful {translate : Byte → Option Byte} {storeSub mark : Byte} {o : ByteOrder}
    {sg : Signedness} {storeLen : Nat} {steps : List EditStep} {image : List Byte}
    (h : (editedForward translate storeSub mark o sg storeLen steps image).exc = none) :
    let x := viewInteger o sg image
    x.natAbs < 10 ^ digitCount steps ∧ (x < 0 → hasMinus steps = true)
      ∧ (∀ c ∈ formatText steps x, (translate c).isSome = true)
      ∧ (editedForward translate storeSub mark o sg storeLen steps image).result
        = (formatText steps x).map fun c => (translate c).getD storeSub := by
  simp only [editedForward] at h ⊢
  split at h
  · simp at h
  · next hfits =>
    obtain ⟨hdigits, hsign⟩ := not_or.mp hfits
    refine ⟨not_le.mp hdigits, by simpa using hsign, fun c hc => ?_, by rw [if_neg hfits]⟩
    simpa using forall_of_firstByte_eq_none (Option.map_eq_none_iff.mp h) c hc

/-- A store image that translates to a text that parses reads as the value parsed, under the range check. -/
theorem editedReverse_of_parseWalk {translate : Byte → Option Byte} {o : ByteOrder} {sg : Signedness}
    {viewLen : Nat} {steps : List EditStep} {store text : List Byte} {st : ParseState}
    (htext : store.map translate = text.map some)
    (hwalk : parseWalk 0 .start ((positionsOf steps).zip text) = .ok st) :
    editedReverse translate o sg viewLen steps store
      = rangeChecked o sg viewLen
        (if st.minusShown then -(digitsValue st.digits.reverse : Int) else digitsValue st.digits.reverse) := by
  have hmapped : firstByte 0 store (fun b => (translate b).isNone) = none := by
    refine firstByte_none _ _ _ fun b hb => ?_
    have hmem : translate b ∈ text.map some := htext ▸ List.mem_map_of_mem hb
    obtain ⟨c, -, hc⟩ := List.mem_map.mp hmem
    rw [← hc, Option.isNone_some]
  have hread : (store.map fun b => (translate b).getD 0) = text := by
    have hgetD := congrArg (List.map fun e : Option Byte => e.getD 0) htext
    simpa [Function.comp_def] using hgetD
  simp only [editedReverse, hmapped, hread, hwalk]

end Sys2Proof.Machine

namespace Sys2Proof

open Sys2Proof.Machine

/-- Settles O34: condition 4 of R60 gives the parse the text that was formatted, conditions 1 to 3 let it read
the digits and the sign that were written, and the value lies in its own view type. -/
theorem editedRoundTrip : Obligations.EditedRoundTrip := by
  intro tables t storeSub mark o sg storeLen steps image hlen htables x out hexc hreads hleast
  obtain ⟨hfits, hsign, hmapped, hresult⟩ := editedForward_faithful hexc
  have htext : out.result.map (translateReverse tables t) = (formatText steps x).map some := by
    rw [hresult, List.map_map]
    refine List.map_congr_left fun c hc => ?_
    obtain ⟨b, hb⟩ := Option.isSome_iff_exists.mp (hmapped c hc)
    rw [Function.comp_apply, hb, Option.getD_some]
    exact translateReverse_of_least htables hb (hleast c hc)
  obtain ⟨st, hwalk, hminus, hdigits⟩ := parseWalk_formatText hreads hsign
  rw [editedReverse_of_parseWalk htext hwalk, hminus, hdigits, digitsValue_decimalDigits _ _ hfits,
    signed_natAbs]
  exact rangeChecked_viewInteger o sg image hlen

end Sys2Proof
end

section
/-! PROOF. A record handed over to the exception log (R150): one equation for a list with room, one for a full
list, and the dropped count below and at its ceiling. -/

namespace Sys2Proof.Machine

/-- A list with room takes the record under the sequence counter's value (R150). -/
theorem State.handOver_of_room {s : State} (r : ExcRecord) (hroom : s.log.length < 16) :
    s.handOver r = { s with
      log := s.log ++ [{ r with seq := s.seqCounter }], seqCounter := s.seqCounter + 1 } :=
  if_pos hroom

/-- A full list drops the record, which has used up its sequence number all the same (R150). -/
theorem State.handOver_of_full {s : State} (r : ExcRecord) (hfull : 16 ≤ s.log.length) :
    s.handOver r = { s with
      dropped := min 255 (s.dropped + 1), seqCounter := s.seqCounter + 1 } :=
  if_neg (Nat.not_lt.mpr hfull)

end Sys2Proof.Machine

namespace Sys2Proof

open Sys2Proof.Machine

/-- Settles O52: the list's length decides between room and full, and at a full list the dropped count's ceiling
of 255 lets one more drop count below it and none at it. -/
theorem recordHandedOver : Obligations.RecordHandedOver := by
  intro s r
  refine ⟨State.handOver_of_room r, fun hfull hbelow => ?_, fun hfull hceiling => ?_⟩
  · have hcount : min 255 (s.dropped + 1) = s.dropped + 1 := Nat.min_eq_right hbelow
    rw [State.handOver_of_full r hfull, hcount]
  · have hcount : min 255 (s.dropped + 1) = s.dropped := by omega
    rw [State.handOver_of_full r hfull, hcount]

end Sys2Proof
end

section
/-! PROOF. What carries a property through every command: it is enough that each event of the traffic side, each
event of the maintenance port and each command on the configuration keeps it. The settling of the part, the
release of a frame and the dispatch of a command to its meaning are gone through once, here. -/

namespace Sys2Proof.Machine

/-! ### The events a command is made of -/

/-- The traffic side keeps a property: the internal steps, the requests, the completions, the ends of jobs. -/
structure KeptByTraffic (P : State → Prop) : Prop where
  reoffer : ∀ (s : State) (r : Bool), P s → P { s with reoffer := r }
  freeCount : ∀ (s : State) (n : Nat), P s → P { s with freeCount := n }
  placeJob : ∀ s : State, P s → P s.placeJob
  startJob : ∀ s : State, P s → P s.startJob
  issue : ∀ s : State, P s → P s.issue
  completeDrain : ∀ (s : State) (w : Fin 8), P s → P (s.completeDrain w)
  offer : ∀ s : State, P s → P s.offer
  expireHold : ∀ s : State, P s → P s.expireHold
  triggerAges : ∀ s : State, P s → P s.triggerAges
  offerRequest : ∀ (s : State) (r : Request), P s → P (s.offerRequest r)
  takeResponse : ∀ s : State, P s → P s.takeResponse
  tickTimers : ∀ s : State, P s → P s.tickTimers
  complete : ∀ (s : State) (c : Completion), P s → P (s.complete c)
  endFlushJob : ∀ s : State, P s → P s.endFlushJob
  endReadJob : ∀ s : State, P s → P s.endReadJob

/-- The chip-select periods, the bytes and the results of the maintenance port keep a property. -/
structure KeptByPort (P : State → Prop) : Prop where
  endPeriod : ∀ (s : State) (x : List Byte), P s → P (s.endPeriod x)
  turnAway : ∀ s : State, P s → P s.turnAway
  putResult : ∀ (s : State) (c : ResultCode) (k : Byte) (data : List Byte), P s → P (s.putResult c k data)
  clearRefused : ∀ s : State, P s → P { s with refusedCount := 0 }
  beginPeriod : ∀ s : State, P s → P s.beginPeriod
  takeByte : ∀ (s : State) (b : Byte), P s → P (s.takeByte b)
  endEmptyPeriod : ∀ s : State, P s → P s.endEmptyPeriod

/-- The commands that write settings, windows, layouts, tables and programs keep a property. -/
structure KeptByStores (P : State → Prop) : Prop where
  setGlobal : ∀ (s : State) (p : List Byte), P s → P (s.setGlobal p).1
  writeWindow : ∀ (s : State) (p : List Byte) (w : Fin 8), P s → P (s.writeWindow p w).1
  activateWindow : ∀ (s : State) (w : Fin 8), P s → P (s.activateWindow w).1
  deactivateWindow : ∀ (s : State) (w : Fin 8), P s → P (s.deactivateWindow w).1
  beginLayout : ∀ (s : State) (p : List Byte), P s → P (s.beginLayout p).1
  appendField : ∀ (s : State) (p : List Byte), P s → P (s.appendField p).1
  commitLayout : ∀ (s : State) (p : List Byte), P s → P (s.commitLayout p).1
  eraseLayout : ∀ (s : State) (p : List Byte), P s → P (s.eraseLayout p).1
  loadTable : ∀ (s : State) (p : List Byte), P s → P (s.loadTable p).1
  eraseTable : ∀ (s : State) (p : List Byte), P s → P (s.eraseTable p).1
  completeBuild : ∀ s : State, P s → P s.completeBuild
  loadProgram : ∀ (s : State) (p : List Byte), P s → P (s.loadProgram p).1
  eraseProgram : ∀ (s : State) (p : List Byte), P s → P (s.eraseProgram p).1

/-- The commands that reach into the traffic side, and the resets, keep a property. -/
structure KeptByControl (P : State → Prop) : Prop where
  suspendWindow : ∀ (s : State) (w : Fin 8), P s → P (s.suspendWindow w).1
  takeLog : ∀ s : State, P s → P s.takeLog.1
  clearLog : ∀ s : State, P s → P s.clearLog.1
  flushAll : ∀ s : State, P s → P s.flushAll.1
  clearAll : ∀ s : State, P s → P s.clearAll.1
  assertBusReset : ∀ s : State, P s → P s.assertBusReset
  releaseBusReset : ∀ s : State, P s → P s.releaseBusReset
  assertPowerOnReset : ∀ s : State, P s → P s.assertPowerOnReset
  releasePowerOnReset : ∀ s : State, P s → P s.releasePowerOnReset

/-- Every event of the part keeps a property. -/
structure Kept (P : State → Prop) : Prop
  extends KeptByTraffic P, KeptByPort P, KeptByStores P, KeptByControl P

/-! ### Settling -/

section
variable {P : State → Prop}

theorem KeptByTraffic.dispatcherStep (k : KeptByTraffic P) {s : State} (h : P s) : P s.dispatcherStep := by
  unfold State.dispatcherStep
  split
  · exact k.expireHold s h
  · exact k.offer s h

theorem KeptByTraffic.timerStep (k : KeptByTraffic P) {s : State} (h : P s) : P s.timerStep := by
  have ht : P { s with freeCount := s.freeCount + 1 } := k.freeCount s _ h
  unfold State.timerStep
  dsimp only
  split
  · exact k.dispatcherStep ht
  · exact k.triggerAges _ ht

theorem KeptByTraffic.internalStep (k : KeptByTraffic P) (heldBack : Bool) (s t : State) (h : P s)
    (ht : s.internalStep heldBack = some t) : P t := by
  rcases s.internalStep_cases heldBack t ht with rfl | rfl | rfl | ⟨w, rfl⟩ | rfl | rfl | rfl
  · exact k.placeJob s h
  · exact k.startJob s h
  · exact k.issue s h
  · exact k.completeDrain s w h
  · exact k.dispatcherStep h
  · exact k.timerStep h
  · exact k.triggerAges s h

theorem KeptByTraffic.settle (k : KeptByTraffic P) {s : State} (h : P s) : P s.settle :=
  State.settle_induction (k.internalStep false) s h

theorem KeptByTraffic.settleToExpiry (k : KeptByTraffic P) {s : State} (h : P s) : P s.settleToExpiry :=
  State.settleToExpiry_induction (k.internalStep true) k.reoffer s h

/-! ### Releases of frames -/

theorem KeptByPort.releaseFrame (k : KeptByPort P) {s : State} (code : Byte) (payload : List Byte)
    {run : State → State × CmdResult} (hrun : ∀ t, P t → P (run t).1) (h : P s) :
    P (s.releaseFrame code payload run) :=
  s.releaseFrame_keeps code payload run h k.endPeriod k.turnAway k.putResult hrun

/-- A command that only reports leaves the part as it is. -/
theorem KeptByPort.releaseReply (k : KeptByPort P) {s : State} (code : Byte) (payload : List Byte)
    {run : State → State × CmdResult} (hrun : ∀ t, (run t).1 = t) (h : P s) :
    P (s.releaseFrame code payload run) :=
  k.releaseFrame code payload (fun t ht => (hrun t).symm ▸ ht) h

theorem KeptByPort.releaseBad (k : KeptByPort P) {s : State} (bytes : List Byte) (partialByte : Bool)
    (h : P s) : P (s.releaseBad bytes partialByte) := by
  have hend : P (s.endPeriod (List.replicate bytes.length 0xFF)) := k.endPeriod s _ h
  unfold State.releaseBad
  split
  · dsimp only
    split
    · exact k.turnAway _ hend
    · exact k.putResult _ _ _ _ hend
  · exact h

theorem KeptByPort.releaseUnknown (k : KeptByPort P) {s : State} (code : Byte) (payload : List Byte)
    (h : P s) : P (s.releaseUnknown code payload) := by
  unfold State.releaseUnknown
  split
  · exact h
  · exact k.releaseReply code payload (fun _ => rfl) h

theorem KeptByPort.releaseFetch (k : KeptByPort P) {s : State} (payload : List Byte) (h : P s) :
    P (s.releaseFetch payload) := by
  unfold State.releaseFetch
  split
  · split
    · exact k.clearRefused _ (k.endPeriod s _ h)
    · exact h
  · exact k.releaseReply _ payload (fun _ => rfl) h

theorem Kept.command (k : Kept P) {s : State} (code : Byte) (payload : List Byte) (len : Nat)
    {run : State → State × CmdResult} (hrun : ∀ t, P t → P (run t).1) (h : P s) :
    P (s.command code payload len run) :=
  k.releaseFrame code payload (fun t ht => withLength_keeps payload len run t ht (hrun t ht))
    (k.settle h)

theorem Kept.report (k : Kept P) {s : State} (code : Byte) (payload : List Byte) (len : Nat)
    {run : State → State × CmdResult} (hrun : ∀ t, (run t).1 = t) (h : P s) :
    P (s.command code payload len run) :=
  k.command code payload len (fun t ht => (hrun t).symm ▸ ht) h

theorem Kept.windowCommand (k : Kept P) {s : State} (code : Byte) (payload : List Byte)
    {run : Fin 8 → State → State × CmdResult} (hrun : ∀ w t, P t → P (run w t).1) (h : P s) :
    P (s.windowCommand code payload run) :=
  k.releaseFrame code payload
    (fun t ht => withLength_keeps payload 1 _ t ht (withWindow_keeps payload run t ht fun w => hrun w t ht))
    (k.settleToExpiry h)

/-! ### The reports change nothing -/

theorem State.readWindow_fst (payload : List Byte) (s : State) :
    (withWindow payload State.readWindow s).1 = s := by
  unfold withWindow
  split <;> rfl

theorem State.readLayout_fst (payload : List Byte) (s : State) : (s.readLayout payload).1 = s := by
  unfold State.readLayout
  split <;> rfl

theorem State.readTable_fst (payload : List Byte) (s : State) : (s.readTable payload).1 = s := by
  unfold State.readTable
  split <;> rfl

theorem State.readProgram_fst (payload : List Byte) (s : State) : (s.readProgram payload).1 = s := by
  unfold State.readProgram
  split <;> rfl

/-! ### Commands and steps -/

/-- Every command has a next state, and it has every property that the events of the part keep. -/
theorem Kept.exec (k : Kept P) (c : Instr) {s : State} (h : P s) : ∃ t, exec c s = .next t ∧ P t := by
  have hs : P s.settle := k.settle h
  cases c with
  | requestTaken r => exact ⟨_, rfl, k.offerRequest _ r hs⟩
  | responseTaken => exact ⟨_, rfl, k.takeResponse _ hs⟩
  | dispatcherOffer => exact ⟨_, rfl, k.offer _ h⟩
  | tick => exact ⟨_, rfl, k.tickTimers _ hs⟩
  | ageTrigger => exact ⟨_, rfl, k.triggerAges _ h⟩
  | holdExpiry => exact ⟨_, rfl, k.expireHold _ h⟩
  | unitIssue => exact ⟨_, rfl, k.issue _ h⟩
  | completion c => exact ⟨_, rfl, k.complete _ c hs⟩
  | drainComplete w => exact ⟨_, rfl, k.completeDrain _ w h⟩
  | jobPlacement => exact ⟨_, rfl, k.placeJob _ h⟩
  | jobStart => exact ⟨_, rfl, k.startJob _ h⟩
  | flushJobEnd => exact ⟨_, rfl, k.endFlushJob _ hs⟩
  | readJobEnd => exact ⟨_, rfl, k.endReadJob _ hs⟩
  | tableBuildComplete => exact ⟨_, rfl, k.completeBuild _ hs⟩
  | badFrame bytes partialByte => exact ⟨_, rfl, k.releaseBad bytes partialByte hs⟩
  | unknown code p => exact ⟨_, rfl, k.releaseUnknown code p hs⟩
  | resultFetch p => exact ⟨_, rfl, k.releaseFetch p hs⟩
  | status p => exact ⟨_, rfl, k.report _ p 0 (fun _ => rfl) h⟩
  | setGlobal p => exact ⟨_, rfl, k.command _ p 2 (fun t => k.setGlobal t p) h⟩
  | windowWrite p =>
    exact ⟨_, rfl, k.command _ p 26
      (fun t ht => withWindow_keeps p _ t ht fun w => k.writeWindow t p w ht) h⟩
  | windowRead p => exact ⟨_, rfl, k.report _ p 1 (State.readWindow_fst p) h⟩
  | activate p => exact ⟨_, rfl, k.windowCommand _ p (fun w t => k.activateWindow t w) h⟩
  | suspend p => exact ⟨_, rfl, k.windowCommand _ p (fun w t => k.suspendWindow t w) h⟩
  | deactivate p => exact ⟨_, rfl, k.windowCommand _ p (fun w t => k.deactivateWindow t w) h⟩
  | layoutBegin p => exact ⟨_, rfl, k.command _ p 5 (fun t => k.beginLayout t p) h⟩
  | fieldAppend p => exact ⟨_, rfl, k.command _ p 12 (fun t => k.appendField t p) h⟩
  | layoutCommit p => exact ⟨_, rfl, k.command _ p 1 (fun t => k.commitLayout t p) h⟩
  | layoutErase p => exact ⟨_, rfl, k.command _ p 1 (fun t => k.eraseLayout t p) h⟩
  | layoutRead p => exact ⟨_, rfl, k.report _ p 1 (State.readLayout_fst p) h⟩
  | tableLoad p => exact ⟨_, rfl, k.command _ p 513 (fun t => k.loadTable t p) h⟩
  | tableErase p => exact ⟨_, rfl, k.command _ p 1 (fun t => k.eraseTable t p) h⟩
  | tableRead p => exact ⟨_, rfl, k.report _ p 1 (State.readTable_fst p) h⟩
  | programLoad p => exact ⟨_, rfl, k.releaseFrame _ p (fun t => k.loadProgram t p) hs⟩
  | programErase p => exact ⟨_, rfl, k.command _ p 1 (fun t => k.eraseProgram t p) h⟩
  | programRead p => exact ⟨_, rfl, k.report _ p 1 (State.readProgram_fst p) h⟩
  | gatherRead p => exact ⟨_, rfl, k.report _ p 0 (fun _ => rfl) h⟩
  | logTake p => exact ⟨_, rfl, k.command _ p 0 k.takeLog h⟩
  | logPeek p => exact ⟨_, rfl, k.report _ p 0 (fun _ => rfl) h⟩
  | logClear p => exact ⟨_, rfl, k.command _ p 0 k.clearLog h⟩
  | flushAll p => exact ⟨_, rfl, k.command _ p 0 k.flushAll h⟩
  | clear p => exact ⟨_, rfl, k.command _ p 0 k.clearAll h⟩
  | busReset => exact ⟨_, rfl, k.assertBusReset _ hs⟩
  | busResetRelease => exact ⟨_, rfl, k.releaseBusReset _ hs⟩
  | powerOnReset => exact ⟨_, rfl, k.assertPowerOnReset _ h⟩
  | powerOnResetRelease => exact ⟨_, rfl, k.releasePowerOnReset _ hs⟩
  | chipSelectPeriodBegin => exact ⟨_, rfl, k.beginPeriod _ hs⟩
  | byteComplete b => exact ⟨_, rfl, k.takeByte _ b hs⟩
  | emptyPeriodRelease => exact ⟨_, rfl, k.endEmptyPeriod _ hs⟩

/-- A property that does not look at the queue and that every event keeps, every step keeps. -/
theorem Kept.step (k : Kept P) (hqueue : ∀ (s : State) (q : List Instr), P s → P { s with pending := q })
    (s t : State) (h : P s) (ht : step s = .next t) : P t := by
  rcases step_cases s t ht with ⟨-, rfl⟩ | ⟨c, rest, -, he⟩
  · exact h
  · obtain ⟨u, hu, hP⟩ := k.exec c (hqueue s rest h)
    rw [hu] at he
    injection he with he
    exact he ▸ hP

end

end Sys2Proof.Machine
end

section
/-! PROOF. What the commands on the settings and on the configuration stores can do, said once: each leaves the
part as it is or makes one change under the checks it has passed. A property that these changes keep, the
commands keep. -/

namespace Sys2Proof.Machine

/-! ### What each command can do -/

theorem State.noteWindowChange_eq (s : State) :
    s.noteWindowChange = { s with reoffer := offersAgain s } := by
  unfold State.noteWindowChange offersAgain
  cases hd : s.disp <;> simp [← hd]

theorem State.setGlobal_cases (s : State) (p : List Byte) :
    (s.setGlobal p).1 = s ∨ ∃ (divider : Nat) (enable : Bool), (8 ≤ divider ∧ divider ≤ 250)
      ∧ (s.setGlobal p).1 = { s with tickDivider := divider, alertEnable := enable } := by
  unfold State.setGlobal
  dsimp only
  split
  · next enable _ =>
    split
    · next hd => exact .inr ⟨_, enable, hd, rfl⟩
    · exact .inl rfl
  · exact .inl rfl

theorem Window.isOff_iff (w : Window) : w.isOff = true ↔ w.status = .off := by
  unfold Window.isOff
  split <;> simp_all

theorem State.writeWindow_cases (s : State) (p : List Byte) (w : Fin 8) :
    (s.writeWindow p w).1 = s ∨ ∃ cfg, s.windows[w].status = .off
      ∧ (s.writeWindow p w).1 = { s with windows := s.windows.set w { cfg, status := .off } } := by
  unfold State.writeWindow
  split
  · next hoff =>
    have hoff := (Window.isOff_iff _).mp hoff
    split
    · next cfg _ => exact .inr ⟨cfg, hoff, by rw [← hoff]; rfl⟩
    · exact .inl rfl
  · exact .inl rfl

theorem State.tryActivate_cases (s : State) (w : Fin 8) :
    (s.tryActivate w).1 = s ∨ ∃ va sa fields,
      s.layouts[s.windows[w].cfg.layout] = .built .valid va sa fields
      ∧ commitCheck s.tables s.programs va sa fields = none ∧ s.rangeChecks w va sa = none
      ∧ (s.tryActivate w).1 = s.makeActive w va sa := by
  unfold State.tryActivate
  dsimp only
  split
  · next va sa fields hl =>
    split
    · exact .inl rfl
    · next hc =>
      split
      · exact .inl rfl
      · next hr => exact .inr ⟨va, sa, fields, hl, by simpa using hc, hr, rfl⟩
  all_goals exact .inl rfl

theorem State.activateWindow_cases (s : State) (w : Fin 8) :
    (s.activateWindow w).1 = s ∨ ∃ va sa fields, s.windows[w].locks = false
      ∧ s.layouts[s.windows[w].cfg.layout] = .built .valid va sa fields
      ∧ commitCheck s.tables s.programs va sa fields = none ∧ s.rangeChecks w va sa = none
      ∧ (s.activateWindow w).1 = s.makeActive w va sa := by
  unfold State.activateWindow
  split
  · exact .inl rfl
  · next hl =>
    rcases s.tryActivate_cases w with h | ⟨va, sa, fields, h⟩
    · exact .inl h
    · exact .inr ⟨va, sa, fields, by simpa using hl, h⟩

theorem State.deactivateWindow_cases (s : State) (w : Fin 8) :
    (s.deactivateWindow w).1 = s ∨ ∃ va sa, s.windows[w].status = .live .suspended va sa
      ∧ (s.deactivateWindow w).1 = State.noteWindowChange
        { s with windows := s.windows.set w { s.windows[w] with status := .off } } := by
  unfold State.deactivateWindow
  split
  case h_4 va sa h => exact .inr ⟨va, sa, h, rfl⟩
  all_goals exact .inl rfl

theorem State.suspendWindow_cases (s : State) (w : Fin 8) :
    (s.suspendWindow w).1 = s ∨ ∃ va sa, s.windows[w].status = .live .active va sa
      ∧ (s.suspendWindow w).1 = (s.beginDrain w).1 := by
  unfold State.suspendWindow
  split
  case h_1 va sa h => exact .inr ⟨va, sa, h, rfl⟩
  all_goals exact .inl rfl

theorem State.beginLayout_cases (s : State) (p : List Byte) :
    (s.beginLayout p).1 = s ∨ ∃ l va sa, s.layoutInUse l = false
      ∧ (s.beginLayout p).1 = s.setLayout l (.built .draft va sa []) := by
  unfold State.beginLayout
  dsimp only
  split
  · exact .inl rfl
  · next l _ =>
    split
    · exact .inl rfl
    · split
      · exact .inl rfl
      · next hu => exact .inr ⟨l, _, _, by simpa using hu, rfl⟩

theorem State.appendField_cases (s : State) (p : List Byte) :
    (s.appendField p).1 = s ∨ ∃ l va sa fields f, s.layouts[l] = .built .draft va sa fields
      ∧ fields.length < 24 ∧ s.freeDescriptors ≠ 0
      ∧ (s.appendField p).1 = s.setLayout l (.built .draft va sa (fields ++ [f])) := by
  unfold State.appendField
  split
  · exact .inl rfl
  · next l _ =>
    split
    · next va sa fields hl =>
      split
      · exact .inl rfl
      · next f _ =>
        split
        · exact .inl rfl
        · next hn =>
          split
          · exact .inl rfl
          · next hf => exact .inr ⟨l, va, sa, fields, f, hl, Nat.not_le.mp hn, hf, rfl⟩
    all_goals exact .inl rfl

theorem State.commitLayout_cases (s : State) (p : List Byte) :
    (s.commitLayout p).1 = s ∨ ∃ l status va sa fields, s.layouts[l] = .built status va sa fields
      ∧ ((commitCheck s.tables s.programs va sa fields = none
          ∧ (s.commitLayout p).1 = s.setLayout l (.built .valid va sa fields))
        ∨ ∃ reason field, commitCheck s.tables s.programs va sa fields = some (reason, field)
          ∧ (s.commitLayout p).1 = s.setLayout l (.built (.invalid reason field) va sa fields)) := by
  unfold State.commitLayout
  split
  · exact .inl rfl
  · next l _ =>
    split
    · exact .inl rfl
    · next status va sa fields hl =>
      refine .inr ⟨l, status, va, sa, fields, hl, ?_⟩
      split
      · next hc => exact .inl ⟨hc, rfl⟩
      · next reason field hc => exact .inr ⟨reason, field, hc, rfl⟩

theorem State.eraseLayout_cases (s : State) (p : List Byte) :
    (s.eraseLayout p).1 = s ∨ ∃ l, s.layoutInUse l = false
      ∧ (s.eraseLayout p).1 = s.setLayout l .empty := by
  unfold State.eraseLayout
  split
  · exact .inl rfl
  · next l _ =>
    split
    · exact .inl rfl
    · next hu => exact .inr ⟨l, by simpa using hu, rfl⟩

theorem State.loadTable_cases (s : State) (p : List Byte) :
    (s.loadTable p).1 = s ∨ ∃ b, (s.loadTable p).1 = { s with build := b } := by
  unfold State.loadTable
  dsimp only
  split
  · exact .inl rfl
  · split
    · exact .inl rfl
    · split
      · exact .inl rfl
      · exact .inr ⟨_, rfl⟩

theorem State.eraseTable_cases (s : State) (p : List Byte) :
    (s.eraseTable p).1 = s ∨ ∃ t, s.tableInUse t = false
      ∧ (s.eraseTable p).1 = s.setTable t .empty := by
  unfold State.eraseTable
  split
  · exact .inl rfl
  · next t _ =>
    split
    · exact .inl rfl
    · next hu =>
      split
      · exact .inr ⟨t, by simpa using hu, rfl⟩
      · exact .inl rfl

theorem State.completeBuild_cases (s : State) :
    s.completeBuild = s ∨ ∃ t forward c k data,
      s.completeBuild = (State.setTable { s with build := none } t (.ofForward forward)).putResult c k data := by
  unfold State.completeBuild
  split
  · exact .inl rfl
  · exact .inr ⟨_, _, _, _, _, rfl⟩

theorem State.loadSteps_cases (s : State) (e : Fin 32) (parsed : List (Option EditStep)) :
    (s.loadSteps e parsed).1 = s ∨ ∃ x, s.programInUse e = false
      ∧ (s.loadSteps e parsed).1 = s.setProgram e x := by
  unfold State.loadSteps
  dsimp only
  split
  · exact .inl rfl
  · split
    · exact .inl rfl
    · split
      · exact .inl rfl
      · split
        · exact .inl rfl
        · next hu => exact .inr ⟨_, by simpa using hu, rfl⟩

theorem State.loadProgram_cases (s : State) (p : List Byte) :
    (s.loadProgram p).1 = s ∨ ∃ e x, s.programInUse e = false
      ∧ (s.loadProgram p).1 = s.setProgram e x := by
  unfold State.loadProgram
  dsimp only
  split
  · exact .inl rfl
  · split
    · exact .inl rfl
    · split
      · exact .inl rfl
      · next e _ =>
        split
        · exact .inl rfl
        · exact (s.loadSteps_cases e _).imp_right fun ⟨x, h⟩ => ⟨e, x, h⟩

theorem State.eraseProgram_cases (s : State) (p : List Byte) :
    (s.eraseProgram p).1 = s ∨ ∃ e x, s.programInUse e = false
      ∧ (s.eraseProgram p).1 = s.setProgram e x := by
  unfold State.eraseProgram
  split
  · exact .inl rfl
  · next e _ =>
    split
    · exact .inl rfl
    · next hu =>
      split
      · exact .inr ⟨e, _, by simpa using hu, rfl⟩
      · exact .inl rfl

theorem State.clearAll_cases (s : State) :
    s.clearAll.1 = s ∨ (∀ w : Fin 8, s.windows[w].status = .off) ∧ s.clearAll.1 = s.clearConfiguration := by
  unfold State.clearAll
  split
  · next h =>
    refine .inr ⟨fun w => (Window.isOff_iff _).mp ?_, rfl⟩
    exact List.all_eq_true.mp h s.windows[w] (by simp)
  · exact .inl rfl

/-! ### Properties that the changes of the stores keep -/

/-- The changes of windows, layouts, tables and programs, each under the checks its command makes, keep a
property. -/
structure KeptByStoreChanges (P : State → Prop) : Prop where
  writeCfg : ∀ (s : State) (w : Fin 8) (cfg : WindowCfg), s.windows[w].status = .off → P s →
    P { s with windows := s.windows.set w { cfg, status := .off } }
  latch : ∀ (s : State) (w : Fin 8) (va sa : Nat) (fields : List FieldDesc),
    s.windows[w].locks = false → s.layouts[s.windows[w].cfg.layout] = .built .valid va sa fields →
    commitCheck s.tables s.programs va sa fields = none → s.rangeChecks w va sa = none → P s →
    P { s with windows := s.windows.set w { s.windows[w] with status := .live .active va sa } }
  turnOff : ∀ (s : State) (w : Fin 8), P s →
    P { s with windows := s.windows.set w { s.windows[w] with status := .off } }
  draft : ∀ (s : State) (l : Fin 16) (va sa : Nat), s.layoutInUse l = false → P s →
    P (s.setLayout l (.built .draft va sa []))
  append : ∀ (s : State) (l : Fin 16) (va sa : Nat) (fields : List FieldDesc) (f : FieldDesc),
    s.layouts[l] = .built .draft va sa fields → fields.length < 24 → s.freeDescriptors ≠ 0 → P s →
    P (s.setLayout l (.built .draft va sa (fields ++ [f])))
  commit : ∀ (s : State) (l : Fin 16) (status : LayoutStatus) (va sa : Nat) (fields : List FieldDesc),
    s.layouts[l] = .built status va sa fields → commitCheck s.tables s.programs va sa fields = none →
    P s → P (s.setLayout l (.built .valid va sa fields))
  reject : ∀ (s : State) (l : Fin 16) (status : LayoutStatus) (va sa : Nat) (fields : List FieldDesc)
    (reason : InvalidReason) (field : Option Nat), s.layouts[l] = .built status va sa fields →
    commitCheck s.tables s.programs va sa fields = some (reason, field) → P s →
    P (s.setLayout l (.built (.invalid reason field) va sa fields))
  erase : ∀ (s : State) (l : Fin 16), s.layoutInUse l = false → P s → P (s.setLayout l .empty)
  table : ∀ (s : State) (t : Fin 4) (x : CodeTable), s.tableInUse t = false ∨ x.isLoaded = true → P s →
    P (s.setTable t x)
  program : ∀ (s : State) (e : Fin 32) (x : Program), s.programInUse e = false → P s →
    P (s.setProgram e x)

/-- The changes that the commands on settings and stores make keep a property. -/
structure KeptByChanges (P : State → Prop) : Prop extends KeptByStoreChanges P where
  settings : ∀ (s : State) (divider : Nat) (enable : Bool), 8 ≤ divider → divider ≤ 250 → P s →
    P { s with tickDivider := divider, alertEnable := enable }
  build : ∀ (s : State) (b : Option Build), P s → P { s with build := b }
  result : ∀ (s : State) (c : ResultCode) (k : Byte) (data : List Byte), P s → P (s.putResult c k data)
  reoffer : ∀ (s : State) (r : Bool), P s → P { s with reoffer := r }

theorem KeptByStores.of_changes {P : State → Prop} (k : KeptByChanges P) : KeptByStores P where
  setGlobal s p h := by
    rcases s.setGlobal_cases p with e | ⟨d, b, ⟨h8, h250⟩, e⟩ <;> rw [e]
    · exact h
    · exact k.settings s d b h8 h250 h
  writeWindow s p w h := by
    rcases s.writeWindow_cases p w with e | ⟨cfg, hoff, e⟩ <;> rw [e]
    · exact h
    · exact k.writeCfg s w cfg hoff h
  activateWindow s w h := by
    rcases s.activateWindow_cases w with e | ⟨va, sa, fields, hk, hl, hc, hr, e⟩ <;> rw [e]
    · exact h
    · rw [State.makeActive, State.noteWindowChange_eq]
      exact k.reoffer _ _ (k.latch s w va sa fields hk hl hc hr h)
  deactivateWindow s w h := by
    rcases s.deactivateWindow_cases w with e | ⟨va, sa, -, e⟩ <;> rw [e]
    · exact h
    · rw [State.noteWindowChange_eq]
      exact k.reoffer _ _ (k.turnOff s w h)
  beginLayout s p h := by
    rcases s.beginLayout_cases p with e | ⟨l, va, sa, hu, e⟩ <;> rw [e]
    · exact h
    · exact k.draft s l va sa hu h
  appendField s p h := by
    rcases s.appendField_cases p with e | ⟨l, va, sa, fields, f, hl, hn, hf, e⟩ <;> rw [e]
    · exact h
    · exact k.append s l va sa fields f hl hn hf h
  commitLayout s p h := by
    rcases s.commitLayout_cases p with e | ⟨l, status, va, sa, fields, hl, ⟨hc, e⟩ | ⟨reason, field, hc, e⟩⟩
      <;> rw [e]
    · exact h
    · exact k.commit s l status va sa fields hl hc h
    · exact k.reject s l status va sa fields reason field hl hc h
  eraseLayout s p h := by
    rcases s.eraseLayout_cases p with e | ⟨l, hu, e⟩ <;> rw [e]
    · exact h
    · exact k.erase s l hu h
  loadTable s p h := by
    rcases s.loadTable_cases p with e | ⟨b, e⟩ <;> rw [e]
    · exact h
    · exact k.build s b h
  eraseTable s p h := by
    rcases s.eraseTable_cases p with e | ⟨t, hu, e⟩ <;> rw [e]
    · exact h
    · exact k.table s t _ (.inl hu) h
  completeBuild s h := by
    rcases s.completeBuild_cases with e | ⟨t, forward, c, b, data, e⟩ <;> rw [e]
    · exact h
    · exact k.result _ c b data (k.table _ t _ (.inr rfl) (k.build s none h))
  loadProgram s p h := by
    rcases s.loadProgram_cases p with e | ⟨x, y, hu, e⟩ <;> rw [e]
    · exact h
    · exact k.program s x y hu h
  eraseProgram s p h := by
    rcases s.eraseProgram_cases p with e | ⟨x, y, hu, e⟩ <;> rw [e]
    · exact h
    · exact k.program s x y hu h

end Sys2Proof.Machine
end

section
/-! PROOF. Properties of the configuration stores alone, and of the port alone: the traffic side keeps them. What is
left are the changes of the stores, and the end of a drain, which changes a window's mode. -/

namespace Sys2Proof.Machine

/-! ### What the events of the traffic side leave -/

/-- Two parts agree on the configuration stores. -/
structure SameStores (s t : State) : Prop where
  windows : t.windows = s.windows
  layouts : t.layouts = s.layouts
  tables : t.tables = s.tables
  programs : t.programs = s.programs

/-- Two parts agree on what the port's limits speak of, and on the queue. -/
structure SamePort (s t : State) : Prop where
  receiver : t.receiver = s.receiver
  refusedCount : t.refusedCount = s.refusedCount
  tickDivider : t.tickDivider = s.tickDivider
  pending : t.pending = s.pending

theorem SameConfig.stores {s t : State} (h : SameConfig s t) : SameStores s t :=
  ⟨h.windows, h.layouts, h.tables, h.programs⟩

theorem SameSetup.port {s t : State} (h : SameSetup s t) : SamePort s t :=
  ⟨h.receiver, h.refusedCount, h.tickDivider, h.pending⟩

section
variable {P : State → Prop}

/-- Taking offers keeps what changes of the transactions and offers cannot break. -/
theorem State.takeOffers_keeps (change : ∀ (s : State) (txns : List Txn) (offers : List Request) (n : Nat),
    P s → P { s with txns, offers, txnCounter := n }) {s : State} (h : P s) : P s.takeOffers :=
  s.takeOffers_frame ▸ change s _ _ _ h

theorem State.takeResponse_keeps (change : ∀ (s : State) (txns : List Txn) (offers : List Request) (n : Nat),
    P s → P { s with txns, offers, txnCounter := n }) {s : State} (h : P s) : P s.takeResponse := by
  unfold State.takeResponse
  split
  · exact State.takeOffers_keeps change (change s s.txns.tail s.offers s.txnCounter h)
  · exact h

theorem State.assertBusReset_keeps (drop : ∀ s : State, P s → P s.dropTransactions)
    (flush : ∀ (s : State) (gs : List (Fin 8)), P s → P (s.startFlushes gs)) {s : State} (h : P s) :
    P s.assertBusReset := by
  unfold State.assertBusReset
  split
  · exact h
  · exact flush _ _ (drop s h)

/-! ### Properties of the stores -/

/-- A property that nothing outside the stores can break, and that the changes of the stores keep. -/
structure KeptOfStores (P : State → Prop) : Prop extends KeptByStoreChanges P where
  same : ∀ s t : State, SameStores s t → P s → P t
  reset : P State.reset
  mode : ∀ (s : State) (w : Fin 8) (m : LiveMode), m = .suspended ∨ s.windows[w].locks = true → P s →
    P (s.setMode w m)

theorem KeptOfStores.requests (k : KeptOfStores P) (s : State) (txns : List Txn) (offers : List Request)
    (n : Nat) (h : P s) : P { s with txns, offers, txnCounter := n } := k.same s _ ⟨rfl, rfl, rfl, rfl⟩ h

theorem KeptOfStores.reoffer (k : KeptOfStores P) (s : State) (r : Bool) (h : P s) :
    P { s with reoffer := r } := k.same s _ ⟨rfl, rfl, rfl, rfl⟩ h

theorem KeptOfStores.completeDrain (k : KeptOfStores P) (s : State) (w : Fin 8) (h : P s) :
    P (s.completeDrain w) := by
  unfold State.completeDrain
  split
  · rw [State.noteWindowChange_eq]
    exact k.reoffer _ _ (k.mode s w _ (.inl rfl) h)
  · exact h

theorem KeptOfStores.suspendWindow (k : KeptOfStores P) (s : State) (w : Fin 8) (h : P s) :
    P (s.suspendWindow w).1 := by
  rcases s.suspendWindow_cases w with e | ⟨va, sa, ha, e⟩ <;> rw [e]
  · exact h
  · have hdraining : P (s.setMode w .draining) :=
      k.mode s w _ (.inr ((Window.locks_iff _).mpr ⟨va, sa, .inl ha⟩)) h
    have hflushed : ∀ gs, P ((s.setMode w .draining).startFlushes gs) := fun gs =>
      k.same _ _ (State.startFlushes_same _ gs).stores hdraining
    unfold State.beginDrain
    dsimp only [State.reply]
    rw [State.noteWindowChange_eq]
    refine k.reoffer _ _ ?_
    split
    · exact k.mode _ w _ (.inl rfl) (hflushed _)
    · exact hflushed _

theorem KeptOfStores.traffic (k : KeptOfStores P) : KeptByTraffic P where
  reoffer := k.reoffer
  freeCount s _ := k.same s _ ⟨rfl, rfl, rfl, rfl⟩
  placeJob s := k.same s _ s.placeJob_same.stores
  startJob s := k.same s _ s.startJob_same.stores
  issue s := k.same s _ s.issue_same.stores
  completeDrain := k.completeDrain
  offer s := k.same s _ s.offer_same.stores
  expireHold s := k.same s _ s.expireHold_same.stores
  triggerAges s := k.same s _ s.triggerAges_same.stores
  offerRequest s _ h := State.takeOffers_keeps k.requests (k.requests s s.txns _ s.txnCounter h)
  takeResponse _ h := State.takeResponse_keeps k.requests h
  tickTimers s := k.same s _ ⟨rfl, rfl, rfl, rfl⟩
  complete s c := k.same s _ (s.complete_same c).stores
  endFlushJob s := k.same s _ s.endFlushJob_same.stores
  endReadJob s := k.same s _ s.endReadJob_same.stores

theorem KeptOfStores.port (k : KeptOfStores P) : KeptByPort P where
  endPeriod s _ := k.same s _ ⟨rfl, rfl, rfl, rfl⟩
  turnAway s := k.same s _ ⟨rfl, rfl, rfl, rfl⟩
  putResult s _ _ _ := k.same s _ ⟨rfl, rfl, rfl, rfl⟩
  clearRefused s := k.same s _ ⟨rfl, rfl, rfl, rfl⟩
  beginPeriod s := k.same s _ (by unfold State.beginPeriod; split <;> exact ⟨rfl, rfl, rfl, rfl⟩)
  takeByte s _ := k.same s _ (by unfold State.takeByte; split <;> exact ⟨rfl, rfl, rfl, rfl⟩)
  endEmptyPeriod s := k.same s _ (by unfold State.endEmptyPeriod; split <;> exact ⟨rfl, rfl, rfl, rfl⟩)

theorem KeptOfStores.changes (k : KeptOfStores P) : KeptByChanges P where
  toKeptByStoreChanges := k.toKeptByStoreChanges
  settings s _ _ _ _ := k.same s _ ⟨rfl, rfl, rfl, rfl⟩
  build s _ := k.same s _ ⟨rfl, rfl, rfl, rfl⟩
  result s _ _ _ := k.same s _ ⟨rfl, rfl, rfl, rfl⟩
  reoffer := k.reoffer

theorem KeptOfStores.control (k : KeptOfStores P) : KeptByControl P where
  suspendWindow := k.suspendWindow
  takeLog s := k.same s _ ⟨rfl, rfl, rfl, rfl⟩
  clearLog s := k.same s _ ⟨rfl, rfl, rfl, rfl⟩
  flushAll s := k.same s _ (s.startFlushes_same _).stores
  clearAll s h := by
    rcases s.clearAll_cases with e | ⟨-, e⟩ <;> rw [e]
    · exact h
    · exact k.same State.reset _ ⟨rfl, rfl, rfl, rfl⟩ k.reset
  assertBusReset _ h := State.assertBusReset_keeps (fun s => k.same s _ ⟨rfl, rfl, rfl, rfl⟩)
    (fun s gs => k.same s _ (s.startFlushes_same gs).stores) h
  releaseBusReset s h := State.takeOffers_keeps k.requests (k.same s _ ⟨rfl, rfl, rfl, rfl⟩ h)
  assertPowerOnReset s _ := k.same State.reset s.assertPowerOnReset ⟨rfl, rfl, rfl, rfl⟩ k.reset
  releasePowerOnReset s h := State.takeOffers_keeps k.requests (k.same s _ ⟨rfl, rfl, rfl, rfl⟩ h)

/-- A property of the stores that their changes keep, every step keeps. -/
theorem KeptOfStores.step (k : KeptOfStores P) (s t : State) (h : P s) (ht : step s = .next t) : P t :=
  Kept.step
    { k.traffic, k.port, k.control with toKeptByStores := KeptByStores.of_changes k.changes }
    (fun s _ => k.same s _ ⟨rfl, rfl, rfl, rfl⟩) s t h ht

/-! ### Properties of the port -/

/-- A property that nothing outside the port's limits and the queue can break, and that the port keeps. -/
structure KeptOfPort (P : State → Prop) : Prop extends KeptByPort P where
  same : ∀ s t : State, SamePort s t → P s → P t
  divider : ∀ (s : State) (n : Nat), 8 ≤ n → n ≤ 250 → P s → P { s with tickDivider := n }
  powerOn : ∀ s : State, P s → P s.assertPowerOnReset

theorem KeptOfPort.requests (k : KeptOfPort P) (s : State) (txns : List Txn) (offers : List Request)
    (n : Nat) (h : P s) : P { s with txns, offers, txnCounter := n } := k.same s _ ⟨rfl, rfl, rfl, rfl⟩ h

theorem State.beginDrain_port (s : State) (w : Fin 8) : SamePort s (s.beginDrain w).1 := by
  have hflushed := (s.setMode w .draining).startFlushes_same (s.gatheringWhere fun k => k.window == w)
  have h : SamePort s ((s.setMode w .draining).startFlushes (s.gatheringWhere fun k => k.window == w)) :=
    ⟨hflushed.receiver, hflushed.refusedCount, hflushed.tickDivider, hflushed.pending⟩
  unfold State.beginDrain
  dsimp only [State.reply]
  rw [State.noteWindowChange_eq]
  split
  all_goals exact ⟨h.receiver, h.refusedCount, h.tickDivider, h.pending⟩

theorem KeptOfPort.traffic (k : KeptOfPort P) : KeptByTraffic P where
  reoffer s _ := k.same s _ ⟨rfl, rfl, rfl, rfl⟩
  freeCount s _ := k.same s _ ⟨rfl, rfl, rfl, rfl⟩
  placeJob s := k.same s _ s.placeJob_same.port
  startJob s := k.same s _ s.startJob_same.port
  issue s := k.same s _ s.issue_same.port
  completeDrain s w := k.same s _ (s.completeDrain_same w).port
  offer s := k.same s _ s.offer_same.port
  expireHold s := k.same s _ s.expireHold_same.port
  triggerAges s := k.same s _ s.triggerAges_same.port
  offerRequest s _ h := State.takeOffers_keeps k.requests (k.requests s s.txns _ s.txnCounter h)
  takeResponse _ h := State.takeResponse_keeps k.requests h
  tickTimers s := k.same s _ ⟨rfl, rfl, rfl, rfl⟩
  complete s c := k.same s _ (s.complete_same c).port
  endFlushJob s := k.same s _ s.endFlushJob_same.port
  endReadJob s := k.same s _ s.endReadJob_same.port

theorem KeptOfPort.changes (k : KeptOfPort P) : KeptByChanges P where
  settings s d _ h8 h250 h := k.same { s with tickDivider := d } _ ⟨rfl, rfl, rfl, rfl⟩ (k.divider s d h8 h250 h)
  build s _ := k.same s _ ⟨rfl, rfl, rfl, rfl⟩
  result := k.putResult
  reoffer s _ := k.same s _ ⟨rfl, rfl, rfl, rfl⟩
  writeCfg s _ _ _ := k.same s _ ⟨rfl, rfl, rfl, rfl⟩
  latch s _ _ _ _ _ _ _ _ := k.same s _ ⟨rfl, rfl, rfl, rfl⟩
  turnOff s _ := k.same s _ ⟨rfl, rfl, rfl, rfl⟩
  draft s _ _ _ _ := k.same s _ ⟨rfl, rfl, rfl, rfl⟩
  append s _ _ _ _ _ _ _ _ := k.same s _ ⟨rfl, rfl, rfl, rfl⟩
  commit s _ _ _ _ _ _ _ := k.same s _ ⟨rfl, rfl, rfl, rfl⟩
  reject s _ _ _ _ _ _ _ _ _ := k.same s _ ⟨rfl, rfl, rfl, rfl⟩
  erase s _ _ := k.same s _ ⟨rfl, rfl, rfl, rfl⟩
  table s _ _ _ := k.same s _ ⟨rfl, rfl, rfl, rfl⟩
  program s _ _ _ := k.same s _ ⟨rfl, rfl, rfl, rfl⟩

theorem KeptOfPort.control (k : KeptOfPort P) : KeptByControl P where
  suspendWindow s w h := by
    rcases s.suspendWindow_cases w with e | ⟨-, -, -, e⟩ <;> rw [e]
    · exact h
    · exact k.same s _ (s.beginDrain_port w) h
  takeLog s := k.same s _ ⟨rfl, rfl, rfl, rfl⟩
  clearLog s := k.same s _ ⟨rfl, rfl, rfl, rfl⟩
  flushAll s := k.same s _ (s.startFlushes_same _).port
  clearAll s h := by
    rcases s.clearAll_cases with e | ⟨-, e⟩ <;> rw [e]
    · exact h
    · exact k.same s _ ⟨rfl, rfl, rfl, rfl⟩ h
  assertBusReset _ h := State.assertBusReset_keeps (fun s => k.same s _ ⟨rfl, rfl, rfl, rfl⟩)
    (fun s gs => k.same s _ (s.startFlushes_same gs).port) h
  releaseBusReset s h := State.takeOffers_keeps k.requests (k.same s _ ⟨rfl, rfl, rfl, rfl⟩ h)
  assertPowerOnReset := k.powerOn
  releasePowerOnReset s h := State.takeOffers_keeps k.requests (k.same s _ ⟨rfl, rfl, rfl, rfl⟩ h)

theorem KeptOfPort.kept (k : KeptOfPort P) : Kept P :=
  { k.traffic, k.toKeptByPort, k.control with toKeptByStores := KeptByStores.of_changes k.changes }

/-! ### The queue -/

theorem State.pending_kept (q : List Instr) : Kept fun s => s.pending = q :=
  KeptOfPort.kept
    { same := fun _ _ h hq => h.pending.trans hq
      divider := fun _ _ _ _ h => h
      powerOn := fun _ h => h
      endPeriod := fun _ _ h => h
      turnAway := fun _ h => h
      putResult := fun _ _ _ _ h => h
      clearRefused := fun _ h => h
      beginPeriod := fun s h => by unfold State.beginPeriod; split <;> exact h
      takeByte := fun s _ h => by unfold State.takeByte; split <;> exact h
      endEmptyPeriod := fun s h => by unfold State.endEmptyPeriod; split <;> exact h }

end

end Sys2Proof.Machine

namespace Sys2Proof

open Sys2Proof.Machine

/-- Settles O1: both clauses are the two cases of the step. -/
theorem stepRunsFrontCommand : Obligations.StepRunsFrontCommand := by
  refine ⟨fun c s => rfl, fun s hempty => ?_⟩
  unfold step
  rw [hempty]

/-- Settles O2: no event of the part writes the queue, so every command keeps the queue it finds. -/
theorem everyCommandHasNextState : Obligations.EveryCommandHasNextState :=
  fun c s => (State.pending_kept s.pending).exec c rfl

end Sys2Proof
end

section
/-! PROOF. Live windows keep disjoint, well-formed ranges: only ACTIVATE makes a window live, and it has checked the
candidate ranges against every other live window before it latches them (R161, R162). -/

namespace Sys2Proof.Machine

theorem rangesMeet_comm (a b c d : Nat) : rangesMeet a b c d = rangesMeet c d a b := by
  rw [Bool.eq_iff_iff, rangesMeet_iff, rangesMeet_iff]
  exact exists_congr fun x => And.comm

/-! ### The range checks of ACTIVATE -/

/-- A window's ranges on its activation sizes are well formed (R3, R161). -/
def WindowCfg.Formed (c : WindowCfg) (va sa : Nat) : Prop :=
  1 ≤ c.recordCount ∧ c.viewEnd va ≤ 2 ^ 32 ∧ c.storeEnd sa ≤ 2 ^ 32 ∧ sa ≤ c.stride
    ∧ (c.ack = .posted ∨ 1 ≤ c.gatherTimeout)

/-- Two windows share no byte of either side (R161 check 4). -/
def WindowCfg.Apart (c d : WindowCfg) (va sa va' sa' : Nat) : Prop :=
  rangesMeet c.viewBase (c.viewEnd va) d.viewBase (d.viewEnd va') = false
    ∧ rangesMeet c.storeBase (c.storeEnd sa) d.storeBase (d.storeEnd sa') = false

theorem WindowCfg.Apart.symm {c d : WindowCfg} {va sa va' sa' : Nat} (h : c.Apart d va sa va' sa') :
    d.Apart c va' sa' va sa := by
  obtain ⟨hview, hstore⟩ := h
  exact ⟨rangesMeet_comm .. ▸ hview, rangesMeet_comm .. ▸ hstore⟩

theorem WindowCfg.ack_posted_or (c : WindowCfg) (h : ¬ (c.ack = .confirmed ∧ c.gatherTimeout = 0)) :
    c.ack = .posted ∨ 1 ≤ c.gatherTimeout := by
  cases hack : c.ack with
  | posted => exact .inl rfl
  | confirmed => exact .inr (Nat.one_le_iff_ne_zero.mpr fun h0 => h ⟨hack, h0⟩)

theorem State.overlapCode_live (s : State) (w v : Fin 8) (va sa : Nat) {mode : LiveMode} {va' sa' : Nat}
    (hne : v ≠ w) (hv : s.windows[v].status = .live mode va' sa') :
    s.overlapCode w va sa v =
      (if rangesMeet s.windows[w].cfg.viewBase (s.windows[w].cfg.viewEnd va)
          s.windows[v].cfg.viewBase (s.windows[v].cfg.viewEnd va') then 1 else 0)
        + (if rangesMeet s.windows[w].cfg.storeBase (s.windows[w].cfg.storeEnd sa)
          s.windows[v].cfg.storeBase (s.windows[v].cfg.storeEnd sa') then 2 else 0) := by
  unfold State.overlapCode
  simp only [hv, if_neg hne]

/-- Ranges with the overlap code 0 share no byte. -/
theorem State.apart_of_overlapCode (s : State) {w v : Fin 8} {va sa : Nat} {mode : LiveMode} {va' sa' : Nat}
    (hne : v ≠ w) (hv : s.windows[v].status = .live mode va' sa') (h : s.overlapCode w va sa v = 0) :
    s.windows[w].cfg.Apart s.windows[v].cfg va sa va' sa' := by
  rw [s.overlapCode_live w v va sa hne hv, Nat.add_eq_zero_iff] at h
  exact ⟨by simpa using h.1, by simpa using h.2⟩

theorem State.overlapping_none (s : State) (w : Fin 8) (va sa : Nat) :
    s.overlapping w va sa = none ↔ ∀ v : Fin 8, s.overlapCode w va sa v = 0 := by
  unfold State.overlapping
  simp [List.find?_eq_none]

/-- The candidate ranges that pass the checks are well formed and apart from every other live window. -/
theorem State.rangeChecks_none (s : State) (w : Fin 8) (va sa : Nat) (h : s.rangeChecks w va sa = none) :
    s.windows[w].cfg.Formed va sa ∧ ∀ v : Fin 8, s.overlapCode w va sa v = 0 := by
  unfold State.rangeChecks at h
  dsimp only at h
  split at h
  · exact absurd h (by simp)
  · next hformed =>
    split at h
    · exact absurd h (by simp)
    · next hstride =>
      split at h
      · exact absurd h (by simp)
      · next hover =>
        split at h
        · exact absurd h (by simp)
        · next hack =>
          obtain ⟨hcount, hview, hstore⟩ := not_not.mp hformed
          exact ⟨⟨hcount, hview, hstore, Nat.not_lt.mp hstride, WindowCfg.ack_posted_or _ hack⟩,
            (s.overlapping_none w va sa).mp hover⟩

/-! ### The windows stay sound -/

theorem State.WindowsSound.of_windows {s t : State} (e : t.windows = s.windows) (h : s.WindowsSound) :
    t.WindowsSound :=
  ⟨by rw [e]; exact h.formed, by rw [e]; exact h.apart⟩

/-- A window record put in a place is sound when it is OFF or its ranges fit in with the other windows'. -/
theorem State.WindowsSound.set {s : State} (h : s.WindowsSound) (w : Fin 8) (x : Window)
    (hformed : ∀ mode va sa, x.status = .live mode va sa → x.cfg.Formed va sa)
    (hapart : ∀ (v : Fin 8) mode va sa mode' va' sa', v ≠ w → x.status = .live mode va sa →
      s.windows[v].status = .live mode' va' sa' → x.cfg.Apart s.windows[v].cfg va sa va' sa') :
    State.WindowsSound { s with windows := s.windows.set w x } := by
  constructor
  · intro v mode va sa hv
    dsimp only at hv ⊢
    by_cases hvw : v = w
    · subst hvw
      rw [setAt_self] at hv ⊢
      exact hformed mode va sa hv
    · rw [setAt_ne _ _ _ _ (Ne.symm hvw)] at hv ⊢
      exact h.formed v mode va sa hv
  · intro u v mode mode' va sa va' sa' huv hu hv
    dsimp only at hu hv ⊢
    by_cases huw : u = w
    · subst huw
      rw [setAt_self] at hu ⊢
      rw [setAt_ne _ _ _ _ huv] at hv ⊢
      exact hapart v mode va sa mode' va' sa' (Ne.symm huv) hu hv
    · rw [setAt_ne _ _ _ _ (Ne.symm huw)] at hu ⊢
      by_cases hvw : v = w
      · subst hvw
        rw [setAt_self] at hv ⊢
        exact (hapart u mode' va' sa' mode va sa huw hv hu).symm
      · rw [setAt_ne _ _ _ _ (Ne.symm hvw)] at hv ⊢
        exact h.apart u v mode mode' va sa va' sa' huv hu hv

theorem State.WindowsSound.set_off {s : State} (h : s.WindowsSound) (w : Fin 8) (cfg : WindowCfg) :
    State.WindowsSound { s with windows := s.windows.set w { cfg, status := .off } } :=
  h.set w _ (fun _ _ _ he => by simp at he) (fun _ _ _ _ _ _ _ _ he => by simp at he)

theorem Window.withMode_live (w : Window) (m mode : LiveMode) (va sa : Nat) :
    (w.withMode m).status = .live mode va sa ↔ mode = m ∧ ∃ old, w.status = .live old va sa := by
  unfold Window.withMode
  split
  · next old va' sa' hw => simp [hw, eq_comm]
  · next hw => simp [hw]

theorem Window.withMode_cfg (w : Window) (m : LiveMode) : (w.withMode m).cfg = w.cfg := by
  unfold Window.withMode
  split <;> rfl

theorem State.WindowsSound.setMode {s : State} (h : s.WindowsSound) (w : Fin 8) (m : LiveMode) :
    (s.setMode w m).WindowsSound := by
  refine h.set w _ (fun mode va sa he => ?_) fun v mode va sa mode' va' sa' hvw he hv => ?_
  · obtain ⟨-, old, hold⟩ := (Window.withMode_live ..).mp he
    rw [Window.withMode_cfg]
    exact h.formed w old va sa hold
  · obtain ⟨-, old, hold⟩ := (Window.withMode_live ..).mp he
    rw [Window.withMode_cfg]
    exact h.apart w v old mode' va sa va' sa' (Ne.symm hvw) hold hv

theorem State.WindowsSound.latch {s : State} (h : s.WindowsSound) (w : Fin 8) (va sa : Nat)
    (hr : s.rangeChecks w va sa = none) : State.WindowsSound
      { s with windows := s.windows.set w { s.windows[w] with status := .live .active va sa } } := by
  obtain ⟨hformed, hcodes⟩ := s.rangeChecks_none w va sa hr
  refine h.set w _ (fun mode va1 sa1 he => ?_) fun v mode va1 sa1 mode' va' sa' hvw he hv => ?_
  · injection he with _ h1 h2
    subst h1 h2
    exact hformed
  · injection he with _ h1 h2
    subst h1 h2
    exact s.apart_of_overlapCode hvw hv (hcodes v)

theorem State.windowsSound_kept : KeptOfStores State.WindowsSound where
  same _ _ e h := h.of_windows e.windows
  reset := ⟨fun w mode va sa he => by simp [State.reset, Window.powerOn] at he,
    fun w v mode mode' va sa va' sa' _ he => by simp [State.reset, Window.powerOn] at he⟩
  mode _ w m _ h := h.setMode w m
  writeCfg _ w cfg _ h := h.set_off w cfg
  latch _ w va sa _ _ _ _ hr h := h.latch w va sa hr
  turnOff _ w h := h.set_off w _
  draft s _ _ _ _ h := .of_windows (s := s) rfl h
  append s _ _ _ _ _ _ _ _ h := .of_windows (s := s) rfl h
  commit s _ _ _ _ _ _ _ h := .of_windows (s := s) rfl h
  reject s _ _ _ _ _ _ _ _ _ h := .of_windows (s := s) rfl h
  erase s _ _ h := .of_windows (s := s) rfl h
  table s _ _ _ h := .of_windows (s := s) rfl h
  program s _ _ _ h := .of_windows (s := s) rfl h

end Sys2Proof.Machine

namespace Sys2Proof

open Sys2Proof.Machine

/-- Settles O56: ACTIVATE latches ranges that have passed the checks against every live window, every other
change of a window keeps its ranges or turns it OFF. -/
theorem windowsStaySound : Obligations.WindowsStaySound := State.windowsSound_kept.step

end Sys2Proof
end

section
/-! PROOF. VALID layouts stay committed and the layouts of ACTIVE and DRAINING windows stay VALID: the commit checks
as a list of tests, what a changed table or program can do to them, and the changes of the layouts one by
one (R6, R13, R15, R171). -/

namespace Sys2Proof.Machine

/-! ### The commit checks as tests over the fields (R13) -/

/-- Check 2: the field starts before its predecessor ends. -/
def orderBad (fields : List FieldDesc) (f : FieldDesc) (j : Nat) : Bool :=
  decide (1 ≤ j) && match fields[j - 1]? with
    | some p => decide (f.viewOff < p.viewOff + p.viewLen)
    | none => false

/-- Check 3: the field's store bytes meet those of an earlier one. -/
def storeOverlapBad (fields : List FieldDesc) (f : FieldDesc) (j : Nat) : Bool :=
  (fields.take j).any fun g =>
    rangesMeet f.storeOff (f.storeOff + f.storeLen) g.storeOff (g.storeOff + g.storeLen)

/-- Check 4: the field reaches beyond a record. -/
def boundsBad (viewSize storeSize : Nat) (f : FieldDesc) (_ : Nat) : Bool :=
  decide (viewSize < f.viewOff + f.viewLen) || decide (storeSize < f.storeOff + f.storeLen)

/-- Check 5: the field names an EMPTY table or an EMPTY program. -/
def loadBad (tables : Vector CodeTable 4) (programs : Vector Program 32) (f : FieldDesc) (_ : Nat) : Bool :=
  (match f.kind.table? with | some t => !tables[t].isLoaded | none => false)
    || (match f.kind.program? with | some e => !programs[e].isLoaded | none => false)

/-- Check 6: the field's store length is not its program's output length. -/
def lengthBad (programs : Vector Program 32) (f : FieldDesc) (_ : Nat) : Bool :=
  match f.kind.program? with
  | some e => f.storeLen != programs[e].outLen
  | none => false

/-- Check 7: the field's program has more digits than its view integer. -/
def digitsBad (programs : Vector Program 32) (f : FieldDesc) (_ : Nat) : Bool :=
  match f.kind.program? with
  | some e => decide (digitLimit f.viewLen < programs[e].digits)
  | none => false

/-- Checks 2 to 7, each with the reason it reports. -/
def commitTests (tables : Vector CodeTable 4) (programs : Vector Program 32) (viewSize storeSize : Nat)
    (fields : List FieldDesc) : List (InvalidReason × (FieldDesc → Nat → Bool)) :=
  [(.order, orderBad fields), (.storeOverlap, storeOverlapBad fields),
    (.bounds, boundsBad viewSize storeSize), (.notLoaded, loadBad tables programs),
    (.length, lengthBad programs), (.digits, digitsBad programs)]

/-- The outcome of one check over all fields. -/
def testFields (fields : List FieldDesc) (test : InvalidReason × (FieldDesc → Nat → Bool)) :
    Option (InvalidReason × Option Nat) := (firstFailing fields test.2).map fun j => (test.1, some j)

theorem commitCheck_eq (tables : Vector CodeTable 4) (programs : Vector Program 32)
    (viewSize storeSize : Nat) (fields : List FieldDesc) :
    commitCheck tables programs viewSize storeSize fields
      = if fields.isEmpty then some (.noFields, none)
        else (commitTests tables programs viewSize storeSize fields).findSome? (testFields fields) := by
  have hchain : ∀ a b c d e f : Option (InvalidReason × Option Nat),
      (a <|> b <|> c <|> d <|> e <|> f) = [a, b, c, d, e, f].findSome? id := by
    intro a b c d e f
    cases a <;> [skip; rfl]
    cases b <;> [skip; rfl]
    cases c <;> [skip; rfl]
    cases d <;> [skip; rfl]
    cases e <;> [skip; rfl]
    cases f <;> rfl
  unfold commitCheck
  dsimp only
  rw [hchain, ← Function.id_comp (testFields fields), ← List.findSome?_map]
  rfl

theorem firstFailing_congr (fields : List FieldDesc) (bad bad' : FieldDesc → Nat → Bool)
    (h : ∀ f ∈ fields, ∀ j, bad f j = bad' f j) : firstFailing fields bad = firstFailing fields bad' := by
  unfold firstFailing
  have hfind : ∀ l : List (FieldDesc × Nat), (∀ x ∈ l, x.1 ∈ fields) →
      l.find? (fun x => bad x.1 x.2) = l.find? fun x => bad' x.1 x.2 := by
    intro l hl
    induction l with
    | nil => rfl
    | cons x rest ih =>
      rw [List.find?_cons, List.find?_cons, h x.1 (hl x (by simp)) x.2,
        ih fun y hy => hl y (List.mem_cons_of_mem _ hy)]
  rw [hfind _ fun x hx => List.mem_of_getElem? (List.mem_zipIdx_iff_getElem?.mp hx)]

/-- The commit checks look at a table for whether it is LOADED, and at the programs that the fields name. -/
theorem commitCheck_congr {tables tables' : Vector CodeTable 4} {programs programs' : Vector Program 32}
    {viewSize storeSize : Nat} {fields : List FieldDesc}
    (ht : ∀ f ∈ fields, ∀ t, f.kind.table? = some t → tables'[t].isLoaded = tables[t].isLoaded)
    (hp : ∀ f ∈ fields, ∀ e, f.kind.program? = some e → programs'[e] = programs[e]) :
    commitCheck tables' programs' viewSize storeSize fields
      = commitCheck tables programs viewSize storeSize fields := by
  have hload := firstFailing_congr fields (loadBad tables' programs') (loadBad tables programs)
    fun f hf j => by
      have h1 := ht f hf
      have h2 := hp f hf
      unfold loadBad
      cases hkt : f.kind.table? <;> cases hkp : f.kind.program? <;> simp_all
  have hlength := firstFailing_congr fields (lengthBad programs') (lengthBad programs) fun f hf j => by
    have h2 := hp f hf
    unfold lengthBad
    cases hkp : f.kind.program? <;> simp_all
  have hdigits := firstFailing_congr fields (digitsBad programs') (digitsBad programs) fun f hf j => by
    have h2 := hp f hf
    unfold digitsBad
    cases hkp : f.kind.program? <;> simp_all
  simp only [commitCheck_eq, commitTests, testFields, List.findSome?_cons, hload, hlength, hdigits]

theorem commitCheck_none_iff (tables : Vector CodeTable 4) (programs : Vector Program 32)
    (viewSize storeSize : Nat) (fields : List FieldDesc) :
    commitCheck tables programs viewSize storeSize fields = none ↔ fields ≠ []
      ∧ ∀ c ∈ commitTests tables programs viewSize storeSize fields, ∀ j f, fields[j]? = some f →
        c.2 f j = false := by
  have htest : ∀ c, testFields fields c = none ↔ ∀ j f, fields[j]? = some f → c.2 f j = false := by
    intro c
    unfold testFields firstFailing
    rw [Option.map_eq_none_iff, Option.map_eq_none_iff, List.find?_eq_none]
    refine ⟨fun h j f hf => ?_, fun h x hx => ?_⟩
    · simpa using h (f, j) (List.mem_zipIdx_iff_getElem?.mpr hf)
    · simpa using h x.2 x.1 (List.mem_zipIdx_iff_getElem?.mp hx)
  rw [commitCheck_eq]
  split
  · next he => simp [List.isEmpty_iff.mp he]
  · next he =>
    rw [List.findSome?_eq_none_iff]
    refine ⟨fun h => ⟨by simpa using he, fun c hc => (htest c).mp (h c hc)⟩,
      fun h c hc => (htest c).mpr (h.2 c hc)⟩

/-- A committed layout names LOADED tables only. -/
theorem isLoaded_of_commitCheck {tables : Vector CodeTable 4} {programs : Vector Program 32}
    {viewSize storeSize : Nat} {fields : List FieldDesc}
    (h : commitCheck tables programs viewSize storeSize fields = none) {f : FieldDesc} (hf : f ∈ fields)
    {t : Fin 4} (ht : f.kind.table? = some t) : tables[t].isLoaded = true := by
  obtain ⟨j, hj⟩ := List.mem_iff_getElem?.mp hf
  have hload := ((commitCheck_none_iff ..).mp h).2 (.notLoaded, loadBad tables programs)
    (by simp [commitTests]) j f hj
  simp only [loadBad, ht, Bool.or_eq_false_iff, Bool.not_eq_false'] at hload
  exact hload.1

/-! ### The recheck (R15) -/

theorem Layout.rechecked_valid (tables : Vector CodeTable 4) (programs : Vector Program 32) (l : Layout)
    (va sa : Nat) (fields : List FieldDesc) : l.rechecked tables programs = .built .valid va sa fields
      ↔ l = .built .valid va sa fields ∧ commitCheck tables programs va sa fields = none := by
  unfold Layout.rechecked
  split
  · split
    · next hc =>
      simp only [Layout.built.injEq, reduceCtorEq, false_and, false_iff, not_and]
      rintro ⟨-, rfl, rfl, rfl⟩ h
      rw [hc] at h
      exact absurd h (by simp)
    · next hc =>
      simp only [Layout.built.injEq, true_and]
      refine ⟨fun h => ⟨h, ?_⟩, And.left⟩
      obtain ⟨rfl, rfl, rfl⟩ := h
      exact hc
  all_goals simp

/-- A recheck keeps the field list. -/
theorem Layout.rechecked_fields (tables : Vector CodeTable 4) (programs : Vector Program 32) (l : Layout) :
    (l.rechecked tables programs).fields = l.fields := by
  unfold Layout.rechecked
  split
  · split <;> rfl
  all_goals rfl

theorem mapAt {α β : Type} {n : Nat} (v : Vector α n) (f : α → β) (i : Fin n) :
    (v.map f)[i] = f v[i] := Vector.getElem_map _ _

/-! ### The layouts stay sound -/

theorem State.LayoutsSound.of_stores {s t : State} (e : SameStores s t) (h : s.LayoutsSound) :
    t.LayoutsSound :=
  ⟨by rw [e.layouts, e.tables, e.programs]; exact h.valid, by simpa only [e.windows, e.layouts] using h.locked⟩

theorem Window.locks_off (cfg : WindowCfg) : Window.locks { cfg, status := .off } = false := rfl

/-- A window's record put in a place is sound when the layout it locks, if it locks one, is VALID with its
activation sizes. -/
theorem State.LayoutsSound.setWindow {s : State} (h : s.LayoutsSound) (w : Fin 8) (x : Window)
    (hx : ∀ mode va sa, x.locks = true → x.status = .live mode va sa →
      ∃ fields, s.layouts[x.cfg.layout] = .built .valid va sa fields) :
    State.LayoutsSound { s with windows := s.windows.set w x } := by
  refine ⟨h.valid, fun v mode va sa hlocks hv => ?_⟩
  dsimp only at hlocks hv ⊢
  by_cases hvw : v = w
  · subst hvw
    simp only [setAt_self] at hlocks hv ⊢
    exact hx mode va sa hlocks hv
  · simp only [setAt_ne _ _ _ _ (Ne.symm hvw)] at hlocks hv ⊢
    exact h.locked v mode va sa hlocks hv

theorem Window.exists_live_of_locks {w : Window} (h : w.locks = true) :
    ∃ mode va sa, w.status = .live mode va sa := by
  obtain ⟨va, sa, hs | hs⟩ := (Window.locks_iff w).mp h
  · exact ⟨_, va, sa, hs⟩
  · exact ⟨_, va, sa, hs⟩

theorem State.layoutInUse_of_locks {s : State} {w : Fin 8} (h : s.windows[w].locks = true) :
    s.layoutInUse s.windows[w].cfg.layout = true := by
  obtain ⟨va, sa, hs⟩ := (Window.locks_iff _).mp h
  exact (s.layoutInUse_iff _).mpr ⟨w, va, sa, rfl, hs⟩

theorem State.LayoutsSound.setMode {s : State} (h : s.LayoutsSound) (w : Fin 8) (m : LiveMode)
    (hm : m = .suspended ∨ s.windows[w].locks = true) : (s.setMode w m).LayoutsSound := by
  refine h.setWindow w _ fun mode va sa hlocks he => ?_
  obtain ⟨rfl, old, hold⟩ := (Window.withMode_live ..).mp he
  simp only [Window.withMode_cfg]
  rcases hm with rfl | hlocked
  · obtain ⟨va', sa', h' | h'⟩ := (Window.locks_iff _).mp hlocks <;> exact absurd (he.symm.trans h') (by simp)
  · exact h.locked w old va sa hlocked hold

/-- A layout put in a place is sound when it is committed if VALID, and when a locked place keeps its VALID
layout. -/
theorem State.LayoutsSound.setLayout {s : State} (h : s.LayoutsSound) (l : Fin 16) (x : Layout)
    (hvalid : ∀ va sa fields, x = .built .valid va sa fields →
      commitCheck s.tables s.programs va sa fields = none)
    (hused : ∀ va sa fields, s.layoutInUse l = true → s.layouts[l] = .built .valid va sa fields →
      x = .built .valid va sa fields) :
    (s.setLayout l x).LayoutsSound := by
  constructor
  · intro j va sa fields hj
    dsimp only [State.setLayout] at hj ⊢
    by_cases hjl : j = l
    · subst hjl
      rw [setAt_self] at hj
      exact hvalid va sa fields hj
    · rw [setAt_ne _ _ _ _ (Ne.symm hjl)] at hj
      exact h.valid j va sa fields hj
  · intro w mode va sa hlocks hw
    obtain ⟨fields, hf⟩ := h.locked w mode va sa hlocks hw
    refine ⟨fields, ?_⟩
    dsimp only [State.setLayout]
    by_cases hl : s.windows[w].cfg.layout = l
    · simp only [hl, setAt_self] at hf ⊢
      exact hused va sa fields (hl ▸ State.layoutInUse_of_locks hlocks) hf
    · exact (setAt_ne _ _ _ _ (Ne.symm hl)).trans hf

/-- A layout in use is VALID. -/
theorem State.LayoutsSound.valid_of_inUse {s : State} (h : s.LayoutsSound) {l : Fin 16}
    (hu : s.layoutInUse l = true) : ∃ va sa fields, s.layouts[l] = .built .valid va sa fields := by
  obtain ⟨w, va, sa, rfl, hw⟩ := (s.layoutInUse_iff l).mp hu
  have hlocks := (Window.locks_iff _).mpr ⟨va, sa, hw⟩
  obtain ⟨mode, va', sa', hmode⟩ := Window.exists_live_of_locks hlocks
  exact ⟨va', sa', h.locked w mode va' sa' hlocks hmode⟩

/-- A recheck after a change of tables and programs is sound when the change spares the layouts that are not
rechecked and the layouts in use. -/
theorem State.LayoutsSound.recheck {s : State} (h : s.LayoutsSound) (tables : Vector CodeTable 4)
    (programs : Vector Program 32) (names : Layout → Bool)
    (hspared : ∀ l va sa fields, s.layouts[l] = .built .valid va sa fields →
      names s.layouts[l] = false ∨ s.layoutInUse l = true → commitCheck tables programs va sa fields = none) :
    (State.recheck { s with tables, programs } names).LayoutsSound := by
  constructor
  · intro l va sa fields hl
    dsimp only [State.recheck] at hl ⊢
    rw [mapAt] at hl
    cases hn : names s.layouts[l] with
    | true =>
      rw [hn, if_pos rfl, Layout.rechecked_valid] at hl
      exact hl.2
    | false =>
      rw [hn, if_neg (by simp)] at hl
      exact hspared l va sa fields hl (.inl hn)
  · intro w mode va sa hlocks hw
    obtain ⟨fields, hf⟩ := h.locked w mode va sa hlocks hw
    refine ⟨fields, (mapAt s.layouts _ s.windows[w].cfg.layout).trans ?_⟩
    split
    · exact (Layout.rechecked_valid ..).mpr
        ⟨hf, hspared _ va sa fields hf (.inr (State.layoutInUse_of_locks hlocks))⟩
    · exact hf

theorem Layout.namesTable_iff (l : Layout) (t : Fin 4) :
    l.namesTable t = true ↔ ∃ f ∈ l.fields, f.kind.table? = some t := by
  simp [Layout.namesTable]

theorem Layout.namesProgram_iff (l : Layout) (e : Fin 32) :
    l.namesProgram e = true ↔ ∃ f ∈ l.fields, f.kind.program? = some e := by
  simp [Layout.namesProgram]

theorem State.LayoutsSound.setTable {s : State} (h : s.LayoutsSound) (t : Fin 4) (x : CodeTable)
    (hx : s.tableInUse t = false ∨ x.isLoaded = true) : (s.setTable t x).LayoutsSound := by
  refine h.recheck _ s.programs _ fun l va sa fields hl hspared => ?_
  have hok := h.valid l va sa fields hl
  have hfields : s.layouts[l].fields = fields := by rw [hl]; rfl
  rw [commitCheck_congr (tables := s.tables) (programs := s.programs) (fun f hf t' ht' => ?_)
    fun _ _ _ _ => rfl]
  · exact hok
  · by_cases htt : t' = t
    · subst htt
      have hnames : s.layouts[l].namesTable t' = true :=
        (Layout.namesTable_iff ..).mpr ⟨f, by rw [hfields]; exact hf, ht'⟩
      rw [setAt_self, isLoaded_of_commitCheck hok hf ht']
      refine hx.resolve_left fun hfree => ?_
      rcases hspared with hn | hu
      · rw [hnames] at hn
        exact absurd hn (by simp)
      · have : s.tableInUse t' = true :=
          (s.tableInUse_iff t').mpr ⟨l, hu, f, by rw [hfields]; exact hf, ht'⟩
        rw [this] at hfree
        exact absurd hfree (by simp)
    · rw [setAt_ne _ _ _ _ (Ne.symm htt)]

theorem State.LayoutsSound.setProgram {s : State} (h : s.LayoutsSound) (e : Fin 32) (x : Program)
    (hfree : s.programInUse e = false) : (s.setProgram e x).LayoutsSound := by
  refine h.recheck s.tables _ _ fun l va sa fields hl hspared => ?_
  have hok := h.valid l va sa fields hl
  have hfields : s.layouts[l].fields = fields := by rw [hl]; rfl
  rw [commitCheck_congr (tables := s.tables) (programs := s.programs) (fun _ _ _ _ => rfl)
    fun f hf e' he' => ?_]
  · exact hok
  · by_cases hee : e' = e
    · subst hee
      exfalso
      rcases hspared with hn | hu
      · rw [(Layout.namesProgram_iff ..).mpr ⟨f, by rw [hfields]; exact hf, he'⟩] at hn
        exact absurd hn (by simp)
      · have : s.programInUse e' = true :=
          (s.programInUse_iff e').mpr ⟨l, hu, f, by rw [hfields]; exact hf, he'⟩
        rw [this] at hfree
        exact absurd hfree (by simp)
    · exact setAt_ne _ _ _ _ (Ne.symm hee)

theorem State.layoutsSound_kept : KeptOfStores State.LayoutsSound where
  same _ _ e h := h.of_stores e
  reset := ⟨fun l va sa fields he => by simp [State.reset] at he,
    fun w mode va sa _ he => by simp [State.reset, Window.powerOn] at he⟩
  mode _ w m hm h := h.setMode w m hm
  writeCfg _ w _ _ h := h.setWindow w _ fun _ _ _ hlocks => by rw [Window.locks_off] at hlocks; simp at hlocks
  latch _ w va sa fields _ hl _ _ h := h.setWindow w _ fun _ _ _ _ he => by
    injection he with _ h1 h2
    exact ⟨fields, h1 ▸ h2 ▸ hl⟩
  turnOff _ w h := h.setWindow w _ fun _ _ _ hlocks => by rw [Window.locks_off] at hlocks; simp at hlocks
  draft _ l va sa hu h := h.setLayout l _ (fun _ _ _ he => by simp at he)
    fun _ _ _ hused => by rw [hu] at hused; simp at hused
  append s l va sa fields f hl _ _ h := h.setLayout l _ (fun _ _ _ he => by simp at he)
    fun _ _ _ _ hv => by rw [hl] at hv; simp at hv
  commit s l status va sa fields hl hc h := h.setLayout l _
    (fun _ _ _ he => by
      obtain ⟨-, rfl, rfl, rfl⟩ := Layout.built.inj he
      exact hc)
    fun _ _ _ _ hv => by
      rw [hl] at hv
      obtain ⟨-, rfl, rfl, rfl⟩ := Layout.built.inj hv
      rfl
  reject s l status va sa fields reason field hl hc h := h.setLayout l _ (fun _ _ _ he => by simp at he)
    fun va' sa' fields' _ hv => by
      have hok := h.valid l va' sa' fields' hv
      rw [hl] at hv
      obtain ⟨-, rfl, rfl, rfl⟩ := Layout.built.inj hv
      rw [hc] at hok
      exact absurd hok (by simp)
  erase _ l hu h := h.setLayout l _ (fun _ _ _ he => by simp at he)
    fun _ _ _ hused => by rw [hu] at hused; simp at hused
  table _ t x hx h := h.setTable t x hx
  program _ e x hu h := h.setProgram e x hu

end Sys2Proof.Machine

namespace Sys2Proof

open Sys2Proof.Machine

/-- Settles O57: a layout in use is neither begun, appended to nor erased, a commit of it passes again, and a
table or program it names changes only to one that the commit checks pass as well. -/
theorem layoutsStaySound : Obligations.LayoutsStaySound := State.layoutsSound_kept.step

end Sys2Proof
end

section
/-! PROOF. The moves of the traffic side: everything that gather entries, memory queue, dispatcher and job queues do
is either calm, in that it leaves what the entries wait for as it was, or one of a few named moves. A property
that these keep, every step keeps. -/

namespace Sys2Proof.Machine

/-! ### Calm changes -/

/-- The dispatcher is in its issue phase. -/
def Disp.issues (d : Disp) : Prop := ∃ id rest, d = .issuing id rest

/-- The age of an entry, 0 for a FREE one. -/
def Entry.age (e : Entry) : Nat :=
  match e.slot with
  | .held _ b => b.age
  | .free => 0

/-- The stage of a MERGING or WRITING entry with the number of operations it waits for. -/
def Entry.awaits (e : Entry) : Option (Stage × Nat) :=
  match e.slot with
  | .held .merging b => some (.merging, b.opsLeft)
  | .held .writing b => some (.writing, b.opsLeft)
  | .held .gathering _ | .held .converting _ | .free => none

/-- An entry that went on as it was, for its key, what it waits for, and the range of its age. -/
structure Entry.Like (e e' : Entry) : Prop where
  key : e'.key? = e.key?
  awaits : e'.awaits = e.awaits
  age : e'.age ≤ max 255 e.age

theorem Entry.Like.refl (e : Entry) : e.Like e := ⟨rfl, rfl, Nat.le_max_right ..⟩

theorem Entry.Like.trans {e f g : Entry} (h : e.Like f) (k : f.Like g) : e.Like g :=
  ⟨k.key.trans h.key, k.awaits.trans h.awaits, by have := h.age; have := k.age; omega⟩

/-- What is the same in both states: the units, the operations, the open order, what the entries hold and
wait for. The lists stay within their capacities, or do not grow. -/
structure Calm (s t : State) : Prop where
  disp : t.disp = s.disp ∨ ¬ s.disp.issues ∧ ¬ t.disp.issues
  entries : ∀ g : Fin 8, s.entries[g].Like t.entries[g]
  openList : t.openList = s.openList
  outstanding : t.outstanding = s.outstanding
  units : t.units = s.units
  txns : t.txns.length ≤ max 8 s.txns.length
  jobs : t.jobs.length ≤ max 16 s.jobs.length
  log : t.log.length ≤ max 16 s.log.length
  dropped : t.dropped ≤ max 255 s.dropped

/-- Two parts agree on what the moves of the traffic side speak of. -/
structure SameTraffic (s t : State) : Prop where
  disp : t.disp = s.disp
  entries : t.entries = s.entries
  openList : t.openList = s.openList
  outstanding : t.outstanding = s.outstanding
  units : t.units = s.units
  txns : t.txns.length = s.txns.length
  jobs : t.jobs = s.jobs
  log : t.log = s.log
  dropped : t.dropped = s.dropped

theorem SameTraffic.calm {s t : State} (h : SameTraffic s t) : Calm s t where
  disp := .inl h.disp
  entries g := by rw [h.entries]; exact Entry.Like.refl _
  openList := h.openList
  outstanding := h.outstanding
  units := h.units
  txns := by rw [h.txns]; exact Nat.le_max_right ..
  jobs := by rw [h.jobs]; exact Nat.le_max_right ..
  log := by rw [h.log]; exact Nat.le_max_right ..
  dropped := by rw [h.dropped]; exact Nat.le_max_right ..

theorem Calm.refl (s : State) : Calm s s := SameTraffic.calm ⟨rfl, rfl, rfl, rfl, rfl, rfl, rfl, rfl, rfl⟩

theorem Calm.trans {s t u : State} (h : Calm s t) (k : Calm t u) : Calm s u where
  disp := by
    rcases k.disp with e | ⟨ht, hu⟩
    · rw [e]; exact h.disp
    · rcases h.disp with e | ⟨hs, -⟩
      · exact .inr ⟨e ▸ ht, hu⟩
      · exact .inr ⟨hs, hu⟩
  entries g := (h.entries g).trans (k.entries g)
  openList := k.openList.trans h.openList
  outstanding := k.outstanding.trans h.outstanding
  units := k.units.trans h.units
  txns := by have := h.txns; have := k.txns; omega
  jobs := by have := h.jobs; have := k.jobs; omega
  log := by have := h.log; have := k.log; omega
  dropped := by have := h.dropped; have := k.dropped; omega

theorem Calm.foldl {α : Type} {f : State → α → State} (hf : ∀ s x, Calm s (f s x)) (xs : List α)
    (s : State) : Calm s (xs.foldl f s) := by
  induction xs generalizing s with
  | nil => exact Calm.refl s
  | cons x xs ih => exact (hf s x).trans (ih _)

/-! ### Operations that are calm -/

theorem State.handOver_calm (s : State) (r : ExcRecord) : Calm s (s.handOver r) where
  disp := .inl (by simp)
  entries g := by rw [State.handOver_entries]; exact Entry.Like.refl _
  openList := by simp
  outstanding := by simp
  units := by simp
  txns := by simp
  jobs := by simp
  log := by
    rw [State.handOver_log]
    split
    · rw [List.length_append, List.length_singleton]; omega
    · omega
  dropped := by rw [State.handOver_dropped]; split <;> omega

theorem State.handOverAll_calm (s : State) (rs : List ExcRecord) : Calm s (s.handOverAll rs) :=
  Calm.foldl State.handOver_calm rs s

/-- A change of the transactions that adds none is calm. -/
theorem State.mapTxns_calm (s : State) (f : Txn → Txn) : Calm s { s with txns := s.txns.map f } :=
  SameTraffic.calm ⟨rfl, rfl, rfl, rfl, rfl, List.length_map _, rfl, rfl, rfl⟩

theorem State.setTxn_calm (s : State) (id : Nat) (st : TxnState) : Calm s (s.setTxn id st) :=
  s.mapTxns_calm _

theorem State.answer_calm (s : State) (id : Nat) (a : Answer) (data : List Byte) :
    Calm s (s.answer id a data) := s.setTxn_calm id _

theorem State.awaitPlacement_calm (s : State) (j : Job) : Calm s (s.awaitPlacement j) :=
  SameTraffic.calm ⟨rfl, rfl, rfl, rfl, rfl, rfl, rfl, rfl, rfl⟩

theorem State.noteFlushStart_calm (s : State) : Calm s s.noteFlushStart := by
  rw [State.noteFlushStart_eq]
  exact SameTraffic.calm ⟨rfl, rfl, rfl, rfl, rfl, rfl, rfl, rfl, rfl⟩

theorem State.takeOffer_calm (s : State) : Calm s s.takeOffer := by
  unfold State.takeOffer
  split
  · exact Calm.refl s
  · split
    · next hr =>
      have hroom : s.txns.length < 8 := by
        simp only [State.takesRequests, Bool.and_eq_true, decide_eq_true_eq] at hr
        exact hr.2
      exact
        { SameTraffic.calm (s := s) (t := s) ⟨rfl, rfl, rfl, rfl, rfl, rfl, rfl, rfl, rfl⟩ with
          disp := .inl rfl
          txns := by rw [List.length_append, List.length_singleton]; omega }
    · exact Calm.refl s

theorem State.takeOffers_calm (s : State) : Calm s s.takeOffers :=
  Calm.foldl (fun s _ => s.takeOffer_calm) _ s

/-- Entries that each went on as they were. -/
theorem State.withEntries_calm (s : State) (es : Vector Entry 8) (h : ∀ g : Fin 8, s.entries[g].Like es[g]) :
    Calm s { s with entries := es } :=
  { Calm.refl s with entries := h, disp := .inl rfl }

theorem State.mapEntries_calm (s : State) (f : Entry → Entry) (h : ∀ e : Entry, e.Like (f e)) :
    Calm s { s with entries := s.entries.map f } :=
  s.withEntries_calm _ fun g => by rw [mapAt]; exact h _

theorem State.setSlot_calm (s : State) (g : Fin 8) (slot : Slot)
    (h : s.entries[g].Like { s.entries[g] with slot := slot }) : Calm s (s.setSlot g slot) := by
  refine s.withEntries_calm _ fun j => ?_
  by_cases hj : g = j
  · subst hj
    rw [setAt_self]
    exact h
  · rw [setAt_ne _ _ _ _ hj]
    exact Entry.Like.refl _

/-- A change of an entry's members but for key, age and operations awaited. -/
theorem Entry.Like.edit {e : Entry} {stage : Stage} {b b' : Gather} (he : e.slot = .held stage b)
    (hkey : b'.key = b.key) (hage : b'.age = b.age) (hops : b'.opsLeft = b.opsLeft) :
    e.Like { e with slot := .held stage b' } where
  key := by simp only [Entry.key?, he, hkey]
  awaits := by cases stage <;> simp only [Entry.awaits, he, hops]
  age := by simp only [Entry.age, he, hage]; exact Nat.le_max_right ..

theorem State.editEntry_calm (s : State) (k : Key) (edit : Gather → Gather)
    (h : ∀ b, (edit b).key = b.key ∧ (edit b).age = b.age ∧ (edit b).opsLeft = b.opsLeft) :
    Calm s (s.editEntry k edit) := by
  unfold State.editEntry
  split
  · next g stage b hk =>
    obtain ⟨hkey, hage, hops⟩ := h b
    exact s.setSlot_calm g _ (.edit (s.entryFor_slot k g stage b hk).1 hkey hage hops)
  · exact Calm.refl s

theorem State.acknowledge_calm (s : State) (t : Txn) (d : Decode) (keys : List Key) :
    Calm s (s.acknowledge t d keys) := by
  unfold State.acknowledge
  split
  · exact s.answer_calm _ _ _
  · refine Calm.trans ?_ (State.setTxn_calm _ _ _)
    refine Calm.foldl (fun s k => ?_) keys s
    exact s.editEntry_calm k _ fun _ => ⟨rfl, rfl, rfl⟩

theorem Entry.like_tick (e : Entry) : e.Like e.tick := by
  unfold Entry.tick
  split
  · next b hb =>
    refine ⟨by simp only [Entry.key?, hb], by simp only [Entry.awaits, hb], ?_⟩
    simp only [Entry.age]
    omega
  all_goals exact Entry.Like.refl e

theorem Entry.like_unconfirmed (e : Entry) : e.Like e.unconfirmed := by
  unfold Entry.unconfirmed
  split
  · next hb => exact .edit hb rfl rfl rfl
  · exact Entry.Like.refl e

theorem Disp.not_issues_of {d : Disp} (h : d = .idle ∨ (∃ on, d = .blocked on) ∨ ∃ n, d = .holding n) :
    ¬ d.issues := by
  rintro ⟨id, rest, rfl⟩
  simp at h

@[simp] theorem Disp.issues_idle : ¬ Disp.idle.issues := Disp.not_issues_of (.inl rfl)
@[simp] theorem Disp.issues_blocked (on : BlockedOn) : ¬ (Disp.blocked on).issues :=
  Disp.not_issues_of (.inr (.inl ⟨on, rfl⟩))
@[simp] theorem Disp.issues_holding (n : Nat) : ¬ (Disp.holding n).issues :=
  Disp.not_issues_of (.inr (.inr ⟨n, rfl⟩))

theorem State.setDisp_calm (s : State) (d : Disp) (r : Bool) (hs : ¬ s.disp.issues) (hd : ¬ d.issues) :
    Calm s { s with disp := d, reoffer := r } :=
  { Calm.refl s with entries := fun _ => Entry.Like.refl _, disp := .inr ⟨hs, hd⟩ }

theorem State.tickTimers_calm (s : State) : Calm s s.tickTimers := by
  have hentries := s.mapEntries_calm Entry.tick Entry.like_tick
  refine { hentries with entries := hentries.entries, disp := ?_ }
  show s.disp.tick = s.disp ∨ _
  unfold Disp.tick
  split
  · next hd => exact .inr ⟨by rw [hd]; simp, by show ¬ s.disp.tick.issues; rw [hd]; exact Disp.issues_holding _⟩
  all_goals exact .inl rfl

theorem State.backfill_calm (s : State) (g : Fin 8) (opening : BitVec 32) (image : List Byte) :
    Calm s (s.backfill g opening image) := by
  unfold State.backfill
  split
  · next hb =>
    split
    · exact s.setSlot_calm g _ (.edit hb rfl rfl rfl)
    · exact Calm.refl s
  all_goals exact Calm.refl s

theorem State.offerBackfill_calm (s : State) (x : FieldOutcome) : Calm s (s.offerBackfill x) := by
  unfold State.offerBackfill
  split
  · exact s.backfill_calm _ _ _
  all_goals exact Calm.refl s

theorem State.answerRead_calm (s : State) (id : Nat) (p : Policy) (fields : List FieldDesc)
    (outs : List FieldOutcome) : Calm s (s.answerRead id p fields outs) := by
  unfold State.answerRead
  split
  · exact Calm.refl s
  · split
    · split <;> exact s.answer_calm _ _ _
    all_goals exact Calm.refl s

theorem State.takeHead_calm (s : State) (rest : List Job) (j : Job) (h : s.jobs = j :: rest) :
    Calm s { s with jobs := rest, running := false } :=
  { Calm.refl s with
    entries := fun _ => Entry.Like.refl _
    disp := .inl rfl
    jobs := by show rest.length ≤ _; rw [h, List.length_cons]; omega }

theorem State.endReadJob_calm (s : State) : Calm s s.endReadJob := by
  unfold State.endReadJob
  split
  · next hj =>
    unfold State.finishRead
    exact (((s.takeHead_calm _ _ hj).trans (State.handOverAll_calm _ _)).trans
      (State.answerRead_calm _ _ _ _ _)).trans (Calm.foldl State.offerBackfill_calm _ _)
  all_goals exact Calm.refl s

theorem State.readCompletion_calm (s : State) (id field : Nat) (c : Completion) :
    Calm s (s.readCompletion id field c) := by
  unfold State.readCompletion
  split
  · exact Calm.refl s
  · split
    · dsimp only
      split
      · exact s.setTxn_calm _ _
      · split
        · exact (s.handOverAll_calm _).trans (State.answer_calm _ _ _ _)
        · exact (s.setTxn_calm _ _).trans (State.awaitPlacement_calm _ _)
    all_goals exact Calm.refl s

theorem State.fenceTold_calm (s : State) (i : Issued) : Calm s (s.fenceTold i) := by
  unfold State.fenceTold
  split
  · exact s.mapTxns_calm _
  · exact Calm.refl s

theorem State.placeJob_calm (s : State) : Calm s s.placeJob := by
  unfold State.placeJob
  split
  · split
    · next hroom =>
      have hroom : s.jobs.length < 16 := hroom
      exact
        { Calm.refl s with
          entries := fun _ => Entry.Like.refl _
          disp := .inl rfl
          jobs := by rw [List.length_append, List.length_singleton]; omega }
    · exact Calm.refl s
  · exact Calm.refl s

end Sys2Proof.Machine
end

section
/-! PROOF. The moves that are not calm, and the way through the events of the part that goes by moves alone. -/

namespace Sys2Proof.Machine

/-- The moves of the traffic side keep a property. -/
structure KeptByMoves (P : State → Prop) : Prop where
  calm : ∀ s t : State, Calm s t → P s → P t
  opened : ∀ (s : State) (k : Key) (g : Fin 8), s.entryFor k = none → s.lowestFree = some g → P s →
    P (s.openEntry k)
  requested : ∀ (s : State) (g : Fin 8) (stage stage' : Stage) (kind : OpKind) (data : List Byte)
    (b b' : Gather), s.entries[g].slot = .held stage b → stage = .gathering ∨ stage = .converting →
    stage' = .merging ∨ stage' = .writing → b'.key = b.key → b'.age = b.age → P s →
    P (s.requestFieldUnit g stage' kind data b')
  freed : ∀ (s : State) (g : Fin 8) (b : Gather) (outcome : Answer),
    s.entries[g].slot = .held .converting b → P s → P (s.freeEntry g outcome)
  dispatched : ∀ (s : State) (id : Nat) (first : List MemOp) (rest : List (List MemOp)),
    ¬ s.disp.issues → (∀ ops ∈ first :: rest, ∀ op ∈ ops, ∀ g, op.source.isOf g = false) → P s →
    P (State.requestUnit { s with disp := .issuing id rest } .dispatcher first)
  issued : ∀ (s : State) (u : MemUnit), s.firstUnit = some u → u.ops.length ≤ s.freeSlots → P s →
    P (s.issueUnit u)
  popped : ∀ (s : State) (i : Issued) (rest : List Issued), s.outstanding = i :: rest →
    (∀ g : Fin 8, i.op.source.isOf g = true → s.entries[g].awaits = none) → P s →
    P { s with outstanding := rest }
  more : ∀ (s : State) (i : Issued) (rest : List Issued) (g : Fin 8) (stage : Stage) (b b' : Gather),
    s.outstanding = i :: rest → i.op.source.isOf g = true → s.entries[g].slot = .held stage b →
    1 < b.opsLeft → b'.key = b.key → b'.age = b.age → b'.opsLeft = b.opsLeft - 1 → P s →
    P (State.setSlot { s with outstanding := rest } g (.held stage b'))
  merged : ∀ (s : State) (i : Issued) (rest : List Issued) (g : Fin 8) (b b' : Gather),
    s.outstanding = i :: rest → i.op.source.isOf g = true → s.entries[g].slot = .held .merging b →
    b.opsLeft ≤ 1 → b'.key = b.key → b'.age = b.age → P s →
    P (State.setSlot { s with outstanding := rest } g (.held .converting b'))
  finished : ∀ (s : State) (i : Issued) (rest : List Issued) (g : Fin 8) (stage : Stage) (b : Gather)
    (outcome : Answer), s.outstanding = i :: rest → i.op.source.isOf g = true →
    s.entries[g].slot = .held stage b → stage = .merging ∨ stage = .writing → b.opsLeft ≤ 1 → P s →
    P (State.freeEntry { s with outstanding := rest } g outcome)
  transactionsDropped : ∀ s : State, P s → P s.dropTransactions
  reset : P State.reset

section
variable {P : State → Prop}

theorem KeptByMoves.same (k : KeptByMoves P) (s t : State) (h : SameTraffic s t) (hP : P s) : P t :=
  k.calm s t h.calm hP

/-! ### Flushes and openings -/

/-- A change of stage to CONVERTING when nothing was awaited. -/
theorem Entry.Like.convert {e : Entry} {b b' : Gather} (he : e.slot = .held .gathering b)
    (hkey : b'.key = b.key) (hage : b'.age = b.age) :
    e.Like { e with slot := .held .converting b' } where
  key := by simp only [Entry.key?, he, hkey]
  awaits := by simp only [Entry.awaits, he]
  age := by simp only [Entry.age, he, hage]; exact Nat.le_max_right ..

theorem KeptByMoves.startFlush (k : KeptByMoves P) (s : State) (g : Fin 8) (h : P s) :
    P (s.startFlush g) := by
  unfold State.startFlush
  split
  · next b hb =>
    have hranked : P (State.noteFlushStart
        { s with rankCounter := s.rankCounter + 1, flushOrder := s.flushOrder ++ [g] }) :=
      k.calm _ _ (State.noteFlushStart_calm _)
        (k.same s _ ⟨rfl, rfl, rfl, rfl, rfl, rfl, rfl, rfl, rfl⟩ h)
    have hslot : (State.noteFlushStart { s with
        rankCounter := s.rankCounter + 1, flushOrder := s.flushOrder ++ [g] }).entries[g].slot
        = .held .gathering b := by simpa using hb
    dsimp only
    split
    · refine k.calm _ _ (State.awaitPlacement_calm _ _) (k.calm _ _ (State.setSlot_calm _ g _ ?_) hranked)
      exact .convert hslot rfl rfl
    · exact k.requested _ g _ _ _ _ _ _ hslot (.inl rfl) (.inl rfl) rfl rfl hranked
  all_goals exact h

theorem KeptByMoves.startFlushes (k : KeptByMoves P) (gs : List (Fin 8)) (s : State) (h : P s) :
    P (s.startFlushes gs) := by
  unfold State.startFlushes
  induction gs generalizing s with
  | nil => exact h
  | cons g gs ih => exact ih _ (k.startFlush s g h)

theorem KeptByMoves.openEntry (k : KeptByMoves P) (s : State) (key : Key) (h : P s) :
    P (s.openEntry key) := by
  cases hk : s.entryFor key with
  | some x => unfold State.openEntry; rw [hk]; exact h
  | none =>
    cases hg : s.lowestFree with
    | none => unfold State.openEntry; rw [hk, hg]; exact h
    | some g => exact k.opened s key g hk hg h

theorem State.openEntry_disp (s : State) (key : Key) : (s.openEntry key).disp = s.disp := by
  unfold State.openEntry
  split <;> rfl

theorem State.editEntry_disp (s : State) (key : Key) (edit : Gather → Gather) :
    (s.editEntry key edit).disp = s.disp := by
  unfold State.editEntry
  split <;> rfl

theorem State.placeByte_disp (s : State) (key : Key) (pos : Nat) (b : Byte) :
    (s.placeByte key pos b).disp = s.disp := s.editEntry_disp key _

theorem State.placeByte_calm (s : State) (key : Key) (pos : Nat) (b : Byte) : Calm s (s.placeByte key pos b) :=
  s.editEntry_calm key _ fun _ => ⟨rfl, rfl, rfl⟩

theorem State.foldl_disp {α : Type} {f : State → α → State} (hf : ∀ s x, (f s x).disp = s.disp)
    (xs : List α) (s : State) : (xs.foldl f s).disp = s.disp := by
  induction xs generalizing s with
  | nil => rfl
  | cons x xs ih => exact (ih _).trans (hf s x)

theorem State.handOverAll_disp (s : State) (rs : List ExcRecord) : (s.handOverAll rs).disp = s.disp :=
  State.foldl_disp (fun s r => s.handOver_disp r) rs s

theorem State.acknowledge_disp (s : State) (t : Txn) (d : Decode) (keys : List Key) :
    (s.acknowledge t d keys).disp = s.disp := by
  unfold State.acknowledge
  split
  · rfl
  · exact State.foldl_disp (fun s k => s.editEntry_disp k _) keys s

/-! ### The offer -/

/-- The dispatcher takes up another state than ISSUING. -/
theorem KeptByMoves.settleDisp (k : KeptByMoves P) (s : State) (d : Disp) (r : Bool) (hs : ¬ s.disp.issues)
    (hd : ¬ d.issues) (h : P s) : P { s with disp := d, reoffer := r } :=
  k.calm _ _ (s.setDisp_calm d r hs hd) h

theorem KeptByMoves.dispatchWrite (k : KeptByMoves P) (s : State) (t : Txn) (d : Decode) (data : List Byte)
    (hd : ¬ s.disp.issues) (h : P s) : P (s.dispatchWrite t d data) := by
  unfold State.dispatchWrite
  dsimp only
  generalize (keptFields (s.fieldsOf d.window) d.offset data.length).map d.key = keys
  have hopened : P (keys.foldl State.openEntry s) :=
    (List.foldlRecOn (motive := P) keys _ h fun u hu key _ => k.openEntry u key hu)
  have hplaced := Calm.foldl (fun (u : State) (x : Nat × Nat × Byte) => u.placeByte_calm (d.key x.1) x.2.1 x.2.2)
    (keptBytes (s.fieldsOf d.window) d.offset data) (keys.foldl State.openEntry s)
  refine k.settleDisp _ .idle false ?_ Disp.issues_idle (k.startFlushes _ _ ?_)
  · rw [State.startFlushes_disp, State.acknowledge_disp, State.handOverAll_disp,
      State.foldl_disp (fun u x => u.placeByte_disp _ _ _), State.foldl_disp State.openEntry_disp]
    exact hd
  · exact k.calm _ _ ((hplaced.trans (State.handOverAll_calm _ _)).trans
      (State.acknowledge_calm _ _ _ _)) hopened

theorem KeptByMoves.offerWrite (k : KeptByMoves P) (s : State) (t : Txn) (d : Decode) (data : List Byte)
    (hd : ¬ s.disp.issues) (h : P s) : P (s.offerWrite t d data) := by
  have hanswered : ∀ (rs : List ExcRecord) (a : Answer),
      P { (s.handOverAll rs).answer t.id a [] with disp := .idle } := fun rs a =>
    k.settleDisp _ .idle _ (by rw [State.answer_disp, State.handOverAll_disp]; exact hd) Disp.issues_idle
      (k.calm _ _ ((s.handOverAll_calm rs).trans (State.answer_calm _ _ _ _)) h)
  unfold State.offerWrite
  dsimp only
  split
  · next r _ _ => exact hanswered [r] .error
  all_goals
    split
    · exact hanswered _ .okay
    · split
      · exact k.dispatchWrite s t d data hd h
      · exact k.settleDisp _ (.blocked .gatherBuffer) false (by rw [State.startFlushes_disp]; exact hd)
          (Disp.issues_blocked _) (k.startFlushes _ _ h)

/-- The operations of a unit have the sources that its halves are given. -/
theorem splitOps_source {kind : OpKind} {start len : Nat} {data : List Byte} {source : Half → Source}
    {op : MemOp} (h : op ∈ splitOps kind start len data source) : ∃ half, op.source = source half := by
  unfold splitOps at h
  dsimp only at h
  split at h
  · exact ⟨.whole, by rw [List.mem_singleton.mp h]⟩
  · rcases List.mem_pair.mp h with rfl | rfl
    · exact ⟨.lower, rfl⟩
    · exact ⟨.upper, rfl⟩

theorem State.fieldReadOps_notOf (s : State) (t : Txn) (d : Decode) (m : MemField) (op : MemOp)
    (h : op ∈ s.fieldReadOps t d m) (g : Fin 8) : op.source.isOf g = false := by
  obtain ⟨half, he⟩ := splitOps_source h
  rw [he]
  rfl

theorem KeptByMoves.offerRead (k : KeptByMoves P) (s : State) (t : Txn) (d : Decode) (n : Nat)
    (hd : ¬ s.disp.issues) (h : P s) : P (s.offerRead t d n) := by
  unfold State.offerRead
  split
  · exact k.settleDisp s _ _ hd (Disp.issues_blocked _) h
  · dsimp only
    split
    · exact k.settleDisp _ .idle _ hd Disp.issues_idle (k.calm _ _ (s.answer_calm _ _ _) h)
    · next first rest hops =>
      refine k.dispatched (s.setTxn t.id _) t.id first rest hd (fun ops hmem op hop g => ?_)
        (k.calm _ _ (s.setTxn_calm _ _) h)
      rw [← hops] at hmem
      obtain ⟨m, -, rfl⟩ := List.mem_map.mp hmem
      exact s.fieldReadOps_notOf t d m op hop g

theorem passThroughOp_notOf (t : Txn) (g : Fin 8) : (passThroughOp t).source.isOf g = false := by
  unfold passThroughOp
  split <;> rfl

theorem KeptByMoves.offerPassThrough (k : KeptByMoves P) (s : State) (t : Txn) (hd : ¬ s.disp.issues)
    (h : P s) : P (s.offerPassThrough t) := by
  unfold State.offerPassThrough
  dsimp only
  split
  · exact k.settleDisp _ _ false (by rw [State.startFlushes_disp]; exact hd) (Disp.issues_blocked _)
      (k.startFlushes _ _ h)
  · refine k.dispatched (s.setTxn t.id _) t.id [passThroughOp t] [] hd (fun ops hmem op hop g => ?_)
      (k.calm _ _ (s.setTxn_calm _ _) h)
    rw [List.mem_singleton.mp hmem, List.mem_singleton] at hop
    rw [hop]
    exact passThroughOp_notOf t g

theorem KeptByMoves.offerFence (k : KeptByMoves P) (s : State) (t : Txn) (hd : ¬ s.disp.issues) (h : P s) :
    P (s.offerFence t) := by
  unfold State.offerFence
  exact k.settleDisp _ .idle _ (by rw [State.setTxn_disp, State.startFlushes_disp]; exact hd)
    Disp.issues_idle (k.calm _ _ (State.setTxn_calm _ _ _) (k.startFlushes _ _ h))

theorem KeptByMoves.offerHeld (k : KeptByMoves P) (s : State) (hd : ¬ s.disp.issues) (h : P s) :
    P s.offerHeld := by
  unfold State.offerHeld
  split
  · exact h
  all_goals exact k.settleDisp s _ _ hd (Disp.issues_holding 0) h

theorem KeptByMoves.offerAccess (k : KeptByMoves P) (s : State) (t : Txn) (hd : ¬ s.disp.issues) (h : P s) :
    P (s.offerAccess t) := by
  unfold State.offerAccess
  split
  · exact k.offerPassThrough s t hd h
  · split
    · exact k.offerHeld s hd h
    · exact k.offerHeld s hd h
    · split
      · exact k.offerRead s t _ _ hd h
      · exact k.offerWrite s t _ _ hd h
      · exact h

theorem State.not_issues_of_offerDue {s : State} (h : s.offerDue = true) : ¬ s.disp.issues := by
  obtain ⟨-, hidle | ⟨⟨on, hb⟩ | ⟨n, hh⟩, -⟩⟩ := (s.offerDue_iff).mp h
  · exact Disp.not_issues_of (.inl hidle)
  · exact Disp.not_issues_of (.inr (.inl ⟨on, hb⟩))
  · exact Disp.not_issues_of (.inr (.inr ⟨n, hh⟩))

theorem KeptByMoves.offer (k : KeptByMoves P) (s : State) (h : P s) : P s.offer := by
  unfold State.offer
  split
  · next t _ =>
    split
    · next hdue =>
      have hd : ¬ s.disp.issues := State.not_issues_of_offerDue hdue
      have hoffered : P { s with reoffer := false } :=
        k.same s _ ⟨rfl, rfl, rfl, rfl, rfl, rfl, rfl, rfl, rfl⟩ h
      unfold State.offerNext
      split
      · exact k.offerFence _ t hd hoffered
      all_goals
        split
        · exact k.offerAccess _ t hd hoffered
        · exact k.settleDisp _ .idle _ hd Disp.issues_idle (k.calm _ _ (State.answer_calm _ _ _ _) hoffered)
    · exact h
  · exact h

theorem KeptByMoves.expireHold (k : KeptByMoves P) (s : State) (h : P s) : P s.expireHold := by
  unfold State.expireHold
  split
  · next t w he =>
    have hd : ¬ s.disp.issues := by
      unfold State.expired at he
      split at he
      · next timer hdisp => rw [hdisp]; exact Disp.issues_holding _
      all_goals exact absurd he (by simp)
    exact k.settleDisp ((s.handOver (heldRecord t w)).answer t.id .error []) .idle _
      (by rw [State.answer_disp, State.handOver_disp]; exact hd) Disp.issues_idle
      (k.calm _ _ ((s.handOver_calm _).trans (State.answer_calm _ _ _ _)) h)
  · exact h

/-! ### Issue, completions, jobs -/

theorem KeptByMoves.issue (k : KeptByMoves P) (s : State) (h : P s) : P s.issue := by
  unfold State.issue
  split
  · next u hu =>
    split
    · next hfits => exact k.issued s u hu hfits h
    · exact h
  · exact h

/-- Handing over a record has nothing to do with the operations. -/
theorem State.handOver_outstanding_comm (s : State) (r : ExcRecord) (os : List Issued) :
    State.handOver { s with outstanding := os } r = { s.handOver r with outstanding := os } := by
  unfold State.handOver
  dsimp only
  split <;> rfl

theorem KeptByMoves.entryCompletion (k : KeptByMoves P) (s : State) (i : Issued) (rest : List Issued)
    (g : Fin 8) (c : Completion) (ho : s.outstanding = i :: rest) (hi : ∀ h, i.op.source.isOf h = (g == h))
    (h : P s) : P (State.entryCompletion { s with outstanding := rest } g c) := by
  have hg : i.op.source.isOf g = true := by rw [hi, BEq.rfl]
  have hnone : s.entries[g].awaits = none → P { s with outstanding := rest } := fun ha =>
    k.popped s i rest ho (fun j hj => by rw [hi, beq_iff_eq] at hj; exact hj ▸ ha) h
  have hfreed : ∀ (stage : Stage) (b : Gather) (outcome : Answer) (r : ExcRecord),
      s.entries[g].slot = .held stage b → stage = .merging ∨ stage = .writing → b.opsLeft ≤ 1 →
      P ((State.handOver { s with outstanding := rest } r).freeEntry g outcome) := by
    intro stage b outcome r hb hstage hlast
    rw [State.handOver_outstanding_comm]
    exact k.finished (s.handOver r) i rest g stage b outcome (by simpa using ho) hg (by simpa using hb)
      hstage hlast (k.calm _ _ (s.handOver_calm r) h)
  unfold State.entryCompletion
  split
  · next stage b hb =>
    have hb : s.entries[g].slot = .held stage b := hb
    dsimp only
    split
    · next hmore => exact k.more s i rest g stage b _ ho hg hb hmore rfl rfl rfl h
    · next hlast =>
      have hlast : b.opsLeft ≤ 1 := Nat.le_of_not_lt hlast
      split
      · unfold State.mergeDone
        split
        · exact hfreed _ b _ _ hb (.inl rfl) hlast
        · exact k.calm _ _ (State.awaitPlacement_calm _ _) (k.merged s i rest g b _ ho hg hb hlast rfl rfl h)
      · unfold State.writeDone
        split
        · exact hfreed _ b _ _ hb (.inr rfl) hlast
        · exact k.finished s i rest g _ b _ ho hg hb (.inr rfl) hlast h
      all_goals exact hnone (by simp only [Entry.awaits, hb])
  · next hb =>
    have hb : s.entries[g].slot = .free := hb
    exact hnone (by simp only [Entry.awaits, hb])

theorem KeptByMoves.complete (k : KeptByMoves P) (s : State) (c : Completion) (h : P s) :
    P (s.complete c) := by
  unfold State.complete
  split
  · exact h
  · split
    · exact h
    · next i rest ho =>
      split
      · refine k.calm _ _ (State.fenceTold_calm _ i) ?_
        have hpop : (∀ g, i.op.source.isOf g = false) → P { s with outstanding := rest } := fun hno =>
          k.popped s i rest ho (fun g hg => by rw [hno g] at hg; exact absurd hg (by simp)) h
        unfold State.route
        split
        · next g stage hsource =>
          exact k.entryCompletion s i rest g c ho (fun j => by rw [hsource]; rfl) h
        · next hsource => exact k.calm _ _ (State.readCompletion_calm _ _ _ _) (hpop fun _ => by rw [hsource]; rfl)
        · next hsource => exact k.calm _ _ (State.answer_calm _ _ _ _) (hpop fun _ => by rw [hsource]; rfl)
        · next hsource => exact hpop fun _ => by rw [hsource]; rfl
      · exact h

theorem KeptByMoves.beginWrite (k : KeptByMoves P) (s : State) (g : Fin 8) (base : Option (List Byte))
    (store : List Byte) (b : Gather) (hb : s.entries[g].slot = .held .converting b) (h : P s) :
    P (s.beginWrite g base store) := by
  unfold State.beginWrite
  rw [hb]
  exact k.requested s g _ _ _ _ _ _ hb (.inr rfl) (.inr rfl) rfl rfl h

theorem KeptByMoves.recordAndFree (k : KeptByMoves P) (s : State) (g : Fin 8) (r : ExcRecord) (b : Gather)
    (hb : s.entries[g].slot = .held .converting b) (h : P s) : P ((s.handOver r).freeEntry g .error) :=
  k.freed _ g b _ (by simpa using hb) (k.calm _ _ (s.handOver_calm r) h)

theorem KeptByMoves.forwardStep (k : KeptByMoves P) (s : State) (g : Fin 8) (key : Key)
    (bytes : List (Option Byte)) (base : Option (List Byte)) (b : Gather)
    (hb : s.entries[g].slot = .held .converting b) (h : P s) : P (s.forwardStep g key bytes base) := by
  unfold State.forwardStep
  dsimp only
  split
  · exact k.beginWrite s g _ _ b hb h
  · exact k.recordAndFree s g _ b hb h
  · exact k.beginWrite _ g _ _ b (by simpa using hb) (k.calm _ _ (s.handOver_calm _) h)

theorem KeptByMoves.finishFlush (k : KeptByMoves P) (s : State) (g : Fin 8) (key : Key)
    (bytes : List (Option Byte)) (base merge : Option (List Byte)) (b : Gather)
    (hb : s.entries[g].slot = .held .converting b) (h : P s) : P (s.finishFlush g key bytes base merge) := by
  unfold State.finishFlush
  dsimp only
  split
  · exact k.forwardStep s g key bytes base b hb h
  · split
    · exact k.forwardStep s g key bytes _ b hb h
    · exact k.recordAndFree s g _ b hb h
    · exact k.forwardStep _ g key bytes _ b (by simpa using hb) (k.calm _ _ (s.handOver_calm _) h)

/-- An entry that a FLUSH job belongs to is CONVERTING. -/
theorem State.converts_slot {s : State} {g : Fin 8} {opening : BitVec 32} (h : s.converts g opening = true) :
    ∃ b, s.entries[g].slot = .held .converting b := by
  unfold State.converts at h
  rw [Bool.and_eq_true] at h
  obtain ⟨-, h⟩ := h
  split at h
  · next b hb => exact ⟨b, hb⟩
  all_goals simp at h

theorem KeptByMoves.endFlushJob (k : KeptByMoves P) (s : State) (h : P s) : P s.endFlushJob := by
  unfold State.endFlushJob
  split
  · next hjobs =>
    have htaken := k.calm _ _ (s.takeHead_calm _ _ hjobs) h
    dsimp only
    split
    · next hconverts =>
      obtain ⟨b, hb⟩ := State.converts_slot hconverts
      exact k.finishFlush _ _ _ _ _ _ b hb htaken
    · exact htaken
  all_goals exact h

/-! ### All events -/

theorem KeptByMoves.traffic (k : KeptByMoves P) : KeptByTraffic P where
  reoffer s _ := k.same s _ ⟨rfl, rfl, rfl, rfl, rfl, rfl, rfl, rfl, rfl⟩
  freeCount s _ := k.same s _ ⟨rfl, rfl, rfl, rfl, rfl, rfl, rfl, rfl, rfl⟩
  placeJob s := k.calm s _ s.placeJob_calm
  startJob s h := by
    unfold State.startJob
    split
    · exact k.same s _ ⟨rfl, rfl, rfl, rfl, rfl, rfl, rfl, rfl, rfl⟩ h
    · exact h
  issue := k.issue
  completeDrain s w h := by
    unfold State.completeDrain
    split
    · rw [State.noteWindowChange_eq]
      exact k.same s _ ⟨rfl, rfl, rfl, rfl, rfl, rfl, rfl, rfl, rfl⟩ h
    · exact h
  offer := k.offer
  expireHold := k.expireHold
  triggerAges s := k.startFlushes _ s
  offerRequest s _ h := k.calm _ _ (State.takeOffers_calm _)
    (k.same s _ ⟨rfl, rfl, rfl, rfl, rfl, rfl, rfl, rfl, rfl⟩ h)
  takeResponse s h := by
    unfold State.takeResponse
    split
    · refine k.calm _ _ (State.takeOffers_calm _) (k.calm s _ ?_ h)
      exact
        { Calm.refl s with
          entries := fun _ => Entry.Like.refl _
          disp := .inl rfl
          txns := by show s.txns.tail.length ≤ _; rw [List.length_tail]; omega }
    · exact h
  tickTimers s := k.calm s _ s.tickTimers_calm
  complete := k.complete
  endFlushJob := k.endFlushJob
  endReadJob s := k.calm s _ s.endReadJob_calm

theorem KeptByMoves.port (k : KeptByMoves P) : KeptByPort P where
  endPeriod s _ := k.same s _ ⟨rfl, rfl, rfl, rfl, rfl, rfl, rfl, rfl, rfl⟩
  turnAway s := k.same s _ ⟨rfl, rfl, rfl, rfl, rfl, rfl, rfl, rfl, rfl⟩
  putResult s _ _ _ := k.same s _ ⟨rfl, rfl, rfl, rfl, rfl, rfl, rfl, rfl, rfl⟩
  clearRefused s := k.same s _ ⟨rfl, rfl, rfl, rfl, rfl, rfl, rfl, rfl, rfl⟩
  beginPeriod s := k.same s _
    (by unfold State.beginPeriod; split <;> exact ⟨rfl, rfl, rfl, rfl, rfl, rfl, rfl, rfl, rfl⟩)
  takeByte s _ := k.same s _
    (by unfold State.takeByte; split <;> exact ⟨rfl, rfl, rfl, rfl, rfl, rfl, rfl, rfl, rfl⟩)
  endEmptyPeriod s := k.same s _
    (by unfold State.endEmptyPeriod; split <;> exact ⟨rfl, rfl, rfl, rfl, rfl, rfl, rfl, rfl, rfl⟩)

theorem KeptByMoves.changes (k : KeptByMoves P) : KeptByChanges P where
  settings s _ _ _ _ := k.same s _ ⟨rfl, rfl, rfl, rfl, rfl, rfl, rfl, rfl, rfl⟩
  build s _ := k.same s _ ⟨rfl, rfl, rfl, rfl, rfl, rfl, rfl, rfl, rfl⟩
  result := k.port.putResult
  reoffer := k.traffic.reoffer
  writeCfg s _ _ _ := k.same s _ ⟨rfl, rfl, rfl, rfl, rfl, rfl, rfl, rfl, rfl⟩
  latch s _ _ _ _ _ _ _ _ := k.same s _ ⟨rfl, rfl, rfl, rfl, rfl, rfl, rfl, rfl, rfl⟩
  turnOff s _ := k.same s _ ⟨rfl, rfl, rfl, rfl, rfl, rfl, rfl, rfl, rfl⟩
  draft s _ _ _ _ := k.same s _ ⟨rfl, rfl, rfl, rfl, rfl, rfl, rfl, rfl, rfl⟩
  append s _ _ _ _ _ _ _ _ := k.same s _ ⟨rfl, rfl, rfl, rfl, rfl, rfl, rfl, rfl, rfl⟩
  commit s _ _ _ _ _ _ _ := k.same s _ ⟨rfl, rfl, rfl, rfl, rfl, rfl, rfl, rfl, rfl⟩
  reject s _ _ _ _ _ _ _ _ _ := k.same s _ ⟨rfl, rfl, rfl, rfl, rfl, rfl, rfl, rfl, rfl⟩
  erase s _ _ := k.same s _ ⟨rfl, rfl, rfl, rfl, rfl, rfl, rfl, rfl, rfl⟩
  table s _ _ _ := k.same s _ ⟨rfl, rfl, rfl, rfl, rfl, rfl, rfl, rfl, rfl⟩
  program s _ _ _ := k.same s _ ⟨rfl, rfl, rfl, rfl, rfl, rfl, rfl, rfl, rfl⟩

theorem KeptByMoves.control (k : KeptByMoves P) : KeptByControl P where
  suspendWindow s w h := by
    rcases s.suspendWindow_cases w with e | ⟨-, -, -, e⟩ <;> rw [e]
    · exact h
    · have hflushed : ∀ gs, P ((s.setMode w .draining).startFlushes gs) := fun gs =>
        k.startFlushes gs _ (k.same s _ ⟨rfl, rfl, rfl, rfl, rfl, rfl, rfl, rfl, rfl⟩ h)
      unfold State.beginDrain
      dsimp only [State.reply]
      rw [State.noteWindowChange_eq]
      split
      all_goals exact k.same (State.startFlushes _ _) _ ⟨rfl, rfl, rfl, rfl, rfl, rfl, rfl, rfl, rfl⟩ (hflushed _)
  takeLog s := k.calm s _
    { Calm.refl s with
      entries := fun _ => Entry.Like.refl _
      disp := .inl rfl
      log := by show s.log.tail.length ≤ _; rw [List.length_tail]; omega }
  clearLog s := k.calm s _
    { Calm.refl s with
      entries := fun _ => Entry.Like.refl _
      disp := .inl rfl
      log := Nat.zero_le _
      dropped := Nat.zero_le _ }
  flushAll s := k.startFlushes _ s
  clearAll s h := by
    rcases s.clearAll_cases with e | ⟨-, e⟩ <;> rw [e]
    · exact h
    · refine k.calm s _ ?_ h
      exact { s.mapEntries_calm (fun e => { e with fault := false, openOrder := 0 })
        (fun e => ⟨rfl, rfl, Nat.le_max_right ..⟩) with disp := .inl rfl }
  assertBusReset _ h := State.assertBusReset_keeps k.transactionsDropped
    (fun s gs => k.startFlushes gs s) h
  releaseBusReset s h := k.calm _ _ (State.takeOffers_calm _)
    (k.same s _ ⟨rfl, rfl, rfl, rfl, rfl, rfl, rfl, rfl, rfl⟩ h)
  assertPowerOnReset _ _ := k.same State.reset _ ⟨rfl, rfl, rfl, rfl, rfl, rfl, rfl, rfl, rfl⟩ k.reset
  releasePowerOnReset s h := k.calm _ _ (State.takeOffers_calm _)
    (k.same s _ ⟨rfl, rfl, rfl, rfl, rfl, rfl, rfl, rfl, rfl⟩ h)

/-- A property that the moves keep, every step keeps. -/
theorem KeptByMoves.step (k : KeptByMoves P) (s t : State) (h : P s) (ht : step s = .next t) : P t :=
  Kept.step
    { k.traffic, k.port, k.control with toKeptByStores := KeptByStores.of_changes k.changes }
    (fun s _ => k.same s _ ⟨rfl, rfl, rfl, rfl, rfl, rfl, rfl, rfl, rfl⟩) s t h ht

end

end Sys2Proof.Machine
end

section
/-! PROOF. The keys of the entries and the open order: an entry is opened for a key that none holds and freed by
its flush, and nothing else changes them (R61, R62). -/

namespace Sys2Proof.Machine

/-- The entries hold the keys they held, and stand in the same open order. -/
structure SameKeys (s t : State) : Prop where
  keys : ∀ g : Fin 8, t.entries[g].key? = s.entries[g].key?
  ages : ∀ g : Fin 8, t.entries[g].age ≤ max 255 s.entries[g].age
  openList : t.openList = s.openList

/-- Openings and frees of entries keep a property that looks at keys, ages and the open order alone. -/
structure KeptOfKeys (P : State → Prop) : Prop where
  same : ∀ s t : State, SameKeys s t → P s → P t
  opened : ∀ (s : State) (k : Key) (g : Fin 8), s.entryFor k = none → s.lowestFree = some g → P s →
    P (s.openEntry k)
  freed : ∀ (s : State) (g : Fin 8) (stage : Stage) (b : Gather) (outcome : Answer),
    s.entries[g].slot = .held stage b → P s → P (s.freeEntry g outcome)
  reset : P State.reset

theorem SameKeys.refl (s : State) : SameKeys s s := ⟨fun _ => rfl, fun _ => Nat.le_max_right .., rfl⟩

/-- The same entries and the same open order. -/
theorem SameKeys.of_entries {s t : State} (he : t.entries = s.entries) (ho : t.openList = s.openList) :
    SameKeys s t := ⟨fun g => by rw [he], fun g => by rw [he]; exact Nat.le_max_right .., ho⟩

/-- An entry goes on with the same key and the same age. -/
theorem SameKeys.withSlot {s t : State} {g : Fin 8} {stage stage' : Stage} {b b' : Gather}
    (hb : s.entries[g].slot = .held stage b)
    (he : t.entries = s.entries.set g { s.entries[g] with slot := .held stage' b' })
    (ho : t.openList = s.openList) (hkey : b'.key = b.key) (hage : b'.age = b.age) : SameKeys s t := by
  have hat : ∀ h : Fin 8, t.entries[h].key? = s.entries[h].key? ∧ t.entries[h].age = s.entries[h].age := by
    intro h
    rw [he]
    by_cases hg : g = h
    · subst hg
      rw [setAt_self]
      simp only [Entry.key?, Entry.age, hb, hkey, hage, and_self]
    · rw [setAt_ne _ _ _ _ hg]
      exact ⟨rfl, rfl⟩
  exact ⟨fun h => (hat h).1, fun h => by rw [(hat h).2]; exact Nat.le_max_right .., ho⟩

theorem State.afterDispatcherIssue_entries (s : State) :
    s.afterDispatcherIssue.entries = s.entries ∧ s.afterDispatcherIssue.openList = s.openList := by
  unfold State.afterDispatcherIssue
  split <;> exact ⟨rfl, rfl⟩

theorem State.issueUnit_entries (s : State) (u : MemUnit) :
    (s.issueUnit u).entries = s.entries ∧ (s.issueUnit u).openList = s.openList := by
  unfold State.issueUnit
  dsimp only
  split
  · exact ⟨rfl, rfl⟩
  · exact State.afterDispatcherIssue_entries _

theorem KeptOfKeys.moves {P : State → Prop} (k : KeptOfKeys P) : KeptByMoves P where
  calm s t h := k.same s t ⟨fun g => (h.entries g).key, fun g => (h.entries g).age, h.openList⟩
  opened := k.opened
  requested s _ _ _ _ _ _ _ hb _ _ hkey hage := k.same s _ (.withSlot hb rfl rfl hkey hage)
  freed s g b o hb := k.freed s g _ b o hb
  dispatched s _ _ _ _ _ := k.same s _ (.of_entries rfl rfl)
  issued s u _ _ := k.same s _ (.of_entries (s.issueUnit_entries u).1 (s.issueUnit_entries u).2)
  popped s _ _ _ _ := k.same s _ (.of_entries rfl rfl)
  more s _ _ _ _ _ _ _ _ hb _ hkey hage _ := k.same s _ (.withSlot hb rfl rfl hkey hage)
  merged s _ _ _ _ _ _ _ hb _ hkey hage := k.same s _ (.withSlot hb rfl rfl hkey hage)
  finished s _ _ g stage b o _ _ hb _ _ h :=
    k.freed _ g stage b o hb (k.same s _ (.of_entries rfl rfl) h)
  transactionsDropped s := k.same s _
    ⟨fun g => by
      show (s.entries.map Entry.unconfirmed)[g].key? = _
      rw [mapAt]; exact (Entry.like_unconfirmed _).key,
    fun g => by
      show (s.entries.map Entry.unconfirmed)[g].age ≤ _
      rw [mapAt]; exact (Entry.like_unconfirmed _).age, rfl⟩
  reset := k.reset

/-! ### What an opening and a free do -/

/-- An opening gives the lowest FREE entry the key and puts it behind the others. -/
theorem State.openEntry_keys {s : State} {k : Key} {g : Fin 8} (hk : s.entryFor k = none)
    (hg : s.lowestFree = some g) :
    (s.openEntry k).openList = s.openList ++ [g] ∧ (s.openEntry k).entries[g].key? = some k
      ∧ (s.openEntry k).entries[g].age = 0
      ∧ ∀ h : Fin 8, g ≠ h → (s.openEntry k).entries[h] = s.entries[h] := by
  unfold State.openEntry
  rw [hk, hg]
  refine ⟨rfl, ?_, ?_, fun h hne => setAt_ne _ _ _ _ hne⟩
  · dsimp only; rw [setAt_self]; rfl
  · dsimp only; rw [setAt_self]; rfl

/-- A free takes the entry out of the open order. -/
theorem State.freeEntry_keys {s : State} {g : Fin 8} {stage : Stage} {b : Gather} (o : Answer)
    (hb : s.entries[g].slot = .held stage b) :
    (s.freeEntry g o).openList = s.openList.filter (fun e => e != g) ∧ (s.freeEntry g o).entries[g].key? = none
      ∧ (s.freeEntry g o).entries[g].age = 0
      ∧ ∀ h : Fin 8, g ≠ h → (s.freeEntry g o).entries[h] = s.entries[h] := by
  rw [s.freeEntry_held g o stage b hb]
  refine ⟨rfl, ?_, ?_, fun h hne => setAt_ne _ _ _ _ hne⟩
  · dsimp only; rw [setAt_self]; rfl
  · dsimp only; rw [setAt_self]; rfl

theorem Entry.isFree_iff_key (e : Entry) : e.isFree = true ↔ e.key? = none := by
  unfold Entry.isFree Entry.key?
  cases e.slot <;> simp

theorem Entry.isFree_false_iff (e : Entry) : e.isFree = false ↔ e.key? ≠ none := by
  rw [← Bool.not_eq_true, Entry.isFree_iff_key]

/-- An entry at power-on. -/
theorem State.reset_entry (g : Fin 8) : State.reset.entries[g] = Entry.powerOn := by
  simp [State.reset]

/-! ### Ages, keys and the open order -/

/-- Every age is in its range (R65). -/
def State.AgesBounded (s : State) : Prop := ∀ g : Fin 8, s.entries[g].age ≤ 255

theorem State.agesBounded_kept : KeptOfKeys State.AgesBounded where
  same s t e h g := by have := e.ages g; have := h g; omega
  opened s k g hk hg h j := by
    obtain ⟨-, -, hage, hother⟩ := State.openEntry_keys hk hg
    by_cases hj : g = j
    · subst hj; omega
    · rw [hother j hj]; exact h j
  freed s g stage b o hb h j := by
    obtain ⟨-, -, hage, hother⟩ := State.freeEntry_keys o hb
    by_cases hj : g = j
    · subst hj; omega
    · rw [hother j hj]; exact h j
  reset g := by rw [State.reset_entry]; exact Nat.zero_le _

theorem State.keysApart_kept : KeptOfKeys State.KeysApart where
  same s t e h g j k := by rw [e.keys, e.keys]; exact h g j k
  opened s k g hk hg h i j key hi hj := by
    obtain ⟨-, hkey, -, hother⟩ := State.openEntry_keys hk hg
    have hfresh : ∀ x, g ≠ x → (s.openEntry k).entries[x].key? ≠ some k := fun x hx => by
      rw [hother x hx]; exact s.entryFor_none k hk x
    by_cases hgi : g = i <;> by_cases hgj : g = j
    · exact hgi.symm.trans hgj
    · subst hgi
      rw [hkey] at hi
      exact absurd (hj.trans hi.symm) (hfresh j hgj)
    · subst hgj
      rw [hkey] at hj
      exact absurd (hi.trans hj.symm) (hfresh i hgi)
    · rw [hother i hgi] at hi
      rw [hother j hgj] at hj
      exact h i j key hi hj
  freed s g stage b o hb h i j key hi hj := by
    obtain ⟨-, hkey, -, hother⟩ := State.freeEntry_keys o hb
    have hne : ∀ x, (s.freeEntry g o).entries[x].key? = some key → g ≠ x := by
      rintro x hx rfl
      rw [hkey] at hx
      exact absurd hx (by simp)
    rw [hother i (hne i hi)] at hi
    rw [hother j (hne j hj)] at hj
    exact h i j key hi hj
  reset g _ k hk := by
    rw [State.reset_entry] at hk
    exact absurd hk (by simp [Entry.powerOn, Entry.key?])

theorem State.opensInOrder_kept : KeptOfKeys State.OpensInOrder where
  same s t e h :=
    ⟨e.openList ▸ h.once, fun g => by
      rw [e.openList, h.held g, Entry.isFree_false_iff, Entry.isFree_false_iff, e.keys]⟩
  opened s k g hk hg h := by
    obtain ⟨hlist, hkey, -, hother⟩ := State.openEntry_keys hk hg
    have hfree : s.entries[g].isFree = true :=
      (Entry.isFree_iff _).mpr ((s.lowestFree_some g).mp hg).1
    have hnew : g ∉ s.openList := by rw [h.held g, hfree]; simp
    constructor
    · rw [hlist, List.nodup_append]
      exact ⟨h.once, List.nodup_singleton g, fun a ha b hb e => hnew (List.mem_singleton.mp hb ▸ e ▸ ha)⟩
    · intro j
      rw [hlist, List.mem_append, List.mem_singleton]
      by_cases hj : g = j
      · subst hj
        rw [Entry.isFree_false_iff, hkey]
        simp
      · rw [hother j hj, h.held j]
        exact or_iff_left fun e => hj e.symm
  freed s g stage b o hb h := by
    obtain ⟨hlist, hkey, -, hother⟩ := State.freeEntry_keys o hb
    constructor
    · rw [hlist]
      exact h.once.filter _
    · intro j
      rw [hlist, List.mem_filter]
      by_cases hj : g = j
      · subst hj
        rw [Entry.isFree_false_iff, hkey]
        simp
      · rw [hother j hj, h.held j]
        simp [Ne.symm hj]
  reset := ⟨List.nodup_nil, fun g => by
    rw [State.reset_entry]; simp [State.reset, Entry.powerOn, Entry.isFree]⟩

end Sys2Proof.Machine

namespace Sys2Proof

open Sys2Proof.Machine

/-- Settles O58: an entry opens only for a key that no entry holds, at the end of the open order, and leaves it
when it is freed. -/
theorem keysStayApart : Obligations.KeysStayApart :=
  ⟨State.keysApart_kept.moves.step, State.opensInOrder_kept.moves.step⟩

end Sys2Proof
end

section
/-! PROOF. Who has a waiting unit and what an entry waits for: the rule of R127 and R128 in terms of the dispatcher,
the units, the operations and what the entries await, and what each move of the traffic side does to it. -/

namespace Sys2Proof.Machine

/-- The operations of an entry. -/
def opsOf (os : List Issued) (g : Fin 8) : List Issued := os.filter fun i => i.op.source.isOf g

/-- The rule of the units (R127, R128), over the parts of the state it speaks of; `aw` says for every entry
which stage waits for how many operations. -/
structure UnitsMatch (d : Disp) (us : List MemUnit) (os : List Issued) (aw : Fin 8 → Option (Stage × Nat)) :
    Prop where
  owners : (us.map (·.owner)).Nodup
  dispatcher : ∀ u ∈ us, u.owner = .dispatcher → d.issues ∧ ∀ op ∈ u.ops, ∀ g, op.source.isOf g = false
  later : ∀ id rest, d = .issuing id rest → ∀ ops ∈ rest, ∀ op ∈ ops, ∀ g, op.source.isOf g = false
  waiting : ∀ u ∈ us, ∀ g : Fin 8, u.owner = .entry g →
    opsOf os g = [] ∧ ∃ stage, aw g = some (stage, u.ops.length) ∧ ∀ op ∈ u.ops, op.source = .entry g stage
  issued : ∀ g : Fin 8, opsOf os g ≠ [] → ∃ stage, aw g = some (stage, (opsOf os g).length)
    ∧ ∀ i ∈ opsOf os g, i.op.source = .entry g stage

theorem Entry.awaits_iff (e : Entry) (stage : Stage) (n : Nat) :
    e.awaits = some (stage, n)
      ↔ ∃ b, e.slot = .held stage b ∧ (stage = .merging ∨ stage = .writing) ∧ b.opsLeft = n := by
  unfold Entry.awaits
  cases hslot : e.slot with
  | free => simp
  | held st b => cases st <;> cases stage <;> simp

theorem State.unitsSound_iff (s : State) :
    s.UnitsSound ↔ UnitsMatch s.disp s.units s.outstanding fun g => s.entries[g].awaits := by
  refine ⟨fun h => ⟨h.owners, h.dispatcher, h.later, fun u hu g hg => ?_, fun g hg => ?_⟩,
    fun h => ⟨h.owners, h.dispatcher, h.later, fun u hu g hg => ?_, fun g hg => ?_⟩⟩
  · obtain ⟨hnone, stage, b, hb, hstage, hops, hsource⟩ := h.waiting u hu g hg
    exact ⟨hnone, stage, (Entry.awaits_iff ..).mpr ⟨b, hb, hstage, hops⟩, hsource⟩
  · obtain ⟨stage, b, hb, hstage, hops, hsource⟩ := h.issued g hg
    exact ⟨stage, (Entry.awaits_iff ..).mpr ⟨b, hb, hstage, hops⟩, hsource⟩
  · obtain ⟨hnone, stage, haw, hsource⟩ := h.waiting u hu g hg
    obtain ⟨b, hb, hstage, hops⟩ := (Entry.awaits_iff ..).mp haw
    exact ⟨hnone, stage, b, hb, hstage, hops, hsource⟩
  · obtain ⟨stage, haw, hsource⟩ := h.issued g hg
    obtain ⟨b, hb, hstage, hops⟩ := (Entry.awaits_iff ..).mp haw
    exact ⟨stage, b, hb, hstage, hops, hsource⟩

namespace UnitsMatch

variable {d d' : Disp} {us : List MemUnit} {os : List Issued} {aw aw' : Fin 8 → Option (Stage × Nat)}

/-- An entry that awaits nothing has no unit and no operation. -/
theorem idle_entry (h : UnitsMatch d us os aw) {g : Fin 8} (hg : aw g = none) :
    opsOf os g = [] ∧ ∀ u ∈ us, u.owner ≠ .entry g := by
  constructor
  · by_contra hne
    obtain ⟨stage, haw, -⟩ := h.issued g hne
    rw [hg] at haw
    exact absurd haw (by simp)
  · intro u hu ho
    obtain ⟨-, stage, haw, -⟩ := h.waiting u hu g ho
    rw [hg] at haw
    exact absurd haw (by simp)

theorem no_dispatcher (h : UnitsMatch d us os aw) (hd : ¬ d.issues) : ∀ u ∈ us, u.owner ≠ .dispatcher :=
  fun u hu ho => hd (h.dispatcher u hu ho).1

/-- Without a unit of its own, the dispatcher may be in any state but ISSUING. -/
theorem leave (h : UnitsMatch d us os aw) (hno : ∀ u ∈ us, u.owner ≠ .dispatcher) (hd : ¬ d'.issues) :
    UnitsMatch d' us os aw :=
  { h with
    dispatcher := fun u hu ho => absurd ho (hno u hu)
    later := fun id rest he => absurd ⟨id, rest, he⟩ hd }

theorem nodup_append {u : MemUnit} (h : (us.map (·.owner)).Nodup) (hno : ∀ v ∈ us, v.owner ≠ u.owner) :
    ((us ++ [u]).map (·.owner)).Nodup := by
  rw [List.map_append, List.nodup_append]
  refine ⟨h, List.nodup_singleton _, fun a ha b hb e => ?_⟩
  obtain ⟨v, hv, rfl⟩ := List.mem_map.mp ha
  exact hno v hv (e.trans (List.mem_singleton.mp hb))

/-- The dispatcher requests a unit. -/
theorem dispatch (h : UnitsMatch d us os aw) (hno : ∀ u ∈ us, u.owner ≠ .dispatcher) (id : Nat)
    (first : List MemOp) (rest : List (List MemOp))
    (hops : ∀ ops ∈ first :: rest, ∀ op ∈ ops, ∀ g, op.source.isOf g = false) :
    UnitsMatch (.issuing id rest) (us ++ [{ owner := .dispatcher, ops := first }]) os aw where
  owners := nodup_append h.owners hno
  dispatcher u hu ho := by
    rcases List.mem_append.mp hu with hu | hu
    · exact absurd ho (hno u hu)
    · rw [List.mem_singleton.mp hu]
      exact ⟨⟨id, rest, rfl⟩, hops first (by simp)⟩
  later id' rest' he := by
    obtain ⟨-, rfl⟩ := Disp.issuing.inj he
    exact fun ops hmem => hops ops (List.mem_cons_of_mem _ hmem)
  waiting u hu g ho := by
    rcases List.mem_append.mp hu with hu | hu
    · exact h.waiting u hu g ho
    · rw [List.mem_singleton.mp hu] at ho
      exact absurd ho (by simp)
  issued := h.issued

/-- An entry that awaited nothing requests its unit. -/
theorem request (h : UnitsMatch d us os aw) {g : Fin 8} (hg : aw g = none) {stage : Stage} {ops : List MemOp}
    (hops : ∀ op ∈ ops, op.source = .entry g stage) (haw : aw' g = some (stage, ops.length))
    (hother : ∀ j, g ≠ j → aw' j = aw j) :
    UnitsMatch d (us ++ [{ owner := .entry g, ops }]) os aw' where
  owners := nodup_append h.owners (h.idle_entry hg).2
  dispatcher u hu ho := by
    rcases List.mem_append.mp hu with hu | hu
    · exact h.dispatcher u hu ho
    · rw [List.mem_singleton.mp hu] at ho
      exact absurd ho (by simp)
  later := h.later
  waiting u hu j ho := by
    rcases List.mem_append.mp hu with hu | hu
    · have hne : g ≠ j := fun e => (h.idle_entry hg).2 u hu (e ▸ ho)
      rw [hother j hne]
      exact h.waiting u hu j ho
    · rw [List.mem_singleton.mp hu] at ho ⊢
      obtain rfl := UnitOwner.entry.inj ho
      exact ⟨(h.idle_entry hg).1, stage, haw, hops⟩
  issued j hj := by
    have hne : g ≠ j := fun e => hj (e ▸ (h.idle_entry hg).1)
    rw [hother j hne]
    exact h.issued j hj

theorem opsOf_append (os os' : List Issued) (g : Fin 8) : opsOf (os ++ os') g = opsOf os g ++ opsOf os' g :=
  List.filter_append ..

/-- Issued operations are the operations, in their order. -/
theorem issuedFrom_ops (n : Nat) (ops : List MemOp) : (issuedFrom n ops).map (·.op) = ops := by
  induction ops generalizing n with
  | nil => rfl
  | cons op rest ih => rw [issuedFrom, List.map_cons, ih]

theorem issuedFrom_length (n : Nat) (ops : List MemOp) : (issuedFrom n ops).length = ops.length := by
  rw [← List.length_map (as := issuedFrom n ops) (f := (·.op)), issuedFrom_ops]

theorem mem_issuedFrom {n : Nat} {ops : List MemOp} {i : Issued} (h : i ∈ issuedFrom n ops) : i.op ∈ ops := by
  rw [← issuedFrom_ops n ops]
  exact List.mem_map_of_mem h

theorem opsOf_none {os : List Issued} {g : Fin 8} (h : ∀ i ∈ os, i.op.source.isOf g = false) :
    opsOf os g = [] := List.filter_eq_nil_iff.mpr fun i hi => by rw [h i hi]; simp

theorem opsOf_all {os : List Issued} {g : Fin 8} (h : ∀ i ∈ os, i.op.source.isOf g = true) :
    opsOf os g = os := List.filter_eq_self.mpr h

theorem mem_erase_iff (h : (us.map (·.owner)).Nodup) {u v : MemUnit} :
    v ∈ us.erase u ↔ v ≠ u ∧ v ∈ us := (List.Nodup.of_map _ h).mem_erase_iff

theorem owner_ne_of_mem_erase (h : (us.map (·.owner)).Nodup) {u v : MemUnit} (hu : u ∈ us)
    (hv : v ∈ us.erase u) : v.owner ≠ u.owner := fun e =>
  ((mem_erase_iff h).mp hv).1 (List.inj_on_of_nodup_map h ((mem_erase_iff h).mp hv).2 hu e)

/-- The unit of an entry is issued. -/
theorem issueEntry (h : UnitsMatch d us os aw) {u : MemUnit} (hu : u ∈ us) {g : Fin 8}
    (ho : u.owner = .entry g) (n : Nat) : UnitsMatch d (us.erase u) (os ++ issuedFrom n u.ops) aw := by
  obtain ⟨hnone, stage, haw, hsource⟩ := h.waiting u hu g ho
  have hkept : ∀ j, g ≠ j → opsOf (os ++ issuedFrom n u.ops) j = opsOf os j := fun j hj => by
    rw [opsOf_append, opsOf_none (os := issuedFrom n u.ops), List.append_nil]
    intro i hi
    rw [hsource i.op (mem_issuedFrom hi)]
    simpa [Source.isOf] using hj
  have hown : opsOf (os ++ issuedFrom n u.ops) g = issuedFrom n u.ops := by
    rw [opsOf_append, hnone, List.nil_append]
    refine opsOf_all fun i hi => ?_
    rw [hsource i.op (mem_issuedFrom hi)]
    simp [Source.isOf]
  refine ⟨h.owners.sublist (List.erase_sublist.map _), fun v hv => h.dispatcher v (List.mem_of_mem_erase hv),
    h.later, fun v hv j hj => ?_, fun j hj => ?_⟩
  · have hne : g ≠ j := fun e => owner_ne_of_mem_erase h.owners hu hv (by rw [hj, ho, e])
    rw [hkept j hne]
    exact h.waiting v (List.mem_of_mem_erase hv) j hj
  · by_cases hgj : g = j
    · subst hgj
      rw [hown, issuedFrom_length]
      exact ⟨stage, haw, fun i hi => hsource i.op (mem_issuedFrom hi)⟩
    · rw [hkept j hgj] at hj ⊢
      exact h.issued j hj

/-- The dispatcher's unit is issued: it has none left. -/
theorem issueDispatcher (h : UnitsMatch d us os aw) {u : MemUnit} (hu : u ∈ us)
    (ho : u.owner = .dispatcher) (n : Nat) :
    UnitsMatch d (us.erase u) (os ++ issuedFrom n u.ops) aw
      ∧ ∀ v ∈ us.erase u, v.owner ≠ .dispatcher := by
  have hkept : ∀ j, opsOf (os ++ issuedFrom n u.ops) j = opsOf os j := fun j => by
    rw [opsOf_append, opsOf_none (os := issuedFrom n u.ops), List.append_nil]
    exact fun i hi => (h.dispatcher u hu ho).2 i.op (mem_issuedFrom hi) j
  refine ⟨⟨h.owners.sublist (List.erase_sublist.map _), fun v hv => h.dispatcher v (List.mem_of_mem_erase hv),
    h.later, fun v hv j hj => ?_, fun j hj => ?_⟩, fun v hv => ho ▸ owner_ne_of_mem_erase h.owners hu hv⟩
  · rw [hkept j]
    exact h.waiting v (List.mem_of_mem_erase hv) j hj
  · rw [hkept j] at hj ⊢
    exact h.issued j hj

theorem opsOf_cons_true {i : Issued} {rest : List Issued} {g : Fin 8} (h : i.op.source.isOf g = true) :
    opsOf (i :: rest) g = i :: opsOf rest g := List.filter_cons_of_pos h

theorem opsOf_cons_false {i : Issued} {rest : List Issued} {g : Fin 8} (h : i.op.source.isOf g = false) :
    opsOf (i :: rest) g = opsOf rest g := List.filter_cons_of_neg (by simp [h])

theorem isOf_unique {source : Source} {g j : Fin 8} (hg : source.isOf g = true) (hj : source.isOf j = true) :
    g = j := by
  cases source with
  | entry k stage => exact (beq_iff_eq.mp hg).symm.trans (beq_iff_eq.mp hj)
  | _ => simp [Source.isOf] at hg

/-- The oldest operation completes for an entry that awaited it: one less is awaited, or none. -/
theorem complete {i : Issued} {rest : List Issued} (h : UnitsMatch d us (i :: rest) aw) {g : Fin 8}
    (hi : i.op.source.isOf g = true) (hother : ∀ j, g ≠ j → aw' j = aw j)
    (haw : ∀ stage n, aw g = some (stage, n) → 1 < n → aw' g = some (stage, n - 1)) :
    UnitsMatch d us rest aw' := by
  have hkept : ∀ j, g ≠ j → opsOf (i :: rest) j = opsOf rest j := fun j hj =>
    opsOf_cons_false (Bool.eq_false_iff.mpr fun e => hj (isOf_unique hi e))
  have hown : opsOf (i :: rest) g = i :: opsOf rest g := opsOf_cons_true hi
  obtain ⟨stage, hn, hsource⟩ := h.issued g (by rw [hown]; simp)
  rw [hown] at hn hsource
  refine ⟨h.owners, h.dispatcher, h.later, fun v hv j hj => ?_, fun j hj => ?_⟩
  · have hne : g ≠ j := by
      rintro rfl
      have := (h.waiting v hv g hj).1
      rw [hown] at this
      exact absurd this (by simp)
    rw [← hkept j hne, hother j hne]
    exact h.waiting v hv j hj
  · by_cases hgj : g = j
    · subst hgj
      have hmany : 1 < (i :: opsOf rest g).length := by
        rw [List.length_cons]
        have := List.length_pos_iff.mpr hj
        omega
      exact ⟨stage, haw stage _ hn hmany, fun x hx => hsource x (List.mem_cons_of_mem _ hx)⟩
    · rw [hother j hgj, ← hkept j hgj]
      exact h.issued j (by rw [hkept j hgj]; exact hj)

/-- The oldest operation completes for no entry that awaits anything. -/
theorem pop {i : Issued} {rest : List Issued} (h : UnitsMatch d us (i :: rest) aw)
    (hi : ∀ g, i.op.source.isOf g = true → aw g = none) : UnitsMatch d us rest aw := by
  have hkept : ∀ j, opsOf (i :: rest) j = opsOf rest j := fun j => by
    refine opsOf_cons_false (Bool.eq_false_iff.mpr fun e => ?_)
    have := (h.idle_entry (hi j e)).1
    rw [opsOf_cons_true e] at this
    exact absurd this (by simp)
  refine ⟨h.owners, h.dispatcher, h.later, fun v hv j hj => ?_, fun j hj => ?_⟩
  · rw [← hkept j]
    exact h.waiting v hv j hj
  · rw [← hkept j] at hj ⊢
    exact h.issued j hj

theorem orphaned_isOf (i : Issued) (g : Fin 8) : i.orphaned.op.source.isOf g = i.op.source.isOf g := by
  unfold Issued.orphaned
  split
  · next hs => rw [hs]; rfl
  · next hs => rw [hs]; rfl
  all_goals rfl

theorem orphaned_eq_of_isOf {i : Issued} {g : Fin 8} (h : i.op.source.isOf g = true) : i.orphaned = i := by
  unfold Issued.orphaned
  split
  · next hs => rw [hs] at h; exact absurd h (by simp [Source.isOf])
  · next hs => rw [hs] at h; exact absurd h (by simp [Source.isOf])
  all_goals rfl

theorem opsOf_orphaned (os : List Issued) (g : Fin 8) : opsOf (os.map Issued.orphaned) g = opsOf os g := by
  unfold opsOf
  rw [List.filter_map]
  have hsame : ((fun i : Issued => i.op.source.isOf g) ∘ Issued.orphaned)
      = fun i : Issued => i.op.source.isOf g := funext fun i => orphaned_isOf i g
  rw [hsame]
  calc (os.filter fun i => i.op.source.isOf g).map Issued.orphaned
      = (os.filter fun i => i.op.source.isOf g).map id :=
        List.map_congr_left fun i hi => orphaned_eq_of_isOf (List.mem_filter.mp hi).2
    _ = os.filter fun i => i.op.source.isOf g := List.map_id _

/-- Bus reset takes the dispatcher's unit and the sources of the transactions' operations. -/
theorem dropTransactions (h : UnitsMatch d us os aw) :
    UnitsMatch .idle (us.filter fun u => u.owner != .dispatcher) (os.map Issued.orphaned) aw where
  owners := h.owners.sublist (List.filter_sublist.map _)
  dispatcher u hu ho := by
    have := (List.mem_filter.mp hu).2
    rw [ho] at this
    simp at this
  later _ _ he := absurd he (by simp)
  waiting u hu g ho := by
    rw [opsOf_orphaned]
    exact h.waiting u (List.mem_filter.mp hu).1 g ho
  issued g hg := by
    rw [opsOf_orphaned] at hg ⊢
    exact h.issued g hg

end UnitsMatch

end Sys2Proof.Machine
end

section
/-! PROOF. The rule of the units at every move, the capacities of the queues, of the descriptor pool and of the
port's counters; with them the limits of the part (R6, R7, R64, R65, R106, R126, R127, R135, R149, R176). -/

namespace Sys2Proof.Machine

/-! ### The units -/

/-- What the entries await when one of them has changed. -/
theorem awaits_set {es : Vector Entry 8} {g : Fin 8} {e : Entry} :
    (es.set g e)[g].awaits = e.awaits ∧ ∀ j : Fin 8, g ≠ j → (es.set g e)[j].awaits = es[j].awaits :=
  ⟨by rw [setAt_self], fun j hj => by rw [setAt_ne _ _ _ _ hj]⟩

theorem awaits_held {e : Entry} {stage : Stage} {b : Gather} (hstage : stage = .merging ∨ stage = .writing)
    (hb : e.slot = .held stage b) : e.awaits = some (stage, b.opsLeft) :=
  (Entry.awaits_iff ..).mpr ⟨b, hb, hstage, rfl⟩

theorem awaits_none {e : Entry} {stage : Stage} {b : Gather} (hstage : stage = .gathering ∨ stage = .converting)
    (hb : e.slot = .held stage b) : e.awaits = none := by
  rcases hstage with rfl | rfl <;> simp only [Entry.awaits, hb]

theorem awaits_free {e : Entry} (hb : e.slot = .free) : e.awaits = none := by simp only [Entry.awaits, hb]

/-- The units, the operations and the dispatcher's state are the same, and so is what every entry awaits. -/
theorem State.UnitsSound.of_same {s t : State} (h : s.UnitsSound) (hd : t.disp = s.disp)
    (hu : t.units = s.units) (ho : t.outstanding = s.outstanding)
    (haw : ∀ g : Fin 8, t.entries[g].awaits = s.entries[g].awaits) : t.UnitsSound := by
  rw [State.unitsSound_iff] at h ⊢
  rw [hd, hu, ho, funext haw]
  exact h

theorem State.UnitsSound.of_calm {s t : State} (e : Calm s t) (h : s.UnitsSound) : t.UnitsSound := by
  rcases e.disp with hd | ⟨hs, ht⟩
  · exact h.of_same hd e.units e.outstanding fun g => (e.entries g).awaits
  · rw [State.unitsSound_iff] at h ⊢
    rw [e.units, e.outstanding, funext fun g => (e.entries g).awaits]
    exact h.leave (h.no_dispatcher hs) ht

theorem State.UnitsSound.openEntry {s : State} (h : s.UnitsSound) {k : Key} {g : Fin 8}
    (hk : s.entryFor k = none) (hg : s.lowestFree = some g) : (s.openEntry k).UnitsSound := by
  have hfree := ((s.lowestFree_some g).mp hg).1
  unfold State.openEntry
  rw [hk, hg]
  refine h.of_same rfl rfl rfl fun j => ?_
  by_cases hj : g = j
  · subst hj
    exact awaits_set.1.trans (awaits_free hfree).symm
  · exact awaits_set.2 j hj

theorem State.UnitsSound.request {s : State} (h : s.UnitsSound) {g : Fin 8} {stage stage' : Stage}
    (kind : OpKind) (data : List Byte) {b : Gather} (b' : Gather) (hb : s.entries[g].slot = .held stage b)
    (hstage : stage = .gathering ∨ stage = .converting) (hstage' : stage' = .merging ∨ stage' = .writing) :
    (s.requestFieldUnit g stage' kind data b').UnitsSound := by
  rw [State.unitsSound_iff] at h ⊢
  refine h.request (g := g) (stage := stage') (awaits_none hstage hb) (fun op hop => ?_)
    (awaits_set.1.trans ((Entry.awaits_iff ..).mpr ⟨_, rfl, hstage', rfl⟩)) fun j hj => awaits_set.2 j hj
  exact (splitOps_source hop).choose_spec

theorem State.UnitsSound.freed {s : State} (h : s.UnitsSound) {g : Fin 8} {b : Gather} (o : Answer)
    (hb : s.entries[g].slot = .held .converting b) : (s.freeEntry g o).UnitsSound := by
  rw [s.freeEntry_held g o _ b hb]
  refine h.of_same rfl rfl rfl fun j => ?_
  by_cases hj : g = j
  · subst hj
    exact awaits_set.1.trans (awaits_none (.inr rfl) hb).symm
  · exact awaits_set.2 j hj

theorem State.firstUnit_mem {s : State} {u : MemUnit} (h : s.firstUnit = some u) : u ∈ s.units := by
  unfold State.firstUnit at h
  rcases (Option.orElse_eq_some _ _ _).mp h with h | ⟨-, h⟩
  · obtain ⟨g, -, hg⟩ := List.exists_of_findSome?_eq_some h
    exact List.mem_of_find?_eq_some hg
  · exact List.mem_of_find?_eq_some h

theorem State.UnitsSound.issueUnit {s : State} (h : s.UnitsSound) {u : MemUnit} (hu : u ∈ s.units) :
    (s.issueUnit u).UnitsSound := by
  rw [State.unitsSound_iff] at h
  unfold State.issueUnit
  dsimp only
  split
  · next g ho => exact (State.unitsSound_iff _).mpr (h.issueEntry hu ho s.opCounter)
  · next ho =>
    obtain ⟨hissued, hnone⟩ := h.issueDispatcher hu ho s.opCounter
    unfold State.afterDispatcherIssue
    split
    · next id ops rest hd =>
      have hd : s.disp = .issuing id (ops :: rest) := hd
      exact (State.unitsSound_iff _).mpr (hissued.dispatch hnone id ops rest (h.later id _ hd))
    · exact (State.unitsSound_iff _).mpr (hissued.leave hnone Disp.issues_idle)
    all_goals exact (State.unitsSound_iff _).mpr hissued

theorem State.UnitsSound.completed {s t : State} (h : s.UnitsSound) {i : Issued} {rest : List Issued}
    {g : Fin 8} {stage : Stage} {b : Gather} (ho : s.outstanding = i :: rest)
    (hi : i.op.source.isOf g = true) (hb : s.entries[g].slot = .held stage b) (hd : t.disp = s.disp)
    (hu : t.units = s.units) (hrest : t.outstanding = rest)
    (hother : ∀ j : Fin 8, g ≠ j → t.entries[j].awaits = s.entries[j].awaits)
    (hleft : stage = .merging ∨ stage = .writing → 1 < b.opsLeft →
      t.entries[g].awaits = some (stage, b.opsLeft - 1)) : t.UnitsSound := by
  rw [State.unitsSound_iff, ho] at h
  rw [State.unitsSound_iff, hd, hu, hrest]
  refine h.complete hi hother fun st n haw hn => ?_
  obtain ⟨b', hb', hstage, rfl⟩ := (Entry.awaits_iff ..).mp haw
  rw [hb] at hb'
  obtain ⟨rfl, rfl⟩ := Slot.held.inj hb'
  exact hleft hstage hn

theorem State.unitsSound_kept : KeptByMoves State.UnitsSound where
  calm _ _ e h := h.of_calm e
  opened _ _ _ hk hg h := h.openEntry hk hg
  requested _ _ _ _ kind data _ b' hb hstage hstage' _ _ h := h.request kind data b' hb hstage hstage'
  freed _ _ _ o hb h := h.freed o hb
  dispatched s id first rest hd hops h := by
    rw [State.unitsSound_iff] at h ⊢
    exact h.dispatch (h.no_dispatcher hd) id first rest hops
  issued _ _ hu _ h := h.issueUnit (State.firstUnit_mem hu)
  popped s i rest ho hi h := by
    rw [State.unitsSound_iff, ho] at h
    exact (State.unitsSound_iff _).mpr (h.pop hi)
  more s i rest g stage b b' ho hi hb _ _ _ hleft h :=
    h.completed ho hi hb rfl rfl rfl (fun j hj => awaits_set.2 j hj) fun hstage _ =>
      awaits_set.1.trans (by rw [awaits_held hstage rfl, hleft])
  merged s i rest g b b' ho hi hb hlast _ _ h :=
    h.completed ho hi hb rfl rfl rfl (fun j hj => awaits_set.2 j hj) fun _ hmore =>
      absurd hmore (Nat.not_lt.mpr hlast)
  finished s i rest g stage b o ho hi hb _ hlast h := by
    rw [State.freeEntry_held { s with outstanding := rest } g o stage b hb]
    exact h.completed ho hi hb rfl rfl rfl (fun j hj => awaits_set.2 j hj) fun _ hmore =>
      absurd hmore (Nat.not_lt.mpr hlast)
  transactionsDropped s h := by
    rw [State.unitsSound_iff] at h ⊢
    have haw : (fun g : Fin 8 => s.dropTransactions.entries[g].awaits) = fun g => s.entries[g].awaits := by
      funext g
      show (s.entries.map Entry.unconfirmed)[g].awaits = _
      rw [mapAt]
      exact (Entry.like_unconfirmed _).awaits
    rw [haw]
    exact h.dropTransactions
  reset := (State.unitsSound_iff _).mpr
    ⟨List.nodup_nil, fun u hu => absurd hu (List.not_mem_nil), fun _ _ he => absurd he (by simp [State.reset]),
      fun u hu => absurd hu (List.not_mem_nil), fun _ hg => absurd rfl hg⟩

/-- An owner as a place among nine. -/
def UnitOwner.place : UnitOwner → Option (Fin 8)
  | .entry g => some g
  | .dispatcher => none

theorem UnitOwner.place_injective : Function.Injective UnitOwner.place := by
  intro a b h
  cases a <;> cases b <;> simp_all [UnitOwner.place]

/-- With one unit an owner, at most nine units wait (R127). -/
theorem State.UnitsSound.units_length {s : State} (h : s.UnitsSound) : s.units.length ≤ 9 := by
  have hplaces : ((s.units.map (·.owner)).map UnitOwner.place).Nodup :=
    h.owners.map UnitOwner.place_injective
  simpa using hplaces.length_le_card

/-! ### The queues -/

/-- The queues of the traffic side and the log stay within their capacities (R106, R126, R135, R149). -/
structure State.QueuesBounded (s : State) : Prop where
  txns : s.txns.length ≤ 8
  outstanding : s.outstanding.length ≤ 8
  jobs : s.jobs.length ≤ 16
  log : s.log.length ≤ 16
  dropped : s.dropped ≤ 255

theorem State.afterDispatcherIssue_queues (s : State) (h : s.QueuesBounded) :
    s.afterDispatcherIssue.QueuesBounded := by
  unfold State.afterDispatcherIssue
  split <;> exact ⟨h.txns, h.outstanding, h.jobs, h.log, h.dropped⟩

theorem State.freeEntry_queues (s : State) (g : Fin 8) (o : Answer) (h : s.QueuesBounded) :
    (s.freeEntry g o).QueuesBounded := by
  unfold State.freeEntry
  split
  · exact h
  · refine ⟨?_, ?_, ?_, ?_, ?_⟩
    · rw [State.noteFreed_txns, List.length_map]; exact h.txns
    · rw [State.noteFreed_outstanding]; exact h.outstanding
    · rw [State.noteFreed_jobs]; exact h.jobs
    · rw [State.noteFreed_log]; exact h.log
    · rw [State.noteFreed_dropped]; exact h.dropped

theorem State.QueuesBounded.pop {s : State} (h : s.QueuesBounded) {i : Issued} {rest : List Issued}
    (ho : s.outstanding = i :: rest) : State.QueuesBounded { s with outstanding := rest } :=
  ⟨h.txns, by have := h.outstanding; rw [ho, List.length_cons] at this; exact Nat.le_of_succ_le this, h.jobs,
    h.log, h.dropped⟩

theorem State.queuesBounded_kept : KeptByMoves State.QueuesBounded where
  calm s t e h := by
    have := e.txns; have := e.jobs; have := e.log; have := e.dropped
    have := h.txns; have := h.jobs; have := h.log; have := h.dropped
    exact ⟨by omega, e.outstanding ▸ h.outstanding, by omega, by omega, by omega⟩
  opened s k g _ _ h := by
    unfold State.openEntry
    split <;> exact ⟨h.txns, h.outstanding, h.jobs, h.log, h.dropped⟩
  requested _ _ _ _ _ _ _ _ _ _ _ _ _ h := ⟨h.txns, h.outstanding, h.jobs, h.log, h.dropped⟩
  freed s g _ o _ h := s.freeEntry_queues g o h
  dispatched _ _ _ _ _ _ h := ⟨h.txns, h.outstanding, h.jobs, h.log, h.dropped⟩
  issued s u _ hfits h := by
    have hroom : (s.outstanding ++ issuedFrom s.opCounter u.ops).length ≤ 8 := by
      have hfree : s.freeSlots = 8 - s.outstanding.length := rfl
      have := h.outstanding
      rw [List.length_append, UnitsMatch.issuedFrom_length]
      omega
    unfold State.issueUnit
    dsimp only
    split
    · exact ⟨h.txns, hroom, h.jobs, h.log, h.dropped⟩
    · exact State.afterDispatcherIssue_queues _ ⟨h.txns, hroom, h.jobs, h.log, h.dropped⟩
  popped _ _ _ ho _ h := h.pop ho
  more _ _ _ _ _ _ _ ho _ _ _ _ _ _ h :=
    ⟨h.txns, (h.pop ho).outstanding, h.jobs, h.log, h.dropped⟩
  merged _ _ _ _ _ _ ho _ _ _ _ _ h := ⟨h.txns, (h.pop ho).outstanding, h.jobs, h.log, h.dropped⟩
  finished _ _ _ g _ _ o ho _ _ _ _ h := State.freeEntry_queues _ g o (h.pop ho)
  transactionsDropped s h :=
    ⟨Nat.zero_le _, by
      show (s.outstanding.map Issued.orphaned).length ≤ 8
      rw [List.length_map]; exact h.outstanding, h.jobs, h.log, h.dropped⟩
  reset := ⟨Nat.zero_le _, Nat.zero_le _, Nat.zero_le _, Nat.zero_le _, Nat.zero_le _⟩

/-! ### The descriptor pool -/

/-- The descriptors in use (R7). -/
def State.descriptors (s : State) : Nat := (s.layouts.toList.map fun l => l.fields.length).sum

/-- Layouts and the descriptor pool stay within their sizes (R6, R7). -/
structure State.LayoutsBounded (s : State) : Prop where
  fields : ∀ l : Fin 16, s.layouts[l].fields.length ≤ 24
  descriptors : s.descriptors ≤ 128

theorem State.LayoutsBounded.of_stores {s t : State} (e : SameStores s t) (h : s.LayoutsBounded) :
    t.LayoutsBounded :=
  ⟨fun l => by rw [e.layouts]; exact h.fields l, by
    unfold State.descriptors; rw [e.layouts]; exact h.descriptors⟩

/-- The descriptors in use after a layout has changed. -/
theorem State.setLayout_descriptors (s : State) (l : Fin 16) (x : Layout) :
    (s.setLayout l x).descriptors + s.layouts[l].fields.length = s.descriptors + x.fields.length := by
  unfold State.descriptors
  rw [State.setLayout_layouts, Vector.toList_set, List.map_set, List.sum_set]
  have hsplit := List.sum_take_add_sum_drop (s.layouts.toList.map fun l => l.fields.length) l.val
  have hlen : l.val < (s.layouts.toList.map fun l => l.fields.length).length := by simp
  rw [if_pos hlen]
  rw [List.drop_eq_getElem_cons hlen, List.sum_cons] at hsplit
  simp only [List.getElem_map, Vector.getElem_toList] at hsplit
  simp only [Fin.getElem_fin]
  omega

theorem State.LayoutsBounded.setLayout {s : State} (h : s.LayoutsBounded) (l : Fin 16) (x : Layout)
    (hfields : x.fields.length ≤ 24)
    (hpool : s.descriptors + x.fields.length ≤ 128 + s.layouts[l].fields.length) :
    (s.setLayout l x).LayoutsBounded := by
  have hsum := s.setLayout_descriptors l x
  refine ⟨fun j => ?_, by omega⟩
  rw [State.setLayout_layouts]
  by_cases hj : l = j
  · subst hj
    rw [setAt_self]
    exact hfields
  · rw [setAt_ne _ _ _ _ hj]
    exact h.fields j

/-- A layout that keeps its fields, or loses them. -/
theorem State.LayoutsBounded.setFewer {s : State} (h : s.LayoutsBounded) (l : Fin 16) (x : Layout)
    (hfewer : x.fields.length ≤ s.layouts[l].fields.length) : (s.setLayout l x).LayoutsBounded := by
  have hl := h.fields l
  have hp := h.descriptors
  exact h.setLayout l x (by omega) (by omega)

theorem State.LayoutsBounded.recheck {s : State} (h : s.LayoutsBounded) (tables : Vector CodeTable 4)
    (programs : Vector Program 32) (names : Layout → Bool) :
    (State.recheck { s with tables, programs } names).LayoutsBounded := by
  have hsame : ∀ l : Layout, (if names l then l.rechecked tables programs else l).fields = l.fields := by
    intro l
    split
    · exact Layout.rechecked_fields ..
    · rfl
  constructor
  · intro l
    dsimp only [State.recheck]
    rw [mapAt, hsame]
    exact h.fields l
  · unfold State.descriptors State.recheck
    simp only [Vector.toList_map, List.map_map]
    have hfun : (fun l : Layout => l.fields.length)
        ∘ (fun l => if names l then l.rechecked tables programs else l) = fun l => l.fields.length :=
      funext fun l => by rw [Function.comp_apply, hsame]
    rw [hfun]
    exact h.descriptors

theorem State.layoutsBounded_kept : KeptOfStores State.LayoutsBounded where
  same _ _ e h := h.of_stores e
  reset := ⟨fun l => by simp [State.reset, Layout.fields], by decide⟩
  mode _ _ _ _ h := ⟨h.fields, h.descriptors⟩
  writeCfg _ _ _ _ h := ⟨h.fields, h.descriptors⟩
  latch _ _ _ _ _ _ _ _ _ h := ⟨h.fields, h.descriptors⟩
  turnOff _ _ h := ⟨h.fields, h.descriptors⟩
  draft _ l _ _ _ h := h.setFewer l _ (Nat.zero_le _)
  append s l va sa fields f hl hn hfree h := by
    have hpool : s.freeDescriptors = 128 - s.descriptors := rfl
    have hlen : s.layouts[l].fields.length = fields.length := by rw [hl]; rfl
    have hnew : (Layout.built .draft va sa (fields ++ [f])).fields.length = fields.length + 1 := by
      simp [Layout.fields]
    exact h.setLayout l _ (by omega) (by omega)
  commit _ l _ _ _ _ hl _ h := h.setFewer l _ (by rw [hl]; exact Nat.le_refl _)
  reject _ l _ _ _ _ _ _ hl _ h := h.setFewer l _ (by rw [hl]; exact Nat.le_refl _)
  erase _ l _ h := h.setFewer l _ (Nat.zero_le _)
  table s _ _ _ h := h.recheck _ s.programs _
  program s _ _ _ h := h.recheck s.tables _ _

/-! ### The port -/

/-- The receiver, the refused count and the tick divider stay within their ranges (R64, R176). -/
structure State.PortBounded (s : State) : Prop where
  received : s.receiver.bytes.length ≤ 524
  refused : s.refusedCount ≤ 255
  divider : 8 ≤ s.tickDivider ∧ s.tickDivider ≤ 250

theorem Receiver.take_length (r : Receiver) (b : Byte) (copy : List Byte) (h : r.bytes.length ≤ 524) :
    (r.take b copy).bytes.length ≤ 524 := by
  unfold Receiver.take
  split
  · exact h
  · exact h
  · exact h
  · split
    · next hroom =>
      have hroom : r.bytes.length < 524 := hroom
      show (r.bytes ++ [b]).length ≤ 524
      rw [List.length_append, List.length_singleton]
      exact hroom
    · exact h

theorem State.portBounded_kept : KeptOfPort State.PortBounded where
  same _ _ e h := ⟨e.receiver ▸ h.received, e.refusedCount ▸ h.refused, e.tickDivider ▸ h.divider⟩
  divider _ _ h8 h250 h := ⟨h.received, h.refused, h8, h250⟩
  powerOn _ _ := ⟨Nat.zero_le _, Nat.zero_le _, by simp [State.assertPowerOnReset, State.reset]⟩
  endPeriod _ _ h := ⟨Nat.zero_le _, h.refused, h.divider⟩
  turnAway _ h := ⟨h.received, Nat.min_le_left .., h.divider⟩
  putResult _ _ _ _ h := ⟨h.received, h.refused, h.divider⟩
  clearRefused _ h := ⟨h.received, Nat.zero_le _, h.divider⟩
  beginPeriod s h := by
    unfold State.beginPeriod
    split
    · exact h
    · exact ⟨by dsimp only; split <;> exact Nat.zero_le _, h.refused, h.divider⟩
  takeByte s b h := by
    unfold State.takeByte
    split
    · exact ⟨Receiver.take_length _ _ _ h.received, h.refused, h.divider⟩
    · exact h
  endEmptyPeriod s h := by
    unfold State.endEmptyPeriod
    split
    · exact ⟨Nat.zero_le _, h.refused, h.divider⟩
    · exact h

theorem State.portBounded_step (s t : State) (h : s.PortBounded) (ht : step s = .next t) : t.PortBounded :=
  State.portBounded_kept.kept.step (fun _ _ h => ⟨h.received, h.refused, h.divider⟩) s t h ht

/-! ### The limits together -/

theorem Entry.age_le_iff (e : Entry) : e.age ≤ 255 ↔ ∀ stage b, e.slot = .held stage b → b.age ≤ 255 := by
  unfold Entry.age
  cases e.slot <;> simp

/-- The limits are those of the queues, the stores, the port and the ages; nine owners bound the units. -/
theorem State.withinLimits_iff {s : State} (hunits : s.UnitsSound) : s.WithinLimits
    ↔ s.QueuesBounded ∧ s.LayoutsBounded ∧ s.PortBounded ∧ s.AgesBounded :=
  ⟨fun h => ⟨⟨h.txns, h.outstanding, h.jobs, h.log, h.dropped⟩, ⟨h.fields, h.descriptors⟩,
      ⟨h.received, h.refused, h.divider⟩, fun g => (Entry.age_le_iff _).mpr (h.ages g)⟩,
    fun ⟨hq, hl, hp, ha⟩ =>
      { txns := hq.txns, outstanding := hq.outstanding, units := hunits.units_length, jobs := hq.jobs
        log := hq.log, dropped := hq.dropped, received := hp.received, refused := hp.refused
        divider := hp.divider, fields := hl.fields, descriptors := hl.descriptors
        ages := fun g => (Entry.age_le_iff _).mp (ha g) }⟩

end Sys2Proof.Machine

namespace Sys2Proof

open Sys2Proof.Machine

/-- Settles O55: the queues and the ages by the moves of the traffic side, the pool by the changes of the
stores, the counters by the port, the units by the rule that gives every owner at most one. -/
theorem limitsKept : Obligations.LimitsKept := by
  intro s t hlimits hunits ht
  have hunits' := State.unitsSound_kept.step s t hunits ht
  obtain ⟨hq, hl, hp, ha⟩ := (State.withinLimits_iff hunits).mp hlimits
  exact ⟨(State.withinLimits_iff hunits').mpr
    ⟨State.queuesBounded_kept.step s t hq ht, State.layoutsBounded_kept.step s t hl ht,
      State.portBounded_step s t hp ht, State.agesBounded_kept.moves.step s t ha ht⟩, hunits'⟩

/-- Settles O59: what every step keeps, power-on reset sets up. -/
theorem invariantsHoldAtReset : Obligations.InvariantsHoldAtReset :=
  ⟨(State.withinLimits_iff State.unitsSound_kept.reset).mpr
      ⟨State.queuesBounded_kept.reset, State.layoutsBounded_kept.reset,
        ⟨Nat.zero_le _, Nat.zero_le _, by simp [State.reset]⟩, State.agesBounded_kept.reset⟩,
    State.windowsSound_kept.reset, State.layoutsSound_kept.reset, State.keysApart_kept.reset,
    State.unitsSound_kept.reset, State.opensInOrder_kept.reset⟩

end Sys2Proof
end

section
/-! PROOF. Resets and the processor side's queue: what power-on reset and bus reset leave, requests taken and
responses given (R63, R86, R101, R106, R107, R121 to R124, R133, R134, R140, R175, R195). -/

namespace Sys2Proof.Machine

/-- What stays of an entry whose confirm list is emptied. -/
theorem Entry.unconfirmed_of_slot {e : Entry} {stage : Stage} {b : Gather} (h : e.slot = .held stage b) :
    e.unconfirmed = { e with slot := .held stage { b with confirm := [] } } := by
  unfold Entry.unconfirmed
  rw [h]

theorem Entry.unconfirmed_of_free {e : Entry} (h : e.slot = .free) : e.unconfirmed = e := by
  unfold Entry.unconfirmed
  rw [h]

theorem Entry.isGathering_unconfirmed (e : Entry) : e.unconfirmed.isGathering = e.isGathering := by
  unfold Entry.isGathering Entry.unconfirmed
  rcases e with ⟨_, _, _ | ⟨_ | _ | _ | _, _⟩⟩ <;> rfl

theorem State.dropTransactions_entry (s : State) (g : Fin 8) :
    s.dropTransactions.entries[g] = s.entries[g].unconfirmed := mapAt _ _ _

/-- Bus reset leaves which entries are GATHERING, and their keys. -/
theorem State.dropTransactions_gatheringWhere (s : State) (test : Key → Bool) :
    s.dropTransactions.gatheringWhere test = s.gatheringWhere test := by
  unfold State.gatheringWhere
  refine List.filter_congr fun g _ => ?_
  rw [State.dropTransactions_entry]
  cases hslot : s.entries[g].slot with
  | free => rw [Entry.unconfirmed_of_free hslot, hslot]
  | held stage b => rw [Entry.unconfirmed_of_slot hslot]; cases stage <;> rfl

theorem State.assertBusReset_of_high (s : State) (h : s.prstLow = false) :
    s.assertBusReset = s.dropTransactions.startFlushes (s.gatheringWhere fun _ => true) := by
  unfold State.assertBusReset
  rw [if_neg (by simp [h])]
  dsimp only
  rw [State.dropTransactions_gatheringWhere]

/-- What waits before flushes start, or belongs to an entry, waits after. -/
theorem State.mem_startFlushes_units {s : State} {gs : List (Fin 8)} {u : MemUnit}
    (h : u ∈ (s.startFlushes gs).units) : u ∈ s.units ∨ ∃ g, u.owner = .entry g := by
  induction gs generalizing s with
  | nil => exact .inl h
  | cons g gs ih =>
    rcases ih (s := s.startFlush g) h with hu | hu
    · unfold State.startFlush at hu
      split at hu
      · dsimp only at hu
        split at hu
        · simp only [State.awaitPlacement_units, State.setSlot_units, State.noteFlushStart_units] at hu
          exact .inl hu
        · simp only [State.requestFieldUnit, State.requestUnit_units, State.setSlot_units,
            State.noteFlushStart_units, List.mem_append, List.mem_singleton] at hu
          rcases hu with hu | rfl
          · exact .inl hu
          · exact .inr ⟨g, rfl⟩
      all_goals exact .inl hu
    · exact .inr hu

theorem Issued.orphaned_source (i : Issued) :
    (∀ id, i.orphaned.op.source ≠ .passThrough id) ∧ ∀ id f h, i.orphaned.op.source ≠ .windowRead id f h := by
  unfold Issued.orphaned
  split
  · exact ⟨fun _ => by simp, fun _ _ _ => by simp⟩
  · exact ⟨fun _ => by simp, fun _ _ _ => by simp⟩
  · next hs => exact ⟨fun _ => by simp [hs], fun _ _ _ => by simp [hs]⟩
  · next hs => exact ⟨fun _ => by simp [hs], fun _ _ _ => by simp [hs]⟩

/-- A part that takes requests, but for a full list, is one with both resets released. -/
theorem State.takesRequests_iff (s : State) :
    s.takesRequests = true ↔ s.rstLow = false ∧ s.prstLow = false ∧ s.txns.length < 8 := by
  simp [State.takesRequests, and_assoc]

/-- Into an empty list the first eight offers are taken. -/
theorem State.takeOffers_of_empty (s : State) (hempty : s.txns = []) (hrst : s.rstLow = false)
    (hprst : s.prstLow = false) :
    s.takeOffers.txns.map (·.req) = s.offers.take 8 ∧ (∀ x ∈ s.takeOffers.txns, x.state = .queued)
      ∧ s.takeOffers.offers = s.offers.drop 8 := by
  obtain ⟨htaken, hqueued, hleft⟩ :=
    State.takeOffers_takes s.offers s rfl hrst hprst (by simp [hempty]) (by simp [hempty])
  simp only [hempty, List.map_nil, List.nil_append, List.length_nil, Nat.sub_zero] at htaken hleft
  exact ⟨htaken, hqueued, hleft⟩

end Sys2Proof.Machine

namespace Sys2Proof

open Sys2Proof.Machine

/-- Settles O3, by evaluation of the reset state. -/
theorem resetValues : Obligations.ResetValues := by
  refine ⟨rfl, rfl, rfl, rfl, rfl, rfl, rfl, rfl, rfl, rfl, fun w => ?_, fun l => ?_, by decide,
    fun t => ?_, fun e => ?_, fun g => ?_, rfl, rfl, rfl, rfl, rfl, rfl, rfl, rfl, rfl, rfl, rfl⟩
  · simp only [State.reset, Fin.getElem_fin, Vector.getElem_replicate]
    rfl
  all_goals simp [State.reset, Entry.powerOn]

/-- Settles O4: the assertion is the definition; the release is the taking of the offers. -/
theorem powerOnResetRestoresReset : Obligations.PowerOnResetRestoresReset := by
  refine fun s => ⟨rfl, State.releasePowerOnReset s.settle, rfl, State.takeOffers_frame _, ?_, ?_⟩
  · rintro (hnone | hlow)
    · exact State.takeOffers_of_none _ hnone
    · exact State.takeOffers_of_full _ (by simp [State.takesRequests, hlow])
  · intro hhigh hempty
    exact State.takeOffers_of_empty { s.settle with rstLow := false } hempty rfl hhigh

/-- Settles O5: the transactions and what belongs to them are dropped, then the flushes of one event start,
which keep the rest. -/
theorem busResetDropsProcessorSide : Obligations.BusResetDropsProcessorSide := by
  intro s t hhigh victims dropped
  have hdropped : dropped = t.dropTransactions := rfl
  have hsame := dropped.startFlushes_same victims
  have hentry : ∀ g : Fin 8, dropped.entries[g] = t.entries[g].unconfirmed := t.dropTransactions_entry
  have hheld : ∀ (g : Fin 8) (stage : Stage) (b : Gather), t.entries[g].slot = .held stage b →
      ∃ stage' b', (dropped.startFlushes victims).entries[g]
          = { openOrder := t.entries[g].openOrder, fault := t.entries[g].fault, slot := .held stage' b' }
        ∧ b'.key = b.key ∧ b'.bytes = b.bytes ∧ b'.base = b.base ∧ b'.age = b.age ∧ b'.confirm = []
        ∧ (stage ≠ .gathering → stage' = stage) := by
    intro g stage b hb
    have hb' := (hentry g).trans (Entry.unconfirmed_of_slot hb)
    obtain ⟨stage', b', he, hkey, hbytes, hbase, hage, hconfirm, hstage⟩ :=
      dropped.startFlushes_held victims g stage { b with confirm := [] } (by rw [hb'])
    rw [hb'] at he
    exact ⟨stage', b', he, hkey, hbytes, hbase, hage, hconfirm, hstage⟩
  have hfree : ∀ g : Fin 8, t.entries[g].slot = .free →
      (dropped.startFlushes victims).entries[g] = t.entries[g] := by
    intro g hb
    have hb' := (hentry g).trans (Entry.unconfirmed_of_free hb)
    rw [dropped.startFlushes_free victims g (by rw [hb']; exact hb), hb']
  have houtstanding : (dropped.startFlushes victims).outstanding = t.outstanding.map Issued.orphaned :=
    State.startFlushes_outstanding ..
  have hsource : ∀ i ∈ (dropped.startFlushes victims).outstanding, ∃ j, i = Issued.orphaned j := by
    intro i hi
    rw [houtstanding] at hi
    obtain ⟨j, -, rfl⟩ := List.mem_map.mp hi
    exact ⟨j, rfl⟩
  obtain ⟨hunits, hplace, -⟩ := dropped.startFlushes_appends victims
  refine ⟨dropped.startFlushes victims, ?_, rfl, ?_, ?_, ?_, ?_, ?_, ?_, ?_, ?_, ?_, hfree, ?_, ?_, hplace,
    hsame.windows, hsame.layouts, hsame.tables, hsame.programs, ?_, ?_, ?_, ?_, ?_, ?_, ?_, ?_,
    hsame.offers, hsame.receiver, hsame.msdo, hsame.mcsLow, hsame.result, hsame.build,
    hsame.refusedCount, hsame.tickDivider, hsame.tickInterval, hsame.alertEnable⟩
  · show Host.Outcome.next _ = _
    rw [State.assertBusReset_of_high _ hhigh]
    rfl
  · exact State.startFlushes_txns ..
  · exact State.startFlushes_disp ..
  · exact hsame.prstLow
  · intro u hu ho
    rcases State.mem_startFlushes_units hu with hu | ⟨g, hg⟩
    · have := (List.mem_filter.mp hu).2
      rw [ho] at this
      simp at this
    · rw [hg] at ho
      exact absurd ho (by simp)
  · intro u hu ho
    exact hunits.subset (List.mem_filter.mpr ⟨hu, by simpa using ho⟩)
  · intro i hi
    obtain ⟨j, rfl⟩ := hsource i hi
    exact j.orphaned_source.1
  · intro i hi
    obtain ⟨j, rfl⟩ := hsource i hi
    exact j.orphaned_source.2
  · intro g stage b hb
    cases hslot : t.entries[g].slot with
    | free =>
      rw [hfree g hslot, hslot] at hb
      exact absurd hb (by simp)
    | held st b₀ =>
      obtain ⟨stage', b', he, -, -, -, -, hconfirm, -⟩ := hheld g st b₀ hslot
      rw [he] at hb
      obtain ⟨-, rfl⟩ := Slot.held.inj hb
      exact hconfirm
  · intro g stage b hb
    obtain ⟨stage', b', he, hkey, hbytes, hbase, hage, -, hstage⟩ := hheld g stage b hb
    exact ⟨stage', b', he, hkey, hbytes, hbase, hage, hstage⟩
  · intro hopen g
    cases hg : t.entries[g].isGathering with
    | true =>
      refine State.startFlushes_not_gathering _ _ g ((t.mem_gatheringWhere _ g).mpr ⟨hopen g hg, ?_⟩)
      unfold Entry.isGathering at hg
      split at hg
      · next b hb => exact ⟨b, hb, rfl⟩
      all_goals simp at hg
    | false =>
      rw [Bool.eq_false_iff]
      intro hc
      have := (State.startFlushes_kept victims dropped g).2.2.2 hc
      rw [hentry, Entry.isGathering_unconfirmed, hg] at this
      exact absurd this (by simp)
  · intro hnodup
    have hspec := (State.startFlushes_spec victims dropped (t.gatheringWhere_nodup _ hnodup) fun g hg => by
      rw [hentry, Entry.isGathering_unconfirmed]
      exact t.gatheringWhere_gathering _ g hg).1
    rw [hspec]
  · exact State.startFlushes_log ..
  · exact State.startFlushes_dropped ..
  · exact State.startFlushes_seqCounter ..
  · exact State.startFlushes_jobs ..
  · exact State.startFlushes_running ..
  · rw [houtstanding, List.length_map]
  · exact State.startFlushes_openCounter ..
  · exact State.startFlushes_openList ..

/-- Settles O6: the release is the taking of the offers. -/
theorem busResetReleaseTakesOffers : Obligations.BusResetReleaseTakesOffers := by
  intro s t hhigh hempty
  have hframe := State.takeOffers_frame { t with prstLow := false }
  obtain ⟨htaken, hqueued, hleft⟩ := State.takeOffers_of_empty { t with prstLow := false } hempty hhigh rfl
  exact ⟨State.releaseBusReset t, rfl, congrArg State.prstLow hframe, htaken, hqueued, hleft, hframe⟩

/-- Settles O7: a request is taken at once, or stays behind the offers that wait. -/
theorem requestTakenOrWaits : Obligations.RequestTakenOrWaits := by
  intro r s t
  have hexec : exec (.requestTaken r) s = .next (State.takeOffers { t with offers := t.offers ++ [r] }) := rfl
  constructor
  · intro hnone hrst hprst hroom
    rw [hexec, State.takeOffers_cons { t with offers := t.offers ++ [r] } r [] (by simp [hnone])
      ((State.takesRequests_iff _).mpr ⟨hrst, hprst, hroom⟩), State.takeOffers_of_none, ← hnone]
    rfl
  · intro hfull
    rw [hexec, State.takeOffers_of_full _ (Bool.eq_false_iff.mpr fun htakes => ?_)]
    obtain ⟨hrst, hprst, hroom⟩ := (State.takesRequests_iff _).mp htakes
    rcases hfull with h | h | h
    · exact absurd (h.symm.trans hrst) (by simp)
    · exact absurd (h.symm.trans hprst) (by simp)
    · exact absurd hroom (Nat.not_lt.mpr h)

/-- Settles O8: the released transaction leaves, and the freed place is taken. -/
theorem responseTakenRemovesOldest : Obligations.ResponseTakenRemovesOldest := by
  intro s t
  refine ⟨fun q rest answer data hlist hready => ?_, fun hnone => ?_⟩
  · have hreleased : t.takeResponse = State.takeOffers { t with txns := rest } := by
      unfold State.takeResponse
      rw [show t.released = some (q.req.tag, answer, data) by unfold State.released; rw [hlist]; simp only [hready],
        hlist]
      rfl
    have hexec : exec .responseTaken s = .next (State.takeOffers { t with txns := rest }) :=
      congrArg Host.Outcome.next hreleased
    refine ⟨fun hoffers => ?_, fun r more hoffers hrst hprst hseven => ?_⟩
    · rw [hexec, State.takeOffers_of_none { t with txns := rest } hoffers]
    · rw [hexec, State.takeOffers_cons { t with txns := rest } r more hoffers
        ((State.takesRequests_iff _).mpr ⟨hrst, hprst, by show rest.length < 8; omega⟩),
        State.takeOffers_of_full]
      simp [State.takesRequests, hseven]
  · show Host.Outcome.next t.takeResponse = _
    unfold State.takeResponse
    rw [hnone]

end Sys2Proof
end

section
/-! PROOF. Offers of requests that are answered at once: malformed ones, refused writes and discarded writes
(R103, R108, R109, R111, R66, R67). -/

namespace Sys2Proof.Machine

/-- A well-formed access to an ACTIVE window is offered to the window's path. -/
theorem State.offer_access (s : State) (q : Txn) (hq : s.nextTxn = some q) (hdue : s.offerDue = true)
    (hfence : ∀ tag, q.req ≠ .fence tag) (hwf : wellFormedAccess q.req.addr q.req.size = true) :
    s.offer = { s with reoffer := false }.offerAccess q := by
  rw [s.offer_of_due q hq hdue, State.offerNext_access _ q hfence hwf]

theorem State.offer_write (s : State) (q : Txn) (a : Addr) (data : List Byte) (tag : Tag) (d : Decode)
    (hq : s.nextTxn = some q) (hdue : s.offerDue = true) (hreq : q.req = .write a data tag)
    (hwf : wellFormedAccess a.toNat data.length = true) (hdec : s.decode a.toNat = some d)
    (hmode : d.mode = .active) : s.offer = { s with reoffer := false }.offerWrite q d data := by
  rw [s.offer_access q hq hdue (by rw [hreq]; simp) (by rw [hreq]; exact hwf)]
  unfold State.offerAccess
  rw [show State.decode { s with reoffer := false } q.req.addr = some d by rw [hreq]; exact hdec]
  simp only [hmode, hreq]

theorem State.offer_read (s : State) (q : Txn) (a : Addr) (n : Nat) (tag : Tag) (d : Decode)
    (hq : s.nextTxn = some q) (hdue : s.offerDue = true) (hreq : q.req = .read a n tag)
    (hwf : wellFormedAccess a.toNat n = true) (hdec : s.decode a.toNat = some d)
    (hmode : d.mode = .active) : s.offer = { s with reoffer := false }.offerRead q d n := by
  rw [s.offer_access q hq hdue (by rw [hreq]; simp) (by rw [hreq]; exact hwf)]
  unfold State.offerAccess
  rw [show State.decode { s with reoffer := false } q.req.addr = some d by rw [hreq]; exact hdec]
  simp only [hmode, hreq]

/-- An access of 1, 2, 4 or 8 bytes at a multiple of its size is well formed (R103). -/
theorem wellFormedAccess_iff (a n : Nat) :
    wellFormedAccess a n = true ↔ (n = 1 ∨ n = 2 ∨ n = 4 ∨ n = 8) ∧ a % n = 0 := by
  simp [wellFormedAccess, or_assoc]

theorem length_pos_of_wellFormed {a n : Nat} (h : wellFormedAccess a n = true) : 0 < n := by
  have := ((wellFormedAccess_iff a n).mp h).1
  omega

/-- A write that touches a hole or a read-only field leaves its record. -/
theorem writeRecord_some (s : State) (q : Txn) (d : Decode) (n : Nat) (action : ExcAction)
    (h : holeTouching (s.fieldsOf d.window) d.offset n = true
      ∨ (protectField (s.fieldsOf d.window) d.offset n).isSome = true) :
    writeRecord (s.fieldsOf d.window) q d n action = some (refusalRecord s q d n action) := by
  unfold writeRecord refusalRecord
  dsimp only
  cases hh : holeTouching (s.fieldsOf d.window) d.offset n with
  | true => rfl
  | false =>
    rw [hh] at h
    obtain ⟨i, hi⟩ := Option.isSome_iff_exists.mp (h.resolve_left (by simp))
    simp [hi]

theorem writeRecord_none (fields : List FieldDesc) (q : Txn) (d : Decode) (n : Nat) (action : ExcAction)
    (hh : holeTouching fields d.offset n = false) (hp : protectField fields d.offset n = none) :
    writeRecord fields q d n action = none := by
  unfold writeRecord
  simp [hh, hp]

/-- A write of which no field keeps a byte touches a hole or a read-only field. -/
theorem touching_of_keptFields_nil {fields : List FieldDesc} {o n : Nat} (hn : 0 < n)
    (hkept : keptFields fields o n = []) :
    holeTouching fields o n = true ∨ (protectField fields o n).isSome = true := by
  cases hh : holeTouching fields o n with
  | true => exact .inl rfl
  | false =>
    right
    rw [Option.isSome_iff_ne_none]
    intro hp
    have hno : ∀ f i, (f, i) ∉ touchedFields fields o n := fun f i hm => by
      have hi : i ∈ keptFields fields o n :=
        (mem_keptFields ..).mpr ⟨f, hm, (protectField_none ..).mp hp f i hm⟩
      rw [hkept] at hi
      exact List.not_mem_nil hi
    have hhole : holeTouching fields o n = true := (holeTouching_iff ..).mpr ⟨0, hn, fun f hf hin => by
      obtain ⟨i, hi⟩ := List.mem_iff_getElem?.mp hf
      exact hno f i ((mem_touchedFields ..).mpr ⟨hi, o + 0, ⟨by omega, by omega⟩, hin⟩)⟩
    rw [hh] at hhole
    exact absurd hhole (by simp)

/-- A STRICT window refuses a write that leaves a record. -/
theorem State.offerWrite_refused (s : State) (t : Txn) (d : Decode) (data : List Byte) (r : ExcRecord)
    (hpolicy : s.windows[d.window].cfg.policy = .strict)
    (hr : writeRecord (s.fieldsOf d.window) t d data.length .faulted = some r) :
    s.offerWrite t d data = { (s.handOver r).answer t.id .error [] with disp := .idle } := by
  unfold State.offerWrite
  dsimp only
  rw [hpolicy, hr]

/-- A write that is not refused goes by its kept fields. -/
theorem State.offerWrite_accepted (s : State) (t : Txn) (d : Decode) (data : List Byte)
    (h : s.windows[d.window].cfg.policy = .strict →
      writeRecord (s.fieldsOf d.window) t d data.length .faulted = none) :
    let keys := (keptFields (s.fieldsOf d.window) d.offset data.length).map d.key
    s.offerWrite t d data =
      if keys.isEmpty then
        { (s.handOverAll (writeRecord (s.fieldsOf d.window) t d data.length .discarded).toList).answer
            t.id .okay [] with disp := .idle }
      else if s.canDispatch keys then s.dispatchWrite t d data
      else s.waitWrite keys := by
  unfold State.offerWrite
  dsimp only
  split
  · next hp hr => rw [h hp] at hr; exact absurd hr (by simp)
  · rfl
  · rfl

end Sys2Proof.Machine

namespace Sys2Proof

open Sys2Proof.Machine

/-- Settles O9: a malformed access is answered at its offer; the other clauses are what `nextTxn` and
`offerDue` say. -/
theorem malformedRequestAnswered : Obligations.MalformedRequestAnswered := by
  refine ⟨fun s q hq hdue hfence hbad => ?_, State.nextTxn_some, State.offerDue_iff⟩
  have hwf : wellFormedAccess q.req.addr q.req.size = false :=
    Bool.eq_false_iff.mpr fun h => hbad ((wellFormedAccess_iff ..).mp h)
  show Host.Outcome.next s.offer = _
  rw [s.offer_of_due q hq hdue, State.offerNext_malformed _ q hfence hwf]
  rfl

/-- Settles O10: a write that touches a hole or a read-only field leaves the record that refuses or discards
it; the other clauses say what the split into fields finds. -/
theorem refusedAndDiscardedWrites : Obligations.RefusedAndDiscardedWrites := by
  refine ⟨fun s q a data tag d hq hdue hreq hwf hdec hmode => ?_, fun fields o n => ?_,
    fun s w status va sa fields hl => ?_, fun s q d n action => ?_⟩
  · have hoffer : exec .dispatcherOffer s = .next (State.offerWrite { s with reoffer := false } q d data) :=
      congrArg Host.Outcome.next (s.offer_write q a data tag d hq hdue hreq hwf hdec hmode)
    refine ⟨fun hpolicy htouch => ?_, fun hpolicy hkept => ?_⟩
    · rw [hoffer, State.offerWrite_refused { s with reoffer := false } q d data _ hpolicy
        (writeRecord_some { s with reoffer := false } q d data.length .faulted htouch)]
      simp only [State.answer, State.setTxn]
      rw [State.handOver_txns]
      rfl
    · have htouch := touching_of_keptFields_nil (length_pos_of_wellFormed hwf) hkept
      have haccept := State.offerWrite_accepted { s with reoffer := false } q d data fun hp => by
        rw [show State.windows { s with reoffer := false } = s.windows from rfl, hpolicy] at hp
        exact absurd hp (by simp)
      dsimp only at haccept
      rw [hoffer, haccept, if_pos (by
          rw [show State.fieldsOf { s with reoffer := false } d.window = s.fieldsOf d.window from rfl, hkept]
          rfl),
        writeRecord_some { s with reoffer := false } q d data.length .discarded htouch]
      simp only [State.answer, State.setTxn, State.handOverAll, Option.toList_some, List.foldl_cons, List.foldl_nil]
      rw [State.handOver_txns]
      rfl
  · refine ⟨fun f i => mem_touchedFields .., touchedFields_ascending .., fun off f i => ownerOf_some ..,
      fun off => ownerOf_none .., holeTouching_iff .., fun i => ?_, ?_, fun i => ?_, keptFields_ascending ..⟩
    · simp only [protectField_some, mem_touchedFields]
    · simp only [protectField_none, mem_touchedFields]
    · simp only [mem_keptFields, mem_touchedFields]
  · show s.layouts[s.windows[w].cfg.layout].fields = fields
    rw [hl]
    rfl
  · refine ⟨fun hh => ?_, fun hh => ?_⟩
    · unfold refusalRecord
      simp [hh]
    · unfold refusalRecord
      simp [hh]

end Sys2Proof
end

section
/-! PROOF. Offers of reads, and of writes that wait: what is served, what is read from memory, what is evicted
(R68, R88 to R92). -/

namespace Sys2Proof.Machine

/-! ### Writes that wait (R68) -/

theorem State.canDispatch_iff (s : State) (keys : List Key) :
    s.canDispatch keys = true
      ↔ (∀ k ∈ keys, ∀ stage, s.stageOf k = some stage → stage = .gathering)
        ∧ (keys.filter fun k => s.stageOf k != some .gathering).length ≤ s.countEntries Entry.isFree := by
  unfold State.canDispatch
  rw [Bool.and_eq_true, List.all_eq_true, decide_eq_true_eq]
  refine and_congr_left fun _ => forall₂_congr fun k _ => ?_
  cases s.stageOf k with
  | none => simp
  | some stage => cases stage <;> simp

/-- The kept fields of a write, as keys. -/
def State.keptKeys (s : State) (d : Decode) (data : List Byte) : List Key :=
  (keptFields (s.fieldsOf d.window) d.offset data.length).map d.key

/-- A write is accepted under SUBSTITUTE, and under STRICT when it leaves no record (R66). -/
def State.acceptsWrite (s : State) (d : Decode) (data : List Byte) : Prop :=
  s.windows[d.window].cfg.policy = .substitute
    ∨ holeTouching (s.fieldsOf d.window) d.offset data.length = false
      ∧ protectField (s.fieldsOf d.window) d.offset data.length = none

theorem State.acceptsWrite.record_none {s : State} {d : Decode} {data : List Byte} (h : s.acceptsWrite d data)
    (t : Txn) (hp : s.windows[d.window].cfg.policy = .strict) :
    writeRecord (s.fieldsOf d.window) t d data.length .faulted = none := by
  rcases h with h | ⟨hh, hprot⟩
  · exact absurd (h.symm.trans hp) (by simp)
  · exact writeRecord_none _ t d _ _ hh hprot

theorem State.offerWrite_waits {s : State} {d : Decode} {data : List Byte} (t : Txn)
    (haccept : s.acceptsWrite d data) (hkept : s.keptKeys d data ≠ [])
    (hcannot : s.canDispatch (s.keptKeys d data) = false) :
    s.offerWrite t d data = s.waitWrite (s.keptKeys d data) := by
  have hnot : ¬ s.canDispatch (s.keptKeys d data) = true := by rw [hcannot]; simp
  exact (s.offerWrite_accepted t d data (haccept.record_none t)).trans
    ((if_neg fun h => hkept (List.isEmpty_iff.mp h)).trans (if_neg hnot))

theorem State.offerWrite_dispatches {s : State} {d : Decode} {data : List Byte} (t : Txn)
    (haccept : s.acceptsWrite d data) (hkept : s.keptKeys d data ≠ [])
    (hcan : s.canDispatch (s.keptKeys d data) = true) :
    s.offerWrite t d data = s.dispatchWrite t d data := by
  exact (s.offerWrite_accepted t d data (haccept.record_none t)).trans
    ((if_neg fun h => hkept (List.isEmpty_iff.mp h)).trans (if_pos hcan))

/-! ### Positions of a field (R16) -/

theorem mem_touchedPart (f : FieldDesc) (o n p : Nat) :
    p ∈ touchedPart f o n ↔ p < f.viewLen ∧ o ≤ f.viewOff + p ∧ f.viewOff + p < o + n := by
  unfold touchedPart
  dsimp only
  rw [List.range_eq_range', List.drop_range', List.mem_range']
  constructor
  · rintro ⟨i, hi, rfl⟩
    omega
  · rintro ⟨h1, h2, h3⟩
    exact ⟨p - (max o f.viewOff - f.viewOff), by omega, by omega⟩

/-- The written set holds the requested positions of a field (R88). -/
theorem Gather.holds_iff (e : Gather) (f : FieldDesc) (o n : Nat) :
    e.holds (touchedPart f o n) = true ↔ ∀ p < f.viewLen, o ≤ f.viewOff + p → f.viewOff + p < o + n →
      (e.bytes.getD p none).isSome = true := by
  unfold Gather.holds
  rw [List.all_eq_true]
  exact ⟨fun h p h1 h2 h3 => h p ((mem_touchedPart ..).mpr ⟨h1, h2, h3⟩),
    fun h p hp => h p ((mem_touchedPart ..).mp hp).1 ((mem_touchedPart ..).mp hp).2.1
      ((mem_touchedPart ..).mp hp).2.2⟩

/-- The positions with their members. -/
theorem zipIdx_eq_map_range {α : Type} (l : List (Option α)) :
    l.zipIdx = (List.range l.length).map fun p => (l.getD p none, p) := by
  refine List.ext_getElem (by simp) fun i h1 h2 => ?_
  have hi : i < l.length := by simpa using h1
  simp [hi]

theorem Gather.snapshot_eq (e : Gather) :
    e.snapshot = (List.range e.bytes.length).filterMap fun p =>
      (e.bytes.getD p none).map fun byte => (p, byte) := by
  unfold Gather.snapshot
  rw [zipIdx_eq_map_range, List.filterMap_map]
  rfl

/-! ### The service of a read (R88 to R92) -/

theorem State.readWaits_iff (s : State) (d : Decode) (n : Nat) :
    s.readWaits d n = true ↔ ∃ x ∈ touchedFields (s.fieldsOf d.window) d.offset n,
      ∃ stage, s.stageOf (d.key x.2) = some stage ∧ stage ≠ .gathering := by
  unfold State.readWaits
  rw [List.any_eq_true]
  refine exists_congr fun x => and_congr_right fun _ => ?_
  cases s.stageOf (d.key x.2) with
  | none => simp
  | some stage => cases stage <;> simp

theorem State.readWaits_false_iff (s : State) (d : Decode) (n : Nat) :
    s.readWaits d n = false ↔ ∀ x ∈ touchedFields (s.fieldsOf d.window) d.offset n,
      ∀ stage, s.stageOf (d.key x.2) = some stage → stage = .gathering := by
  rw [← Bool.not_eq_true, State.readWaits_iff]
  push Not
  rfl

theorem State.stageOf_of_entry {s : State} {k : Key} {g : Fin 8} {stage : Stage} {b : Gather}
    (h : s.entryFor k = some (g, stage, b)) : s.stageOf k = some stage := by
  unfold State.stageOf
  rw [h]
  rfl

theorem State.stageOf_of_none {s : State} {k : Key} (h : s.entryFor k = none) : s.stageOf k = none := by
  unfold State.stageOf
  rw [h]
  rfl

theorem State.memField?_none (s : State) (d : Decode) (n : Nat) (f : FieldDesc) (i : Nat)
    (h : s.entryFor (d.key i) = none) : s.memField? d n f i
      = some { field := i, snapshot := [], backfill := none, got := [], failed := false } := by
  unfold State.memField?
  rw [h]

theorem State.memField?_held (s : State) (d : Decode) (n : Nat) (f : FieldDesc) (i : Nat) (g : Fin 8)
    (stage : Stage) (e : Gather) (h : s.entryFor (d.key i) = some (g, stage, e)) :
    s.memField? d n f i = if e.holds (touchedPart f d.offset n) then none
      else some { field := i, snapshot := e.snapshot, backfill := some (g, s.entries[g].openOrder)
                  got := [], failed := false } := by
  unfold State.memField?
  rw [h]

theorem State.offerRead_waits (s : State) (t : Txn) (d : Decode) (n : Nat) (h : s.readWaits d n = true) :
    s.offerRead t d n = { s with disp := .blocked .readPath } := by
  unfold State.offerRead
  rw [if_pos h]

/-- A read without a memory field is answered from entries and hole fill. -/
theorem State.offerRead_answered (s : State) (t : Txn) (d : Decode) (n : Nat) (h : s.readWaits d n = false)
    (hmem : s.memFields d n = []) :
    s.offerRead t d n = { s.answer t.id .okay
      (((List.range n).map fun k => s.imageByte d [] (d.offset + k)).map (·.getD 0)) with disp := .idle } := by
  unfold State.offerRead
  rw [if_neg (by simp [h]), hmem]
  rfl

/-- A read with memory fields waits for their field reads, of which the first is requested. -/
theorem State.offerRead_issued (s : State) (t : Txn) (d : Decode) (n : Nat) (first : MemField)
    (rest : List MemField) (h : s.readWaits d n = false) (hmem : s.memFields d n = first :: rest) :
    s.offerRead t d n = State.requestUnit
      { s.setTxn t.id (.waiting (.windowRead
          { window := d.window, record := d.record, offset := d.offset, size := n
            image := (List.range n).map fun k => s.imageByte d (first :: rest) (d.offset + k)
            fields := first :: rest
            opsLeft := ((first :: rest).flatMap (s.fieldReadOps t d)).length })) with
        disp := .issuing t.id (rest.map (s.fieldReadOps t d)) }
      .dispatcher (s.fieldReadOps t d first) := by
  unfold State.offerRead
  rw [if_neg (by simp [h]), hmem]
  rfl

theorem State.imageByte_hole (s : State) (d : Decode) (mem : List MemField) (off : Nat)
    (h : ownerOf (s.fieldsOf d.window) off = none) :
    s.imageByte d mem off = some s.windows[d.window].cfg.holeFill := by
  unfold State.imageByte
  rw [h]

theorem State.imageByte_field (s : State) (d : Decode) (mem : List MemField) (off : Nat) (f : FieldDesc)
    (i : Nat) (h : ownerOf (s.fieldsOf d.window) off = some (f, i)) :
    s.imageByte d mem off = if i ∈ mem.map (·.field) then none
      else (s.entryFor (d.key i)).map fun x => (x.2.2.bytes.getD (off - f.viewOff) none).getD 0 := by
  unfold State.imageByte
  rw [h]
  dsimp only
  have hany : (mem.any fun m => m.field == i) = true ↔ i ∈ mem.map (·.field) := by
    rw [List.any_eq_true, List.mem_map]
    simp only [beq_iff_eq]
  by_cases hi : i ∈ mem.map (·.field)
  · rw [if_pos (hany.mpr hi), if_pos hi]
  · rw [if_neg fun hc => hi (hany.mp hc), if_neg hi]
    cases s.entryFor (d.key i) <;> rfl

/-- The memory field of a touched field, in the words of the requested positions. -/
theorem State.memField?_eq (s : State) (d : Decode) (n : Nat) (f : FieldDesc) (i : Nat) :
    s.memField? d n f i = match s.entryFor (d.key i) with
      | none => some { field := i, snapshot := [], backfill := none, got := [], failed := false }
      | some (g, _, e) =>
        if ∀ p < f.viewLen, d.offset ≤ f.viewOff + p → f.viewOff + p < d.offset + n →
            (e.bytes.getD p none).isSome = true then none
        else some
          { field := i
            snapshot := (List.range e.bytes.length).filterMap fun p =>
              (e.bytes.getD p none).map fun byte => (p, byte)
            backfill := some (g, s.entries[g].openOrder), got := [], failed := false } := by
  cases h : s.entryFor (d.key i) with
  | none => exact s.memField?_none d n f i h
  | some x =>
    obtain ⟨g, stage, e⟩ := x
    rw [s.memField?_held d n f i g stage e h, e.snapshot_eq]
    exact if_congr (e.holds_iff f d.offset n) rfl rfl

/-! ### A read inside one field -/

section
variable {s : State} {d : Decode} {n : Nat} {f : FieldDesc} {i : Nat}

theorem State.memFields_single (htouched : touchedFields (s.fieldsOf d.window) d.offset n = [(f, i)]) :
    s.memFields d n = (s.memField? d n f i).toList := by
  unfold State.memFields
  rw [htouched]
  cases h : s.memField? d n f i <;> simp [h]

theorem State.readWaits_single (htouched : touchedFields (s.fieldsOf d.window) d.offset n = [(f, i)])
    (hstage : ∀ stage, s.stageOf (d.key i) = some stage → stage = .gathering) : s.readWaits d n = false := by
  rw [State.readWaits_false_iff, htouched]
  intro x hx
  rw [List.mem_singleton.mp hx]
  exact hstage

theorem State.descOf_touched (htouched : (f, i) ∈ touchedFields (s.fieldsOf d.window) d.offset n) :
    s.descOf (d.key i) = f := by
  have hget := ((mem_touchedFields ..).mp htouched).1
  show ((s.fieldsOf d.window)[i]?).getD FieldDesc.absent = f
  rw [hget]
  rfl

theorem State.offerRead_gathered (t : Txn) (g : Fin 8) (e : Gather)
    (htouched : touchedFields (s.fieldsOf d.window) d.offset n = [(f, i)])
    (howner : ∀ k < n, ownerOf (s.fieldsOf d.window) (d.offset + k) = some (f, i))
    (he : s.entryFor (d.key i) = some (g, .gathering, e))
    (hbytes : ∀ k < n, ∃ byte, e.bytes[d.offset + k - f.viewOff]? = some (some byte)) :
    s.offerRead t d n = { s with
      disp := .idle
      txns := withTxn s.txns t.id (.ready .okay
        ((List.range n).map fun k => (e.bytes.getD (d.offset + k - f.viewOff) none).getD 0)) } := by
  have hholds : e.holds (touchedPart f d.offset n) = true := by
    refine (e.holds_iff f d.offset n).mpr fun p _ hlo hhi => ?_
    obtain ⟨byte, hb⟩ := hbytes (f.viewOff + p - d.offset) (by omega)
    rw [show d.offset + (f.viewOff + p - d.offset) - f.viewOff = p by omega] at hb
    rw [List.getD_eq_getElem?_getD, hb]
    rfl
  have hmem : s.memFields d n = [] := by
    rw [State.memFields_single htouched, s.memField?_held d n f i g _ e he, if_pos hholds]
    rfl
  have himage : (List.range n).map (fun k => s.imageByte d [] (d.offset + k))
      = (List.range n).map fun k => some ((e.bytes.getD (d.offset + k - f.viewOff) none).getD 0) := by
    refine List.map_congr_left fun k hk => ?_
    rw [s.imageByte_field d [] _ f i (howner k (List.mem_range.mp hk)), he]
    rfl
  rw [s.offerRead_answered t d n (State.readWaits_single htouched fun stage hstage =>
      Option.some.inj (hstage.symm.trans (State.stageOf_of_entry he))) hmem, himage, List.map_map]
  rfl

theorem State.offerRead_fromMemory (t : Txn)
    (htouched : touchedFields (s.fieldsOf d.window) d.offset n = [(f, i)])
    (howner : ∀ k < n, ownerOf (s.fieldsOf d.window) (d.offset + k) = some (f, i))
    (he : s.entryFor (d.key i) = none) :
    let ops := splitOps .mread (s.storeAddrOf (d.key i)) f.storeLen [] fun half => .windowRead t.id i half
    s.offerRead t d n = { s with
      disp := .issuing t.id []
      txns := withTxn s.txns t.id (.waiting (.windowRead
        { window := d.window, record := d.record, offset := d.offset, size := n
          image := List.replicate n none
          fields := [{ field := i, snapshot := [], backfill := none, got := [], failed := false }]
          opsLeft := ops.length }))
      units := s.units ++ [{ owner := .dispatcher, ops }] } := by
  intro ops
  have hmem : s.memFields d n
      = [{ field := i, snapshot := [], backfill := none, got := [], failed := false }] := by
    rw [State.memFields_single htouched, s.memField?_none d n f i he]
    rfl
  have hops : s.fieldReadOps t d { field := i, snapshot := [], backfill := none, got := [], failed := false }
      = ops := by
    show splitOps .mread (s.storeAddrOf (d.key i)) (s.descOf (d.key i)).storeLen [] _ = ops
    rw [State.descOf_touched (s := s) (f := f) (n := n) (htouched ▸ List.mem_singleton.mpr rfl)]
  have himage : (List.range n).map (fun k => s.imageByte d
      [{ field := i, snapshot := [], backfill := none, got := [], failed := false }] (d.offset + k))
      = List.replicate n none := by
    refine (List.map_eq_replicate_iff (b := none)).mpr (fun k hk => ?_) |>.trans (by rw [List.length_range])
    rw [s.imageByte_field d _ _ f i (howner k (List.mem_range.mp hk))]
    exact if_pos (by simp)
  rw [s.offerRead_issued t d n _ _ (State.readWaits_single htouched fun stage hstage => by
      rw [State.stageOf_of_none he] at hstage; exact absurd hstage (by simp)) hmem, himage, hops,
    List.flatMap_singleton, hops]
  rfl

end

/-- The memory fields of a read, in the words of the entries and the requested positions. -/
theorem State.memFields_eq (s : State) (d : Decode) (n : Nat) :
    s.memFields d n = (touchedFields (s.fieldsOf d.window) d.offset n).filterMap fun x =>
      match s.entryFor (d.key x.2) with
      | none => some { field := x.2, snapshot := [], backfill := none, got := [], failed := false }
      | some (g, _, e) =>
        if ∀ p < x.1.viewLen, d.offset ≤ x.1.viewOff + p → x.1.viewOff + p < d.offset + n →
            (e.bytes.getD p none).isSome = true then none
        else some
          { field := x.2
            snapshot := (List.range e.bytes.length).filterMap fun p =>
              (e.bytes.getD p none).map fun byte => (p, byte)
            backfill := some (g, s.entries[g].openOrder), got := [], failed := false } :=
  List.filterMap_congr fun x _ => s.memField?_eq d n x.1 x.2

/-- A byte of the response image as the dispatch leaves it. -/
theorem State.imageByte_eq (s : State) (d : Decode) (mem : List MemField) (off : Nat) :
    s.imageByte d mem off = match ownerOf (s.fieldsOf d.window) off with
      | none => some s.windows[d.window].cfg.holeFill
      | some (f, i) =>
        if i ∈ mem.map (·.field) then none
        else (s.entryFor (d.key i)).map fun x => (x.2.2.bytes.getD (off - f.viewOff) none).getD 0 := by
  cases h : ownerOf (s.fieldsOf d.window) off with
  | none => exact s.imageByte_hole d mem off h
  | some x => exact s.imageByte_field d mem off x.1 x.2 h

end Sys2Proof.Machine

namespace Sys2Proof

open Sys2Proof.Machine

/-- Settles O12: such a write is neither refused nor dispatched, so it evicts and waits; the other clauses are
what the searches for entries find. -/
theorem writeWaitsAndEvicts : Obligations.WriteWaitsAndEvicts := by
  refine ⟨fun s q a data tag d hq hdue hreq hwf hdec hmode hpolicy => ?_, fun s k => ?_, fun s => ?_⟩
  · intro kept needed free hkept hwaits victims
    have hcannot : State.canDispatch { s with reoffer := false } kept = false := by
      refine Bool.eq_false_iff.mpr fun hcan => ?_
      obtain ⟨hstages, hroom⟩ := (State.canDispatch_iff ..).mp hcan
      rcases hwaits with ⟨k, hk, stage, hstage, hne⟩ | hfew
      · exact hne (hstages k hk stage hstage)
      · exact absurd hroom (Nat.not_le.mpr hfew)
    refine ⟨State.startFlushes { s with reoffer := false } victims, ?_, rfl, State.startFlushes_txns ..,
      State.startFlushes_log .., State.startFlushes_dropped .., State.startFlushes_openCounter ..,
      State.startFlushes_openList .., State.startFlushes_windows .., State.startFlushes_outstanding ..⟩
    exact congrArg Host.Outcome.next ((s.offer_write q a data tag d hq hdue hreq hwf hdec hmode).trans
      (State.offerWrite_waits (s := { s with reoffer := false }) q hpolicy hkept hcannot))
  · exact ⟨State.entryFor_none_iff s k, fun ha g stage b hb hk => hk ▸ s.entryFor_of_slot ha g stage b hb, rfl⟩
  · refine ⟨State.lowestFree_some s, State.lowestFree_none s, ?_, ?_,
      fun test => ⟨s.gatheringWhere_sublist test, State.mem_gatheringWhere s test⟩⟩
    · rw [State.countEntries_eq]; rfl
    · rw [State.countEntries_eq]; rfl

/-- Settles O13: without a touched field no field is read and every byte is a hole byte. -/
theorem readOfHolesAnswered : Obligations.ReadOfHolesAnswered := by
  intro s q a n tag d hq hdue hreq hwf hdec hmode htouched
  have htouched' : touchedFields (State.fieldsOf { s with reoffer := false } d.window) d.offset n = [] := htouched
  have hholes : (List.range n).map (fun k => State.imageByte { s with reoffer := false } d [] (d.offset + k))
      = List.replicate n (some s.windows[d.window].cfg.holeFill) := by
    refine (List.map_eq_replicate_iff (b := some s.windows[d.window].cfg.holeFill)).mpr (fun k hk => ?_)
      |>.trans (by rw [List.length_range])
    refine State.imageByte_hole _ d [] _ (Option.eq_none_iff_forall_ne_some.mpr fun x hx => ?_)
    have := ownerOf_touched _ _ _ k x (List.mem_range.mp hk) hx
    rw [htouched'] at this
    exact List.not_mem_nil this
  show Host.Outcome.next s.offer = _
  rw [s.offer_read q a n tag d hq hdue hreq hwf hdec hmode, State.offerRead_answered, hholes]
  · rw [List.map_replicate]
    rfl
  · rw [State.readWaits_false_iff, htouched']
    exact fun x hx => absurd hx List.not_mem_nil
  · unfold State.memFields
    rw [htouched']
    rfl

/-- Settles O14: the general clause is the offer's own case split, with the memory fields and the image in the
statement's words; the first clause is a read inside one field. -/
theorem readsDispatched : Obligations.ReadsDispatched := by
  refine ⟨fun s q a n tag d f i hq hdue hreq hwf hdec hmode htouched howner => ?_,
    fun s q a n tag d hq hdue hreq hwf hdec hmode => ?_⟩
  · have hoffer := s.offer_read q a n tag d hq hdue hreq hwf hdec hmode
    exact ⟨fun g e he hbytes => congrArg Host.Outcome.next (hoffer.trans
        (State.offerRead_gathered (s := { s with reoffer := false }) q g e htouched howner he hbytes)),
      fun he => congrArg Host.Outcome.next (hoffer.trans
        (State.offerRead_fromMemory (s := { s with reoffer := false }) q htouched howner he))⟩
  · have hoffer := s.offer_read q a n tag d hq hdue hreq hwf hdec hmode
    refine ⟨fun hwaits => congrArg Host.Outcome.next (hoffer.trans (State.offerRead_waits
      { s with reoffer := false } q d n ((State.readWaits_iff ..).mpr hwaits))), fun hready => ?_⟩
    intro covered mem image ops
    have hreads : State.readWaits { s with reoffer := false } d n = false :=
      (State.readWaits_false_iff ..).mpr hready
    have hmem : State.memFields { s with reoffer := false } d n = mem := State.memFields_eq ..
    have himage : (List.range n).map (fun k =>
        State.imageByte { s with reoffer := false } d mem (d.offset + k)) = image :=
      List.map_congr_left fun k _ => State.imageByte_eq ..
    refine ⟨fun hnil => ?_, fun first rest hcons => ?_⟩
    · rw [hnil] at hmem himage
      refine congrArg Host.Outcome.next (hoffer.trans ?_)
      rw [State.offerRead_answered _ q d n hreads hmem, himage]
      rfl
    · have hmem' := hmem.trans hcons
      refine congrArg Host.Outcome.next (hoffer.trans ?_)
      rw [State.offerRead_issued _ q d n first rest hreads hmem', ← hcons, himage]
      rfl

end Sys2Proof
end

section
/-! PROOF. Offers of pass-throughs, held requests and FENCEs, the tick and what it brings (R64, R65, R108, R114 to
R118, R167 to R169). -/

namespace Sys2Proof.Machine

/-- An address that no window holds goes to the pass-through. -/
theorem State.offer_passThrough (s : State) (q : Txn) (hq : s.nextTxn = some q) (hdue : s.offerDue = true)
    (hfence : ∀ tag, q.req ≠ .fence tag) (hwf : wellFormedAccess q.req.addr q.req.size = true)
    (hdec : s.decode q.req.addr = none) : s.offer = { s with reoffer := false }.offerPassThrough q := by
  rw [s.offer_access q hq hdue hfence hwf]
  unfold State.offerAccess
  rw [show State.decode { s with reoffer := false } q.req.addr = none from hdec]

/-- A request to a window that is DRAINING or SUSPENDED is held. -/
theorem State.offer_held (s : State) (q : Txn) (d : Decode) (hq : s.nextTxn = some q) (hdue : s.offerDue = true)
    (hfence : ∀ tag, q.req ≠ .fence tag) (hwf : wellFormedAccess q.req.addr q.req.size = true)
    (hdec : s.decode q.req.addr = some d) (hmode : d.mode = .draining ∨ d.mode = .suspended) :
    s.offer = { s with reoffer := false }.offerHeld := by
  rw [s.offer_access q hq hdue hfence hwf]
  unfold State.offerAccess
  rw [show State.decode { s with reoffer := false } q.req.addr = some d from hdec]
  rcases hmode with h | h <;> simp only [h]

theorem State.offer_fence (s : State) (q : Txn) (tag : Tag) (hq : s.nextTxn = some q) (hdue : s.offerDue = true)
    (hreq : q.req = .fence tag) : s.offer = { s with reoffer := false }.offerFence q := by
  rw [s.offer_of_due q hq hdue]
  unfold State.offerNext
  rw [hreq]

theorem State.offerPassThrough_free (s : State) (t : Txn)
    (h : s.anyOverlapped t.req.addr t.req.size = false) :
    s.offerPassThrough t = State.requestUnit
      { s.setTxn t.id (.waiting .passThrough) with disp := .issuing t.id [] } .dispatcher [passThroughOp t] := by
  unfold State.offerPassThrough
  dsimp only
  rw [if_neg (by simp [h])]

theorem State.offerPassThrough_overlapped (s : State) (t : Txn)
    (h : s.anyOverlapped t.req.addr t.req.size = true) :
    s.offerPassThrough t = { s.startFlushes (s.gatheringWhere (s.overlaps t.req.addr t.req.size)) with
      disp := .blocked .rawOverlap, reoffer := false } := by
  unfold State.offerPassThrough
  dsimp only
  rw [if_pos h]

theorem State.offerHeld_holding (s : State) (timer : Nat) (h : s.disp = .holding timer) : s.offerHeld = s := by
  unfold State.offerHeld
  rw [h]

theorem State.offerHeld_new (s : State) (h : ∀ timer, s.disp ≠ .holding timer) :
    s.offerHeld = { s with disp := .holding 0 } := by
  unfold State.offerHeld
  split
  · next timer hd => exact absurd hd (h timer)
  all_goals rfl

theorem passThroughOp_read {t : Txn} {a : Addr} {n : Nat} {tag : Tag} (h : t.req = .read a n tag) :
    passThroughOp t = { kind := .mread, addr := a.toNat, size := n, data := [], source := .passThrough t.id } := by
  unfold passThroughOp
  rw [h]

theorem passThroughOp_write {t : Txn} {a : Addr} {data : List Byte} {tag : Tag} (h : t.req = .write a data tag) :
    passThroughOp t
      = { kind := .mwrite, addr := a.toNat, size := data.length, data, source := .passThrough t.id } := by
  unfold passThroughOp
  rw [h]

theorem State.lastMwrite_congr {s t : State} (h : t.outstanding = s.outstanding) : t.lastMwrite = s.lastMwrite := by
  unfold State.lastMwrite
  rw [h]

end Sys2Proof.Machine

namespace Sys2Proof

open Sys2Proof.Machine

/-- Settles O15: the pass-through that overlaps nothing is dispatched as it is. -/
theorem passThroughDispatched : Obligations.PassThroughDispatched := by
  intro s q hq hdue hwf hdec hfree
  have hoffer : (∀ tag, q.req ≠ .fence tag) → s.offer = State.requestUnit
      { s with reoffer := false, disp := .issuing q.id [], txns := withTxn s.txns q.id (.waiting .passThrough) }
      .dispatcher [passThroughOp q] := fun hfence =>
    (s.offer_passThrough q hq hdue hfence hwf hdec).trans
      (State.offerPassThrough_free { s with reoffer := false } q hfree)
  refine ⟨fun a n tag hreq => ?_, fun a data tag hreq => ?_⟩
  · have h := hoffer (by simp [hreq])
    rw [passThroughOp_read hreq] at h
    exact congrArg Host.Outcome.next h
  · have h := hoffer (by simp [hreq])
    rw [passThroughOp_write hreq] at h
    exact congrArg Host.Outcome.next h

/-- Settles O16: the overlapped pass-through starts flushes and waits. -/
theorem rawOverlapWaits : Obligations.RawOverlapWaits := by
  refine ⟨fun s q hq hdue hfence hwf hdec hover => ?_, fun s a n => ⟨s.overlaps_iff a n, s.anyOverlapped_iff a n⟩⟩
  exact ⟨_, congrArg Host.Outcome.next ((s.offer_passThrough q hq hdue hfence hwf hdec).trans
      (State.offerPassThrough_overlapped { s with reoffer := false } q hover)), rfl, State.startFlushes_txns ..,
    State.startFlushes_windows .., State.startFlushes_log .., State.startFlushes_outstanding ..⟩

/-- Settles O17: the held request keeps its timer or gets one; the decode is what the windows say. -/
theorem heldRequestWaits : Obligations.HeldRequestWaits := by
  refine ⟨fun s q d hq hdue hfence hwf hdec hmode => ?_,
    fun s a hs w mode va sa hw hlo hhi => s.decode_some hs a w mode va sa hw ⟨hlo, hhi⟩, State.decode_none⟩
  have hoffer := s.offer_held q d hq hdue hfence hwf hdec hmode
  exact ⟨fun timer hd => congrArg Host.Outcome.next
      (hoffer.trans (State.offerHeld_holding { s with reoffer := false } timer hd)),
    fun hd => congrArg Host.Outcome.next (hoffer.trans (State.offerHeld_new { s with reoffer := false } hd))⟩

/-- Settles O18: the record of the FENCE is formed after the flushes have started, which leave the
operations. -/
theorem fenceDispatched : Obligations.FenceDispatched := by
  refine ⟨fun s q tag hq hdue hreq => ?_, fun s => ⟨s.lastMwrite_some, s.lastMwrite_none⟩⟩
  intro u busy
  have hlast : u.lastMwrite = s.lastMwrite := State.lastMwrite_congr (State.startFlushes_outstanding ..)
  have htxns : u.txns = s.txns := State.startFlushes_txns ..
  refine congrArg Host.Outcome.next ((s.offer_fence q tag hq hdue hreq).trans ?_)
  show { u.setTxn q.id (fenceState busy u.lastMwrite) with disp := .idle } = _
  rw [hlast, fenceState_eq, ← htxns]
  rfl

/-- Settles O19, by the definition of the tick. -/
theorem tickAdvancesTimers : Obligations.TickAdvancesTimers := by
  intro s t
  have hdisp : t.disp.tick = match t.disp with
      | .holding timer => .holding (timer + 1)
      | other => other := by
    cases t.disp <;> rfl
  have hentry : ∀ e : Entry, e.tick = match e.slot with
      | .held .gathering b => { e with slot := .held .gathering { b with age := min 255 (b.age + 1) } }
      | _ => e := by
    rintro ⟨_, _, _ | ⟨_ | _ | _ | _, _⟩⟩ <;> rfl
  exact congrArg₂
    (fun d es => Host.Outcome.next { t with entries := es, disp := d, tickInterval := t.tickDivider })
    hdisp (congrArg (fun f => t.entries.map f) (funext hentry))

end Sys2Proof
end

section
/-! PROOF. Age triggers, hold expiry, the issue of units and the arrival of completions (R65, R74, R75, R78, R81, R82,
R93, R94, R117, R119, R126 to R132, R168, R169). -/

namespace Sys2Proof.Machine

/-! ### Age triggers and hold expiry -/

theorem State.triggerAges_single (s : State) (g : Fin 8) (h : s.aged = [g]) : s.triggerAges = s.startFlush g := by
  unfold State.triggerAges
  rw [h]
  rfl

/-- Every entry the age trigger reaches is GATHERING. -/
theorem State.isGathering_of_aged {s : State} {g : Fin 8} (h : g ∈ s.aged) :
    s.entries[g].isGathering = true := by
  have hreached := (List.mem_filter.mp h).2
  unfold State.ageReached at hreached
  unfold Entry.isGathering
  split at hreached
  · next hb => rw [hb]
  all_goals simp at hreached

/-- The next transaction is there when one is QUEUED. -/
theorem State.nextTxn_isSome (s : State) : s.nextTxn.isSome = s.txns.any Txn.isQueued := by
  unfold State.nextTxn
  rw [Bool.eq_iff_iff, List.find?_isSome, List.any_eq_true]

theorem State.expired_eq (s : State) (q : Txn) (d : Decode) (timer : Nat) (hdisp : s.disp = .holding timer)
    (hq : s.nextTxn = some q) (hdec : s.decode q.req.addr = some d) :
    s.expired = if s.windows[d.window].cfg.holdLimit ≤ timer then some (q, d.window) else none := by
  unfold State.expired
  rw [hdisp]
  dsimp only
  rw [hq]
  dsimp only
  rw [hdec]

theorem State.expireHold_expired (s : State) (q : Txn) (w : Fin 8) (h : s.expired = some (q, w)) :
    s.expireHold = { s.handOver (heldRecord q w) with
      txns := withTxn s.txns q.id (.ready .error []), disp := .idle
      reoffer := (withTxn s.txns q.id (.ready .error [])).any Txn.isQueued } := by
  unfold State.expireHold
  rw [h]
  dsimp only
  rw [State.nextTxn_isSome, ← State.handOver_txns s (heldRecord q w)]
  rfl

theorem State.expireHold_early (s : State) (h : s.expired = none) : s.expireHold = s := by
  unfold State.expireHold
  rw [h]

/-- With only the offer after an expiry due, a window command finds the part as it is. -/
theorem State.settleToExpiry_of_following (s : State) (hdisp : s.disp = .idle) (hre : s.reoffer = true)
    (hplace : s.placementDue = false) (hstart : s.startDue = false) (hissue : s.issueDue = false)
    (hdrain : ∀ w : Fin 8, s.drainDue w = false) (haged : s.aged = []) :
    s.settleToExpiry = { s with reoffer := false } := by
  have hfollows : s.followsExpiry = true := by simp [State.followsExpiry, hdisp, hre]
  have hexpired : s.expired = none := by simp [State.expired, hdisp]
  have hnone : s.internalStep true = none := by
    have hfind : (List.finRange 8).find? s.drainDue = none :=
      List.find?_eq_none.mpr fun w _ => by rw [hdrain w]; simp
    simp [State.internalStep, hplace, hstart, hissue, hfind, hexpired, hfollows, haged]
  have hsettled : s.settleWithin true Config.settleBound = s := by
    show s.settleWithin true 256 = s
    unfold State.settleWithin
    rw [hnone]
  unfold State.settleToExpiry
  simp [hsettled, hfollows]

/-! ### Issue -/

theorem State.issue_fits (s : State) (u : MemUnit) (hu : s.firstUnit = some u)
    (hfits : s.outstanding.length + u.ops.length ≤ 8) : s.issue = s.issueUnit u := by
  have hfree : s.freeSlots = 8 - s.outstanding.length := rfl
  unfold State.issue
  rw [hu]
  exact if_pos (by omega)

theorem State.issue_waits (s : State) (u : MemUnit) (hu : s.firstUnit = some u)
    (hfull : 8 < s.outstanding.length + u.ops.length) (hops : u.ops ≠ []) : s.issue = s := by
  have hfree : s.freeSlots = 8 - s.outstanding.length := rfl
  have hpos : 0 < u.ops.length := List.length_pos_iff.mpr hops
  unfold State.issue
  rw [hu]
  exact if_neg (by omega)

theorem State.issueUnit_entry (s : State) (u : MemUnit) (g : Fin 8) (ho : u.owner = .entry g) :
    s.issueUnit u = { s with
      units := s.units.erase u, outstanding := s.outstanding ++ issuedFrom s.opCounter u.ops
      opCounter := s.opCounter + u.ops.length } := by
  unfold State.issueUnit
  rw [ho]

theorem State.issueUnit_dispatcher (s : State) (u : MemUnit) (ho : u.owner = .dispatcher) :
    s.issueUnit u = State.afterDispatcherIssue { s with
      units := s.units.erase u, outstanding := s.outstanding ++ issuedFrom s.opCounter u.ops
      opCounter := s.opCounter + u.ops.length } := by
  unfold State.issueUnit
  rw [ho]

theorem State.afterDispatcherIssue_last (s : State) (id : Nat) (h : s.disp = .issuing id []) :
    s.afterDispatcherIssue = { s with disp := .idle } := by
  unfold State.afterDispatcherIssue
  rw [h]

theorem State.afterDispatcherIssue_next (s : State) (id : Nat) (ops : List MemOp) (rest : List (List MemOp))
    (h : s.disp = .issuing id (ops :: rest)) :
    s.afterDispatcherIssue = State.requestUnit { s with disp := .issuing id rest } .dispatcher ops := by
  unfold State.afterDispatcherIssue
  rw [h]

/-! ### Completions -/

theorem State.route_entry (s : State) (op : MemOp) (c : Completion) (g : Fin 8) (stage : Stage)
    (h : op.source = .entry g stage) : s.route op c = s.entryCompletion g c := by
  unfold State.route
  rw [h]

theorem State.route_read (s : State) (op : MemOp) (c : Completion) (id field : Nat) (half : Half)
    (h : op.source = .windowRead id field half) : s.route op c = s.readCompletion id field c := by
  unfold State.route
  rw [h]

theorem State.route_passThrough (s : State) (op : MemOp) (c : Completion) (id : Nat)
    (h : op.source = .passThrough id) : s.route op c = s.answer id c.answer c.bytes := by
  unfold State.route
  rw [h]

theorem State.route_nobody (s : State) (op : MemOp) (c : Completion) (h : op.source = .nobody) :
    s.route op c = s := by
  unfold State.route
  rw [h]

theorem MemOp.accepts_error (op : MemOp) : op.accepts .error = true := rfl

theorem MemOp.accepts_mread (op : MemOp) (data : List Byte) (hk : op.kind = .mread)
    (hl : data.length = op.size) : op.accepts (.okay data) = true := by
  simp [MemOp.accepts, hk, hl]

theorem MemOp.accepts_mwrite (op : MemOp) (hk : op.kind = .mwrite) : op.accepts (.okay []) = true := by
  simp [MemOp.accepts, hk]

/-- The completion of an MREAD goes to its source alone. -/
theorem State.complete_mread (s : State) (i : Issued) (rest : List Issued) (c : Completion)
    (hr : s.rstLow = false) (ho : s.outstanding = i :: rest) (hk : i.op.kind = .mread)
    (ha : i.op.accepts c = true) :
    s.complete c = State.route { s with outstanding := rest } i.op c := by
  rw [s.complete_matched i rest c hr ho ha, State.fenceTold_mread _ i hk]

/-- The completion of an MWRITE goes to its source, and out of the records of the FENCEs. -/
theorem State.complete_mwrite (s t : State) (i : Issued) (rest : List Issued) (c : Completion)
    (hr : s.rstLow = false) (ho : s.outstanding = i :: rest) (hk : i.op.kind = .mwrite)
    (ha : i.op.accepts c = true) (ht : State.route { s with outstanding := rest } i.op c = t) :
    s.complete c = { t with txns := t.txns.map (Txn.fenceWritten i.id) } := by
  rw [s.complete_matched i rest c hr ho ha, State.fenceTold_mwrite _ i hk, ht]

theorem State.mergeDone_failed (s : State) (g : Fin 8) (b : Gather) (h : b.failed = true) :
    s.mergeDone g b = (s.handOver (flushRecord b.key .memErr .faulted .merge none)).freeEntry g .error :=
  if_pos h

theorem State.mergeDone_okay (s : State) (g : Fin 8) (b : Gather) (h : b.failed = false) :
    s.mergeDone g b = (s.setSlot g (.held .converting { b with got := [] })).awaitPlacement
      (.flush g s.entries[g].openOrder b.key b.bytes none (some b.got)) :=
  if_neg (by simp [h])

theorem State.writeDone_failed (s : State) (g : Fin 8) (b : Gather) (h : b.failed = true) :
    s.writeDone g b = (s.handOver (flushRecord b.key .memErr .faulted .flush none)).freeEntry g .error :=
  if_pos h

theorem State.writeDone_okay (s : State) (g : Fin 8) (b : Gather) (h : b.failed = false) :
    s.writeDone g b = s.freeEntry g .okay :=
  if_neg (by simp [h])

theorem Gather.keep_failed (b : Gather) (c : Completion) (h : b.failed = true ∨ c = .error) :
    (b.keep c).failed = true := by
  rcases h with h | rfl <;> simp [Gather.keep, *]

theorem Gather.keep_okay (b : Gather) (c : Completion) (h : b.failed = false) (hc : c ≠ .error) :
    (b.keep c).failed = false := by
  simp [Gather.keep, h, hc]

/-- An entry freed with a record that the log takes. -/
theorem State.recordAndFree_room (s : State) (g : Fin 8) (r : ExcRecord) (o : Answer) (stage : Stage)
    (b : Gather) (hb : s.entries[g].slot = .held stage b) (hroom : s.log.length < 16) :
    (s.handOver r).freeEntry g o = { s.freeEntry g o with
      log := s.log ++ [{ r with seq := s.seqCounter }], seqCounter := s.seqCounter + 1 } := by
  rw [State.handOver_of_room r hroom, s.freeEntry_held g o stage b hb]
  exact State.freeEntry_held _ g o stage b hb

/-- An entry freed with a record that a full log drops. -/
theorem State.recordAndFree_full (s : State) (g : Fin 8) (r : ExcRecord) (o : Answer) (stage : Stage)
    (b : Gather) (hb : s.entries[g].slot = .held stage b) (hfull : 16 ≤ s.log.length) :
    (s.handOver r).freeEntry g o = { s.freeEntry g o with
      dropped := min 255 (s.dropped + 1), seqCounter := s.seqCounter + 1 } := by
  rw [State.handOver_of_full r hfull, s.freeEntry_held g o stage b hb]
  exact State.freeEntry_held _ g o stage b hb

/-! ### Completions of window READs -/

/-- What a memory field has after one more completion. -/
theorem MemField.keep_eq (field : Nat) (c : Completion) (m : MemField) :
    m.keep field c = if m.field = field then
      { m with got := m.got ++ c.bytes, failed := m.failed || decide (c = .error) } else m := by
  unfold MemField.keep
  rw [c.answer_error]

end Sys2Proof.Machine

namespace Sys2Proof

open Sys2Proof.Machine

/-- Settles O20: one flush by its two ways to start, several by what the flushes of one event do together. -/
theorem ageTriggerFlushes : Obligations.AgeTriggerFlushes := by
  refine ⟨fun s g b haged hb => ?_, fun s hnodup => ?_, fun s gs hnodup hgs => ?_⟩
  · have hstart := s.triggerAges_single g haged
    refine ⟨fun hdirect => congrArg Host.Outcome.next (hstart.trans (s.startFlush_convert g b hb ?_)),
      fun hpartial hbase => congrArg Host.Outcome.next (hstart.trans (s.startFlush_merge g b hb ?_))⟩
    · rw [Bool.or_eq_true]
      exact hdirect
    · rw [Bool.or_eq_false_iff]
      exact ⟨hpartial, by rw [hbase]; rfl⟩
  · have hreached : s.aged = s.openList.filter fun g => match s.entries[g].slot with
        | .held .gathering b =>
          decide (1 ≤ s.windows[b.key.window].cfg.gatherTimeout
            ∧ s.windows[b.key.window].cfg.gatherTimeout ≤ b.age)
        | .held .merging _ | .held .converting _ | .held .writing _ | .free => false := by
      refine List.filter_congr fun g _ => ?_
      unfold State.ageReached
      split
      · next hb => simp only [hb, Bool.decide_and]
      all_goals (next hb => simp only [hb])
    obtain ⟨hframe, hstarted, hother⟩ := State.startFlushes_spec s.aged s (hnodup.filter _)
      fun g hg => State.isGathering_of_aged hg
    intro gs
    have hgs : gs = s.aged := hreached.symm
    rw [hgs]
    exact ⟨s.triggerAges, rfl, hframe, hstarted, hother⟩
  · obtain ⟨hframe, hstarted, hother⟩ := State.startFlushes_spec gs s hnodup fun g hg => by
      obtain ⟨b, hb⟩ := hgs g hg
      rw [Entry.isGathering, hb]
    exact ⟨_, rfl, hframe, hstarted, hother⟩

/-- Settles O21: the expiry is decided by the window's limit; what follows it waits for a window command. -/
theorem holdExpiryAnswers : Obligations.HoldExpiryAnswers := by
  refine ⟨fun s q d timer hdisp hq hdec => ?_,
    fun s payload hdisp hre hplace hstart hissue hdrain haged => ?_⟩
  · have hexpired := s.expired_eq q d timer hdisp hq hdec
    refine ⟨fun hlimit => ?_, fun hearly => ?_⟩
    · exact congrArg Host.Outcome.next (s.expireHold_expired q d.window (hexpired.trans (if_pos hlimit)))
    · exact congrArg Host.Outcome.next
        (s.expireHold_early (hexpired.trans (if_neg (Nat.not_le.mpr hearly))))
  · unfold State.atWindowRelease
    rw [s.settleToExpiry_of_following hdisp hre hplace hstart hissue hdrain haged]
    rfl

/-- Settles O22: a unit that fits is issued to its owner's effect; the order is that of `firstUnit`. -/
theorem unitIssuedInOrder : Obligations.UnitIssuedInOrder := by
  refine ⟨fun s u hu => ?_, fun s u g earlier later hn hmem ho hf he =>
    s.firstUnit_flush u g earlier later hn hmem ho hf he, fun s u hn hmem ho => s.firstUnit_dispatcher u hn hmem ho⟩
  refine ⟨fun hfits => ⟨fun g ho => ?_, fun id ho hdisp => ?_, fun id ops rest ho hdisp => ?_⟩,
    fun hfull hops => congrArg Host.Outcome.next (s.issue_waits u hu hfull hops)⟩
  · exact congrArg Host.Outcome.next ((s.issue_fits u hu hfits).trans (s.issueUnit_entry u g ho))
  · exact congrArg Host.Outcome.next ((s.issue_fits u hu hfits).trans
      ((s.issueUnit_dispatcher u ho).trans (State.afterDispatcherIssue_last _ id hdisp)))
  · exact congrArg Host.Outcome.next ((s.issue_fits u hu hfits).trans
      ((s.issueUnit_dispatcher u ho).trans (State.afterDispatcherIssue_next _ id ops rest hdisp)))

/-- Settles O23: the completion goes to its source, and a completed MWRITE leaves the FENCEs. -/
theorem passThroughCompleted : Obligations.PassThroughCompleted := by
  intro s t hr
  refine ⟨fun i rest id ho hsource => ?_, fun i rest c ho hsource haccepts => ?_, fun c ho => ?_⟩
  · have hroute := fun c => State.route_passThrough { t with outstanding := rest } i.op c id hsource
    refine ⟨fun data hk hl => ?_, fun hk => ?_, fun hk => ?_, fun hk => ?_⟩
    · exact congrArg Host.Outcome.next
        ((t.complete_mread i rest _ hr ho hk (i.op.accepts_mread data hk hl)).trans (hroute _))
    · exact congrArg Host.Outcome.next
        ((t.complete_mread i rest _ hr ho hk i.op.accepts_error).trans (hroute _))
    · exact congrArg Host.Outcome.next
        (t.complete_mwrite _ i rest _ hr ho hk (i.op.accepts_mwrite hk) (hroute _))
    · exact congrArg Host.Outcome.next
        (t.complete_mwrite _ i rest _ hr ho hk i.op.accepts_error (hroute _))
  · have hroute := State.route_nobody { t with outstanding := rest } i.op c hsource
    exact ⟨fun hk => congrArg Host.Outcome.next ((t.complete_mread i rest c hr ho hk haccepts).trans hroute),
      fun hk => congrArg Host.Outcome.next (t.complete_mwrite _ i rest c hr ho hk haccepts hroute)⟩
  · exact congrArg Host.Outcome.next (t.complete_none c ho)

/-- Settles O24: a completion before the last is kept; the last frees the entry, after its record when one of
them failed. -/
theorem fieldWriteCompleted : Obligations.FieldWriteCompleted := by
  refine ⟨fun s i rest g b => ?_, fun x outcome => ?_, fun x g op => ?_, fun s g stage b outcome hb => ?_⟩
  · intro t hr ho hsource hk hb freed
    have hroute := fun c => State.route_entry { t with outstanding := rest } i.op c g .writing hsource
    have hlast : ∀ c, b.opsLeft ≤ 1 → State.route { t with outstanding := rest } i.op c
        = State.writeDone { t with outstanding := rest } g (b.keep c) := fun c hl =>
      (hroute c).trans (State.entryCompletion_written { t with outstanding := rest } g b c hb hl)
    have hfailed : ∀ c, b.opsLeft ≤ 1 → b.failed = true ∨ c = .error →
        State.route { t with outstanding := rest } i.op c
          = (State.handOver { t with outstanding := rest }
              (flushRecord b.key .memErr .faulted .flush none)).freeEntry g .error := fun c hl hf =>
      (hlast c hl).trans (State.writeDone_failed _ g _ (b.keep_failed c hf))
    refine ⟨fun hmore c haccepts => ?_, fun hl hokay => ?_, fun hl c haccepts hf => ⟨fun hroom => ?_, fun hfull => ?_⟩⟩
    · exact congrArg Host.Outcome.next (t.complete_mwrite _ i rest c hr ho hk haccepts
        ((hroute c).trans (State.entryCompletion_more { t with outstanding := rest } g .writing b c hb hmore)))
    · have hfreed := (State.writeDone_okay { t with outstanding := rest } g (b.keep (.okay []))
          (b.keep_okay _ hokay (by simp))).trans
        (State.freeEntry_held { t with outstanding := rest } g .okay .writing b hb)
      refine congrArg Host.Outcome.next ((t.complete_mwrite _ i rest _ hr ho hk (i.op.accepts_mwrite hk)
        ((hlast _ hl).trans hfreed)).trans ?_)
      simp only [List.map_map]
      rfl
    · have hfreed := (hfailed c hl hf).trans
        (State.recordAndFree_room { t with outstanding := rest } g _ .error .writing b hb hroom)
      rw [State.freeEntry_held { t with outstanding := rest } g .error .writing b hb] at hfreed
      refine congrArg Host.Outcome.next ((t.complete_mwrite _ i rest c hr ho hk haccepts hfreed).trans ?_)
      simp only [List.map_map]
      rfl
    · have hfreed := (hfailed c hl hf).trans
        (State.recordAndFree_full { t with outstanding := rest } g _ .error .writing b hb hfull)
      rw [State.freeEntry_held { t with outstanding := rest } g .error .writing b hb] at hfreed
      refine congrArg Host.Outcome.next ((t.complete_mwrite _ i rest c hr ho hk haccepts hfreed).trans ?_)
      simp only [List.map_map]
      rfl
  · exact ⟨fun w count errorFlag hx => ⟨x.confirm_more outcome w count errorFlag hx,
      x.confirm_last outcome w count errorFlag hx⟩, x.confirm_other outcome⟩
  · refine ⟨fun entries last hx => ?_, x.fence_other g op⟩
    obtain ⟨hfreed, hwritten⟩ := x.fence_waiting g op entries last hx
    exact ⟨by rw [hfreed, fenceState_eq], by rw [hwritten, fenceState_eq]⟩
  · exact s.freeEntry_held g outcome stage b hb

end Sys2Proof
end

section
/-! PROOF. Completions of reads, the end of a drain, jobs placed, started and ended, the end of a build (R75, R76, R77,
R79, R80, R83, R93 to R101, R126 to R132, R136 to R139, R164, R23 to R25, R15). -/

namespace Sys2Proof.Machine

/-! ### Records change the log alone -/

theorem State.handOverAll_keeps {α : Type} (f : State → α) (h : ∀ s r, f (s.handOver r) = f s)
    (s : State) (rs : List ExcRecord) : f (s.handOverAll rs) = f s := by
  unfold State.handOverAll
  induction rs generalizing s with
  | nil => rfl
  | cons r rs ih => exact (ih _).trans (h s r)

theorem State.handOverAll_txns (s : State) (rs : List ExcRecord) : (s.handOverAll rs).txns = s.txns :=
  s.handOverAll_keeps (·.txns) State.handOver_txns rs

theorem State.handOverAll_entries (s : State) (rs : List ExcRecord) :
    (s.handOverAll rs).entries = s.entries :=
  s.handOverAll_keeps (·.entries) State.handOver_entries rs

/-! ### Completions (R75, R93, R94) -/

theorem Gather.keep_of_okay (b : Gather) (c : Completion) (h : b.failed = false) (hc : c ≠ .error) :
    b.keep c = { b with opsLeft := b.opsLeft - 1, got := b.got ++ c.bytes } := by
  simp [Gather.keep, h, hc]

/-- What the memory fields of a read have after a completion. -/
theorem ReadCtx.kept_fields (fields : List MemField) (field : Nat) (c : Completion) :
    fields.map (MemField.keep field c) = fields.map fun m => if m.field = field then
      { m with got := m.got ++ c.bytes, failed := m.failed || decide (c = .error) } else m :=
  List.map_congr_left fun m _ => m.keep_eq field c

section
variable {s : State} {id field : Nat} {c : Completion} {q : Txn} {ctx : ReadCtx}

theorem State.readCompletion_more (hq : s.txn? id = some q) (hctx : q.state = .waiting (.windowRead ctx))
    (hmore : 1 < ctx.opsLeft) :
    s.readCompletion id field c = s.setTxn id (.waiting (.windowRead
      { ctx with fields := ctx.fields.map (MemField.keep field c), opsLeft := ctx.opsLeft - 1 })) := by
  unfold State.readCompletion
  rw [hq]
  dsimp only
  rw [hctx]
  exact if_pos hmore

theorem State.readCompletion_okay (hq : s.txn? id = some q) (hctx : q.state = .waiting (.windowRead ctx))
    (hlast : ctx.opsLeft ≤ 1) (hok : ∀ m ∈ ctx.fields.map (MemField.keep field c), m.failed = false) :
    s.readCompletion id field c = (s.setTxn id (.waiting (.windowRead
        { ctx with fields := ctx.fields.map (MemField.keep field c), opsLeft := ctx.opsLeft - 1 }))).awaitPlacement
      (.read id ctx.window ctx.record ctx.offset ctx.size (ctx.fields.map (MemField.keep field c))) := by
  have hany : ((ctx.fields.map (MemField.keep field c)).any fun m => m.failed) ≠ true := by
    simpa only [ne_eq, Bool.not_eq_true, List.any_eq_false] using hok
  unfold State.readCompletion
  rw [hq]
  dsimp only
  rw [hctx]
  exact (if_neg (Nat.not_lt.mpr hlast)).trans (if_neg hany)

theorem State.readCompletion_failed (hq : s.txn? id = some q) (hctx : q.state = .waiting (.windowRead ctx))
    (hlast : ctx.opsLeft ≤ 1) (hfail : ∃ m ∈ ctx.fields.map (MemField.keep field c), m.failed = true) :
    s.readCompletion id field c = (s.handOverAll
        (((ctx.fields.map (MemField.keep field c)).filter (·.failed)).map fun m =>
          readRecord ctx.window ctx.record m.field q.req.addr (some q.req.tag) .memErr .faulted none)).answer
      id .error [] := by
  have hany : ((ctx.fields.map (MemField.keep field c)).any fun m => m.failed) = true :=
    List.any_eq_true.mpr hfail
  unfold State.readCompletion
  rw [hq]
  dsimp only
  rw [hctx]
  exact (if_neg (Nat.not_lt.mpr hlast)).trans (if_pos hany)

end

/-! ### The end of a drain -/

theorem State.drainDue_iff (s : State) (w : Fin 8) : s.drainDue w = true
    ↔ (∃ va sa, s.windows[w].status = .live .draining va sa) ∧ s.drained w = true := by
  unfold State.drainDue
  cases hw : s.windows[w].status with
  | off => simp
  | live mode va sa => cases mode <;> simp

theorem Window.withMode_of_live {w : Window} {mode' : LiveMode} {va sa : Nat} (mode : LiveMode)
    (h : w.status = .live mode' va sa) : w.withMode mode = { w with status := .live mode va sa } := by
  unfold Window.withMode
  rw [h]

/-! ### Flush jobs -/

/-- The field write of an entry (R77). -/
theorem State.beginWrite_held (s : State) (g : Fin 8) (base : Option (List Byte)) (store : List Byte)
    (stage : Stage) (b : Gather) (hb : s.entries[g].slot = .held stage b) :
    let ops := splitOps .mwrite (s.storeAddrOf b.key) (s.descOf b.key).storeLen store fun _ => .entry g .writing
    s.beginWrite g base store = { s with
      entries := s.entries.set g { s.entries[g] with slot := (.held .writing
        { b with base := base, opsLeft := ops.length, got := [], failed := false }) }
      units := s.units ++ [{ owner := .entry g, ops }] } := by
  unfold State.beginWrite
  rw [hb]
  rfl

/-- Part `u` with the field write of an entry requested, at the place part `t` gives the field (R77). -/
def State.fieldWriteBegun (t u : State) (g : Fin 8) (b : Gather) (image : Option (List Byte))
    (store : List Byte) : State :=
  let ops := splitOps .mwrite (t.storeAddrOf b.key) (t.descOf b.key).storeLen store fun _ => .entry g .writing
  { u with
    entries := u.entries.set g { u.entries[g] with slot := (.held .writing
      { b with base := image, opsLeft := ops.length, got := [], failed := false }) }
    units := u.units ++ [{ owner := .entry g, ops }] }

/-- What a forward step does in part `u`, by its outcome `out` over the configuration of part `t`. -/
def State.forwardDone (t u : State) (g : Fin 8) (b : Gather) (image : Option (List Byte)) (out : ConvOutcome) :
    State :=
  match out.exc, t.windows[b.key.window].cfg.policy with
  | none, _ => t.fieldWriteBegun u g b image out.result
  | some e, .strict => (u.handOver (flushRecord b.key e.1 .faulted .flush e.2)).freeEntry g .error
  | some e, .substitute =>
    t.fieldWriteBegun (u.handOver (flushRecord b.key e.1 .substituted .flush e.2)) g b image out.result

theorem State.beginWrite_converting {t u : State} (hsame : SameConfig t u) {g : Fin 8} {b : Gather}
    (hb : u.entries[g].slot = .held .converting b) (image : Option (List Byte)) (store : List Byte) :
    u.beginWrite g image store = t.fieldWriteBegun u g b image store := by
  rw [u.beginWrite_held g image store .converting b hb, hsame.storeAddrOf, hsame.descOf]
  rfl

/-- The forward step of an entry that is CONVERTING. -/
theorem State.forwardStep_eq {t u : State} (hsame : SameConfig t u) {g : Fin 8} {b : Gather}
    (hb : u.entries[g].slot = .held .converting b) (image : Option (List Byte)) :
    u.forwardStep g b.key b.bytes image = t.forwardDone u g b image
      (t.convertForward t.windows[b.key.window].cfg (t.descOf b.key) (composite b.bytes image)) := by
  have hpolicy : u.windows[b.key.window].cfg.policy = t.windows[b.key.window].cfg.policy := by
    rw [hsame.windows]
  have hout : u.convertForward u.windows[b.key.window].cfg (u.descOf b.key) (composite b.bytes image)
      = t.convertForward t.windows[b.key.window].cfg (t.descOf b.key) (composite b.bytes image) := by
    rw [hsame.convertForward, hsame.windows, hsame.descOf]
  unfold State.forwardStep State.forwardDone
  dsimp only
  rw [hout, hpolicy]
  split
  · next hexc => rw [hexc]; exact State.beginWrite_converting hsame hb image _
  · next kind detail hexc hpol => rw [hexc, hpol]
  · next kind detail hexc hpol =>
    rw [hexc, hpol]
    exact State.beginWrite_converting (hsame.trans (u.handOver_same _))
      (by rw [State.handOver_entries]; exact hb) image _

/-- The running FLUSH job of an entry's opening ends with its steps. -/
theorem State.endFlushJob_converting (s : State) (g : Fin 8) (opening : BitVec 32) (b : Gather)
    (base merge : Option (List Byte)) (rest : List Job) (hr : s.running = true)
    (hj : s.jobs = .flush g opening b.key b.bytes base merge :: rest)
    (hb : s.entries[g].slot = .held .converting b) (hopen : s.entries[g].openOrder = opening) :
    s.endFlushJob
      = State.finishFlush { s with jobs := rest, running := false } g b.key b.bytes base merge := by
  have hconverts : s.converts g opening = true := by
    unfold State.converts
    rw [hb, hopen]
    simp
  unfold State.endFlushJob
  rw [hr, hj]
  exact if_pos hconverts

section
variable {s : State} {g : Fin 8} {k : Key} {bytes : List (Option Byte)} {base : Option (List Byte)}
  {store : List Byte}

theorem State.finishFlush_clean
    (h : (s.convertReverse s.windows[k.window].cfg (s.descOf k) store).exc = none) :
    s.finishFlush g k bytes base (some store) = s.forwardStep g k bytes
      (some (s.convertReverse s.windows[k.window].cfg (s.descOf k) store).result) := by
  unfold State.finishFlush
  dsimp only
  rw [h]

theorem State.finishFlush_faulted {e : ExcKind × Option (Nat × Byte)}
    (h : (s.convertReverse s.windows[k.window].cfg (s.descOf k) store).exc = some e)
    (hpolicy : s.windows[k.window].cfg.policy = .strict) :
    s.finishFlush g k bytes base (some store)
      = (s.handOver (flushRecord k e.1 .faulted .merge e.2)).freeEntry g .error := by
  unfold State.finishFlush
  dsimp only
  rw [h, hpolicy]

theorem State.finishFlush_substituted {e : ExcKind × Option (Nat × Byte)}
    (h : (s.convertReverse s.windows[k.window].cfg (s.descOf k) store).exc = some e)
    (hpolicy : s.windows[k.window].cfg.policy = .substitute) :
    s.finishFlush g k bytes base (some store)
      = (s.handOver (flushRecord k e.1 .substituted .merge e.2)).forwardStep g k bytes
        (some (s.convertReverse s.windows[k.window].cfg (s.descOf k) store).result) := by
  unfold State.finishFlush
  dsimp only
  rw [h, hpolicy]

end

end Sys2Proof.Machine

namespace Sys2Proof

open Sys2Proof.Machine

/-- Settles O25: the completion of an MREAD goes to the entry or to the window READ that asked for it. -/
theorem readsOfMemoryCompleted : Obligations.ReadsOfMemoryCompleted := by
  intro s i rest c t hr ho hk haccepts t'
  have hcomplete := t.complete_mread i rest c hr ho hk haccepts
  refine ⟨fun g b hsource hb => ?_, fun id field half q ctx hsource hq hctx => ?_⟩
  · have hroute := hcomplete.trans (State.route_entry t' i.op c g .merging hsource)
    have hlast : b.opsLeft ≤ 1 → t.complete c = t'.mergeDone g (b.keep c) := fun hl =>
      hroute.trans (t'.entryCompletion_merged g b c hb hl)
    refine ⟨fun hmore => congrArg Host.Outcome.next (hroute.trans (t'.entryCompletion_more g .merging b c hb hmore)),
      fun hl hok hc => ?_, fun hl hf => ?_⟩
    · have h := (hlast hl).trans (t'.mergeDone_okay g _ (b.keep_okay c hok hc))
      rw [b.keep_of_okay c hok hc] at h
      exact congrArg Host.Outcome.next h
    · exact congrArg Host.Outcome.next ((hlast hl).trans (t'.mergeDone_failed g _ (b.keep_failed c hf)))
  · intro fields
    have hfields : ctx.fields.map (MemField.keep field c) = fields := ReadCtx.kept_fields ..
    have hroute := hcomplete.trans (State.route_read t' i.op c id field half hsource)
    refine ⟨fun hmore => ?_, fun hl hok => ?_, fun hl hfail => ?_⟩
    · have h := hroute.trans (State.readCompletion_more (s := t') hq hctx hmore)
      rw [hfields] at h
      exact congrArg Host.Outcome.next h
    · have h := hroute.trans (State.readCompletion_okay (s := t') (c := c) (field := field) hq hctx hl
        (by rw [hfields]; exact hok))
      rw [hfields] at h
      exact congrArg Host.Outcome.next h
    · have h := hroute.trans (State.readCompletion_failed (s := t') (c := c) (field := field) hq hctx hl
        (by rw [hfields]; exact hfail))
      rw [hfields] at h
      refine congrArg Host.Outcome.next (h.trans ?_)
      unfold State.answer State.setTxn
      rw [State.handOverAll_txns]
      rfl

/-- Settles O26: the drain is due exactly when the window is DRAINING and the drain condition holds. -/
theorem drainCompletes : Obligations.DrainCompletes := by
  intro s w drained
  have hdue : s.drainDue w = true
      ↔ (∃ va sa, s.windows[w].status = .live .draining va sa) ∧ drained :=
    (s.drainDue_iff w).trans (and_congr_right fun _ => s.drained_iff w)
  refine ⟨fun va sa hw hd => ?_, fun hnot => ?_⟩
  · show Host.Outcome.next (s.completeDrain w) = _
    unfold State.completeDrain
    rw [if_pos (hdue.mpr ⟨⟨va, sa, hw⟩, hd⟩), State.noteWindowChange_eq]
    unfold State.setMode
    rw [Window.withMode_of_live .suspended hw]
    rfl
  · show Host.Outcome.next (s.completeDrain w) = _
    unfold State.completeDrain
    rw [if_neg fun h => ?_]
    obtain ⟨⟨va, sa, hw⟩, hd⟩ := hdue.mp h
    rcases hnot with hn | hn
    · exact hn va sa hw
    · exact hn hd

/-- Settles O27: placement and start by their conditions. -/
theorem jobsPlacedAndStarted : Obligations.JobsPlacedAndStarted := by
  intro s
  refine ⟨fun j rest hp hroom => ?_, fun hnot => ?_, fun hidle hjobs => ?_, fun hnot => ?_⟩
  · show Host.Outcome.next s.placeJob = _
    unfold State.placeJob
    rw [hp]
    exact congrArg Host.Outcome.next (if_pos hroom)
  · show Host.Outcome.next s.placeJob = _
    unfold State.placeJob
    rcases hnot with hp | hfull
    · rw [hp]
    · split
      · exact congrArg Host.Outcome.next (if_neg (Nat.not_lt.mpr hfull))
      · rfl
  · show Host.Outcome.next s.startJob = _
    unfold State.startJob
    rw [if_pos (by simp [State.startDue, hidle, hjobs])]
  · show Host.Outcome.next s.startJob = _
    unfold State.startJob
    rw [if_neg (by rcases hnot with h | h <;> simp [State.startDue, h])]

/-- Settles O28: the steps of the job one after another, each on a part with the same configuration; the other
clauses are what the composite image and the operations of a unit are. -/
theorem flushJobEnds : Obligations.FlushJobEnds := by
  refine ⟨fun s g opening k base merge rest b => ?_, fun bytes base p => ?_, fun s k f hf => ?_,
    fun kind start len data source hlen => ?_⟩
  · intro t hr hj hb hopen hkey cfg record ended forward
    subst hkey
    have hend := t.endFlushJob_converting g opening b base merge rest hr hj hb hopen
    have hforward : ∀ u : State, SameConfig t u → u.entries[g].slot = .held .converting b → ∀ image,
        u.forwardStep g b.key b.bytes image = forward u image :=
      fun u hu hslot image => State.forwardStep_eq hu hslot image
    have hended : SameConfig t ended := ⟨by constructor <;> rfl, rfl⟩
    refine ⟨fun hm => ?_, fun store hm => ?_⟩
    · subst hm
      exact congrArg Host.Outcome.next (hend.trans (hforward ended hended hb base))
    · subst hm
      intro rev
      refine ⟨fun hexc => ?_, fun e hexc hpolicy => ?_, fun e hexc hpolicy => ?_⟩
      · exact congrArg Host.Outcome.next ((hend.trans (State.finishFlush_clean (s := ended) hexc)).trans
          (hforward ended hended hb _))
      · exact congrArg Host.Outcome.next (hend.trans (State.finishFlush_faulted (s := ended) hexc hpolicy))
      · exact congrArg Host.Outcome.next
          ((hend.trans (State.finishFlush_substituted (s := ended) hexc hpolicy)).trans
            (hforward _ (hended.trans (ended.handOver_same _)) (by rw [State.handOver_entries]; exact hb) _))
  · refine ⟨composite_length bytes base, fun b hb => ?_, fun image b hb himage hat => ?_⟩
    · rw [composite_at, hb]
      rfl
    · rw [composite_at, hb, himage, Option.map_some, Option.getD_none, Option.getD_some,
        List.getD_eq_getElem?_getD, hat, Option.getD_some]
  · have hdesc : s.descOf k = f := by
      show ((s.fieldsOf k.window)[k.field]?).getD FieldDesc.absent = f
      rw [hf]
      rfl
    refine ⟨hdesc, ?_⟩
    show WindowCfg.storeAddr s.windows[k.window].cfg k.record (s.descOf k) = _
    rw [hdesc]
    rfl
  · obtain ⟨hcovers, hsum, hdata⟩ := splitOps_covers kind start len data source
    exact ⟨splitOps_one kind start len data source, splitOps_pair kind start len data source, hcovers, hsum, hdata,
      splitOps_inBlock kind start len data source hlen, splitOps_data kind start len data source⟩

end Sys2Proof
end

section
/-! PROOF. The end of a READ job: conversions, records, the answer, backfills (R95 to R101, R83); the end of a build
and the recheck (R15, R23 to R27, R181). -/

namespace Sys2Proof.Machine

/-- The records of a READ job, with the action its window's policy gives. -/
theorem readJobRecords_eq (policy : Policy) (w : Fin 8) (record viewAddr : Nat) (tag : Option Tag)
    (outs : List FieldOutcome) :
    readJobRecords policy w record viewAddr tag outs = outs.filterMap fun x => x.2.exc.map fun e =>
      { seq := 0, kind := e.1
        action := if decide (policy = .strict) then .faulted else .substituted, path := .read
        window := w, record := some record, field := some x.1.field, viewAddr := some viewAddr
        tag, detail := e.2 : ExcRecord } := by
  unfold readJobRecords readRecord
  cases policy <;> rfl

theorem State.answerRead_live (s : State) (id : Nat) (policy : Policy) (fields : List FieldDesc)
    (outs : List FieldOutcome) (q : Txn) (ctx : ReadCtx) (hq : s.txn? id = some q)
    (hctx : q.state = .waiting (.windowRead ctx)) :
    s.answerRead id policy fields outs = s.setTxn id
      (if decide (policy = .strict) && outs.any (·.2.exc.isSome) then .ready .error []
        else .ready .okay (assemble fields ctx outs)) := by
  unfold State.answerRead
  rw [hq]
  dsimp only
  rw [hctx]
  dsimp only
  by_cases h : policy = .strict ∧ (outs.any fun x => x.2.exc.isSome) = true
  · rw [if_pos h, if_pos (by rw [Bool.and_eq_true, decide_eq_true_eq]; exact h)]
    rfl
  · rw [if_neg h, if_neg (by rw [Bool.and_eq_true, decide_eq_true_eq]; exact h)]
    rfl

theorem State.answerRead_gone (s : State) (id : Nat) (policy : Policy) (fields : List FieldDesc)
    (outs : List FieldOutcome) (hq : s.txn? id = none) : s.answerRead id policy fields outs = s := by
  unfold State.answerRead
  rw [hq]

/-- The response image of a READ job, position by position (R96). -/
theorem assemble_eq (fields : List FieldDesc) (ctx : ReadCtx) (outs : List FieldOutcome) :
    assemble fields ctx outs = (List.range ctx.image.length).map fun k => (ctx.image.getD k none).getD <|
      match ownerOf fields (ctx.offset + k) with
      | some (f, i) => match outs.find? fun x => x.1.field == i with
        | some x => x.overlaid.getD (ctx.offset + k - f.viewOff) 0
        | none => 0
      | none => 0 := by
  unfold assemble
  rw [zipIdx_eq_map_range, List.map_map]
  refine List.map_congr_left fun k _ => ?_
  show (ctx.image.getD k none).getD (assembledByte fields outs (ctx.offset + k)) = _
  unfold assembledByte
  cases ownerOf fields (ctx.offset + k) with
  | none => rfl
  | some x => rfl

/-- The running READ job ends with what the read path does. -/
theorem State.endReadJob_read (s : State) (id : Nat) (w : Fin 8) (record offset size : Nat)
    (fields : List MemField) (rest : List Job) (hr : s.running = true)
    (hj : s.jobs = .read id w record offset size fields :: rest) :
    s.endReadJob = State.finishRead { s with jobs := rest, running := false } id w record offset fields := by
  unfold State.endReadJob
  rw [hr, hj]

/-- The entries after the backfills of a READ job. -/
theorem State.offerBackfills_at (outs : List FieldOutcome) (s : State) (g : Fin 8) :
    (outs.foldl State.offerBackfill s).entries[g] = match s.entries[g].slot with
      | .held .gathering b =>
        match outs.find? fun x => x.1.backfill == some (g, s.entries[g].openOrder) && x.2.exc.isNone with
        | some x => if b.base.isNone then
            { s.entries[g] with slot := .held .gathering { b with base := some x.2.result } } else s.entries[g]
        | none => s.entries[g]
      | .held .merging _ | .held .converting _ | .held .writing _ | .free => s.entries[g] :=
  (State.offerBackfills_entries outs s g).trans (Entry.backfilled_foldl g outs s.entries[g])

theorem State.txn?_congr {s t : State} (h : t.txns = s.txns) (id : Nat) : t.txn? id = s.txn? id := by
  unfold State.txn?
  rw [h]

end Sys2Proof.Machine

namespace Sys2Proof

open Sys2Proof.Machine

/-- Settles O29: records, answer and backfills of the job one after another; the answer changes transactions
alone and the backfills entries alone. -/
theorem readJobEnds : Obligations.ReadJobEnds := by
  intro s id w record offset size fields rest t hr hj cfg outs strict records logged entryAfter
  let ended : State := { t with jobs := rest, running := false }
  have hend := t.endReadJob_read id w record offset size fields rest hr hj
  have hfinish : ∀ tag, (ended.txn? id).map (·.req.tag) = tag →
      t.endReadJob = outs.foldl State.offerBackfill
        ((logged tag).answerRead id cfg.policy (t.fieldsOf w) outs) := by
    rintro tag rfl
    refine hend.trans ?_
    unfold State.finishRead
    dsimp only
    rw [readJobRecords_eq]
    rfl
  have hentries : ∀ tag, (logged tag).entries = t.entries := fun tag => ended.handOverAll_entries (records tag)
  have htxns : ∀ tag, (logged tag).txns = t.txns := fun tag => ended.handOverAll_txns (records tag)
  have hafter : ∀ v : State, v.entries = t.entries → ∀ g : Fin 8,
      (outs.foldl State.offerBackfill v).entries[g] = entryAfter g := by
    intro v hv g
    have h := State.offerBackfills_at outs v g
    rw [hv] at h
    exact h
  refine ⟨fun q ctx hq hctx => ?_, fun hq => ?_⟩
  · intro readResult image answer
    have hlive := (logged (some q.req.tag)).answerRead_live id cfg.policy (t.fieldsOf w) outs q ctx
      ((State.txn?_congr (htxns _) id).trans hq) hctx
    rw [assemble_eq] at hlive
    have hdone := hfinish (some q.req.tag) (by rw [show ended.txn? id = some q from hq]; rfl)
    rw [hlive] at hdone
    refine ⟨t.endReadJob, rfl, ?_, fun g => ?_⟩
    · rw [hdone]
      refine (State.offerBackfills_frame outs _).trans ?_
      unfold State.setTxn
      rw [htxns]
      rfl
    · rw [hdone]
      exact hafter ((logged (some q.req.tag)).setTxn id _) (hentries _) g
  · have hdone := hfinish none (by rw [show ended.txn? id = none from hq]; rfl)
    rw [State.answerRead_gone _ id _ _ _ ((State.txn?_congr (htxns _) id).trans hq)] at hdone
    refine ⟨t.endReadJob, rfl, ?_, fun g => ?_⟩
    · rw [hdone]
      exact State.offerBackfills_frame outs _
    · rw [hdone]
      exact hafter _ (hentries none) g

/-- Settles O30: the build writes its table and rechecks the layouts that name it. -/
theorem tableBuildCompletes : Obligations.TableBuildCompletes := by
  refine ⟨fun s => ?_, fun tables programs l => ⟨fun va sa fields hl => ?_, fun hne => ?_⟩⟩
  · intro t
    refine ⟨fun b hb => ?_, fun hb => ?_⟩
    · show Host.Outcome.next t.completeBuild = _
      unfold State.completeBuild
      rw [hb]
      rfl
    · show Host.Outcome.next t.completeBuild = _
      unfold State.completeBuild
      rw [hb]
  · subst hl
    unfold Layout.rechecked
    refine ⟨fun hc => ?_, fun reason field hc => ?_⟩ <;> dsimp only <;> rw [hc]
  · unfold Layout.rechecked
    split
    · next va sa fields => exact absurd rfl (hne va sa fields)
    all_goals rfl

end Sys2Proof
end

section
/-! PROOF. The maintenance port: the check of a frame, its release, the read-out, chip-select periods, frames
turned away during a build, payloads of another length (R177 to R182, R195). -/

namespace Sys2Proof.Machine

/-! ### The release of a frame -/

/-- A command that the part takes, by the result of its run. -/
theorem State.command_result {s t : State} {code : Byte} {payload : List Byte} {len : Nat}
    {run : State → State × CmdResult} {c : ResultCode} {data : List Byte} (hl : payload.length = len)
    (h : s.takesFrame code payload) (hrun : run (s.atRelease payload) = (t, { code := c, data })) :
    (Host.Outcome.next (s.command code payload len run) : Result)
      = .next (t.putResult c code data) := by
  rw [s.command_taken code payload len run hl h, hrun]

/-- The release of a frame that the part takes, by the result of its run. -/
theorem State.releaseFrame_result {s t : State} {code : Byte} {payload : List Byte}
    {run : State → State × CmdResult} {c : ResultCode} {data : List Byte} (h : s.takesFrame code payload)
    (hrun : run (s.atRelease payload) = (t, { code := c, data })) :
    (Host.Outcome.next (s.settle.releaseFrame code payload run) : Result)
      = .next (t.putResult c code data) := by
  rw [s.settle_releaseFrame_taken code payload run h, hrun]

/-- A window command that the part takes, by the result of its run. -/
theorem State.windowCommand_result {s t : State} {code : Byte} {w : Fin 8}
    {run : Fin 8 → State → State × CmdResult} {c : ResultCode} {data : List Byte}
    (h : s.takesFrame code [toByte w.val])
    (hrun : run w (s.atWindowRelease [toByte w.val]) = (t, { code := c, data })) :
    (Host.Outcome.next (s.windowCommand code [toByte w.val] run) : Result)
      = .next (t.putResult c code data) := by
  rw [s.windowCommand_taken code _ w run (indexOf?_window w) h, hrun]

theorem State.command_wrongLength {s : State} {code : Byte} {payload : List Byte} {len : Nat}
    {run : State → State × CmdResult} (hl : payload.length ≠ len) (h : s.takesFrame code payload) :
    s.command code payload len run = (s.atRelease payload).putResult .badArg code [] := by
  unfold State.command
  rw [s.settle_releaseFrame_taken _ _ _ h]
  unfold withLength
  rw [if_neg hl]

theorem State.windowCommand_wrongLength {s : State} {code : Byte} {payload : List Byte}
    {run : Fin 8 → State → State × CmdResult} (hl : payload.length ≠ 1) (h : s.takesFrame code payload) :
    s.windowCommand code payload run = (s.atWindowRelease payload).putResult .badArg code [] := by
  unfold State.windowCommand
  rw [State.releaseFrame_taken _ _ _ _ ((s.settleToExpiry_same.takesFrame code payload).mpr h)]
  unfold withLength
  rw [if_neg hl]
  rfl

section
variable {s : State} (hbuild : s.build.isSome = true) {code : Byte} {payload : List Byte}
  (hp : s.presents code payload = true)
include hbuild hp

theorem State.settle_releaseFrame_turnedAway (run : State → State × CmdResult) :
    s.settle.releaseFrame code payload run
      = { s.atRelease payload with refusedCount := min 255 (s.refusedCount + 1) } := by
  rw [s.settle.releaseFrame_turnedAway code payload run ((s.settle_same.presents code payload).trans hp)
    (by rw [s.settle_same.build]; exact hbuild), s.settle_same.refusedCount]
  rfl

theorem State.windowCommand_turnedAway (run : Fin 8 → State → State × CmdResult) :
    s.windowCommand code payload run
      = { s.atWindowRelease payload with refusedCount := min 255 (s.refusedCount + 1) } := by
  unfold State.windowCommand
  rw [State.releaseFrame_turnedAway _ code payload _ ((s.settleToExpiry_same.presents code payload).trans hp)
    (by rw [s.settleToExpiry_same.build]; exact hbuild), s.settleToExpiry_same.refusedCount]
  rfl

end

/-- How the release of a known command's frame runs: at a window command's release, or at the release. -/
theorem exec_of_frame? {c : Instr} {code : Byte} {payload : List Byte} (h : c.frame? = some (code, payload)) :
    (∃ run, ∀ s, exec c s = .next (s.windowCommand code payload run)
        ∧ s.atReleaseOf c payload = s.atWindowRelease payload ∧ payloadLength code = some 1)
      ∨ (∃ run, (∀ s, exec c s = .next (s.settle.releaseFrame code payload run)
          ∧ s.atReleaseOf c payload = s.atRelease payload)
        ∧ ∀ n, payloadLength code = some n → ∃ run', run = withLength payload n run') := by
  cases c with
  | activate p | suspend p | deactivate p =>
    simp only [Instr.frame?, Option.some.injEq, Prod.mk.injEq] at h
    obtain ⟨rfl, rfl⟩ := h
    exact .inl ⟨_, fun s => ⟨rfl, rfl, by decide⟩⟩
  | programLoad p =>
    simp only [Instr.frame?, Option.some.injEq, Prod.mk.injEq] at h
    obtain ⟨rfl, rfl⟩ := h
    exact .inr ⟨_, fun s => ⟨rfl, rfl⟩, fun n hn => absurd hn (by simp [payloadLength])⟩
  | status p | setGlobal p | windowWrite p | windowRead p | layoutBegin p | fieldAppend p | layoutCommit p
  | layoutErase p | layoutRead p | tableLoad p | tableErase p | tableRead p | programErase p | programRead p
  | gatherRead p | logTake p | logPeek p | logClear p | flushAll p | clear p =>
    simp only [Instr.frame?, Option.some.injEq, Prod.mk.injEq] at h
    obtain ⟨rfl, rfl⟩ := h
    refine .inr ⟨_, fun s => ⟨rfl, rfl⟩, fun n hn => ?_⟩
    simp [payloadLength] at hn
    subst hn
    exact ⟨_, rfl⟩
  | _ => simp [Instr.frame?] at h

/-! ### Bad and unknown frames, the read-out -/

theorem State.releaseUnknown_eq (s : State) (code : Byte) (payload : List Byte) (h : code ∉ commandCodes) :
    s.releaseUnknown code payload = s.releaseFrame code payload fun t => t.reply .unknown [] := by
  unfold State.releaseUnknown
  rw [if_neg (by simpa using h)]

theorem State.releaseFetch_payload (s : State) (payload : List Byte) (h : payload ≠ []) :
    s.releaseFetch payload = s.releaseFrame 0x7E payload fun t => t.reply .badArg [] := by
  unfold State.releaseFetch
  rw [if_neg (by simpa using h)]

/-- The read-out of a RESULT-FETCH is due: RST_N is high, and the period under way is one if there is one. -/
theorem State.releaseFetch_header (s : State) (hrst : s.rstLow = false)
    (h : s.mcsLow = true → s.receiver.state = .readout) :
    s.releaseFetch [] = { s.endPeriod (List.replicate 4 0xFF ++ s.readOutBytes) with refusedCount := 0 } := by
  refine (if_pos rfl).trans (if_pos ?_)
  rw [hrst]
  cases hm : s.mcsLow with
  | false => rfl
  | true => rw [h hm]; rfl

theorem ResultCode.lookup_byte (c : ResultCode) :
    [(ResultCode.done, (0 : Byte)), (.pending, 1), (.busy, 2), (.badArg, 3), (.badState, 4),
      (.noSpace, 5), (.invalid, 6), (.overlap, 7), (.badFrame, 8), (.unknown, 9)].lookup c = some c.byte := by
  cases c <;> rfl

/-- PROGRAM-LOAD of at least two bytes, with the step count in the second. -/
theorem State.loadProgram_cons (e count : Byte) (steps : List Byte) (s : State) :
    State.loadProgram (e :: count :: steps) s
      = if 1 ≤ count.toNat ∧ count.toNat ≤ 16 ∧ steps.length ≠ 3 * count.toNat then s.reply .badArg []
        else match indexOf? 32 e with
        | none => s.replyStep none
        | some e => if ¬ (1 ≤ count.toNat ∧ count.toNat ≤ 16) then s.replyStep none
          else s.loadSteps e (parseSteps steps) := by
  have hlen : (e :: count :: steps).length ≠ 2 + 3 * count.toNat ↔ steps.length ≠ 3 * count.toNat := by
    rw [List.length_cons, List.length_cons]
    omega
  unfold State.loadProgram
  dsimp only
  rw [if_neg (by simp), show byteAt (e :: count :: steps) 1 = count from rfl]
  simp only [hlen]
  rfl

/-! ### The receiver (R177, R178, R180) -/

/-- The header is that of a RESULT-FETCH exactly when its bytes are 0x7E, 0, 0 and 0x82. -/
theorem fetchHeader_iff (code hi lo b : Byte) :
    (code = 0x7E ∧ hi = 0 ∧ lo = 0 ∧ byteSum [code, hi, lo, b] = 0)
      ↔ (code = 0x7E ∧ hi = 0 ∧ lo = 0) ∧ b = 0x82 := by
  have hsum : byteSum [0x7E, 0, 0, b] = 0 ↔ b = 0x82 := by
    revert b
    decide
  constructor
  · rintro ⟨rfl, rfl, rfl, h⟩
    exact ⟨⟨rfl, rfl, rfl⟩, hsum.mp h⟩
  · rintro ⟨⟨rfl, rfl, rfl⟩, h⟩
    exact ⟨rfl, rfl, rfl, hsum.mpr h⟩

theorem headerState_other (bytes : List Byte) (h3 : bytes.length ≠ 3) (h4 : bytes.length ≠ 4) :
    headerState bytes = .receiving := by
  unfold headerState
  split
  · exact absurd rfl h3
  · exact absurd rfl h4
  · rfl

theorem headerState_fetch : headerState [0x7E, 0, 0, 0x82] = .readout := by decide

theorem headerState_noFetch (bytes : List Byte) (b : Byte) (hl : bytes.length = 3)
    (h : ¬ (bytes = [0x7E, 0, 0] ∧ b = 0x82)) : headerState (bytes ++ [b]) = .receiving := by
  obtain ⟨code, hi, lo, rfl⟩ := List.length_eq_three.mp hl
  show (if code = 0x7E ∧ hi = 0 ∧ lo = 0 ∧ byteSum [code, hi, lo, b] = 0 then RxState.readout
    else .receiving) = _
  rw [if_neg]
  rw [fetchHeader_iff]
  rintro ⟨⟨rfl, rfl, rfl⟩, hb⟩
  exact h ⟨rfl, hb⟩

theorem headerState_length (code hi lo : Byte) : headerState [code, hi, lo]
    = if 520 < hi.toNat * 256 + lo.toNat then .discarding else .receiving := rfl

/-- A byte that a RECEIVING receiver keeps. -/
theorem Receiver.take_kept (r : Receiver) (b : Byte) (copy : List Byte) (hs : r.state = .receiving)
    (hl : r.bytes.length < 524) : r.take b copy =
      { state := headerState (r.bytes ++ [b]), bytes := r.bytes ++ [b], count := r.count + 1
        readOut := if headerState (r.bytes ++ [b]) = .readout then copy else [] } := by
  unfold Receiver.take
  rw [hs]
  exact if_pos hl

theorem Receiver.take_beyond (r : Receiver) (b : Byte) (copy : List Byte) (hs : r.state = .receiving)
    (hl : 524 ≤ r.bytes.length) : r.take b copy = { r with state := .discarding, count := r.count + 1 } := by
  unfold Receiver.take
  rw [hs]
  exact if_neg (Nat.not_lt.mpr hl)

theorem State.takeByte_low (s : State) (b : Byte) (h : s.mcsLow = true) : s.takeByte b
    = { s with receiver := s.receiver.take b s.readOutBytes, msdo := s.msdo ++ [s.receiver.shiftsOut] } := by
  unfold State.takeByte
  rw [if_pos h]

/-- A byte that a RECEIVING receiver keeps, by the state it is put in. -/
theorem State.takeByte_kept (s : State) (b : Byte) (h : s.mcsLow = true) (hs : s.receiver.state = .receiving)
    (hl : s.receiver.bytes.length < 524) (state : RxState)
    (hh : headerState (s.receiver.bytes ++ [b]) = state) : s.takeByte b
      = { s with
          msdo := s.msdo ++ [0xFF]
          receiver := { state, bytes := s.receiver.bytes ++ [b], count := s.receiver.count + 1
                        readOut := if state = .readout then s.readOutBytes else [] } } := by
  rw [s.takeByte_low b h, s.receiver.take_kept b _ hs hl, hh]
  unfold Receiver.shiftsOut
  rw [hs]

/-- A byte in a state that keeps none. -/
theorem State.takeByte_of_take (s : State) (b : Byte) (h : s.mcsLow = true) (r : Receiver) (x : Byte)
    (hr : s.receiver.take b s.readOutBytes = r) (hx : s.receiver.shiftsOut = x) :
    s.takeByte b = { s with receiver := r, msdo := s.msdo ++ [x] } := by
  rw [s.takeByte_low b h, hr, hx]

end Sys2Proof.Machine

namespace Sys2Proof

open Sys2Proof.Machine

/-- Settles O35: the frame check is the laws' short and long case; a release puts the result there. -/
theorem badAndUnknownFramesAnswered : Obligations.BadAndUnknownFramesAnswered := by
  refine ⟨fun s => ⟨fun bytes partialByte hbad hbuild => ?_, fun code payload hcode htakes => ?_⟩,
    fun bytes partialByte => ?_, State.presents_iff, State.presentsBad_iff⟩
  · show Host.Outcome.next (s.settle.releaseBad bytes partialByte) = _
    unfold State.releaseBad
    rw [if_pos hbad]
    exact congrArg Host.Outcome.next (if_neg (by
      show ¬ s.settle.build.isSome = true
      rw [hbuild]
      simp))
  · show Host.Outcome.next (s.settle.releaseUnknown code payload) = _
    rw [State.releaseUnknown_eq _ code payload hcode, s.settle_releaseFrame_taken code payload _ htakes]
    rfl
  · intro n len header bad
    have hlong : 4 ≤ n → frameVerdict bytes partialByte = if (bytes.getD 0 0).toNat = 0x7E ∧ len = 0
        ∧ ((bytes.take 4).map (·.toNat)).sum % 256 = 0 then .fetch
      else if len ≤ 520 ∧ n = 4 + len ∧ partialByte = false ∧ (bytes.map (·.toNat)).sum % 256 = 0 then
        .good (bytes.getD 0 0) ((bytes.drop 3).take len)
      else .bad := frameVerdict_long bytes partialByte
    refine ⟨fun h0 => ?_, fun hh => ?_, fun h1 hh hbad => ?_, fun hh hgood => ?_⟩
    · rw [List.eq_nil_of_length_eq_zero h0]
      rfl
    · rw [hlong hh.1, if_pos hh.2]
    · by_cases h4 : 4 ≤ n
      · rw [hlong h4, if_neg fun h => hh ⟨h4, h⟩, if_neg]
        rintro ⟨hl, hn, hpart, hsum⟩
        rcases hbad with h | h | h | h | h | h
        · omega
        · omega
        · omega
        · rw [hpart] at h
          exact absurd h (by decide)
        · omega
        · exact h hsum
      · exact frameVerdict_short bytes partialByte h1 (by omega)
    · have h4 : 4 ≤ n := by
        by_contra h
        exact hgood (.inl (by omega))
      rw [hlong h4, if_neg fun h => hh ⟨h4, h⟩, if_pos]
      refine ⟨?_, ?_, ?_, ?_⟩ <;> by_contra h
      · exact hgood (.inr (.inr (.inr (.inr (.inl (by omega))))))
      · rcases Nat.lt_or_gt_of_ne h with h | h
        · exact hgood (.inr (.inl h))
        · exact hgood (.inr (.inr (.inl h)))
      · exact hgood (.inr (.inr (.inr (.inl (by simpa using h)))))
      · exact hgood (.inr (.inr (.inr (.inr (.inr h)))))

/-- Settles O36: the release keeps the result; the read-out ends in the checksum of its body. -/
theorem resultFetchKeepsResult : Obligations.ResultFetchKeepsResult := by
  intro s t hrst
  refine ⟨fun hlow hout => ?_, fun hhigh => ?_, ⟨t.result.code.byte, checksum ([t.result.code.byte, t.result.command, toByte t.refusedCount]
      ++ beBytes 2 t.result.data.length ++ t.result.data), ResultCode.lookup_byte _, ?_, ?_⟩⟩
  · show Host.Outcome.next (t.releaseFetch []) = _
    rw [t.releaseFetch_header hrst fun _ => hout]
    unfold State.endPeriod
    rw [if_pos hlow]
  · show Host.Outcome.next (t.releaseFetch []) = _
    rw [t.releaseFetch_header hrst fun h => absurd h (by rw [hhigh]; decide)]
    unfold State.endPeriod
    rw [hhigh]
    rfl
  · unfold State.readOutBytes
    dsimp only
    rw [beBytes_two]
    rfl
  · exact (byteSum_eq_zero _).mp (byteSum_checksum _)

/-- Settles O37: byte by byte, with the state that the header puts the receiver in. -/
theorem chipSelectPeriods : Obligations.ChipSelectPeriods := by
  intro s t
  refine ⟨fun hhigh => ?_, fun b hhigh => ?_, fun b hlow => ?_, fun hlow hcount => ?_⟩
  · show Host.Outcome.next t.beginPeriod = _
    unfold State.beginPeriod
    rw [if_neg (by rw [hhigh]; decide)]
    rfl
  · show Host.Outcome.next (t.takeByte b) = _
    unfold State.takeByte
    rw [if_neg (by rw [hhigh]; decide)]
  · intro bytes next
    have hkept : t.receiver.state = .receiving → bytes.length < 524 → ∀ state,
        headerState (bytes ++ [b]) = state →
        exec (.byteComplete b) s
          = .next (next state (bytes ++ [b]) (if state = .readout then t.readOutBytes else []) 0xFF) :=
      fun hs hl state hh => congrArg Host.Outcome.next (t.takeByte_kept b hlow hs hl state hh)
    have htaken : ∀ r x, t.receiver.take b t.readOutBytes = r → t.receiver.shiftsOut = x →
        exec (.byteComplete b) s = .next { t with receiver := r, msdo := t.msdo ++ [x] } :=
      fun r x hr hx => congrArg Host.Outcome.next (t.takeByte_of_take b hlow r x hr hx)
    refine ⟨fun hs hl => ⟨fun h2 h3 => ?_, fun code hi hbytes => ?_, fun hbytes hb => ?_, fun h3 hno => ?_⟩,
      fun hs hl => ?_, fun hs => ?_, fun x rest hs hout => ?_, fun hs hout => ?_, fun hs => ?_⟩
    · refine hkept hs hl .receiving (headerState_other _ ?_ ?_) <;>
        rw [List.length_append, List.length_singleton] <;> omega
    · have h := hkept hs hl (if 520 < hi.toNat * 256 + b.toNat then .discarding else .receiving)
        (by rw [hbytes]; exact headerState_length code hi b)
      rw [hbytes, if_neg (c := _ = RxState.readout) (by split_ifs <;> decide)] at h
      exact h
    · have h := hkept hs hl .readout (by rw [hbytes, hb]; exact headerState_fetch)
      rw [hbytes] at h
      exact h
    · exact hkept hs hl .receiving (headerState_noFetch bytes b h3 hno)
    · exact htaken _ _ (t.receiver.take_beyond b _ hs hl) (by unfold Receiver.shiftsOut; rw [hs])
    · exact htaken _ _ (by unfold Receiver.take; rw [hs]) (by unfold Receiver.shiftsOut; rw [hs])
    · exact htaken _ _ (by unfold Receiver.take; rw [hs, hout]; rfl)
        (by unfold Receiver.shiftsOut; rw [hs, hout]; rfl)
    · exact htaken _ _ (by unfold Receiver.take; rw [hs, hout]; rfl)
        (by unfold Receiver.shiftsOut; rw [hs, hout]; rfl)
    · exact htaken _ _ (by unfold Receiver.take; rw [hs]) (by unfold Receiver.shiftsOut; rw [hs])
  · show Host.Outcome.next t.endEmptyPeriod = _
    unfold State.endEmptyPeriod
    rw [if_pos ⟨hlow, hcount⟩]

/-- Settles O38: the release of any frame but a good RESULT-FETCH is turned away while a build runs. -/
theorem framesTurnedAwayDuringBuild : Obligations.FramesTurnedAwayDuringBuild := by
  intro s hbuild refused
  refine ⟨fun c code payload hc hp => ?_, fun code payload hcode hp => ?_, fun payload hne hp => ?_,
    fun bytes partialByte hbad => ?_⟩
  · rcases exec_of_frame? hc with ⟨run, h⟩ | ⟨run, h, -⟩
    · obtain ⟨hexec, hat, -⟩ := h s
      rw [hexec, hat, State.windowCommand_turnedAway hbuild hp]
    · obtain ⟨hexec, hat⟩ := h s
      rw [hexec, hat, State.settle_releaseFrame_turnedAway hbuild hp]
  · show Host.Outcome.next (s.settle.releaseUnknown code payload) = _
    rw [State.releaseUnknown_eq _ code payload hcode, State.settle_releaseFrame_turnedAway hbuild hp]
  · show Host.Outcome.next (s.settle.releaseFetch payload) = _
    rw [State.releaseFetch_payload _ payload hne, State.settle_releaseFrame_turnedAway hbuild hp]
  · show Host.Outcome.next (s.settle.releaseBad bytes partialByte) = _
    unfold State.releaseBad
    rw [if_pos hbad]
    refine congrArg Host.Outcome.next ((if_pos ?_).trans ?_)
    · show s.settle.build.isSome = true
      rw [s.settle_same.build]
      exact hbuild
    · show ({ s.settle.endPeriod _ with refusedCount := min 255 (s.settle.refusedCount + 1) } : State) = _
      rw [s.settle_same.refusedCount]

/-- Settles O39: the length is checked before the command runs, by the command itself for PROGRAM-LOAD. -/
theorem wrongLengthIsBadArg : Obligations.WrongLengthIsBadArg := by
  refine ⟨fun c s code payload n hc hn hl htakes => ?_, fun s payload htakes => ?_, fun s payload hne htakes => ?_⟩
  · rcases exec_of_frame? hc with ⟨run, h⟩ | ⟨run, h, hlength⟩
    · obtain ⟨hexec, hat, hone⟩ := h s
      rw [hone] at hn
      injection hn with hn
      rw [hexec, hat, State.windowCommand_wrongLength (by omega) htakes]
    · obtain ⟨hexec, hat⟩ := h s
      obtain ⟨run', rfl⟩ := hlength n hn
      rw [hexec, hat]
      exact congrArg Host.Outcome.next (State.command_wrongLength hl htakes)
  · intro t
    have hexec : ∀ c data, State.loadProgram payload t = t.reply c data →
        exec (.programLoad payload) s = .next (t.putResult c 0x38 data) := fun c data h =>
      State.releaseFrame_result htakes h
    refine ⟨fun hshort => hexec _ _ ?_, fun e count steps hpay => ⟨fun h1 h16 hl => hexec _ _ ?_,
      fun hcount => ?_⟩⟩
    · unfold State.loadProgram
      rw [if_pos hshort]
    · subst hpay
      rw [State.loadProgram_cons, if_pos ⟨h1, h16, hl⟩]
    · subst hpay
      refine hexec _ _ ?_
      rw [State.loadProgram_cons, if_neg (by omega)]
      split
      · rfl
      · exact if_pos (by omega)
  · show Host.Outcome.next (s.settle.releaseFetch payload) = _
    rw [State.releaseFetch_payload _ payload hne, s.settle_releaseFrame_taken 0x7E payload _ htakes]
    rfl

end Sys2Proof
end

section
/-! PROOF. The read-back commands, SET-GLOBAL, the commands on the log, FLUSH-ALL and CLEAR (R183, R184, R191 to
R193, R152 to R154, R173, R174). -/

namespace Sys2Proof.Machine

theorem mapFinRange_eq {α β : Type} {n : Nat} (v : Vector α n) (f : α → β) :
    v.toList.map f = (List.finRange n).map fun i => f v[i] := by
  apply List.ext_getElem <;> simp

/-! ### The bytes of the read-backs -/

theorem WindowStatus.byte_eq (x : WindowStatus) : x.byte = match x with
    | .off => 0
    | .live .active _ _ => 1
    | .live .draining _ _ => 2
    | .live .suspended _ _ => 3 := by
  unfold WindowStatus.byte
  split <;> rfl

theorem Disp.byte_eq (d : Disp) : d.byte = match d with
    | .idle => 0
    | .blocked _ => 1
    | .holding _ => 2
    | .issuing _ _ => 3 := by
  cases d <;> rfl

theorem Disp.timerShown_eq (d : Disp) : d.timerShown = match d with
    | .holding timer => timer
    | .idle | .blocked _ | .issuing _ _ => 0xFFFF := by
  cases d <;> rfl

theorem pad32_image (b : Gather) :
    pad32 b.image = (List.range 32).map fun p => (b.bytes.getD p none).getD 0 := by
  rw [pad32_eq]
  refine List.map_congr_left fun p _ => ?_
  unfold Gather.image
  rw [List.getD_eq_getElem?_getD, List.getD_eq_getElem?_getD, List.getElem?_map]
  cases b.bytes[p]? <;> rfl

theorem Entry.readBytes_held (e : Entry) (stage : Stage) (b : Gather) (h : e.slot = .held stage b) :
    e.readBytes = [stage.byte] ++ beBytes 4 e.openOrder.toNat ++ [flagByte e.fault, toByte b.key.window.val]
      ++ beBytes 2 b.key.record ++ [toByte b.key.field, toByte b.bytes.length]
      ++ beBytes 4 (((List.range b.bytes.length).map fun p =>
        if (b.bytes.getD p none).isSome then 2 ^ p else 0).sum)
      ++ (List.range 32).map (fun p => (b.bytes.getD p none).getD 0) ++ [flagByte b.base.isSome]
      ++ (List.range 32).map (fun p => (b.base.getD []).getD p 0) ++ [toByte b.age, toByte b.confirm.length] := by
  unfold Entry.readBytes
  rw [h]
  dsimp only
  rw [writtenMask_sum, pad32_image, pad32_eq]

theorem Entry.readBytes_free (e : Entry) (h : e.slot = .free) :
    e.readBytes = [0] ++ beBytes 4 e.openOrder.toNat ++ [flagByte e.fault] ++ List.replicate 76 0 := by
  unfold Entry.readBytes
  rw [h]

/-! ### The commands' results -/

theorem withWindow_some (w : Fin 8) (rest : List Byte) (run : Fin 8 → State → State × CmdResult) (s : State) :
    withWindow (toByte w.val :: rest) run s = run w s := by
  unfold withWindow
  rw [show byteAt (toByte w.val :: rest) 0 = toByte w.val from rfl, indexOf?_window]

theorem withWindow_none (b : Byte) (rest : List Byte) (hb : 7 < b.toNat)
    (run : Fin 8 → State → State × CmdResult) (s : State) :
    withWindow (b :: rest) run s = s.reply .badArg [] := by
  unfold withWindow
  rw [show byteAt (b :: rest) 0 = b from rfl, indexOf?_none 8 b hb]

theorem State.readLayout_some (l : Fin 16) (s : State) :
    State.readLayout [toByte l.val] s = s.reply .done s.layouts[l].readBytes := by
  unfold State.readLayout
  rw [show byteAt [toByte l.val] 0 = toByte l.val from rfl, indexOf?_layout]

theorem State.readLayout_none (b : Byte) (hb : 15 < b.toNat) (s : State) :
    State.readLayout [b] s = s.reply .badArg [] := by
  unfold State.readLayout
  rw [show byteAt [b] 0 = b from rfl, indexOf?_none 16 b hb]

theorem State.readTable_some (t : Fin 4) (s : State) :
    State.readTable [toByte t.val] s = s.reply .done s.tables[t].readBytes := by
  unfold State.readTable
  rw [show byteAt [toByte t.val] 0 = toByte t.val from rfl, indexOf?_table]

theorem State.readTable_none (b : Byte) (hb : 3 < b.toNat) (s : State) :
    State.readTable [b] s = s.reply .badArg [] := by
  unfold State.readTable
  rw [show byteAt [b] 0 = b from rfl, indexOf?_none 4 b hb]

theorem State.readProgram_some (e : Fin 32) (s : State) :
    State.readProgram [toByte e.val] s = s.reply .done s.programs[e].readBytes := by
  unfold State.readProgram
  rw [show byteAt [toByte e.val] 0 = toByte e.val from rfl, indexOf?_program]

theorem State.readProgram_none (b : Byte) (hb : 31 < b.toNat) (s : State) :
    State.readProgram [b] s = s.reply .badArg [] := by
  unfold State.readProgram
  rw [show byteAt [b] 0 = b from rfl, indexOf?_none 32 b hb]

theorem State.setGlobal_taken (divider enable : Byte) (s : State)
    (h : 8 ≤ divider.toNat ∧ divider.toNat ≤ 250 ∧ enable.toNat ≤ 1) :
    State.setGlobal s [divider, enable] = State.reply
      { s with tickDivider := divider.toNat, alertEnable := decide (enable.toNat = 1) } .done [] := by
  obtain ⟨h8, h250, h1⟩ := h
  unfold State.setGlobal
  dsimp only
  rw [show byteAt [divider, enable] 1 = enable from rfl, show byteAt [divider, enable] 0 = divider from rfl,
    show flagOf? enable = some (decide (enable.toNat = 1)) from ?_]
  · exact if_pos ⟨h8, h250⟩
  · rw [flagOf?_eq]
    rcases Nat.le_one_iff_eq_zero_or_eq_one.mp h1 with h | h <;> rw [h] <;> rfl

theorem State.setGlobal_refused (divider enable : Byte) (s : State)
    (h : divider.toNat < 8 ∨ 250 < divider.toNat ∨ 1 < enable.toNat) :
    State.setGlobal s [divider, enable] = s.reply .badArg [] := by
  unfold State.setGlobal
  dsimp only
  rw [show byteAt [divider, enable] 1 = enable from rfl, show byteAt [divider, enable] 0 = divider from rfl,
    flagOf?_eq]
  split
  · next x hx => exact if_neg (by split_ifs at hx <;> omega)
  · rfl

theorem State.clearAll_off (s : State) (h : ∀ w : Fin 8, s.windows[w].status = .off) :
    s.clearAll = s.clearConfiguration.reply .done [] := by
  unfold State.clearAll
  rw [if_pos]
  rw [List.all_eq_true]
  intro x hx
  obtain ⟨n, hn, rfl⟩ := List.mem_iff_getElem.mp hx
  rw [Vector.getElem_toList]
  exact (Window.isOff_iff _).mpr (h ⟨n, by simpa using hn⟩)

theorem State.clearAll_refused (s : State) (h : ∃ w : Fin 8, s.windows[w].status ≠ .off) :
    s.clearAll = s.reply .badState [] := by
  obtain ⟨w, hw⟩ := h
  unfold State.clearAll
  rw [if_neg]
  intro hall
  exact hw ((Window.isOff_iff _).mp (List.all_eq_true.mp hall s.windows[w] (by simp)))

end Sys2Proof.Machine

namespace Sys2Proof

open Sys2Proof.Machine

/-- Settles O40: each read-back at its release, and its bytes member by member. -/
theorem readBackCommandsReport : Obligations.ReadBackCommandsReport := by
  unfold Obligations.ReadBackCommandsReport
  intro flag two four orAbsent
  have hflag : ∀ b, flagByte b = flag b := fun b => rfl
  have htwo : ∀ n, beBytes 2 n = two n := beBytes_two
  have hfour : ∀ n, beBytes 4 n = four n := beBytes_four
  have hopt : ∀ n, optByte n = orAbsent n := optByte_eq
  refine ⟨fun s => ⟨fun h => State.command_result rfl h rfl, fun h => State.command_result rfl h rfl,
      fun h => State.command_result rfl h rfl, fun w h => ?_, fun l h => ?_, fun t h => ?_, fun e h => ?_,
      fun b => ⟨fun hb h => ?_, fun hb h => ?_, fun hb h => ?_, fun hb h => ?_⟩⟩,
    fun s => ?_, fun e => ⟨fun h => ?_, fun stage b h => ?_⟩, fun r => ?_, fun r left dropped seq => ?_⟩
  · exact State.command_result rfl h (withWindow_some w [] State.readWindow _)
  · exact State.command_result rfl h (State.readLayout_some l _)
  · exact State.command_result rfl h (State.readTable_some t _)
  · exact State.command_result rfl h (State.readProgram_some e _)
  · exact State.command_result rfl h (withWindow_none b [] hb State.readWindow _)
  · exact State.command_result rfl h (State.readLayout_none b hb _)
  · exact State.command_result rfl h (State.readTable_none b hb _)
  · exact State.command_result rfl h (State.readProgram_none b hb _)
  · intro entries windowState dispState
    have hwindows : s.windows.toList.map (fun w => w.status.byte) = (List.finRange 8).map windowState :=
      (mapFinRange_eq s.windows _).trans (List.map_congr_left fun w _ => WindowStatus.byte_eq _)
    unfold State.statusBytes
    rw [hwindows, Disp.byte_eq, Disp.timerShown_eq, htwo, htwo, s.countEntries_eq, s.countEntries_eq,
      s.countEntries_eq]
    rfl
  · rw [Entry.readBytes_free e h, hfour]
    rfl
  · intro written state
    rw [Entry.readBytes_held e stage b h, hfour, hfour, htwo]
    cases stage <;> rfl
  · intro kind action path
    unfold ExcRecord.encode
    rw [htwo, htwo, hfour, hopt, hopt, hopt,
      show r.kind.byte = kind by unfold ExcKind.byte; rfl,
      show r.action.byte = action by unfold ExcAction.byte; rfl,
      show r.path.byte = path by unfold ExcPath.byte; rfl]
  · intro rest
    unfold logBytes
    rw [htwo]
    exact ⟨by simp [rest, flagByte], by simp [rest, flagByte]⟩

/-- Settles O41: both values pass or neither is written. -/
theorem setGlobalWritesBothOrNeither : Obligations.SetGlobalWritesBothOrNeither := by
  refine ⟨fun divider enable s htakes => ?_, fun s => ⟨_, rfl, rfl⟩⟩
  intro t u
  exact ⟨fun h => ⟨State.command_result rfl htakes (State.setGlobal_taken divider enable t h), rfl, rfl⟩,
    fun h => State.command_result rfl htakes (State.setGlobal_refused divider enable t h)⟩

/-- Settles O53, by the definitions of LOG-TAKE and LOG-CLEAR. -/
theorem logTakenAndCleared : Obligations.LogTakenAndCleared := by
  intro s t
  refine ⟨fun h => State.command_result rfl h ?_, fun h => State.command_result rfl h rfl⟩
  show State.takeLog t = _
  unfold State.takeLog
  rw [List.length_tail]
  rfl

/-- Settles O54: the flush of every GATHERING entry; CLEAR by whether a window is not OFF. -/
theorem flushAllAndClear : Obligations.FlushAllAndClear := by
  intro s t
  exact ⟨fun h => State.command_result rfl h rfl,
    fun h hoff => State.command_result rfl h (State.clearAll_off t hoff),
    fun h hlive => State.command_result rfl h (State.clearAll_refused t hlive)⟩

end Sys2Proof
end

section
/-! PROOF. The window commands: WINDOW-WRITE, ACTIVATE with its checks in order, SUSPEND, DEACTIVATE (R2, R161 to
R166, R185, R186). -/

namespace Sys2Proof.Machine

/-! ### WINDOW-WRITE -/

section
variable (s : State) (p : List Byte) (w : Fin 8)

theorem State.writeWindow_taken {cfg : WindowCfg} (hoff : s.windows[w].status = .off)
    (hcfg : parseWindowCfg p = some cfg) : State.writeWindow p w s
      = State.reply { s with windows := s.windows.set w { cfg, status := .off } } .done [] := by
  unfold State.writeWindow
  rw [if_pos ((Window.isOff_iff _).mpr hoff), hcfg]
  simp only [hoff]

theorem State.writeWindow_badValue (hoff : s.windows[w].status = .off) (hcfg : parseWindowCfg p = none) :
    State.writeWindow p w s = s.reply .badArg [] := by
  unfold State.writeWindow
  rw [if_pos ((Window.isOff_iff _).mpr hoff), hcfg]

theorem State.writeWindow_notOff (hoff : s.windows[w].status ≠ .off) :
    State.writeWindow p w s = s.reply .badState [] := by
  unfold State.writeWindow
  rw [if_neg fun h => hoff ((Window.isOff_iff _).mp h)]

end

theorem eq_of_byte_zero {α : Type} {b : Byte} {x y c : α}
    (h : (if b.toNat = 0 then some x else if b.toNat = 1 then some y else none) = some c) :
    c = if b.toNat = 0 then x else y := by
  split_ifs at h ⊢ <;> simp_all

/-! ### ACTIVATE -/

theorem State.overlapping_some (s : State) (w v : Fin 8) (va sa : Nat) (hv : s.overlapCode w va sa v ≠ 0)
    (hlow : ∀ v' : Fin 8, v' < v → s.overlapCode w va sa v' = 0) : s.overlapping w va sa = some v := by
  unfold State.overlapping
  rw [List.find?_eq_some_iff_getElem]
  refine ⟨by simpa using hv, v.val, by simp, by simp, fun j hj => ?_⟩
  simpa using hlow ⟨j, by omega⟩ hj

/-- The overlap code as the sum of its two bits. -/
theorem overlapSum (view store : Bool) : (if view then 1 else 0) + (if store then 2 else 0) < 4
    ∧ (((if view then 1 else 0) + (if store then 2 else 0)) % 2 = 1 ↔ view = true)
    ∧ (2 ≤ (if view then 1 else 0) + (if store then 2 else 0) ↔ store = true) := by
  revert view store
  decide

theorem rangesMeet_exists (a b c d : Nat) :
    rangesMeet a b c d = true ↔ ∃ x, a ≤ x ∧ x < b ∧ c ≤ x ∧ x < d := by
  simpa only [and_assoc] using rangesMeet_iff a b c d

/-- The ranges of a window are well formed on the sizes of its layout (R161 check 2). -/
def WindowCfg.InRange (c : WindowCfg) (va sa : Nat) : Prop :=
  1 ≤ c.recordCount ∧ c.viewEnd va ≤ 2 ^ 32 ∧ c.storeEnd sa ≤ 2 ^ 32

section
variable (s : State) (w : Fin 8) (va sa : Nat)

theorem State.rangeChecks_formed (h : ¬ s.windows[w].cfg.InRange va sa) :
    s.rangeChecks w va sa = some { code := .badArg, data := [2] } := if_pos h

theorem State.rangeChecks_stride (h : s.windows[w].cfg.InRange va sa) (hs : s.windows[w].cfg.stride < sa) :
    s.rangeChecks w va sa = some { code := .badArg, data := [3] } :=
  (if_neg (not_not.mpr h)).trans (if_pos hs)

theorem State.rangeChecks_overlap (h : s.windows[w].cfg.InRange va sa) (hs : sa ≤ s.windows[w].cfg.stride)
    {v : Fin 8} (hv : s.overlapping w va sa = some v) : s.rangeChecks w va sa
      = some { code := .overlap, data := [toByte v.val, toByte (s.overlapCode w va sa v)] } := by
  refine ((if_neg (not_not.mpr h)).trans (if_neg (Nat.not_lt.mpr hs))).trans ?_
  rw [hv]

theorem State.rangeChecks_apart (h : s.windows[w].cfg.InRange va sa) (hs : sa ≤ s.windows[w].cfg.stride)
    (hv : ∀ v : Fin 8, s.overlapCode w va sa v = 0) : s.rangeChecks w va sa
      = if s.windows[w].cfg.ack = .confirmed ∧ s.windows[w].cfg.gatherTimeout = 0 then
          some { code := .badArg, data := [5] } else none := by
  refine ((if_neg (not_not.mpr h)).trans (if_neg (Nat.not_lt.mpr hs))).trans ?_
  rw [(s.overlapping_none w va sa).mpr hv]

end

section
variable {s : State} {w : Fin 8} (hlocks : s.windows[w].locks = false)
include hlocks

theorem State.activateWindow_refused {va sa : Nat} {fields : List FieldDesc} {r : CmdResult}
    (hl : s.layouts[s.windows[w].cfg.layout] = .built .valid va sa fields)
    (hc : commitCheck s.tables s.programs va sa fields = none) (hr : s.rangeChecks w va sa = some r) :
    State.activateWindow w s = s.reply r.code r.data := by
  unfold State.activateWindow
  rw [hlocks]
  show State.tryActivate s w = _
  unfold State.tryActivate
  dsimp only
  rw [hl]
  dsimp only
  rw [hc, hr]
  rfl

theorem State.activateWindow_active {va sa : Nat} {fields : List FieldDesc}
    (hl : s.layouts[s.windows[w].cfg.layout] = .built .valid va sa fields)
    (hc : commitCheck s.tables s.programs va sa fields = none) (hr : s.rangeChecks w va sa = none) :
    State.activateWindow w s = State.reply { s with
      windows := s.windows.set w { s.windows[w] with status := .live .active va sa }
      reoffer := offersAgain s } .done (beBytes 2 va ++ beBytes 2 sa) := by
  unfold State.activateWindow
  rw [hlocks]
  show State.tryActivate s w = _
  unfold State.tryActivate
  dsimp only
  rw [hl]
  dsimp only
  rw [hc, hr]
  show State.reply (s.makeActive w va sa) .done _ = _
  unfold State.makeActive
  rw [State.noteWindowChange_eq]
  rfl

theorem State.activateWindow_invalid
    (hl : ∀ va sa fields, s.layouts[s.windows[w].cfg.layout] ≠ .built .valid va sa fields) :
    State.activateWindow w s = s.reply .invalid
      (s.layouts[s.windows[w].cfg.layout].refusalData s.windows[w].cfg.layout) := by
  unfold State.activateWindow
  rw [hlocks]
  show State.tryActivate s w = _
  unfold State.tryActivate
  dsimp only
  split
  · next va sa fields h => exact absurd h (hl va sa fields)
  all_goals rfl

end

theorem State.activateWindow_locked (s : State) (w : Fin 8) (h : s.windows[w].locks = true) :
    State.activateWindow w s = s.reply .badState [] := by
  unfold State.activateWindow
  rw [if_pos h]

/-! ### SUSPEND and DEACTIVATE -/

theorem State.setMode_live (s : State) (w : Fin 8) (mode : LiveMode) {mode' : LiveMode} {va sa : Nat}
    (h : s.windows[w].status = .live mode' va sa) : s.setMode w mode
      = { s with windows := s.windows.set w { s.windows[w] with status := .live mode va sa } } := by
  unfold State.setMode
  rw [Window.withMode_of_live mode h]

/-- What SUSPEND has done once the window's entries flush. -/
def State.drainBegun (s : State) (w : Fin 8) (va sa : Nat) : State :=
  { s with windows := s.windows.set w { s.windows[w] with status := .live .draining va sa } }.startFlushes
    (s.gatheringWhere fun k => k.window == w)

theorem State.drainBegun_windows (s : State) (w : Fin 8) (va sa : Nat) : (s.drainBegun w va sa).windows
    = s.windows.set w { s.windows[w] with status := .live .draining va sa } :=
  (State.startFlushes_same _ _).windows

theorem State.drainBegun_status (s : State) (w : Fin 8) (va sa : Nat) :
    (s.drainBegun w va sa).windows[w] = { s.windows[w] with status := .live .draining va sa } := by
  simp only [State.drainBegun_windows]
  exact Vector.getElem_set_self ..

theorem State.drainBegun_suspended (s : State) (w : Fin 8) (va sa : Nat) :
    (s.drainBegun w va sa).setMode w .suspended = { s.drainBegun w va sa with
      windows := s.windows.set w { s.windows[w] with status := .live .suspended va sa } } := by
  rw [State.setMode_live _ w .suspended (congrArg Window.status (s.drainBegun_status w va sa)),
    s.drainBegun_status, s.drainBegun_windows, Vector.set_set]

/-- SUSPEND of an ACTIVE window ends with the part that the drain condition gives. -/
theorem State.suspendWindow_active {s ended : State} {w : Fin 8} {va sa : Nat}
    (h : s.windows[w].status = .live .active va sa)
    (he : (if (s.drainBegun w va sa).drained w then (s.drainBegun w va sa).setMode w .suspended
      else s.drainBegun w va sa) = ended) :
    State.suspendWindow w s = State.reply { ended with reoffer := offersAgain ended } .done
      [ended.windows[w].status.byte, toByte (s.gatheringWhere fun k => k.window == w).length] := by
  rw [← State.noteWindowChange_eq, ← he]
  unfold State.suspendWindow
  simp only [h]
  unfold State.beginDrain
  rw [s.setMode_live w .draining h]
  rfl

theorem State.suspendWindow_other {s : State} {w : Fin 8}
    (h : ∀ va sa, s.windows[w].status ≠ .live .active va sa) :
    State.suspendWindow w s = s.reply .badState [] := by
  unfold State.suspendWindow
  split
  · next va sa hw => exact absurd hw (h va sa)
  all_goals rfl

theorem State.deactivateWindow_suspended {s : State} {w : Fin 8} {va sa : Nat}
    (h : s.windows[w].status = .live .suspended va sa) : State.deactivateWindow w s = State.reply { s with
      windows := s.windows.set w { s.windows[w] with status := .off }
      reoffer := offersAgain s } .done [] := by
  unfold State.deactivateWindow
  simp only [h]
  rw [State.noteWindowChange_eq]
  rfl

theorem State.deactivateWindow_off {s : State} {w : Fin 8} (h : s.windows[w].status = .off) :
    State.deactivateWindow w s = s.reply .done [] := by
  unfold State.deactivateWindow
  simp only [h]

theorem State.deactivateWindow_locked {s : State} {w : Fin 8} (h : s.windows[w].locks = true) :
    State.deactivateWindow w s = s.reply .badState [] := by
  unfold Window.locks at h
  unfold State.deactivateWindow
  split at h
  · next hw => simp only [hw]
  · next hw => simp only [hw]
  all_goals exact absurd h (by decide)

end Sys2Proof.Machine

namespace Sys2Proof

open Sys2Proof.Machine

/-- Settles O42: the command's three outcomes, and the record its values spell. -/
theorem windowWriteReplacesRecord : Obligations.WindowWriteReplacesRecord := by
  refine ⟨fun w payload s hlen hhead htakes => ?_, fun b rest s hb hrest htakes => ?_, fun payload hlen => ?_⟩
  · obtain ⟨rest, rfl⟩ : ∃ rest, payload = toByte w.val :: rest := by
      cases payload with
      | nil => simp at hhead
      | cons b rest =>
        injection hhead with hb
        exact ⟨rest, by rw [hb]⟩
    intro t
    have hrun : ∀ c data u, State.writeWindow (toByte w.val :: rest) w t = State.reply u c data →
        exec (.windowWrite (toByte w.val :: rest)) s = .next (u.putResult c 0x10 data) := fun c data u h =>
      State.command_result hlen htakes ((withWindow_some w rest _ t).trans h)
    exact ⟨fun cfg hoff hcfg => hrun _ _ _ (t.writeWindow_taken _ w hoff hcfg),
      fun hoff hcfg => hrun _ _ _ (t.writeWindow_badValue _ w hoff hcfg),
      fun hoff => hrun _ _ _ (t.writeWindow_notOff _ w hoff)⟩
  · exact State.command_result (by rw [List.length_cons, hrest]) htakes (withWindow_none b rest hb _ _)
  · intro one two four
    have htwo : ∀ k, k + 2 ≤ 26 → numAt payload k 2 = two k := fun k hk => numAt_two payload k (by omega)
    have hfour : ∀ k, k + 4 ≤ 26 → numAt payload k 4 = four k := fun k hk => numAt_four payload k (by omega)
    refine ⟨?_, fun cfg hcfg => ?_⟩
    · rw [parseWindowCfg_eq_none, hfour 1 (by decide), hfour 5 (by decide), htwo 14 (by decide), htwo 21 (by decide)]
      rfl
    · obtain ⟨-, hlayout, horder, hpolicy, hack, hview, hcount, hstore, hstride, htimeout, hhold, hfill, hvsub, hssub,
        hmark⟩ := (parseWindowCfg_eq_some payload cfg).mp hcfg
      rw [byteOrderOf?_eq] at horder
      rw [policyOf?_eq] at hpolicy
      rw [ackOf?_eq] at hack
      exact ⟨hview.trans (hfour 1 (by decide)), hcount.trans (hfour 5 (by decide)),
        ((indexOf?_eq_some _ _ _).mp hlayout).symm, hstore.trans (hfour 10 (by decide)),
        hstride.trans (htwo 14 (by decide)), eq_of_byte_zero horder, congrArg BitVec.toNat hmark,
        eq_of_byte_zero hpolicy, eq_of_byte_zero hack, htimeout, hhold.trans (htwo 21 (by decide)),
        congrArg BitVec.toNat hfill, congrArg BitVec.toNat hvsub, congrArg BitVec.toNat hssub⟩

/-- Settles O43: the first check that fails decides; two ranges meet where an address lies in both. -/
theorem activateLatchesSizes : Obligations.ActivateLatchesSizes := by
  refine ⟨fun w s htakes => ?_, fun s w v va sa => ?_, fun b s hb htakes => ?_⟩
  · intro t c
    refine ⟨fun va sa fields hlocks hlayout hcommit => ?_, fun hlocks => ?_, fun hlayout hlocks => ?_⟩
    · intro formed refused
      have hrefused : ∀ code data, t.rangeChecks w va sa = some { code, data } → refused code data :=
        fun code data hr =>
          State.windowCommand_result htakes (State.activateWindow_refused hlocks hlayout hcommit hr)
      refine ⟨fun hcount hview hstore hstride hover hack => ?_, fun hf => ?_, fun hf hs => ?_,
        fun v hf hs hv hlow => ?_, fun hf hs hv hack htimeout => ?_⟩
      · have hchecks : t.rangeChecks w va sa = none := by
          rw [t.rangeChecks_apart w va sa ⟨hcount, hview, hstore⟩ hstride hover, if_neg]
          rintro ⟨hconfirmed, hzero⟩
          rcases hack with h | h
          · exact absurd (h.symm.trans hconfirmed) (by decide)
          · exact absurd hzero (Nat.one_le_iff_ne_zero.mp h)
        exact State.windowCommand_result htakes (State.activateWindow_active hlocks hlayout hcommit hchecks)
      · exact hrefused _ _ (t.rangeChecks_formed w va sa hf)
      · exact hrefused _ _ (t.rangeChecks_stride w va sa hf hs)
      · exact hrefused _ _ (t.rangeChecks_overlap w va sa hf hs (t.overlapping_some w v va sa hv hlow))
      · exact hrefused _ _ ((t.rangeChecks_apart w va sa hf hs hv).trans (if_pos ⟨hack, htimeout⟩))
    · exact State.windowCommand_result htakes (t.activateWindow_locked w hlocks)
    · exact State.windowCommand_result htakes (State.activateWindow_invalid hlocks hlayout)
  · intro c d
    refine ⟨fun h => ?_, fun mode va' sa' hne hv => ?_⟩
    · unfold State.overlapCode
      rcases h with rfl | h
      · dsimp only
        split
        · rfl
        · exact if_pos rfl
      · simp only [h]
    · rw [s.overlapCode_live w v va sa hne hv]
      obtain ⟨hlt, hview, hstore⟩ := overlapSum (rangesMeet c.viewBase (c.viewEnd va) d.viewBase (d.viewEnd va'))
        (rangesMeet c.storeBase (c.storeEnd sa) d.storeBase (d.storeEnd sa'))
      exact ⟨hlt, hview.trans (rangesMeet_exists ..), hstore.trans (rangesMeet_exists ..)⟩
  · exact congrArg Host.Outcome.next (s.windowCommand_none 0x12 b _ hb htakes)

/-- Settles O44: the drain condition is that of the flushed part, and decides the window's state. -/
theorem suspendStartsDrain : Obligations.SuspendStartsDrain := by
  refine ⟨fun w s htakes => ?_, fun b s hb htakes => congrArg Host.Outcome.next
    (s.windowCommand_none 0x13 b _ hb htakes)⟩
  intro t
  refine ⟨fun va sa hw => ?_, fun hw => State.windowCommand_result htakes (State.suspendWindow_other hw)⟩
  intro victims flushed drained
  have hdrained : flushed.drained w = true ↔ drained := flushed.drained_iff w
  have hstatus : flushed.windows[w] = { t.windows[w] with status := .live .draining va sa } :=
    t.drainBegun_status w va sa
  refine ⟨fun hnot => State.windowCommand_result htakes ?_, fun hyes => State.windowCommand_result htakes ?_⟩
  · have h := State.suspendWindow_active (ended := flushed) hw (if_neg (mt hdrained.mp hnot))
    rw [hstatus] at h
    exact h
  · have h := State.suspendWindow_active hw
      ((if_pos (hdrained.mpr hyes)).trans (t.drainBegun_suspended w va sa))
    simp only [Fin.getElem_fin, Vector.getElem_set_self] at h
    exact h

/-- Settles O45: by the state of the window. -/
theorem deactivateTurnsOff : Obligations.DeactivateTurnsOff := by
  refine ⟨fun w s htakes => ?_, fun b s hb htakes => congrArg Host.Outcome.next
    (s.windowCommand_none 0x14 b _ hb htakes)⟩
  exact ⟨fun va sa hw => State.windowCommand_result htakes (State.deactivateWindow_suspended hw),
    fun hw => State.windowCommand_result htakes (State.deactivateWindow_off hw),
    fun hw => State.windowCommand_result htakes (State.deactivateWindow_locked hw)⟩

end Sys2Proof
end

section
/-! PROOF. The layout commands: LAYOUT-BEGIN, FIELD-APPEND with the descriptor's check, LAYOUT-COMMIT with the
commit checks in order, LAYOUT-ERASE (R7 to R14, R187, R188). -/

namespace Sys2Proof.Machine

/-! ### LAYOUT-BEGIN -/

theorem numAt_first (b : Byte) (n v : Nat) (rest : List Byte) (h : v < 256 ^ n) :
    numAt (b :: (beBytes n v ++ rest)) 1 n = v := by
  show beNat ((beBytes n v ++ rest).take n) = v
  rw [List.take_left' (beBytes_length n v), beNat_beBytes n v h]

theorem numAt_second (b : Byte) (n v n' v' : Nat) (h : v' < 256 ^ n') :
    numAt (b :: (beBytes n v ++ beBytes n' v')) (n + 1) n' = v' := by
  show beNat (((beBytes n v ++ beBytes n' v').drop n).take n') = v'
  rw [List.drop_left' (beBytes_length n v), List.take_of_length_le (by rw [beBytes_length]),
    beNat_beBytes n' v' h]

theorem State.freeDescriptors_sum (s : State) : s.freeDescriptors
    = 128 - ((List.finRange 16).map fun l => match s.layouts[l] with
      | .empty => 0
      | .built _ _ _ fields => fields.length).sum := by
  unfold State.freeDescriptors
  rw [mapFinRange_eq s.layouts]
  refine congrArg (fun l : List Nat => 128 - l.sum) (List.map_congr_left fun l _ => ?_)
  cases s.layouts[l] <;> rfl

section
variable (s : State) {i : Byte} {va sa : Nat} (hva : va < 2 ^ 16) (hsa : sa < 2 ^ 16)
include hva hsa

theorem State.beginLayout_badArg (h : 15 < i.toNat ∨ va < 8 ∨ 256 < va ∨ va % 8 ≠ 0 ∨ sa < 1 ∨ 256 < sa) :
    State.beginLayout (i :: (beBytes 2 va ++ beBytes 2 sa)) s = s.replyFree .badArg := by
  unfold State.beginLayout
  rw [numAt_first i 2 va _ hva, numAt_second i 2 va 2 sa hsa]
  dsimp only
  split
  · rfl
  · next l hl =>
    have hi : i.toNat = l.val := (indexOf?_eq_some 16 i l).mp hl
    exact if_pos (by omega)

theorem State.beginLayout_sized (l : Fin 16) (hi : i = toByte l.val)
    (h : 8 ≤ va ∧ va ≤ 256 ∧ va % 8 = 0 ∧ 1 ≤ sa ∧ sa ≤ 256) :
    State.beginLayout (i :: (beBytes 2 va ++ beBytes 2 sa)) s
      = if s.layoutInUse l then s.replyFree .busy else (s.setLayout l (.built .draft va sa [])).replyFree .done := by
  unfold State.beginLayout
  rw [numAt_first i 2 va _ hva, numAt_second i 2 va 2 sa hsa]
  dsimp only
  rw [show byteAt (i :: (beBytes 2 va ++ beBytes 2 sa)) 0 = toByte l.val from hi, indexOf?_layout]
  exact if_neg (not_not.mpr h)

end

/-! ### LAYOUT-ERASE and FIELD-APPEND -/

/-- ACTIVATE on a window whose layout is EMPTY fails its layout check. -/
theorem State.activateWindow_empty {s : State} {w : Fin 8} {l : Fin 16} (hlocks : s.windows[w].locks = false)
    (hw : s.windows[w].cfg.layout = l) (hl : s.layouts[l] = .empty) :
    (State.activateWindow w s).2 = { code := .invalid, data := [toByte l.val, 0, 0, 0xFF] } := by
  subst hw
  rw [State.activateWindow_invalid hlocks fun va sa fields h => by rw [hl] at h; exact absurd h (by simp), hl]
  rfl

theorem State.appendField_none (s : State) (b : Byte) (desc : List Byte) (h : 15 < b.toNat) :
    State.appendField (b :: desc) s = s.replyFree .badArg := by
  unfold State.appendField
  rw [show byteAt (b :: desc) 0 = b from rfl, indexOf?_none 16 b h]

theorem State.appendField_notDraft (s : State) (l : Fin 16) (desc : List Byte)
    (h : ∀ va sa fields, s.layouts[l] ≠ .built .draft va sa fields) :
    State.appendField (toByte l.val :: desc) s = s.replyFree .badState := by
  unfold State.appendField
  rw [show byteAt (toByte l.val :: desc) 0 = toByte l.val from rfl, indexOf?_layout]
  dsimp only
  split
  · next va sa fields hl => exact absurd hl (h va sa fields)
  all_goals rfl

theorem State.appendField_draft (s : State) (l : Fin 16) (desc : List Byte) {va sa : Nat}
    {fields : List FieldDesc} (h : s.layouts[l] = .built .draft va sa fields) :
    State.appendField (toByte l.val :: desc) s = match parseDesc desc with
      | none => s.replyFree .badArg
      | some f =>
        if 24 ≤ fields.length then s.replyFree .noSpace
        else if s.freeDescriptors = 0 then s.replyFree .noSpace
        else
          let t := s.setLayout l (.built .draft va sa (fields ++ [f]))
          t.reply .done [toByte fields.length, t.freeByte] := by
  unfold State.appendField
  rw [show byteAt (toByte l.val :: desc) 0 = toByte l.val from rfl, indexOf?_layout]
  dsimp only
  rw [h]
  rfl

/-- The code table that a table byte names. -/
theorem table_of_byte {b : Byte} {t : Option (Fin 4)} (h : tableOf? b = some t) :
    t.map (·.val) = if b.toNat = 255 then none else some b.toNat := by
  rw [tableOf?_eq] at h
  split_ifs at h ⊢ with h1 h2 h2
  · omega
  · injection h with h
    rw [← h]
    rfl
  · injection h with h
    rw [← h]
    rfl

/-! ### LAYOUT-COMMIT -/

section
variable (s : State) (l : Fin 16) {status : LayoutStatus} {va sa : Nat} {fields : List FieldDesc}
  (hl : s.layouts[l] = .built status va sa fields)
include hl

theorem State.commitLayout_passed (hc : commitCheck s.tables s.programs va sa fields = none) :
    State.commitLayout [toByte l.val] s = (s.setLayout l (.built .valid va sa fields)).reply .done [] := by
  unfold State.commitLayout
  rw [show byteAt [toByte l.val] 0 = toByte l.val from rfl, indexOf?_layout]
  dsimp only
  rw [hl]
  dsimp only
  rw [hc]

theorem State.commitLayout_failed {reason : InvalidReason} {field : Option Nat}
    (hc : commitCheck s.tables s.programs va sa fields = some (reason, field)) :
    State.commitLayout [toByte l.val] s = (s.setLayout l (.built (.invalid reason field) va sa fields)).reply
      .invalid [reason.byte, optByte field] := by
  unfold State.commitLayout
  rw [show byteAt [toByte l.val] 0 = toByte l.val from rfl, indexOf?_layout]
  dsimp only
  rw [hl]
  dsimp only
  rw [hc]

end

/-! ### The commit checks as the spec states them (R13) -/

/-- A check as the spec states it and a test of the model decide the same of every field. -/
def SameCheck (fields : List FieldDesc) (fails : Nat → FieldDesc → Prop) (bad : FieldDesc → Nat → Bool) : Prop :=
  ∀ j f, fields[j]? = some f → (fails j f ↔ bad f j = true)

/-- Every check of a list passes on every field. -/
def ChecksPass (fields : List FieldDesc) (checks : List (InvalidReason × (Nat → FieldDesc → Prop))) (n : Nat) :
    Prop := ∀ m < n, ∀ c ∈ checks[m]?, ∀ j f, fields[j]? = some f → ¬ c.2 j f

section
variable {tables : Vector CodeTable 4} {programs : Vector Program 32} {va sa : Nat} {fields : List FieldDesc}
  {checks : List (InvalidReason × (Nat → FieldDesc → Prop))}

theorem SameCheck.bad_false {fails : Nat → FieldDesc → Prop} {bad : FieldDesc → Nat → Bool}
    (h : SameCheck fields fails bad) {j : Nat} {f : FieldDesc} (hf : fields[j]? = some f) (hn : ¬ fails j f) :
    bad f j = false := by
  rw [← Bool.not_eq_true]
  exact fun hb => hn ((h j f hf).mpr hb)

theorem testFields_first {bad : FieldDesc → Nat → Bool} {reason : InvalidReason} {j : Nat} {f : FieldDesc}
    (hf : fields[j]? = some f) (hb : bad f j = true)
    (hl : ∀ j' f', j' < j → fields[j']? = some f' → bad f' j' = false) :
    testFields fields (reason, bad) = some (reason, some j) := by
  unfold testFields
  rw [firstFailing_some fields bad j f hf hb hl]
  rfl

theorem testFields_none {bad : FieldDesc → Nat → Bool} {reason : InvalidReason}
    (h : ∀ j f, fields[j]? = some f → bad f j = false) : testFields fields (reason, bad) = none := by
  unfold testFields
  rw [firstFailing_none fields bad h]
  rfl

theorem findSome?_of_getElem? {α β : Type} {l : List α} {f : α → Option β} {n : Nat} {x : α} {y : β}
    (hx : l[n]? = some x) (hy : f x = some y) (hlow : ∀ m < n, ∀ z ∈ l[m]?, f z = none) :
    l.findSome? f = some y := by
  induction l generalizing n with
  | nil => simp at hx
  | cons a rest ih =>
    cases n with
    | zero =>
      simp only [List.getElem?_cons_zero, Option.some.injEq] at hx
      rw [List.findSome?_cons, hx, hy]
    | succ n =>
      rw [List.findSome?_cons, hlow 0 (Nat.succ_pos n) a rfl]
      exact ih hx fun m hm z hz => hlow (m + 1) (Nat.succ_lt_succ hm) z hz

/-- The outcome of the commit checks, from checks that each agree with the model's test once the ones before it
have passed. -/
theorem commitCheck_of_checks (hne : fields ≠ [])
    (hlen : checks.length = (commitTests tables programs va sa fields).length)
    (hsame : ∀ n reason fails, checks[n]? = some (reason, fails) → ChecksPass fields checks n →
      ∃ bad, (commitTests tables programs va sa fields)[n]? = some (reason, bad) ∧ SameCheck fields fails bad) :
    (∀ n reason fails j f, checks[n]? = some (reason, fails) → ChecksPass fields checks n →
      fields[j]? = some f → fails j f → (∀ j' f', j' < j → fields[j']? = some f' → ¬ fails j' f') →
      commitCheck tables programs va sa fields = some (reason, some j))
    ∧ (ChecksPass fields checks checks.length → commitCheck tables programs va sa fields = none) := by
  have hpassed : ∀ n, ChecksPass fields checks n → ∀ m < n, ∀ c ∈ (commitTests tables programs va sa fields)[m]?,
      testFields fields c = none := by
    intro n hpass m hm c hc
    have hmlen : m < checks.length := by
      rw [hlen]
      exact (List.getElem?_eq_some_iff.mp hc).1
    obtain ⟨bad, hbad, hagree⟩ := hsame m checks[m].1 checks[m].2 (List.getElem?_eq_getElem hmlen)
      fun m' hm' => hpass m' (hm'.trans hm)
    rw [Option.mem_def, hbad, Option.some.injEq] at hc
    rw [← hc]
    exact testFields_none fun j f hf => hagree.bad_false hf
      (hpass m hm _ (List.getElem?_eq_getElem hmlen) j f hf)
  have hnonempty : ¬ fields.isEmpty = true := by simpa using hne
  refine ⟨fun n reason fails j f hn hpass hf hfails hlow => ?_, fun hpass => ?_⟩
  · obtain ⟨bad, hbad, hagree⟩ := hsame n reason fails hn hpass
    rw [commitCheck_eq, if_neg hnonempty]
    exact findSome?_of_getElem? hbad (testFields_first hf ((hagree j f hf).mp hfails)
      fun j' f' hj' hf' => hagree.bad_false hf' (hlow j' f' hj' hf')) (hpassed n hpass)
  · rw [commitCheck_eq, if_neg hnonempty, List.findSome?_eq_none_iff]
    intro c hc
    obtain ⟨m, hm⟩ := List.mem_iff_getElem?.mp hc
    exact hpassed _ hpass m (by rw [hlen]; exact (List.getElem?_eq_some_iff.mp hm).1) c hm

theorem orderBad_iff (f : FieldDesc) (j : Nat) : orderBad fields f j = true
    ↔ 1 ≤ j ∧ ∃ p, fields[j - 1]? = some p ∧ f.viewOff < p.viewOff + p.viewLen := by
  unfold orderBad
  rw [Bool.and_eq_true, decide_eq_true_eq]
  refine and_congr_right fun _ => ?_
  cases fields[j - 1]? <;> simp

theorem storeOverlapBad_iff (f : FieldDesc) (j : Nat) : storeOverlapBad fields f j = true
    ↔ ∃ i p a, i < j ∧ fields[i]? = some p ∧ f.storeOff ≤ a ∧ a < f.storeOff + f.storeLen
      ∧ p.storeOff ≤ a ∧ a < p.storeOff + p.storeLen := by
  unfold storeOverlapBad
  rw [List.any_eq_true]
  constructor
  · rintro ⟨p, hp, hmeet⟩
    obtain ⟨i, hi⟩ := List.mem_iff_getElem?.mp hp
    obtain ⟨a, ha⟩ := (rangesMeet_exists ..).mp hmeet
    rw [List.getElem?_take] at hi
    split_ifs at hi with hij
    exact ⟨i, p, a, hij, hi, ha⟩
  · rintro ⟨i, p, a, hij, hi, ha⟩
    refine ⟨p, List.mem_iff_getElem?.mpr ⟨i, ?_⟩, (rangesMeet_exists ..).mpr ⟨a, ha⟩⟩
    rw [List.getElem?_take, if_pos hij, hi]

theorem boundsBad_iff (f : FieldDesc) (j : Nat) : boundsBad va sa f j = true
    ↔ va < f.viewOff + f.viewLen ∨ sa < f.storeOff + f.storeLen := by
  unfold boundsBad
  rw [Bool.or_eq_true, decide_eq_true_eq, decide_eq_true_eq]

theorem loadBad_iff (f : FieldDesc) (j : Nat) : loadBad tables programs f j = true
    ↔ (∃ t, f.kind.table? = some t ∧ tables[t] = .empty) ∨ ∃ e, f.kind.program? = some e ∧ programs[e] = .empty := by
  unfold loadBad
  rw [Bool.or_eq_true]
  refine or_congr ?_ ?_
  · cases f.kind.table? with
    | none => simp
    | some t => simp [← CodeTable.isLoaded_false]
  · cases f.kind.program? with
    | none => simp
    | some e => simp [← Program.isLoaded_false]

theorem FieldKind.program?_eq_some (k : FieldKind) (e : Fin 32) :
    k.program? = some e ↔ ∃ t sign, k = .edited t e sign := by
  cases k <;> simp [FieldKind.program?]

/-- What a test of a field's program says once the program is LOADED. -/
theorem programBad_iff (f : FieldDesc) (test : Nat → Nat → Bool)
    (hload : ∀ e, f.kind.program? = some e → programs[e] ≠ .empty) :
    (match f.kind.program? with
      | some e => test programs[e].outLen programs[e].digits
      | none => false) = true
    ↔ ∃ t e sign steps outLen digits, f.kind = .edited t e sign
      ∧ programs[e] = .loaded steps outLen digits ∧ test outLen digits = true := by
  constructor
  · intro h
    split at h
    · next e he =>
      obtain ⟨t, sign, hk⟩ := (FieldKind.program?_eq_some _ e).mp he
      cases hp : programs[e] with
      | empty => exact absurd hp (hload e he)
      | loaded steps outLen digits =>
        rw [hp] at h
        exact ⟨t, e, sign, steps, outLen, digits, hk, hp, h⟩
    · exact absurd h (by decide)
  · rintro ⟨t, e, sign, steps, outLen, digits, hk, hp, h⟩
    rw [(FieldKind.program?_eq_some _ e).mpr ⟨t, sign, hk⟩]
    dsimp only
    rw [hp]
    exact h

end

end Sys2Proof.Machine

namespace Sys2Proof

open Sys2Proof.Machine

/-- Settles O46: index, sizes, use; the free-descriptor count is that of the part after the command. -/
theorem layoutBeginStartsDraft : Obligations.LayoutBeginStartsDraft := by
  refine ⟨fun i va sa s hva hsa => ?_, State.layoutInUse_iff, State.freeDescriptors_sum⟩
  intro payload htakes t
  have hrun : ∀ u c data, State.beginLayout payload t = State.reply u c data →
      exec (.layoutBegin payload) s = .next (u.putResult c 0x20 data) := fun u c data h =>
    State.command_result rfl htakes h
  refine ⟨fun h => hrun _ _ _ (t.beginLayout_badArg hva hsa h), fun l hi h8 h256 hmod h1 hsa256 => ?_⟩
  have hsized := t.beginLayout_sized hva hsa l hi ⟨h8, h256, hmod, h1, hsa256⟩
  refine ⟨fun hu => hrun _ _ _ (hsized.trans (if_pos hu)), fun hu => ?_⟩
  exact hrun _ _ _ (hsized.trans (if_neg (by rw [hu]; decide)))

/-- Settles O47: a window that named the layout finds it EMPTY. -/
theorem layoutEraseEmpties : Obligations.LayoutEraseEmpties := by
  intro i s htakes t
  refine ⟨fun hi => State.command_result rfl htakes ?_, fun l hi => ?_⟩
  · show State.eraseLayout [i] t = _
    unfold State.eraseLayout
    rw [show byteAt [i] 0 = i from rfl, indexOf?_none 16 i hi]
    rfl
  · subst hi
    have herase : State.eraseLayout [toByte l.val] t
        = if t.layoutInUse l then t.replyFree .busy else (t.setLayout l .empty).replyFree .done := by
      unfold State.eraseLayout
      rw [show byteAt [toByte l.val] 0 = toByte l.val from rfl, indexOf?_layout]
    refine ⟨fun hu => State.command_result rfl htakes (herase.trans (if_pos hu)), fun hu => ?_⟩
    intro u
    refine ⟨State.command_result rfl htakes (herase.trans (if_neg (by rw [hu]; decide))), fun w hlocks hw => ?_⟩
    exact State.activateWindow_empty hlocks hw (Vector.getElem_set_self ..)

/-- Settles O48: the checks in their order, and what well-formed descriptor bytes spell. -/
theorem fieldAppendExtendsDraft : Obligations.FieldAppendExtendsDraft := by
  refine ⟨fun l desc s hlen htakes => ?_, fun b desc s hb hlen htakes => ?_, fun desc hlen => ?_⟩
  · intro t
    have hrun : ∀ u c data, State.appendField (toByte l.val :: desc) t = State.reply u c data →
        exec (.fieldAppend (toByte l.val :: desc)) s = .next (u.putResult c 0x21 data) := fun u c data h =>
      State.command_result (by rw [List.length_cons, hlen]) htakes h
    refine ⟨fun va sa fields hl => ?_, fun hnot => hrun _ _ _ (t.appendField_notDraft l desc hnot)⟩
    have happend := t.appendField_draft l desc hl
    refine ⟨fun f hf hroom hpool => ?_, fun hf => ?_, fun hf hfull => ?_⟩
    · rw [hf] at happend
      exact hrun _ _ _ (happend.trans ((if_neg (by omega)).trans (if_neg (by omega))))
    · rw [hf] at happend
      exact hrun _ _ _ happend
    · obtain ⟨f, hf⟩ := Option.isSome_iff_exists.mp hf
      rw [hf] at happend
      refine hrun _ _ _ (happend.trans ?_)
      dsimp only
      rcases hfull with h | h
      · exact if_pos h
      · rw [if_pos h]
        exact ite_self _
  · exact State.command_result (by rw [List.length_cons, hlen]) htakes (State.appendField_none _ b desc hb)
  · intro n tableOk integer wellFormed
    refine ⟨?_, fun f hf => ?_⟩
    · rw [← Option.not_isSome_iff_eq_none]
      exact not_congr (parseDesc_isSome desc)
    · intro table sign
      obtain ⟨hkind, hread, h0, h1, h2, h3, -⟩ := (parseDesc_eq_some desc f).mp hf
      have hsign : ∀ {sg}, signOf? (byteAt desc 7) = some sg → sg = sign := fun h => by
        rw [signOf?_eq] at h
        exact eq_of_byte_zero h
      have hflag : f.readOnly = decide (n 10 = 1) := by
        rw [flagOf?_eq] at hread
        show f.readOnly = decide ((byteAt desc 10).toNat = 1)
        split_ifs at hread with hz ho
        · injection hread with hread
          rw [← hread, hz]
          rfl
        · injection hread with hread
          rw [← hread, ho]
          rfl
      refine ⟨h0, h1, h2, h3, hflag, ?_⟩
      rw [parseKind_eq_some] at hkind
      cases hk : f.kind with
      | raw =>
        rw [hk] at hkind
        have h4 : n 4 = 0 := hkind
        exact ⟨fun _ => rfl, fun h => absurd (h4.symm.trans h) (by decide),
          fun h => absurd (h4.symm.trans h) (by decide), fun h => absurd (h4.symm.trans h) (by decide)⟩
      | text t viewFill storeFill =>
        rw [hk] at hkind
        obtain ⟨h4, ht, rfl, rfl⟩ := hkind
        have h4 : n 4 = 1 := h4
        exact ⟨fun h => absurd (h4.symm.trans h) (by decide), fun _ => ⟨t, table_of_byte ht, rfl⟩,
          fun h => absurd (h4.symm.trans h) (by decide), fun h => absurd (h4.symm.trans h) (by decide)⟩
      | packed sg =>
        rw [hk] at hkind
        obtain ⟨h4, hs⟩ := hkind
        have h4 : n 4 = 2 := h4
        exact ⟨fun h => absurd (h4.symm.trans h) (by decide), fun h => absurd (h4.symm.trans h) (by decide),
          fun _ => by rw [hsign hs], fun h => absurd (h4.symm.trans h) (by decide)⟩
      | edited t e sg =>
        rw [hk] at hkind
        obtain ⟨h4, ht, he, hs⟩ := hkind
        have h4 : n 4 = 3 := h4
        exact ⟨fun h => absurd (h4.symm.trans h) (by decide), fun h => absurd (h4.symm.trans h) (by decide),
          fun h => absurd (h4.symm.trans h) (by decide),
          fun _ => ⟨t, e, table_of_byte ht, ((indexOf?_eq_some _ _ _).mp he).symm, by rw [hsign hs]⟩⟩

/-- Settles O49: each check is the model's test of the same place once the checks before it have passed. -/
theorem layoutCommitDecides : Obligations.LayoutCommitDecides := by
  refine ⟨fun i s htakes => ?_, fun tables programs va sa fields => ?_⟩
  · intro t
    refine ⟨fun hi => State.command_result rfl htakes ?_, fun l hi => ?_⟩
    · show State.commitLayout [i] t = _
      unfold State.commitLayout
      rw [show byteAt [i] 0 = i from rfl, indexOf?_none 16 i hi]
      rfl
    · subst hi
      refine ⟨fun hl => State.command_result rfl htakes ?_, fun status va sa fields hl => ⟨fun hc => ?_,
        fun reason field hc => ?_⟩, fun hsound hu => ?_⟩
      · show State.commitLayout [toByte l.val] t = _
        unfold State.commitLayout
        rw [show byteAt [toByte l.val] 0 = toByte l.val from rfl, indexOf?_layout]
        dsimp only
        rw [hl]
        rfl
      · exact State.command_result rfl htakes (t.commitLayout_passed l hl hc)
      · rw [← optByte_eq]
        exact State.command_result rfl htakes (t.commitLayout_failed l hl hc)
      · obtain ⟨va, sa, fields, hl⟩ := hsound.valid_of_inUse hu
        refine State.command_result rfl htakes ((t.commitLayout_passed l hl (hsound.valid l va sa fields hl)).trans ?_)
        show State.reply (t.setLayout l _) .done [] = _
        unfold State.setLayout
        rw [← hl]
        simp
        rfl
  · intro outcome checks
    refine ⟨fun hnone => ?_, fun hne => ?_⟩
    · show commitCheck tables programs va sa fields = _
      rw [hnone, commitCheck_eq]
      rfl
    · have hsame : ∀ n reason fails, checks[n]? = some (reason, fails) → ChecksPass fields checks n →
          ∃ bad, (commitTests tables programs va sa fields)[n]? = some (reason, bad)
            ∧ SameCheck fields fails bad := by
        intro n reason fails hn hpass
        have hloaded : 3 < n → ∀ (j : Nat) (f : FieldDesc), fields[j]? = some f → ∀ e, f.kind.program? = some e →
            programs[e] ≠ .empty := fun h3 j f hf e he hempty =>
          hpass 3 h3 _ rfl j f hf (.inr ⟨e, he, hempty⟩)
        rcases n with _ | _ | _ | _ | _ | _ | n
        · cases hn
          exact ⟨_, rfl, fun j f _ => (orderBad_iff f j).symm⟩
        · cases hn
          exact ⟨_, rfl, fun j f _ => (storeOverlapBad_iff f j).symm⟩
        · cases hn
          exact ⟨_, rfl, fun j f _ => (boundsBad_iff f j).symm⟩
        · cases hn
          exact ⟨_, rfl, fun j f _ => (loadBad_iff f j).symm⟩
        · cases hn
          refine ⟨_, rfl, fun j f hf => ?_⟩
          have h := programBad_iff f (fun outLen _ => f.storeLen != outLen) (hloaded (by decide) j f hf)
          simp only [bne_iff_ne] at h
          exact h.symm
        · cases hn
          refine ⟨_, rfl, fun j f hf => ?_⟩
          have h := programBad_iff f (fun _ digits => decide (digitLimit f.viewLen < digits))
            (hloaded (by decide) j f hf)
          simp only [decide_eq_true_eq] at h
          exact h.symm
        · cases hn
      obtain ⟨hfirst, hall⟩ := commitCheck_of_checks hne rfl hsame
      refine ⟨hfirst, fun h => hall fun m hm c hc => h c (List.mem_of_getElem? hc)⟩

end Sys2Proof
end

section
/-! PROOF. TABLE-LOAD, TABLE-ERASE, PROGRAM-LOAD and PROGRAM-ERASE: what their payloads parse to, their refusals in
order, and the objects in use (R22 to R28, R45 to R47, R189, R190). -/

namespace Sys2Proof.Machine

/-! ### What the payloads parse to -/

/-- The first element that is absent. -/
theorem findIdx?_isNone {α : Type} {l : List (Option α)} {j : Nat} (hj : l[j]? = some none)
    (hlow : ∀ j' < j, l[j']? ≠ some none) : l.findIdx? (·.isNone) = some j := by
  obtain ⟨hlt, hget⟩ := List.getElem?_eq_some_iff.mp hj
  rw [List.findIdx?_eq_some_iff_getElem]
  refine ⟨hlt, by rw [hget]; rfl, fun j' hj' => ?_⟩
  have h := hlow j' hj'
  rw [List.getElem?_eq_getElem (hj'.trans hlt)] at h
  simpa using h

theorem findIdx?_isNone_map {α β : Type} (l : List α) (f : α → β) :
    (l.map fun x => some (f x)).findIdx? (·.isNone) = none := by
  rw [List.findIdx?_eq_none_iff]
  intro x hx
  obtain ⟨y, -, rfl⟩ := List.mem_map.mp hx
  rfl

/-- The entry that two bytes of a TABLE-LOAD give (R189). -/
def parseEntry (x : Byte × Byte) : Option (Option Byte) :=
  if x.1 = 0 then some (some x.2) else if x.1 = 1 then some none else none

theorem parseEntry_legal {x : Byte × Byte} (h : x.1 = 0 ∨ x.1 = 1) :
    parseEntry x = some (if x.1 = 0 then some x.2 else none) := by
  unfold parseEntry
  rcases h with h | h <;> rw [h] <;> rfl

theorem parseEntries_pairs (pairs : List (Byte × Byte)) (rest : List Byte) :
    parseEntries ((pairs.flatMap fun x => [x.1, x.2]) ++ rest) = pairs.map parseEntry ++ parseEntries rest := by
  induction pairs with
  | nil => rfl
  | cons x pairs ih => exact congrArg (parseEntry x :: ·) ih

theorem parseEntries_legal {pairs : List (Byte × Byte)} (h : ∀ x ∈ pairs, x.1 = 0 ∨ x.1 = 1) :
    parseEntries (pairs.flatMap fun x => [x.1, x.2])
      = pairs.map fun x => some (if x.1 = 0 then some x.2 else none) := by
  have hpairs := parseEntries_pairs pairs []
  rw [List.append_nil] at hpairs
  rw [hpairs, show parseEntries [] = [] from rfl, List.append_nil]
  exact List.map_congr_left fun x hx => parseEntry_legal (h x hx)

/-- The steps of a PROGRAM-LOAD, place by place: the last flag is wanted on the final one. -/
theorem parseSteps_getElem? (xs : List (Byte × Byte × Byte)) (j : Nat) :
    (parseSteps (xs.flatMap fun x => [x.1, x.2.1, x.2.2]))[j]?
      = xs[j]?.map fun x => parseStep x.1 x.2.1 x.2.2 (decide (j + 1 = xs.length)) := by
  induction xs generalizing j with
  | nil => rfl
  | cons x xs ih =>
    have hcons : parseSteps ((x :: xs).flatMap fun x => [x.1, x.2.1, x.2.2])
        = parseStep x.1 x.2.1 x.2.2 xs.isEmpty :: parseSteps (xs.flatMap fun x => [x.1, x.2.1, x.2.2]) := by
      cases xs <;> rfl
    rw [hcons]
    cases j with
    | zero => cases xs <;> simp
    | succ j =>
      rw [List.getElem?_cons_succ, List.getElem?_cons_succ, ih, List.length_cons]
      simp only [Nat.add_right_cancel_iff]

theorem parseSteps_eq_map {xs : List (Byte × Byte × Byte)} {all : List EditStep} (hlen : all.length = xs.length)
    (h : ∀ j x y, xs[j]? = some x → all[j]? = some y →
      parseStep x.1 x.2.1 x.2.2 (decide (j + 1 = xs.length)) = some y) :
    parseSteps (xs.flatMap fun x => [x.1, x.2.1, x.2.2]) = all.map some := by
  refine List.ext_getElem? fun j => ?_
  rw [parseSteps_getElem?, List.getElem?_map]
  by_cases hj : j < xs.length
  · rw [List.getElem?_eq_getElem hj, List.getElem?_eq_getElem (hlen ▸ hj), Option.map_some, Option.map_some,
      h j _ _ (List.getElem?_eq_getElem hj) (List.getElem?_eq_getElem (hlen ▸ hj))]
  · rw [List.getElem?_eq_none (Nat.not_lt.mp hj), List.getElem?_eq_none (hlen ▸ Nat.not_lt.mp hj)]
    rfl

theorem stepOpOf?_eq_some (b : Byte) (op : StepOp) : stepOpOf? b = some op ↔ b = op.byte := by
  refine ⟨fun h => ?_, fun h => by rw [h]; exact stepOpOf?_byte op⟩
  revert b op
  decide +kernel

theorem stepOpOf?_isSome (b : Byte) : (∃ op, stepOpOf? b = some op) ↔ 1 ≤ b.toNat ∧ b.toNat ≤ 8 := by
  have hops : ∀ b : Byte, (stepOpOf? b).isSome = true ↔ 1 ≤ b.toNat ∧ b.toNat ≤ 8 := by decide +kernel
  exact Option.isSome_iff_exists.symm.trans (hops b)

theorem StepOp.counts_iff (op : StepOp) : op.byte = 1 ∨ op.byte = 2 ↔ op = .dig ∨ op = .req := by
  cases op <;> decide

/-- A step of three bytes is taken exactly when checks 3 to 5 of R45 pass, and is the step they spell. -/
theorem parseStep_eq_some (a b c : Byte) (final : Bool) (x : EditStep) :
    parseStep a b c final = some x ↔ a = x.op.byte ∧ b = x.operand ∧ flagOf? c = some x.last ∧ x.legal final := by
  unfold parseStep EditStep.legal
  simp only [Option.bind_eq_bind, Option.bind_eq_some_iff]
  constructor
  · rintro ⟨op, hop, h⟩
    split at h
    · exact absurd h (by simp)
    · next hcount =>
      simp only [Option.bind_eq_some_iff] at h
      obtain ⟨last, hlast, h⟩ := h
      split at h
      · next hfinal =>
        injection h with h
        subst h
        refine ⟨(stepOpOf?_eq_some a op).mp hop, rfl, hlast, fun hdig => ?_, hfinal⟩
        by_contra hno
        exact hcount ⟨hdig, hno⟩
      · exact absurd h (by simp)
  · rintro ⟨ha, hb, hlast, hcount, hfinal⟩
    refine ⟨x.op, (stepOpOf?_eq_some a _).mpr ha, ?_⟩
    rw [if_neg fun h => h.2 (hb ▸ hcount h.1)]
    rw [hlast, hb]
    exact if_pos hfinal


theorem EditStep.encode_spelled (steps : List EditStep) : steps.flatMap EditStep.encode
    = (steps.map fun x => (x.op.byte, x.operand, flagByte x.last)).flatMap fun x => [x.1, x.2.1, x.2.2] := by
  rw [List.flatMap_map]
  rfl

/-- A list of legal steps parses back, the last flag being set on the final one. -/
theorem parseSteps_encode (steps : List EditStep) (final : EditStep) (h : ∀ x ∈ steps, x.legal false)
    (hf : final.legal true) :
    parseSteps ((steps ++ [final]).flatMap EditStep.encode) = (steps ++ [final]).map some := by
  rw [EditStep.encode_spelled]
  refine parseSteps_eq_map (by rw [List.length_map]) fun j x y hx hy => ?_
  rw [List.getElem?_map, hy, Option.map_some, Option.some.injEq] at hx
  subst hx
  rw [List.length_map, List.length_append, List.length_singleton, parseStep_eq_some]
  refine ⟨rfl, rfl, flagOf?_flagByte _, ?_⟩
  rcases Nat.lt_trichotomy j steps.length with hj | hj | hj
  · rw [List.getElem?_append_left hj] at hy
    rw [decide_eq_false (by omega)]
    exact h y (List.mem_of_getElem? hy)
  · rw [List.getElem?_append_right (by omega), hj, Nat.sub_self] at hy
    injection hy with hy
    rw [decide_eq_true (by omega), ← hy]
    exact hf
  · rw [List.getElem?_append_right (by omega), List.getElem?_eq_none (by simp; omega)] at hy
    exact absurd hy (by simp)

/-- Three bytes pass checks 3 to 5 of R45 at their place. -/
def legalBytes (final : Bool) (x : Byte × Byte × Byte) : Prop :=
  (1 ≤ x.1.toNat ∧ x.1.toNat ≤ 8) ∧ (x.1 = 1 ∨ x.1 = 2 → 1 ≤ x.2.1.toNat ∧ x.2.1.toNat ≤ 19)
    ∧ x.2.2 = flagByte final

/-- The step that three legal bytes spell. -/
def stepOfBytes (x : Byte × Byte × Byte) : EditStep :=
  { op := (stepOpOf? x.1).getD .dig, operand := x.2.1, last := x.2.2 == 1 }

theorem stepOfBytes_op {x : Byte × Byte × Byte} (h : 1 ≤ x.1.toNat ∧ x.1.toNat ≤ 8) :
    (stepOfBytes x).op.byte = x.1 := by
  obtain ⟨op, hop⟩ := (stepOpOf?_isSome x.1).mpr h
  unfold stepOfBytes
  rw [hop]
  exact ((stepOpOf?_eq_some _ _).mp hop).symm

theorem parseStep_legalBytes {x : Byte × Byte × Byte} {final : Bool} (h : legalBytes final x) :
    parseStep x.1 x.2.1 x.2.2 final = some (stepOfBytes x) := by
  obtain ⟨hop, hcount, hlast⟩ := h
  have hbyte := stepOfBytes_op hop
  have hfinal : (stepOfBytes x).last = final := by
    show (x.2.2 == 1) = final
    rw [hlast]
    cases final <;> rfl
  rw [parseStep_eq_some]
  refine ⟨hbyte.symm, rfl, ?_, fun hdig => hcount ?_, hfinal⟩
  · rw [hlast, flagOf?_flagByte, hfinal]
  · rw [← hbyte]
    exact (StepOp.counts_iff _).mpr hdig

theorem parseStep_illegalBytes {x : Byte × Byte × Byte} {final : Bool} (h : ¬ legalBytes final x) :
    parseStep x.1 x.2.1 x.2.2 final = none := by
  rw [Option.eq_none_iff_forall_not_mem]
  intro y hy
  obtain ⟨ha, hb, hlast, hcount, hfinal⟩ := (parseStep_eq_some _ _ _ _ y).mp hy
  refine h ⟨(stepOpOf?_isSome x.1).mp ⟨y.op, (stepOpOf?_eq_some _ _).mpr ha⟩, fun hdig => ?_, ?_⟩
  · rw [hb]
    exact hcount ((StepOp.counts_iff _).mp (ha ▸ hdig))
  · rw [hfinal, flagOf?_eq] at hlast
    have hone : ∀ c : Byte, ∀ f : Bool, (if c.toNat = 0 then some false else if c.toNat = 1 then some true
        else none) = some f → c = flagByte f := by decide +kernel
    exact hone _ _ hlast

theorem digitCount_stepOfBytes {xs : List (Byte × Byte × Byte)} (h : ∀ x ∈ xs, 1 ≤ x.1.toNat ∧ x.1.toNat ≤ 8) :
    digitCount (xs.map stepOfBytes)
      = (xs.map fun x => if x.1 = 1 ∨ x.1 = 2 then x.2.1.toNat else 0).sum := by
  unfold digitCount
  rw [List.map_map]
  refine congrArg List.sum (List.map_congr_left fun x hx => ?_)
  have hcounts := StepOp.counts_iff (stepOfBytes x).op
  rw [stepOfBytes_op (h x hx)] at hcounts
  show (if (stepOfBytes x).op = .dig ∨ (stepOfBytes x).op = .req then x.2.1.toNat else 0) = _
  simp only [hcounts]

/-! ### The commands -/

theorem State.loadTable_none (s : State) (b : Byte) (rest : List Byte) (h : 3 < b.toNat) :
    State.loadTable (b :: rest) s = s.reply .badArg [] := by
  unfold State.loadTable
  dsimp only
  rw [show byteAt (b :: rest) 0 = b from rfl, indexOf?_none 4 b h]

theorem State.loadTable_some (s : State) (t : Fin 4) (rest : List Byte) :
    State.loadTable (toByte t.val :: rest) s = match (parseEntries rest).findIdx? (·.isNone) with
      | some v => s.reply .badArg [toByte v]
      | none =>
        if s.tableInUse t then s.reply .busy []
        else State.reply { s with build := some { table := t
                                                  entries := (parseEntries rest).map fun e => Option.getD e none } }
          .pending [] := by
  unfold State.loadTable
  dsimp only
  rw [show byteAt (toByte t.val :: rest) 0 = toByte t.val from rfl, indexOf?_table]
  rfl

theorem State.eraseTable_some (s : State) (t : Fin 4) : State.eraseTable [toByte t.val] s
    = if s.tableInUse t then s.reply .busy []
      else if s.tables[t].isLoaded then (s.setTable t .empty).reply .done [] else s.reply .done [] := by
  unfold State.eraseTable
  rw [show byteAt [toByte t.val] 0 = toByte t.val from rfl, indexOf?_table]

theorem State.eraseTable_none (s : State) (b : Byte) (h : 3 < b.toNat) :
    State.eraseTable [b] s = s.reply .badArg [] := by
  unfold State.eraseTable
  rw [show byteAt [b] 0 = b from rfl, indexOf?_none 4 b h]

theorem State.eraseProgram_some (s : State) (e : Fin 32) : State.eraseProgram [toByte e.val] s
    = if s.programInUse e then s.reply .busy []
      else if s.programs[e].isLoaded then (s.setProgram e .empty).reply .done [] else s.reply .done [] := by
  unfold State.eraseProgram
  rw [show byteAt [toByte e.val] 0 = toByte e.val from rfl, indexOf?_program]

theorem State.eraseProgram_none (s : State) (b : Byte) (h : 31 < b.toNat) :
    State.eraseProgram [b] s = s.reply .badArg [] := by
  unfold State.eraseProgram
  rw [show byteAt [b] 0 = b from rfl, indexOf?_none 32 b h]

/-- The load of steps that all pass checks 3 to 5. -/
theorem State.loadSteps_map_some (s : State) (e : Fin 32) (all : List EditStep) :
    State.loadSteps e (all.map some) s
      = if digitCount all = 0 then s.replyStep none
        else if 19 < digitCount all then s.replyStep none
        else if s.programInUse e then s.reply .busy []
        else (s.setProgram e (.loaded all (outputLength all) (digitCount all))).reply .done
          [toByte (outputLength all), toByte (digitCount all)] := by
  have hall : (all.map some).filterMap id = all := by
    rw [List.filterMap_map]
    exact List.filterMap_some
  unfold State.loadSteps
  rw [show (all.map some).findIdx? (·.isNone) = none from findIdx?_isNone_map all id]
  dsimp only
  rw [hall]

theorem State.loadSteps_failing (s : State) (e : Fin 32) {parsed : List (Option EditStep)} {j : Nat}
    (hj : parsed[j]? = some none) (hlow : ∀ j' < j, parsed[j']? ≠ some none) :
    State.loadSteps e parsed s = s.replyStep (some j) := by
  unfold State.loadSteps
  rw [findIdx?_isNone hj hlow]

/-- PROGRAM-LOAD of 1 to 16 steps of three bytes each. -/
theorem State.loadProgram_counted (s : State) (b : Byte) (n : Nat) (rest : List Byte) (h1 : 1 ≤ n) (h16 : n ≤ 16)
    (hlen : rest.length = 3 * n) : State.loadProgram (b :: toByte n :: rest) s = match indexOf? 32 b with
      | none => s.replyStep none
      | some e => s.loadSteps e (parseSteps rest) := by
  have hn : (toByte n).toNat = n := by
    rw [toByte_toNat]
    omega
  rw [State.loadProgram_cons, if_neg (by omega)]
  cases indexOf? 32 b with
  | none => rfl
  | some e => exact if_neg (by omega)

theorem length_flatMap_two (pairs : List (Byte × Byte)) :
    (pairs.flatMap fun x => [x.1, x.2]).length = 2 * pairs.length := by
  induction pairs with
  | nil => rfl
  | cons x pairs ih => simp only [List.flatMap_cons, List.length_append, ih, List.length_cons, List.length_nil]; omega

theorem length_flatMap_three (xs : List (Byte × Byte × Byte)) :
    (xs.flatMap fun x => [x.1, x.2.1, x.2.2]).length = 3 * xs.length := by
  induction xs with
  | nil => rfl
  | cons x xs ih => simp only [List.flatMap_cons, List.length_append, ih, List.length_cons, List.length_nil]; omega

end Sys2Proof.Machine

namespace Sys2Proof

open Sys2Proof.Machine

/-- Settles O50: the payload's pairs, entry by entry, decide; the table's use is that of the layouts. -/
theorem tableLoadAndErase : Obligations.TableLoadAndErase := by
  refine ⟨fun t s => ⟨fun pairs hlen hlegal => ?_, fun good marker code rest hgood hmarker => ?_, fun htakes => ?_⟩,
    fun b rest s hb => ⟨fun hlen htakes => ?_, fun htakes => ?_⟩, fun l t => ⟨fun hl => ?_,
    fun status va sa fields hl => ?_⟩, fun s t => ?_⟩
  · intro payload entries htakes u
    have hsize : payload.length = 513 := by
      rw [List.length_cons, length_flatMap_two, hlen]
    have hload := u.loadTable_some t (pairs.flatMap fun x => [x.1, x.2])
    rw [parseEntries_legal hlegal, findIdx?_isNone_map] at hload
    refine ⟨fun hu => State.command_result hsize htakes (hload.trans ((if_neg (by rw [hu]; decide)).trans ?_)),
      fun hu => State.command_result hsize htakes (hload.trans (if_pos hu))⟩
    rw [List.map_map]
    rfl
  · intro payload hsize htakes
    refine State.command_result hsize htakes ((State.loadTable_some _ t _).trans ?_)
    have hbad : parseEntry (marker, code) = none := by
      unfold parseEntry
      rw [if_neg (fun h => by rw [show marker = 0 from h] at hmarker; exact absurd hmarker (by decide)),
        if_neg (fun h => by rw [show marker = 1 from h] at hmarker; exact absurd hmarker (by decide))]
    have hparsed : parseEntries ((good.flatMap fun x => [x.1, x.2]) ++ marker :: code :: rest)
        = good.map parseEntry ++ parseEntry (marker, code) :: parseEntries rest :=
      parseEntries_pairs good _
    rw [hparsed, hbad, findIdx?_isNone (j := good.length)]
    · rfl
    · rw [List.getElem?_append_right (by rw [List.length_map]), List.length_map, Nat.sub_self]
      rfl
    · intro j' hj'
      rw [List.getElem?_append_left (by rw [List.length_map]; exact hj'), List.getElem?_map,
        List.getElem?_eq_getElem hj', Option.map_some, parseEntry_legal (hgood _ (List.getElem_mem hj'))]
      simp
  · intro u
    have herase := u.eraseTable_some t
    refine ⟨fun hu hl => ?_, fun hu hl => ?_, fun hu => ?_⟩
    · exact State.command_result rfl htakes (herase.trans ((if_neg (by rw [hu]; decide)).trans (if_pos hl)))
    · exact State.command_result rfl htakes (herase.trans ((if_neg (by rw [hu]; decide)).trans
        (if_neg (by rw [(CodeTable.isLoaded_false _).mpr hl]; decide))))
    · exact State.command_result rfl htakes (herase.trans (if_pos hu))
  · exact State.command_result (by rw [List.length_cons, hlen]) htakes (State.loadTable_none _ b rest hb)
  · exact State.command_result rfl htakes (State.eraseTable_none _ b hb)
  · rw [hl]
    rfl
  · rw [l.namesTable_iff, hl]
    refine exists_congr fun f => and_congr_right fun _ => ?_
    cases f.kind <;> simp [FieldKind.table?, eq_comm]
  · rw [s.tableInUse_iff]
    exact exists_congr fun l => and_congr_right fun _ => (s.layouts[l].namesTable_iff t).symm

/-- Settles O51: the checks of R45 in their order on the steps that the bytes spell. -/
theorem programLoadAndErase : Obligations.ProgramLoadAndErase := by
  refine ⟨fun e s => ?_, fun b steps s h1 h16 => ?_, fun b s hb htakes => ?_, fun l e => ⟨fun hl => ?_,
    fun status va sa fields hl => ?_⟩, fun s e => ?_⟩
  · intro setProgram
    refine ⟨fun steps final hlen hlegal hfinal => ?_, fun htakes => ?_⟩
    · intro all payload hdigits1 hdigits19 htakes u
      have hrun : ∀ v c data, State.loadProgram payload u = State.reply v c data →
          exec (.programLoad payload) s = .next (v.putResult c 0x38 data) := fun v c data h =>
        State.releaseFrame_result htakes h
      have hall : all.length = steps.length + 1 := by
        rw [List.length_append, List.length_singleton]
      have hload : State.loadProgram payload u = State.loadSteps e (all.map some) u := by
        refine (u.loadProgram_counted _ all.length _ (by omega) (by omega) ?_).trans ?_
        · rw [EditStep.encode_spelled, length_flatMap_three, List.length_map]
        · rw [indexOf?_program, parseSteps_encode steps final hlegal hfinal]
      rw [u.loadSteps_map_some, if_neg (by omega), if_neg (by omega)] at hload
      exact ⟨fun hu => hrun _ _ _ (hload.trans (if_neg (by rw [hu]; decide))),
        fun hu => hrun _ _ _ (hload.trans (if_pos hu))⟩
    · intro u
      have herase := u.eraseProgram_some e
      refine ⟨fun hu hl => ?_, fun hu hl => ?_, fun hu => ?_⟩
      · exact State.command_result rfl htakes (herase.trans ((if_neg (by rw [hu]; decide)).trans (if_pos hl)))
      · exact State.command_result rfl htakes (herase.trans ((if_neg (by rw [hu]; decide)).trans
          (if_neg (by rw [(Program.isLoaded_false _).mpr hl]; decide))))
      · exact State.command_result rfl htakes (herase.trans (if_pos hu))
  · intro payload counts legal digits htakes refused
    have hload := State.loadProgram_counted (s.atRelease payload) b steps.length
      (steps.flatMap fun x => [x.1, x.2.1, x.2.2]) h1 h16 (length_flatMap_three steps)
    have hrun : ∀ step : Option Nat, State.loadProgram payload (s.atRelease payload)
        = (s.atRelease payload).replyStep step → refused (optByte step) := fun step h =>
      State.releaseFrame_result htakes h
    have hlegal : ∀ j x, legal j x ↔ legalBytes (decide (j + 1 = steps.length)) x := by
      intro j x
      have hflag : flagByte (decide (j + 1 = steps.length)) = if j + 1 = steps.length then 1 else 0 := by
        unfold flagByte
        simp only [decide_eq_true_eq]
      exact ⟨fun ⟨hone, height, hcount, hlast⟩ => ⟨⟨hone, height⟩, hcount, hlast.trans hflag.symm⟩,
        fun ⟨⟨hone, height⟩, hcount, hlast⟩ => ⟨hone, height, hcount, hlast.trans hflag⟩⟩
    refine ⟨fun hb => hrun none (hload.trans (by rw [indexOf?_none 32 b hb])), fun hb => ?_⟩
    rw [(indexOf?_eq_some 32 b ⟨b.toNat, by omega⟩).mpr rfl] at hload
    refine ⟨fun j x hx hbad hlow => ?_, fun hall hdigits => ?_⟩
    · refine hrun (some j) (hload.trans (State.loadSteps_failing _ _ ?_ fun j' hj' => ?_))
      · rw [parseSteps_getElem?, hx, Option.map_some,
          parseStep_illegalBytes fun h => hbad ((hlegal j x).mpr h)]
      · have hj := (List.getElem?_eq_some_iff.mp hx).1
        have hx' := List.getElem?_eq_getElem (hj'.trans hj)
        rw [parseSteps_getElem?, hx', Option.map_some,
          parseStep_legalBytes ((hlegal j' _).mp (hlow j' _ hj' hx'))]
        simp
    · refine hrun none (hload.trans ?_)
      have hparsed : parseSteps (steps.flatMap fun x => [x.1, x.2.1, x.2.2]) = (steps.map stepOfBytes).map some := by
        refine parseSteps_eq_map (by rw [List.length_map]) fun j x y hx hy => ?_
        rw [List.getElem?_map, hx, Option.map_some, Option.some.injEq] at hy
        rw [parseStep_legalBytes ((hlegal j x).mp (hall j x hx)), hy]
      have hcount : digitCount (steps.map stepOfBytes) = digits := digitCount_stepOfBytes fun x hx => by
        obtain ⟨j, hj⟩ := List.mem_iff_getElem?.mp hx
        exact ((hlegal j x).mp (hall j x hj)).1
      dsimp only
      rw [hparsed, State.loadSteps_map_some, hcount]
      rcases hdigits with h | h
      · exact if_pos h
      · exact (if_neg (by omega)).trans (if_pos h)
  · exact State.command_result rfl htakes (State.eraseProgram_none _ b hb)
  · rw [hl]
    rfl
  · rw [l.namesProgram_iff, hl]
    exact exists_congr fun f => and_congr_right fun _ => FieldKind.program?_eq_some f.kind e
  · rw [s.programInUse_iff]
    exact exists_congr fun l => and_congr_right fun _ => (s.layouts[l].namesProgram_iff e).symm

end Sys2Proof
end

section
/-! PROOF. The encodings of window records, descriptors, layouts, code tables, programs and frames, and what parses
back from them (R178, R185 to R190). -/

namespace Sys2Proof.Machine

/-! ### Enumerated bytes -/

theorem ByteOrder.byte_eq (o : ByteOrder) : o.byte = flagByte (o == .big) := by cases o <;> rfl

theorem Policy.byte_eq (p : Policy) : p.byte = flagByte (p == .substitute) := by cases p <;> rfl

theorem Ack.byte_eq (a : Ack) : a.byte = flagByte (a == .confirmed) := by cases a <;> rfl

theorem Signedness.byte_eq (sg : Signedness) : sg.byte = flagByte (sg == .signed) := by cases sg <;> rfl

theorem tableByte_eq (t : Option (Fin 4)) : tableByte t = (t.map fun i => toByte i.val).getD 0xFF := by
  cases t <;> rfl

/-! ### What parses back -/

theorem parseWindowCfg_windowBytes (w : Fin 8) (c : WindowCfg) (h : c.legal) :
    parseWindowCfg (windowBytes w c) = some c := by
  obtain ⟨halign, hview, hcount1, hcount, hstore, hstride1, hstride, htimeout, hhold1, hhold⟩ := h
  have nview : numAt (windowBytes w c) 1 4 = c.viewBase := beNat_beBytes 4 _ (by omega)
  have ncount : numAt (windowBytes w c) 5 4 = c.recordCount := beNat_beBytes 4 _ (by omega)
  have nstore : numAt (windowBytes w c) 10 4 = c.storeBase := beNat_beBytes 4 _ (by omega)
  have nstride : numAt (windowBytes w c) 14 2 = c.stride := beNat_beBytes 2 _ (by omega)
  have nhold : numAt (windowBytes w c) 21 2 = c.holdLimit := beNat_beBytes 2 _ (by omega)
  have ntimeout : (byteAt (windowBytes w c) 20).toNat = c.gatherTimeout :=
    (toByte_toNat _).trans (Nat.mod_eq_of_lt (by omega))
  rw [parseWindowCfg_eq_some, nview, ncount, nstore, nstride, nhold, ntimeout]
  exact ⟨⟨halign, hcount1, hcount, hstride1, hstride, hhold1⟩, indexOf?_layout c.layout, byteOrderOf?_byte c.order,
    policyOf?_byte c.policy, ackOf?_byte c.ack, rfl, rfl, rfl, rfl, rfl, rfl, rfl, rfl, rfl, rfl⟩

theorem toByte_toNat_of_le {n : Nat} (h : n ≤ 255) : n = (toByte n).toNat := by
  rw [toByte_toNat, Nat.mod_eq_of_lt (by omega)]

theorem FieldDesc.encode_byte (f : FieldDesc) (k : Nat) (hk : k < 6) :
    byteAt f.encode (k + 4) = f.kind.bytes.getD k 0 := by
  have hlen : f.kind.bytes.length = 6 := by cases f.kind <;> rfl
  show ([toByte f.viewOff, toByte f.viewLen, toByte f.storeOff, toByte f.storeLen]
    ++ f.kind.bytes ++ [flagByte f.readOnly]).getD (k + 4) 0 = _
  rw [List.append_assoc, List.getD_append_right _ _ _ _ (by simp)]
  exact List.getD_append _ _ _ _ (by rw [hlen]; exact hk)

theorem FieldDesc.encode_flag (f : FieldDesc) : byteAt f.encode 10 = flagByte f.readOnly := by
  show ([toByte f.viewOff, toByte f.viewLen, toByte f.storeOff, toByte f.storeLen]
    ++ f.kind.bytes ++ [flagByte f.readOnly]).getD 10 0 = _
  cases f.kind <;> rfl

theorem parseKind_encode (f : FieldDesc) : parseKind f.encode = some f.kind := by
  rw [parseKind_eq_some, f.encode_byte 0 (by decide), f.encode_byte 1 (by decide), f.encode_byte 2 (by decide),
    f.encode_byte 3 (by decide), f.encode_byte 4 (by decide), f.encode_byte 5 (by decide)]
  cases f.kind with
  | raw => rfl
  | text t viewFill storeFill => exact ⟨rfl, tableOf?_tableByte t, rfl, rfl⟩
  | packed sg => exact ⟨rfl, signOf?_byte sg⟩
  | edited t e sg => exact ⟨rfl, tableOf?_tableByte t, indexOf?_program e, signOf?_byte sg⟩

theorem parseDesc_encode (f : FieldDesc) (h : f.wellFormed = true) : parseDesc f.encode = some f := by
  have hw := h
  unfold FieldDesc.wellFormed at hw
  simp only [Bool.and_eq_true, decide_eq_true_eq] at hw
  obtain ⟨⟨⟨⟨⟨⟨hview, hstore⟩, -⟩, hviewLen⟩, -⟩, hstoreLen⟩, -⟩ := hw
  rw [parseDesc_eq_some, f.encode_flag]
  exact ⟨parseKind_encode f, flagOf?_flagByte _, toByte_toNat_of_le hview, toByte_toNat_of_le (by omega),
    toByte_toNat_of_le hstore, toByte_toNat_of_le (by omega), h⟩

theorem parseEntries_entryBytes (forward : List (Option Byte)) :
    parseEntries (forward.flatMap entryBytes) = forward.map some := by
  induction forward with
  | nil => rfl
  | cons e rest ih => cases e <;> exact congrArg (_ :: ·) ih

theorem frameVerdict_frameBytes (code : Byte) (payload : List Byte) (hlen : payload.length ≤ 520)
    (hfetch : code = 0x7E → payload ≠ []) : frameVerdict (frameBytes code payload) false = .good code payload := by
  have hbytes : frameBytes code payload = code :: toByte (payload.length / 2 ^ 8) :: toByte payload.length
      :: (payload ++ [checksum (code :: beBytes 2 payload.length ++ payload)]) := by
    unfold frameBytes
    rw [beBytes_two]
    rfl
  have hsum : ((frameBytes code payload).map (·.toNat)).sum % 256 = 0 :=
    (byteSum_eq_zero _).mp (byteSum_checksum _)
  have hsize : (frameBytes code payload).length = 4 + payload.length := by
    rw [hbytes]
    simp only [List.length_cons, List.length_append, List.length_nil]
    omega
  have hcount : 256 * (toByte (payload.length / 2 ^ 8)).toNat + (toByte payload.length).toNat = payload.length := by
    rw [toByte_toNat, toByte_toNat]
    omega
  rw [frameVerdict_long _ false (by omega)]
  dsimp only
  rw [hsize, hsum, hbytes]
  simp only [List.getD_cons_zero, List.getD_cons_succ, hcount]
  rw [if_neg, if_pos ⟨hlen, trivial, trivial, trivial⟩]
  · show Verdict.good code ((payload ++ [_]).take payload.length) = _
    rw [List.take_left' rfl]
  · rintro ⟨hcode, hzero, -⟩
    exact hfetch ((byte_eq_iff code 0x7E (by decide)).mpr hcode) (List.eq_nil_of_length_eq_zero hzero)

end Sys2Proof.Machine

namespace Sys2Proof

open Sys2Proof.Machine

/-- Settles O60: what parses back, then the encodings member by member. -/
theorem encodingsReadBack : Obligations.EncodingsReadBack := by
  unfold Obligations.EncodingsReadBack
  intro flag two four
  have hflag : ∀ b, flagByte b = flag b := fun b => rfl
  have htwo : ∀ n, beBytes 2 n = two n := beBytes_two
  have hfour : ∀ n, beBytes 4 n = four n := beBytes_four
  refine ⟨parseWindowCfg_windowBytes, parseDesc_encode, parseEntries_entryBytes, parseSteps_encode,
    frameVerdict_frameBytes, fun w win => ?_, fun f => ?_, fun l => ⟨fun hl => ?_, fun status va sa fields hl => ?_⟩,
    rfl, fun forward rev bijective unreached => ?_, rfl, fun steps outLen digits => ?_⟩
  · intro c state
    unfold windowReadBytes windowBytes
    rw [hfour, hfour, hfour, htwo, htwo, ByteOrder.byte_eq, Policy.byte_eq, Ack.byte_eq, List.append_assoc _ [_]]
    refine congrArg₂ (· ++ ·) rfl ?_
    cases hs : win.status with
    | off => simp only [state, hs]; rfl
    | live mode va sa => cases mode <;> simp only [state, hs] <;> rw [htwo, htwo] <;> rfl
  · intro table kind
    unfold FieldDesc.encode
    refine congrArg (fun k : List Byte => [toByte f.viewOff, toByte f.viewLen, toByte f.storeOff, toByte f.storeLen]
      ++ k ++ [flagByte f.readOnly]) ?_
    show f.kind.bytes = _
    cases hk : f.kind with
    | raw => simp only [kind, hk]; rfl
    | text t viewFill storeFill => simp only [kind, hk, FieldKind.bytes, tableByte_eq, table]
    | packed sg => simp only [kind, hk, FieldKind.bytes, Signedness.byte_eq, hflag]
    | edited t e sg => simp only [kind, hk, FieldKind.bytes, tableByte_eq, Signedness.byte_eq, hflag, table]
  · rw [hl]
    rfl
  · intro shown list
    subst hl
    dsimp only [Layout.readBytes]
    rw [htwo, htwo]
    refine ⟨fun h => ?_, fun h => ?_, fun reason field h => ?_⟩ <;> subst h
    · simp only [shown, list, List.append_assoc]
      rfl
    · simp only [shown, list, List.append_assoc]
      rfl
    · rw [← optByte_eq]
      simp only [shown, list, List.append_assoc]
      cases reason <;> rfl
  · intro entry
    dsimp only [CodeTable.readBytes]
    rw [htwo]
    exact congrArg₂ (· ++ ·) rfl (List.flatMap_congr fun e _ => by cases e <;> rfl)
  · intro opcode
    unfold Program.readBytes
    exact congrArg₂ (· ++ ·) rfl (List.flatMap_congr fun x _ => by
      show [x.op.byte, _, _] = _
      cases hop : x.op <;> rfl)

end Sys2Proof
end

section
/-! PROOF. The reverse map entry by entry, and the TEXT conversions position by position (R26, R29, R33 to R37). -/

namespace Sys2Proof.Machine

/-! ### The reverse map (R26) -/

theorem reverseMap_getElem? (forward : List (Option Byte)) (c : Byte) :
    (reverseMap forward)[c.toNat]? = some (reverseEntry forward c) := by
  unfold reverseMap
  rw [List.getElem?_map, List.getElem?_range c.isLt, Option.map_some, toByte_of_toNat]

theorem reverseEntry_eq_some_iff {forward : List (Option Byte)} (hlen : forward.length = 256) (c v : Byte) :
    reverseEntry forward c = some v ↔ forward[v.toNat]? = some (some c)
      ∧ ∀ v' : Byte, v'.toNat < v.toNat → forward[v'.toNat]? ≠ some (some c) := by
  constructor
  · intro h
    rw [reverseEntry, Option.map_eq_some_iff] at h
    obtain ⟨i, hi, rfl⟩ := h
    obtain ⟨hlt, hat, hlow⟩ := List.findIdx?_eq_some_iff_getElem.mp hi
    rw [toByte_toNat, Nat.mod_eq_of_lt (hlen ▸ hlt), List.getElem?_eq_getElem hlt]
    refine ⟨congrArg some (by simpa using hat), fun v' hv' hbad => ?_⟩
    have hv'lt : v'.toNat < forward.length := hlen ▸ v'.isLt
    rw [List.getElem?_eq_getElem hv'lt, Option.some.injEq] at hbad
    exact absurd (beq_iff_eq.mpr hbad) (by simpa using hlow v'.toNat hv')
  · rintro ⟨hat, hlow⟩
    exact reverseEntry_of_least hat fun v' hv' => Nat.not_lt.mp fun hlt => hlow v' hlt hv'

theorem reverseEntry_eq_none_iff_getElem? {forward : List (Option Byte)} (hlen : forward.length = 256) (c : Byte) :
    reverseEntry forward c = none ↔ ∀ v : Byte, forward[v.toNat]? ≠ some (some c) := by
  rw [reverseEntry_eq_none_iff, List.mem_iff_getElem?, not_exists]
  refine ⟨fun h v => h v.toNat, fun h i hi => ?_⟩
  have hlt : i < 256 := hlen ▸ (List.getElem?_eq_some_iff.mp hi).1
  exact h (toByte i) (by rwa [toNat_toByte_of_lt hlt])

/-! ### The TEXT conversion (R34 to R37) -/

section
variable (translate : Byte → Option Byte) (substitute outFill inFill : Byte) (outLen : Nat) (image : List Byte)

theorem convertText_length :
    (convertText translate substitute outFill inFill outLen image).result.length = outLen := by
  unfold convertText
  simp only [List.length_append, List.length_map, List.length_take, List.length_replicate]
  omega

theorem convertText_filled {p : Nat} (hp : p < outLen) (hi : image.length ≤ p) :
    (convertText translate substitute outFill inFill outLen image).result[p]? = some outFill := by
  unfold convertText
  have hlen : ((image.take outLen).map fun b => (translate b).getD substitute).length = image.length := by
    rw [List.length_map, List.length_take]
    omega
  show (_ ++ _)[p]? = _
  rw [List.getElem?_append_right (by rw [hlen]; exact hi), hlen, List.getElem?_replicate, if_pos (by omega)]

theorem convertText_translated {p : Nat} {b : Byte} (hp : p < outLen) (hb : image[p]? = some b) :
    (convertText translate substitute outFill inFill outLen image).result[p]?
      = some ((translate b).getD substitute) := by
  unfold convertText
  have hlt := (List.getElem?_eq_some_iff.mp hb).1
  show (_ ++ _)[p]? = _
  rw [List.getElem?_append_left (by rw [List.length_map, List.length_take]; omega), List.getElem?_map,
    List.getElem?_take, if_pos hp, hb]
  rfl

theorem convertText_unmapped {p : Nat} {b : Byte} (hp : p < outLen) (hb : image[p]? = some b)
    (hnone : translate b = none)
    (hlow : ∀ p' b', p' < p → image[p']? = some b' → translate b' ≠ none) :
    (convertText translate substitute outFill inFill outLen image).exc = some (.unmapped, some (p, b)) := by
  have hfirst : firstByte 0 (image.take outLen) (fun b => (translate b).isNone) = some (p, b) := by
    refine firstByte_some 0 _ _ p b (Nat.zero_le p) ?_ (by rw [hnone]; rfl) fun p' b' _ hp' hb' => ?_
    · rw [Nat.sub_zero, List.getElem?_take, if_pos hp, hb]
    · rw [Nat.sub_zero, List.getElem?_take, if_pos (hp'.trans hp)] at hb'
      rw [Option.isNone_eq_false_iff, Option.isSome_iff_ne_none]
      exact hlow p' b' hp' hb'
  unfold convertText
  dsimp only
  rw [hfirst]
  rfl

section
variable (hmapped : ∀ p b, p < outLen → image[p]? = some b → translate b ≠ none)
include hmapped

/-- Without an unmapped position the exception is that of the bytes beyond the other side. -/
theorem convertText_exc_mapped : (convertText translate substitute outFill inFill outLen image).exc
    = (firstByte outLen (image.drop outLen) fun b => b != inFill).map fun x => (.truncate, some x) := by
  have hfirst : firstByte 0 (image.take outLen) (fun b => (translate b).isNone) = none := by
    refine firstByte_none 0 _ _ fun b hb => ?_
    obtain ⟨p, hp⟩ := List.mem_iff_getElem?.mp hb
    rw [List.getElem?_take] at hp
    split_ifs at hp with hlt
    rw [Option.isNone_eq_false_iff, Option.isSome_iff_ne_none]
    exact hmapped p b hlt hp
  unfold convertText
  dsimp only
  rw [hfirst]
  rfl

theorem convertText_truncated {p : Nat} {b : Byte} (hp : outLen ≤ p) (hb : image[p]? = some b) (hne : b ≠ inFill)
    (hlow : ∀ p' b', outLen ≤ p' → p' < p → image[p']? = some b' → b' = inFill) :
    (convertText translate substitute outFill inFill outLen image).exc = some (.truncate, some (p, b)) := by
  have hdrop : ∀ q, outLen ≤ q → (image.drop outLen)[q - outLen]? = image[q]? := fun q hq => by
    rw [List.getElem?_drop, Nat.add_sub_cancel' hq]
  rw [convertText_exc_mapped translate substitute outFill inFill outLen image hmapped,
    firstByte_some outLen _ _ p b hp ((hdrop p hp).trans hb) (by simpa using hne) fun p' b' hp' hlt hb' => ?_]
  · rfl
  · rw [hdrop p' hp'] at hb'
    simpa using hlow p' b' hp' hlt hb'

theorem convertText_faithful (hfill : ∀ p b, outLen ≤ p → image[p]? = some b → b = inFill) :
    (convertText translate substitute outFill inFill outLen image).exc = none := by
  rw [convertText_exc_mapped translate substitute outFill inFill outLen image hmapped, firstByte_none _ _ _ fun b hb => ?_]
  · rfl
  · obtain ⟨p, hp⟩ := List.mem_iff_getElem?.mp hb
    rw [List.getElem?_drop] at hp
    simpa using hfill (outLen + p) b (Nat.le_add_right ..) hp

end

end

end Sys2Proof.Machine

namespace Sys2Proof

open Sys2Proof.Machine

/-- Settles O32: the reverse entry is the first place of a store code; a TEXT conversion position by position. -/
theorem reverseMapAndTextConversions : Obligations.ReverseMapAndTextConversions := by
  refine ⟨fun forward c hlen => ⟨by simp [reverseMap], fun v => ?_, ?_⟩, fun s cfg f image hk => ?_,
    fun s cfg f table viewFill storeFill image hk => ?_, fun tables t forward rev bijective unreached c ht => ?_⟩
  · rw [reverseMap_getElem?, Option.some.injEq]
    exact reverseEntry_eq_some_iff hlen c v
  · rw [reverseMap_getElem?, Option.some.injEq]
    exact reverseEntry_eq_none_iff_getElem? hlen c
  · unfold State.convertForward State.convertReverse
    rw [hk]
    exact ⟨rfl, rfl⟩
  · intro converted
    have hconverted : ∀ translate substitute outFill inFill outLen,
        converted translate substitute outFill inFill outLen
          (convertText translate substitute outFill inFill outLen image) :=
      fun translate substitute outFill inFill outLen =>
      ⟨convertText_length translate substitute outFill inFill outLen image,
        fun p => convertText_filled translate substitute outFill inFill outLen image,
        fun p b => convertText_translated translate substitute outFill inFill outLen image,
        fun p b => convertText_unmapped translate substitute outFill inFill outLen image,
        fun hmapped => ⟨fun p b => convertText_truncated translate substitute outFill inFill outLen image hmapped,
          convertText_faithful translate substitute outFill inFill outLen image hmapped⟩⟩
    unfold State.convertForward State.convertReverse
    rw [hk]
    exact ⟨hconverted .., hconverted ..⟩
  · unfold translateForward translateReverse
    dsimp only
    rw [ht]
    exact ⟨rfl, rfl, rfl, rfl⟩

end Sys2Proof
end

section
/-! PROOF. The PACKED and EDITED conversions: the nibbles of a value and their first failure, the text of a value
and its first failure, the range check, the weights, the positions of a program (R38 to R59). -/

namespace Sys2Proof.Machine

/-! ### PACKED (R39 to R42) -/

theorem packedSign_eq (sg : Signedness) (x : Int) :
    packedSign sg x = if sg = .unsigned then 0xF else if 0 ≤ x then 0xC else 0xD := by
  cases sg <;> rfl

theorem packedSign_range (sg : Signedness) (x : Int) : 9 < packedSign sg x ∧ packedSign sg x < 16 := by
  rw [packedSign_eq]
  split_ifs <;> decide

/-- The value that a magnitude and the sign nibble of a view integer spell. -/
theorem signed_packedSign {sg : Signedness} {x : Int} (h : sg = .unsigned → 0 ≤ x) :
    (if packedSign sg x = 0xB ∨ packedSign sg x = 0xD then -(x.natAbs : Int) else x.natAbs) = x := by
  rw [packedSign_eq]
  by_cases hu : sg = .unsigned
  · rw [if_pos hu, if_neg (by decide)]
    exact Int.natAbs_of_nonneg (h hu)
  · rw [if_neg hu]
    by_cases hx : 0 ≤ x
    · rw [if_pos hx, if_neg (by decide)]
      exact Int.natAbs_of_nonneg hx
    · rw [if_neg hx, if_pos (by decide)]
      omega

theorem viewInteger_unsigned_nonneg (o : ByteOrder) (image : List Byte) : 0 ≤ viewInteger o .unsigned image :=
  Int.natCast_nonneg _

/-- A nibble fails at its place: a digit above 9, or a sign of at most 9 (R41). -/
def badNibble (len j v : Nat) : Prop := if j + 1 < len then 9 < v else v ≤ 9

theorem badNibble_iff (len j v : Nat) :
    badNibble len j v ↔ (if j < len - 1 then decide (9 < v) else decide (v ≤ 9)) = true := by
  have hplace : j < len - 1 ↔ j + 1 < len := by omega
  unfold badNibble
  simp only [hplace]
  split_ifs <;> simp

theorem packedFailure_some {nibbles : List Nat} {j v : Nat} (hv : nibbles[j]? = some v)
    (hbad : badNibble nibbles.length j v)
    (hlow : ∀ j' v', j' < j → nibbles[j']? = some v' → ¬ badNibble nibbles.length j' v') :
    packedFailure nibbles
      = some (if j + 1 < nibbles.length then .digit else .sign, some (j / 2, toByte v)) := by
  have hj : j < nibbles.length := (List.getElem?_eq_some_iff.mp hv).1
  have hplace : ∀ k, k < nibbles.length - 1 ↔ k + 1 < nibbles.length := fun k => by omega
  have hfind : nibbles.zipIdx.find? (fun x => if x.2 < nibbles.length - 1 then 9 < x.1 else x.1 ≤ 9)
      = some (v, j) := by
    rw [List.find?_eq_some_iff_getElem]
    refine ⟨?_, j, by simpa using hj, ?_, fun j' hj' => ?_⟩
    · exact (badNibble_iff ..).mp hbad
    · rw [List.getElem_zipIdx, Nat.zero_add, (List.getElem?_eq_some_iff.mp hv).2]
    · rw [List.getElem_zipIdx, Nat.zero_add]
      rw [Bool.not_eq_true', ← Bool.not_eq_true]
      exact mt (badNibble_iff ..).mpr (hlow j' _ hj' (List.getElem?_eq_getElem (hj'.trans hj)))
  unfold packedFailure
  dsimp only
  rw [hfind]
  simp only [Option.map_some, hplace]

theorem packedFailure_none {nibbles : List Nat}
    (h : ∀ j v, nibbles[j]? = some v → ¬ badNibble nibbles.length j v) : packedFailure nibbles = none := by
  unfold packedFailure
  rw [Option.map_eq_none_iff, List.find?_eq_none]
  rintro ⟨v, j⟩ hx
  exact mt (badNibble_iff ..).mpr (h j v (List.mem_zipIdx_iff_getElem?.mp hx))

/-- The nibbles of digits and a sign nibble have no failure. -/
theorem packedFailure_digits {digits : List Nat} {sign : Nat} (hd : ∀ d ∈ digits, d < 10) (hs : 9 < sign) :
    packedFailure (digits ++ [sign]) = none := by
  refine packedFailure_none fun j v hv => ?_
  unfold badNibble
  rw [List.length_append, List.length_singleton]
  rcases Nat.lt_trichotomy j digits.length with hj | hj | hj
  · rw [List.getElem?_append_left hj] at hv
    rw [if_pos (by omega)]
    have := hd v (List.mem_of_getElem? hv)
    omega
  · rw [List.getElem?_append_right (by omega), hj, Nat.sub_self] at hv
    injection hv with hv
    rw [if_neg (by omega)]
    omega
  · rw [List.getElem?_eq_none (by simp; omega)] at hv
    exact absurd hv (by simp)

theorem packedReverse_failing {o : ByteOrder} {sg : Signedness} {viewLen : Nat} {store : List Byte}
    {e : ExcKind × Option (Nat × Byte)} (h : packedFailure (unpackNibbles store) = some e) :
    packedReverse o sg viewLen store = { result := List.replicate viewLen 0, exc := some e } := by
  unfold packedReverse
  dsimp only
  rw [h, writeViewInteger_zero]

theorem packedReverse_valued {o : ByteOrder} {sg : Signedness} {viewLen : Nat} {store : List Byte}
    (h : packedFailure (unpackNibbles store) = none) :
    packedReverse o sg viewLen store = rangeChecked o sg viewLen
      (if (unpackNibbles store).getLastD 0 = 0xB ∨ (unpackNibbles store).getLastD 0 = 0xD then
        -(digitsValue (unpackNibbles store).dropLast : Int) else digitsValue (unpackNibbles store).dropLast) := by
  unfold packedReverse
  dsimp only
  rw [h]

theorem packedForward_fits (o : ByteOrder) (sg : Signedness) (n : Nat) (image : List Byte)
    (h : (viewInteger o sg image).natAbs < 10 ^ (2 * n - 1)) : packedForward o sg n image
      = { result := packNibbles (decimalDigits (2 * n - 1) (viewInteger o sg image).natAbs
            ++ [packedSign sg (viewInteger o sg image)])
          exc := none } := if_pos h

theorem packedForward_overflows (o : ByteOrder) (sg : Signedness) (n : Nat) (image : List Byte)
    (h : 10 ^ (2 * n - 1) ≤ (viewInteger o sg image).natAbs) : packedForward o sg n image
      = { result := packNibbles (List.replicate (2 * n - 1) 9 ++ [packedSign sg (viewInteger o sg image)])
          exc := some (.overflow, none) } := if_neg (Nat.not_lt.mpr h)

/-- A PACKED value written without OVERFLOW reads back. -/
theorem packedReverse_packedForward (o : ByteOrder) (sg : Signedness) (n : Nat) (image : List Byte) (hn : 1 ≤ n)
    (himage : 1 ≤ image.length) (hexc : (packedForward o sg n image).exc = none) :
    packedReverse o sg image.length (packedForward o sg n image).result = { result := image, exc := none } := by
  have hfits : (viewInteger o sg image).natAbs < 10 ^ (2 * n - 1) := by
    by_contra hno
    rw [packedForward_overflows o sg n image (Nat.not_lt.mp hno)] at hexc
    exact absurd hexc (by simp)
  obtain ⟨hsign9, hsign16⟩ := packedSign_range sg (viewInteger o sg image)
  have hdigits : ∀ d ∈ decimalDigits (2 * n - 1) (viewInteger o sg image).natAbs, d < 10 :=
    fun d hd => decimalDigits_lt _ _ d hd
  have hnibbles : unpackNibbles (packedForward o sg n image).result
      = decimalDigits (2 * n - 1) (viewInteger o sg image).natAbs ++ [packedSign sg (viewInteger o sg image)] := by
    rw [packedForward_fits o sg n image hfits]
    refine unpackNibbles_packNibbles _ (fun d hd => ?_) ?_
    · rcases List.mem_append.mp hd with hd | hd
      · exact (hdigits d hd).trans (by decide)
      · rw [List.mem_singleton.mp hd]
        exact hsign16
    · rw [List.length_append, decimalDigits_length, List.length_singleton]
      omega
  have hnonneg : sg = .unsigned → 0 ≤ viewInteger o sg image := by
    rintro rfl
    exact viewInteger_unsigned_nonneg o image
  rw [packedReverse_valued (by rw [hnibbles]; exact packedFailure_digits hdigits hsign9), hnibbles,
    List.dropLast_concat, List.getLastD_concat, digitsValue_decimalDigits _ _ hfits, signed_packedSign hnonneg,
    rangeChecked_viewInteger o sg image himage]

/-! ### EDITED (R49 to R59) -/

section
variable {translate : Byte → Option Byte} {o : ByteOrder} {sg : Signedness} {viewLen : Nat} {steps : List EditStep}
  {store : List Byte}

theorem firstByte_untranslated {text : List Byte} {p : Nat} {b : Byte} (hb : text[p]? = some b)
    (hnone : translate b = none) (hlow : ∀ p' b', p' < p → text[p']? = some b' → translate b' ≠ none) :
    firstByte 0 text (fun b => (translate b).isNone) = some (p, b) := by
  refine firstByte_some 0 _ _ p b (Nat.zero_le p) hb (by rw [hnone]; rfl) fun p' b' _ hp' hb' => ?_
  rw [Option.isNone_eq_false_iff, Option.isSome_iff_ne_none]
  exact hlow p' b' hp' hb'

theorem firstByte_translated {text : List Byte} (h : ∀ b ∈ text, translate b ≠ none) :
    firstByte 0 text (fun b => (translate b).isNone) = none :=
  firstByte_none 0 _ _ fun b hb => by
    rw [Option.isNone_eq_false_iff, Option.isSome_iff_ne_none]
    exact h b hb

theorem editedReverse_unmapped {p : Nat} {b : Byte} (hb : store[p]? = some b) (hnone : translate b = none)
    (hlow : ∀ p' b', p' < p → store[p']? = some b' → translate b' ≠ none) :
    editedReverse translate o sg viewLen steps store
      = { result := List.replicate viewLen 0, exc := some (.unmapped, some (p, b)) } := by
  unfold editedReverse
  dsimp only
  rw [firstByte_untranslated hb hnone hlow, writeViewInteger_zero]

section
variable {text : List Byte} (htext : store.map translate = text.map some)
include htext

theorem text_of_store : store.map (fun b => (translate b).getD 0) = text := by
  have h := congrArg (List.map fun b : Option Byte => b.getD 0) htext
  rw [List.map_map, List.map_map] at h
  exact h.trans (List.map_id text)

theorem store_translated : ∀ b ∈ store, translate b ≠ none := by
  intro b hb hnone
  have hmem : none ∈ text.map some := by
    rw [← htext, ← hnone]
    exact List.mem_map_of_mem hb
  exact absurd hmem (by simp)

theorem editedReverse_failing {k : Nat} (hk : parseWalk 0 .start ((positionsOf steps).zip text) = .error k) :
    editedReverse translate o sg viewLen steps store
      = { result := List.replicate viewLen 0, exc := some (.syntaxError, some (k, store.getD k 0)) } := by
  unfold editedReverse
  dsimp only
  rw [firstByte_translated (store_translated htext), text_of_store htext]
  dsimp only
  rw [hk, writeViewInteger_zero]

theorem editedReverse_valued {st : ParseState} (hst : parseWalk 0 .start ((positionsOf steps).zip text) = .ok st) :
    editedReverse translate o sg viewLen steps store = rangeChecked o sg viewLen
      (if st.minusShown then -(digitsValue st.digits.reverse : Int) else digitsValue st.digits.reverse) := by
  unfold editedReverse
  dsimp only
  rw [firstByte_translated (store_translated htext), text_of_store htext]
  dsimp only
  rw [hst]

end

end

section
variable (translate : Byte → Option Byte) (storeSub mark : Byte) (o : ByteOrder) (sg : Signedness) (storeLen : Nat)
  (steps : List EditStep) (image : List Byte)

/-- A value has no text under a program: too many digits, or negative without MINUS (R49). -/
def EditOverflows (steps : List EditStep) (x : Int) : Prop :=
  10 ^ digitCount steps ≤ x.natAbs ∨ x < 0 ∧ ∀ step ∈ steps, step.op ≠ .minus

theorem hasMinus_false (steps : List EditStep) : hasMinus steps = false ↔ ∀ step ∈ steps, step.op ≠ .minus := by
  simp [hasMinus]

theorem editedForward_overflows (h : EditOverflows steps (viewInteger o sg image)) :
    editedForward translate storeSub mark o sg storeLen steps image
      = { result := List.replicate storeLen mark, exc := some (.overflow, none) } :=
  if_pos (h.imp_right (And.imp_right (hasMinus_false steps).mpr))

theorem editedForward_text (h : ¬ EditOverflows steps (viewInteger o sg image)) :
    editedForward translate storeSub mark o sg storeLen steps image
      = { result := (formatText steps (viewInteger o sg image)).map fun b => (translate b).getD storeSub
          exc := (firstByte 0 (formatText steps (viewInteger o sg image)) fun b => (translate b).isNone).map
            fun x => (.unmapped, some x) } :=
  if_neg fun hbad => h (hbad.imp_right (And.imp_right (hasMinus_false steps).mp))

end

/-! ### View integers (R38) -/

theorem leNat_leBytes (n v : Nat) : leNat (leBytes n v) = v % 256 ^ n := by
  induction n generalizing v with
  | zero => simp [leBytes, leNat, Nat.mod_one]
  | succ n ih =>
    rw [leBytes, leNat, ih, toByte_toNat, Nat.mod_mod, Nat.pow_succ', Nat.mod_mul]

theorem writeViewInteger_length (o : ByteOrder) (len : Nat) (x : Int) : (writeViewInteger o len x).length = len := by
  unfold writeViewInteger
  rw [arrange_length, leBytes_length]

theorem viewInteger_writeViewInteger (o : ByteOrder) (len : Nat) (x : Int) :
    viewInteger o .unsigned (writeViewInteger o len x) = x % 256 ^ len := by
  have hpos : (0 : Int) < 256 ^ len := by positivity
  have hnonneg := Int.emod_nonneg x hpos.ne'
  have hlt := Int.emod_lt_of_pos x hpos
  unfold viewInteger writeViewInteger
  dsimp only
  rw [arrange_arrange, leNat_leBytes, Nat.mod_eq_of_lt, Int.toNat_of_nonneg hnonneg]
  exact (Int.toNat_lt hnonneg).mpr (by exact_mod_cast hlt)

theorem viewInteger_eq (o : ByteOrder) (sg : Signedness) (image : List Byte) (sum : Nat)
    (h : leNat (o.arrange image) = sum) : viewInteger o sg image
      = if sg = .signed ∧ 256 ^ image.length ≤ 2 * sum then (sum : Int) - 256 ^ image.length else sum := by
  unfold viewInteger
  rw [h]
  cases sg with
  | unsigned => rfl
  | signed =>
    dsimp only
    by_cases hlt : 2 * sum < 256 ^ image.length
    · rw [if_pos hlt, if_neg fun h => absurd h.2 (Nat.not_le.mpr hlt)]
    · rw [if_neg hlt, if_pos ⟨rfl, Nat.not_lt.mp hlt⟩]

end Sys2Proof.Machine

end

section
/-! PROOF. The PACKED and EDITED statement: formatting and parsing position by position, and its clauses one after
another (R38 to R59). -/

namespace Sys2Proof.Machine

/-- What the range check gives, by where the value lies (R42, R59). -/
theorem rangeChecked_cases (o : ByteOrder) (sg : Signedness) (len : Nat) (y : Int) :
    (viewMin sg len ≤ y → y ≤ viewMax sg len →
      rangeChecked o sg len y = { result := writeViewInteger o len y, exc := none })
    ∧ (viewMax sg len < y → 1 ≤ len →
      rangeChecked o sg len y = { result := writeViewInteger o len (viewMax sg len), exc := some (.range, none) })
    ∧ (y < viewMin sg len → 1 ≤ len →
      rangeChecked o sg len y = { result := writeViewInteger o len (viewMin sg len), exc := some (.range, none) }
        ∧ (sg = .unsigned → viewMin sg len = 0)) := by
  refine ⟨rangeChecked_inside o sg len y, fun h _ => rangeChecked_above o sg len y h, fun h hl =>
    ⟨rangeChecked_below o sg len y hl h, ?_⟩⟩
  rintro rfl
  rfl

/-- What a position shows, with the sign of the value spelled out (R50). -/
theorem shownAt_eq (x : Int) (on : Bool) (ps : List TextPos) (ds : List Nat) (q : Nat) (pos : TextPos) :
    shownAt (decide (x < 0)) on ps ds q pos = match pos with
      | .dig fill _ => if onAt on ps ds q then toByte (0x30 + digitAt ps ds q) else fill
      | .req _ _ => toByte (0x30 + digitAt ps ds q)
      | .mark c fill _ => if onAt on ps ds q then c else fill
      | .fixed c _ _ => c
      | .minus c fill _ => if x < 0 then c else fill
      | .plus c fill _ => if x < 0 then fill else c := by
  unfold shownAt
  cases pos <;> simp only [decide_eq_true_eq]

end Sys2Proof.Machine

namespace Sys2Proof

open Sys2Proof.Machine

/-- Settles O33: each clause from the lemma about the function it speaks of. -/
theorem packedAndEditedOutcomes : Obligations.PackedAndEditedOutcomes := by
  refine ⟨packedReverse_packedForward, fun o sg n image => ?_, fun o sg viewLen y => ?_,
    fun translate storeSub mark o sg storeLen steps image => ?_, fun o sg image => ?_,
    fun o len x => ⟨writeViewInteger_length o len x, viewInteger_writeViewInteger o len x⟩,
    fun n => ⟨rfl, rfl, rfl, rfl⟩,
    fun n v => ⟨decimalDigits_length n v, fun k hk => decimalDigits_getElem? n v k hk⟩, digitsValue_eq,
    packNibbles_getElem?, unpackNibbles_getElem?, fun steps => ?_, fun zs => ?_⟩
  · intro x sign digits
    have hsign : packedSign sg x = sign := packedSign_eq sg x
    rw [← hsign]
    exact ⟨packedForward_fits o sg n image, packedForward_overflows o sg n image⟩
  · intro written ranged
    have hranged : ranged (rangeChecked o sg viewLen y) := rangeChecked_cases o sg viewLen y
    refine ⟨fun store _ => ?_, fun translate steps store => ?_⟩
    · intro nibbles bad
      refine ⟨fun j v hv hbad hlow => packedReverse_failing (packedFailure_some hv hbad hlow), fun hgood => ?_⟩
      intro m sign hy
      rw [packedReverse_valued (packedFailure_none hgood)]
      rw [hy] at hranged
      exact hranged
    · intro out
      refine ⟨fun p b hb hnone hlow => editedReverse_unmapped hb hnone hlow, fun text htext =>
        ⟨fun k hk => editedReverse_failing htext hk, fun st hst => ?_⟩⟩
      intro m hy
      show ranged (editedReverse translate o sg viewLen steps store)
      rw [editedReverse_valued htext hst]
      rw [hy] at hranged
      exact hranged
  · intro x out text overflows
    refine ⟨editedForward_overflows translate storeSub mark o sg storeLen steps image, fun hfits => ?_⟩
    have hout : out = _ := editedForward_text translate storeSub mark o sg storeLen steps image hfits
    rw [hout]
    refine ⟨rfl, fun p c hc hnone hlow => ?_, fun hall => ?_⟩
    · rw [firstByte_untranslated hc hnone hlow]
      rfl
    · rw [firstByte_translated hall]
      rfl
  · intro size sum
    exact viewInteger_eq o sg image sum (leNat_arrange o image)
  · intro ps isDigit last produced
    have hdigit : TextPos.isDigit = isDigit := funext fun pos => by cases pos <;> rfl
    have hproduced : ∀ (step : EditStep) fill float, step.positions fill float = produced step fill float :=
      fun step fill float => rfl
    obtain ⟨hdigits, hlength⟩ := textPositions_counts steps 0x20 none
    refine ⟨?_, ?_, hlength.symm, fun x => ?_⟩
    · refine (positionsOf_eq steps).trans ?_
      simp only [hproduced]
      rfl
    · rw [← hdigit]
      exact hdigits.symm
    · intro ds digit turns on shown suppressed floated q
      have hat : ∀ q, digitAt ps ds q = digit q := fun q => by
        unfold digitAt
        rw [hdigit]
      have hturns : turnsAt ps ds = turns := funext fun q => by
        unfold turnsAt
        rw [hat] <;> rfl
      have hon : ∀ q, onAt false ps ds q = on q := fun q => by
        unfold onAt
        rw [hturns] <;> rfl
      have hshown : ∀ q pos, shownAt (decide (x < 0)) false ps ds q pos = shown q pos := fun q pos => by
        cases pos <;> rw [shownAt_eq, hat, hon]
      have hfloated : ∀ q, floatAt false ps ds q = floated q := fun q => by
        unfold floatAt suppressedAt
        rw [hturns, hon] <;> rfl
      refine (formatText_getElem? steps x q).trans ?_
      simp only [← hfloated, ← hshown]
      rfl
  · intro digitCode before seen required minus plus floatTaken taken value
    have htaken : ∀ q z, taken q z = passesAt .start zs q z := fun q z => rfl
    have hvalue : ∀ q z, value q z = valueAt false zs q z := fun q z => rfl
    refine ⟨fun q z hz hfail hlow => ?_, fun hall => ?_⟩
    · have h := parseWalk_error .start zs 0 q z hz ((htaken q z).symm.trans hfail)
        fun j y hj hy => (htaken j y).symm.trans (hlow j y hj hy)
      rw [Nat.zero_add] at h
      exact h
    · obtain ⟨st, hok, hminus, hdigits⟩ := parseWalk_ok .start zs 0 fun q z hz => (htaken q z).symm.trans (hall q z hz)
      refine ⟨st, hok, ?_, ?_⟩
      · exact hminus
      · simp only [hvalue]
        exact hdigits

end Sys2Proof
end

section
/-! SUPPORT. Edits and openings of several entries at one event: what each entry holds afterwards (R61, R69). -/

namespace Sys2Proof.Machine

/-! ### Edits of the entries that hold a key -/

/-- A change to what an entry holds. -/
def Entry.mapHeld (f : Gather → Gather) (e : Entry) : Entry :=
  match e.slot with
  | .held stage b => { e with slot := .held stage (f b) }
  | .free => e

theorem Entry.mapHeld_held {e : Entry} {stage : Stage} {b : Gather} (h : e.slot = .held stage b)
    (f : Gather → Gather) : e.mapHeld f = { e with slot := .held stage (f b) } := by
  unfold Entry.mapHeld
  rw [h]

theorem Entry.mapHeld_free {e : Entry} (h : e.slot = .free) (f : Gather → Gather) : e.mapHeld f = e := by
  unfold Entry.mapHeld
  rw [h]

/-- A change that leaves what the entry holds leaves the entry. -/
theorem Entry.mapHeld_eq_self {e : Entry} {f : Gather → Gather}
    (h : ∀ stage b, e.slot = .held stage b → f b = b) : e.mapHeld f = e := by
  cases hs : e.slot with
  | free => exact e.mapHeld_free hs f
  | held stage b => rw [e.mapHeld_held hs, h stage b hs, ← hs]

theorem map_mapHeld_eq_self (es : Vector Entry 8) {f : Gather → Gather} (h : ∀ b, f b = b) :
    es.map (Entry.mapHeld f) = es := by
  refine Vector.ext fun i hi => ?_
  show (es.map _)[(⟨i, hi⟩ : Fin 8)] = es[(⟨i, hi⟩ : Fin 8)]
  rw [mapAt, Entry.mapHeld_eq_self fun _ b _ => h b]

theorem Entry.mapHeld_mapHeld (e : Entry) (f g : Gather → Gather) :
    (e.mapHeld f).mapHeld g = e.mapHeld fun b => g (f b) := by
  cases hs : e.slot with
  | free => rw [e.mapHeld_free hs, e.mapHeld_free hs, e.mapHeld_free hs]
  | held stage b => rw [e.mapHeld_held hs, e.mapHeld_held hs]; rfl

theorem map_mapHeld_map_mapHeld (es : Vector Entry 8) (f g : Gather → Gather) :
    (es.map (Entry.mapHeld f)).map (Entry.mapHeld g) = es.map (Entry.mapHeld fun b => g (f b)) := by
  rw [Vector.map_map]
  exact congrArg (fun h => es.map h) (funext fun e => e.mapHeld_mapHeld f g)

theorem Entry.key?_eq_some {e : Entry} {k : Key} :
    e.key? = some k ↔ ∃ stage b, e.slot = .held stage b ∧ b.key = k := by
  unfold Entry.key?
  cases e.slot <;> simp

theorem Entry.key?_mapHeld (e : Entry) {f : Gather → Gather} (h : ∀ b, (f b).key = b.key) :
    (e.mapHeld f).key? = e.key? := by
  cases hs : e.slot with
  | free => rw [e.mapHeld_free hs]
  | held stage b =>
    rw [e.mapHeld_held hs]
    unfold Entry.key?
    rw [hs]
    exact congrArg some (h b)

/-- An edit of what gathers for a key. -/
def Gather.onKey (k : Key) (edit : Gather → Gather) (b : Gather) : Gather :=
  if b.key = k then edit b else b

theorem Gather.onKey_key (k : Key) {edit : Gather → Gather} (h : ∀ b, (edit b).key = b.key) (b : Gather) :
    (b.onKey k edit).key = b.key := by
  unfold Gather.onKey
  split
  · exact h b
  · rfl

/-- No two entries hold this key. -/
def State.KeyApart (s : State) (k : Key) : Prop :=
  ∀ g h : Fin 8, s.entries[g].key? = some k → s.entries[h].key? = some k → g = h

theorem State.KeyApart.map {s t : State} {k : Key} (h : s.KeyApart k) {f : Gather → Gather}
    (hf : ∀ b, (f b).key = b.key) (ht : t.entries = s.entries.map (Entry.mapHeld f)) : t.KeyApart k := by
  have hsame : ∀ g : Fin 8, t.entries[g].key? = s.entries[g].key? := fun g => by
    rw [ht, mapAt, Entry.key?_mapHeld _ hf]
  exact fun g i hg hi => h g i ((hsame g).symm.trans hg) ((hsame i).symm.trans hi)

/-- With a key apart, an edit for it changes what each entry holds by that key. -/
theorem State.editEntry_eq_map {s : State} {k : Key} (hapart : s.KeyApart k) (edit : Gather → Gather) :
    s.editEntry k edit = { s with entries := s.entries.map (Entry.mapHeld (Gather.onKey k edit)) } := by
  have hother : ∀ g : Fin 8, s.entries[g].key? ≠ some k →
      s.entries[g].mapHeld (Gather.onKey k edit) = s.entries[g] := fun g hg =>
    Entry.mapHeld_eq_self fun stage b hb => if_neg fun e => hg (Entry.key?_eq_some.mpr ⟨stage, b, hb, e⟩)
  unfold State.editEntry
  split
  · next g stage b hfor =>
    obtain ⟨hslot, hkey⟩ := s.entryFor_slot k g stage b hfor
    have hheld : s.entries[g].key? = some k := Entry.key?_eq_some.mpr ⟨stage, b, hslot, hkey⟩
    refine congrArg (fun es => { s with entries := es }) (Vector.ext fun i hi => ?_)
    show (s.entries.set g _)[(⟨i, hi⟩ : Fin 8)] = (s.entries.map _)[(⟨i, hi⟩ : Fin 8)]
    rw [mapAt]
    by_cases hg : g = ⟨i, hi⟩
    · subst hg
      rw [setAt_self, Entry.mapHeld_held hslot, Gather.onKey, if_pos hkey]
    · rw [setAt_ne _ _ _ _ hg, hother _ fun e => hg (hapart _ _ hheld e)]
  · next hfor =>
    refine congrArg (fun es => { s with entries := es }) (Vector.ext fun i hi => ?_)
    show s.entries[(⟨i, hi⟩ : Fin 8)] = (s.entries.map _)[(⟨i, hi⟩ : Fin 8)]
    rw [mapAt, hother _ (s.entryFor_none k hfor _)]

/-- Edits one after another, each at its key, compose on what each entry holds. -/
theorem State.foldl_editEntry {α : Type} (xs : List α) (key : α → Key) (edit : α → Gather → Gather)
    (hkey : ∀ x b, (edit x b).key = b.key) (s : State) (hapart : ∀ x ∈ xs, s.KeyApart (key x)) :
    xs.foldl (fun s x => s.editEntry (key x) (edit x)) s = { s with
      entries := s.entries.map (Entry.mapHeld fun b =>
        xs.foldl (fun b x => b.onKey (key x) (edit x)) b) } := by
  induction xs generalizing s with
  | nil =>
    exact congrArg (fun es => { s with entries := es }) (map_mapHeld_eq_self s.entries fun _ => rfl).symm
  | cons x xs ih =>
    rw [List.foldl_cons, State.editEntry_eq_map (hapart x (by simp)), ih]
    · refine congrArg (fun es => { s with entries := es }) ?_
      show (s.entries.map _).map _ = _
      exact map_mapHeld_map_mapHeld _ _ _
    · exact fun y hy => (hapart y (by simp [hy])).map (Gather.onKey_key (key x) (hkey x)) rfl

/-- Bytes placed at their keys: the bytes of a gather change by those of its key. -/
theorem Gather.foldl_place {α : Type} (xs : List α) (key : α → Key) (pos : α → Nat) (byte : α → Byte)
    (b : Gather) :
    xs.foldl (fun b x => b.onKey (key x) fun e => { e with bytes := e.bytes.set (pos x) (some (byte x)) }) b
      = { b with bytes := xs.foldl (fun (bytes : List (Option Byte)) x =>
          if b.key = key x then bytes.set (pos x) (some (byte x)) else bytes) b.bytes } := by
  induction xs generalizing b with
  | nil => rfl
  | cons x xs ih =>
    rw [List.foldl_cons, List.foldl_cons, ih]
    unfold Gather.onKey
    by_cases hk : b.key = key x
    · simp only [if_pos hk]
    · simp only [if_neg hk]

/-- A gather of one of these keys lists these transactions too. -/
def Gather.listAt (keys : List Key) (listed : List Nat) (b : Gather) : Gather :=
  { b with confirm := b.confirm ++ if b.key ∈ keys then listed else [] }

theorem Gather.listAt_nil (keys : List Key) (b : Gather) : b.listAt keys [] = b := by
  simp [Gather.listAt]

/-- A transaction listed at each of several keys is listed once at a gather of one of them. -/
theorem Gather.foldl_list (keys : List Key) (id : Nat) (hn : keys.Nodup) (b : Gather) :
    keys.foldl (fun b k => b.onKey k fun e => { e with confirm := e.confirm ++ [id] }) b
      = b.listAt keys [id] := by
  unfold Gather.listAt
  induction keys generalizing b with
  | nil => simp
  | cons k keys ih =>
    obtain ⟨hk, hn⟩ := List.nodup_cons.mp hn
    rw [List.foldl_cons, ih hn]
    unfold Gather.onKey
    by_cases hb : b.key = k
    · rw [if_pos hb]
      simp [hb, hk]
    · rw [if_neg hb]
      simp [hb]

/-! ### Openings -/

/-- The entry that opens for a key. -/
def State.newEntry (s : State) (k : Key) (order : BitVec 32) : Entry :=
  { openOrder := order, fault := false
    slot := .held .gathering
      { key := k, bytes := List.replicate (s.descOf k).viewLen none, base := none, age := 0
        confirm := [], rank := none, opsLeft := 0, got := [], failed := false } }

/-- The FREE entries, lowest index first. -/
def State.freeEntries (s : State) : List (Fin 8) := (List.finRange 8).filter fun g => s.entries[g].isFree

theorem State.mem_freeEntries {s : State} {g : Fin 8} : g ∈ s.freeEntries ↔ s.entries[g].isFree = true := by
  unfold State.freeEntries
  rw [List.mem_filter]
  exact and_iff_right (List.mem_finRange g)

theorem State.freeEntries_nodup (s : State) : s.freeEntries.Nodup := (List.nodup_finRange 8).filter _

theorem State.lowestFree_eq_head? (s : State) : s.lowestFree = s.freeEntries.head? :=
  (List.head?_filter ..).symm

theorem State.openEntry_of_held {s : State} {k : Key} {x : Fin 8 × Stage × Gather}
    (h : s.entryFor k = some x) : s.openEntry k = s := by
  unfold State.openEntry
  rw [h]

theorem State.openEntry_of_free {s : State} {k : Key} {g : Fin 8} (h : s.entryFor k = none)
    (hg : s.lowestFree = some g) :
    s.openEntry k = { s with
      entries := s.entries.set g (s.newEntry k s.openCounter)
      openCounter := s.openCounter + 1, openList := s.openList ++ [g] } := by
  unfold State.openEntry
  rw [h, hg]
  rfl

/-- The entry that opens is FREE no more. -/
theorem State.freeEntries_opened {s t : State} {g : Fin 8} {gs : List (Fin 8)} (hfree : s.freeEntries = g :: gs)
    (hopen : t.entries[g].isFree = false) (hother : ∀ h : Fin 8, g ≠ h → t.entries[h] = s.entries[h]) :
    t.freeEntries = gs := by
  have hnodup := hfree ▸ s.freeEntries_nodup
  have hsub : t.freeEntries = s.freeEntries.filter fun h => decide (g ≠ h) := by
    unfold State.freeEntries
    rw [List.filter_filter]
    refine List.filter_congr fun h _ => ?_
    by_cases hg : g = h
    · subst hg
      rw [hopen]
      simp
    · rw [hother h hg]
      simp [hg]
  rw [hsub, hfree, List.filter_cons_of_neg (by simp), List.filter_eq_self]
  intro h hh
  exact decide_eq_true fun e => (List.nodup_cons.mp hnodup).1 (e ▸ hh)

theorem State.entryFor_isNone_iff (s : State) (k : Key) :
    (s.entryFor k).isNone = true ↔ ∀ g : Fin 8, s.entries[g].key? ≠ some k := by
  rw [Option.isNone_iff_eq_none, State.entryFor_none_iff]
  simp only [ne_eq, Entry.key?_eq_some, not_exists, not_and]

/-- An opening for one key does not give an entry to another one. -/
theorem State.entryFor_opened {s t : State} {k k' : Key} {g : Fin 8} (hne : k ≠ k')
    (hfree : s.entries[g].isFree = true) (hkey : t.entries[g].key? = some k)
    (hother : ∀ h : Fin 8, g ≠ h → t.entries[h] = s.entries[h]) :
    (t.entryFor k').isNone = (s.entryFor k').isNone := by
  rw [Bool.eq_iff_iff, State.entryFor_isNone_iff, State.entryFor_isNone_iff]
  refine forall_congr' fun h => not_congr ?_
  by_cases hg : g = h
  · subst hg
    rw [hkey, (Entry.isFree_iff_key _).mp hfree]
    simp [hne]
  · rw [hother h hg]

/-- The keys without an entry. -/
def State.freshKeys (s : State) (keys : List Key) : List Key :=
  keys.filter fun k => (s.entryFor k).isNone

theorem State.freshKeys_cons_held {s : State} {k : Key} {x : Fin 8 × Stage × Gather} (h : s.entryFor k = some x)
    (keys : List Key) : s.freshKeys (k :: keys) = s.freshKeys keys :=
  List.filter_cons_of_neg (by simp [h])

theorem State.freshKeys_cons_none {s : State} {k : Key} (h : s.entryFor k = none)
    (keys : List Key) : s.freshKeys (k :: keys) = k :: s.freshKeys keys :=
  List.filter_cons_of_pos (by simp [h])

/-- Openings touch the entries, the open counter and the open order. -/
theorem State.foldl_openEntry_eq (keys : List Key) (s : State) :
    keys.foldl State.openEntry s = { s with
      entries := (keys.foldl State.openEntry s).entries
      openCounter := (keys.foldl State.openEntry s).openCounter
      openList := (keys.foldl State.openEntry s).openList } := by
  induction keys generalizing s with
  | nil => rfl
  | cons k keys ih =>
    rw [List.foldl_cons]
    refine (ih (s.openEntry k)).trans ?_
    cases hfor : s.entryFor k with
    | some x => rw [State.openEntry_of_held hfor]
    | none =>
      cases hg : s.lowestFree with
      | none => unfold State.openEntry; rw [hfor, hg]
      | some g => rw [State.openEntry_of_free hfor hg]

theorem count_succ (x : BitVec 32) (j : Nat) : x + 1 + BitVec.ofNat 32 j = x + BitVec.ofNat 32 (j + 1) := by
  rw [BitVec.add_assoc, BitVec.add_comm 1, BitVec.ofNat_add]
  rfl

/-- Openings for several keys: those without an entry take the FREE entries in ascending order. -/
theorem State.foldl_openEntry (keys : List Key) (s : State) (hn : keys.Nodup)
    (hroom : (s.freshKeys keys).length ≤ s.freeEntries.length) :
    (keys.foldl State.openEntry s).openCounter = s.openCounter + BitVec.ofNat 32 (s.freshKeys keys).length
      ∧ (keys.foldl State.openEntry s).openList
        = s.openList ++ s.freeEntries.take (s.freshKeys keys).length
      ∧ (∀ (j : Nat) (k : Key) (g : Fin 8), (s.freshKeys keys)[j]? = some k → s.freeEntries[j]? = some g →
          (keys.foldl State.openEntry s).entries[g] = s.newEntry k (s.openCounter + BitVec.ofNat 32 j))
      ∧ ∀ g : Fin 8, g ∉ s.freeEntries.take (s.freshKeys keys).length →
          (keys.foldl State.openEntry s).entries[g] = s.entries[g] := by
  induction keys generalizing s with
  | nil =>
    exact ⟨(BitVec.add_zero _).symm, by simp [State.freshKeys], fun j k g h => absurd h (by simp [State.freshKeys]),
      fun _ _ => rfl⟩
  | cons k keys ih =>
    obtain ⟨hk, hn⟩ := List.nodup_cons.mp hn
    rw [List.foldl_cons]
    cases hfor : s.entryFor k with
    | some x =>
      rw [State.freshKeys_cons_held hfor] at hroom ⊢
      rw [State.openEntry_of_held hfor]
      exact ih s hn hroom
    | none =>
      rw [State.freshKeys_cons_none hfor, List.length_cons] at hroom ⊢
      obtain ⟨g, gs, hgs⟩ : ∃ g gs, s.freeEntries = g :: gs :=
        List.exists_cons_of_length_pos (by omega)
      have hlow : s.lowestFree = some g := by rw [s.lowestFree_eq_head?, hgs]; rfl
      have hfree : s.entries[g].isFree = true := State.mem_freeEntries.mp (by rw [hgs]; simp)
      obtain ⟨hlist, hkey, -, hother⟩ := State.openEntry_keys hfor hlow
      have hopened := State.openEntry_of_free hfor hlow
      have hnext : (s.openEntry k).freeEntries = gs :=
        State.freeEntries_opened hgs ((Entry.isFree_false_iff _).mpr (by rw [hkey]; simp)) hother
      have hfresh : (s.openEntry k).freshKeys keys = s.freshKeys keys :=
        List.filter_congr fun k' hk' =>
          State.entryFor_opened (fun e : k = k' => hk (e ▸ hk')) hfree hkey hother
      have hg : g ∉ gs := (List.nodup_cons.mp (hgs ▸ s.freeEntries_nodup)).1
      have hcount : (s.openEntry k).openCounter = s.openCounter + 1 := by rw [hopened]
      obtain ⟨hcounter, hopenList, hnew, hold⟩ := ih (s.openEntry k) hn (by
        rw [hfresh, hnext]; rw [hgs, List.length_cons] at hroom; omega)
      rw [hfresh, hcount, count_succ] at hcounter
      rw [hfresh, hnext, hlist, List.append_assoc, List.singleton_append] at hopenList
      rw [hfresh, hnext] at hold
      rw [hgs, List.take_succ_cons]
      refine ⟨hcounter, hopenList, fun j k' h hj hh => ?_, fun h hh => ?_⟩
      · cases j with
        | zero =>
          obtain rfl : k = k' := by simpa using hj
          obtain rfl : g = h := by simpa using hh
          rw [hold g fun h => hg (List.mem_of_mem_take h), hopened, BitVec.add_zero]
          exact setAt_self _ _ _
        | succ j =>
          rw [hnew j k' h (by rw [hfresh]; simpa using hj) (by rw [hnext]; simpa using hh), hcount, count_succ]
          unfold State.newEntry
          rw [(s.openEntry_same k).descOf]
      · rw [List.mem_cons, not_or] at hh
        exact (hold h hh.2).trans (hother h (Ne.symm hh.1))

/-- An opening keeps a key apart. -/
theorem State.KeyApart.openEntry {s : State} {k : Key} (h : s.KeyApart k) (k' : Key) :
    (s.openEntry k').KeyApart k := by
  cases hfor : s.entryFor k' with
  | some x => rwa [State.openEntry_of_held hfor]
  | none =>
    cases hg : s.lowestFree with
    | none => unfold State.openEntry; rwa [hfor, hg]
    | some g =>
      obtain ⟨-, hkey, -, hother⟩ := State.openEntry_keys hfor hg
      by_cases hk : k = k'
      · subst hk
        have honly : ∀ i : Fin 8, (s.openEntry k).entries[i].key? = some k → g = i := fun i hi => by
          by_contra hne
          rw [hother i hne] at hi
          exact s.entryFor_none k hfor i hi
        exact fun i j hi hj => (honly i hi).symm.trans (honly j hj)
      · have hold : ∀ i : Fin 8, (s.openEntry k').entries[i].key? = some k → s.entries[i].key? = some k :=
          fun i hi => by
            by_cases hne : g = i
            · subst hne
              rw [hkey] at hi
              exact absurd (Option.some.inj hi).symm hk
            · rwa [hother i hne] at hi
        exact fun i j hi hj => h i j (hold i hi) (hold j hj)

theorem State.KeyApart.foldl_openEntry {s : State} {k : Key} (h : s.KeyApart k) (keys : List Key) :
    (keys.foldl State.openEntry s).KeyApart k := by
  induction keys generalizing s with
  | nil => exact h
  | cons k' keys ih => exact ih (h.openEntry k')

/-- A key that no entry holds is apart. -/
theorem State.keyApart_of_none {s : State} {k : Key} (h : s.entryFor k = none) : s.KeyApart k :=
  fun g _ hg _ => absurd hg (s.entryFor_none k h g)

end Sys2Proof.Machine
end

section
/-! SUPPORT. The dispatch of a write: which bytes each field gets, and the part the flushes start from
(R67, R69 to R71). -/

namespace Sys2Proof.Machine

/-! ### The kept bytes of a field (R67, R69) -/

/-- A kept field's bytes after a write: each byte of the write that the field owns goes to its position. -/
def placedBytes (fields : List FieldDesc) (o : Nat) (data : List Byte) (i : Nat) (old : List (Option Byte)) :
    List (Option Byte) :=
  (List.range data.length).foldl (fun bytes k => match ownerOf fields (o + k) with
    | some (f, j) => if j = i then bytes.set (o + k - f.viewOff) data[k]? else bytes
    | none => bytes) old

theorem zipIdx_eq_map_range_getD (data : List Byte) :
    data.zipIdx = (List.range data.length).map fun k => (data.getD k 0, k) := by
  refine List.ext_getElem (by simp) fun i h1 h2 => ?_
  have hi : i < data.length := by simpa using h1
  simp [hi]

/-- A byte that a kept field owns is not read-only. -/
theorem readOnly_of_kept {fields : List FieldDesc} {o n off i : Nat} {f : FieldDesc}
    (hkept : i ∈ keptFields fields o n) (howner : ownerOf fields off = some (f, i)) : f.readOnly = false := by
  obtain ⟨f', htouched, hro⟩ := (mem_keptFields ..).mp hkept
  have hf' := ((mem_touchedFields ..).mp htouched).1
  have hf := ((ownerOf_some ..).mp howner).1
  rwa [← Option.some.inj (hf'.symm.trans hf)]

/-- The kept bytes go to kept fields. -/
theorem field_of_keptBytes {fields : List FieldDesc} {o : Nat} {data : List Byte} {x : Nat × Nat × Byte}
    (hx : x ∈ keptBytes fields o data) : x.1 ∈ keptFields fields o data.length := by
  unfold keptBytes at hx
  rw [zipIdx_eq_map_range_getD, List.mem_filterMap] at hx
  obtain ⟨y, hy, hyx⟩ := hx
  obtain ⟨k, hk, rfl⟩ := List.mem_map.mp hy
  have hk := List.mem_range.mp hk
  split at hyx
  · next f i howner =>
    split at hyx
    · exact absurd hyx (by simp)
    · next hro =>
      obtain rfl := Option.some.inj hyx
      obtain ⟨hf, hcover, -⟩ := (ownerOf_some ..).mp howner
      exact (mem_keptFields ..).mpr
        ⟨f, (mem_touchedFields ..).mpr ⟨hf, o + k, ⟨by omega, by omega⟩, hcover⟩, by simpa using hro⟩
  · exact absurd hyx (by simp)

/-- The kept bytes of one field, placed one after another. -/
theorem foldl_keptBytes {fields : List FieldDesc} {o i : Nat} {data : List Byte}
    (hkept : i ∈ keptFields fields o data.length) (old : List (Option Byte)) :
    (keptBytes fields o data).foldl (fun (bytes : List (Option Byte)) x =>
      if i = x.1 then bytes.set x.2.1 (some x.2.2) else bytes) old = placedBytes fields o data i old := by
  unfold keptBytes placedBytes
  rw [List.foldl_filterMap, zipIdx_eq_map_range_getD, List.foldl_map]
  refine List.foldl_ext _ _ _ fun bytes k hk => ?_
  have hbyte : data[k]? = some (data.getD k 0) := by simp [List.mem_range.mp hk]
  rw [hbyte]
  dsimp only
  cases howner : ownerOf fields (o + k) with
  | none => rfl
  | some x =>
    obtain ⟨f, j⟩ := x
    dsimp only
    by_cases hj : j = i
    · subst hj
      rw [readOnly_of_kept hkept howner]
      simp
    · rw [if_neg hj]
      cases f.readOnly with
      | true => rfl
      | false => exact if_neg (Ne.symm hj)

/-! ### What a write leaves at an entry (R69, R70) -/

theorem Decode.key_inj (d : Decode) {i j : Nat} (h : d.key i = d.key j) : i = j := congrArg Key.field h

/-- The kept bytes placed at the entries of their fields. -/
def Decode.placed (d : Decode) (fields : List FieldDesc) (data : List Byte) (b : Gather) : Gather :=
  { b with bytes := (keptBytes fields d.offset data).foldl (fun (bytes : List (Option Byte)) x =>
      if b.key = d.key x.1 then bytes.set x.2.1 (some x.2.2) else bytes) b.bytes }

/-- What gathers for a kept field after a write. -/
def Decode.written (d : Decode) (fields : List FieldDesc) (data : List Byte) (listed : List Nat) (b : Gather) :
    Gather :=
  (d.placed fields data b).listAt ((keptFields fields d.offset data.length).map d.key) listed

theorem Decode.written_kept {d : Decode} {fields : List FieldDesc} {data : List Byte} {i : Nat} {b : Gather}
    (hkept : i ∈ keptFields fields d.offset data.length) (hkey : b.key = d.key i) (listed : List Nat) :
    d.written fields data listed b =
      { b with bytes := placedBytes fields d.offset data i b.bytes, confirm := b.confirm ++ listed } := by
  unfold Decode.written Decode.placed Gather.listAt
  rw [hkey, if_pos (List.mem_map_of_mem hkept), ← foldl_keptBytes hkept]
  simp only [show ∀ j, (d.key i = d.key j) = (i = j) from fun j =>
    propext ⟨d.key_inj, congrArg d.key⟩]

theorem Decode.written_other {d : Decode} {fields : List FieldDesc} {data : List Byte} {b : Gather}
    (hkey : b.key ∉ (keptFields fields d.offset data.length).map d.key) (listed : List Nat) :
    d.written fields data listed b = b := by
  have hnone : ∀ x ∈ keptBytes fields d.offset data, b.key ≠ d.key x.1 := fun x hx e =>
    hkey (e ▸ List.mem_map_of_mem (field_of_keptBytes hx))
  have hsame : (keptBytes fields d.offset data).foldl (fun (bytes : List (Option Byte)) x =>
      if b.key = d.key x.1 then bytes.set x.2.1 (some x.2.2) else bytes) b.bytes = b.bytes := by
    rw [List.foldl_ext _ (fun bytes _ => bytes) _ fun bytes x hx => if_neg (hnone x hx)]
    exact List.foldl_fixed _
  unfold Decode.written Decode.placed Gather.listAt
  rw [hsame, if_neg hkey, List.append_nil]

/-! ### The dispatch (R69 to R71) -/

/-- The state of a dispatched write. -/
def dispatchedState (ack : Ack) (w : Fin 8) (n : Nat) : TxnState :=
  match ack with
  | .posted => .ready .okay []
  | .confirmed => .waiting (.windowWrite w n false)

/-- The transactions that a write lists at its entries. -/
def listedBy (ack : Ack) (id : Nat) : List Nat := if ack = .confirmed then [id] else []

/-- The part after the bytes of a write are placed and its response state is set, before flushes start. -/
def State.gathered (s : State) (t : Txn) (d : Decode) (data : List Byte) : State :=
  let opened := (s.keptKeys d data).foldl State.openEntry s
  let ack := s.windows[d.window].cfg.ack
  { s.handOverAll (writeRecord (s.fieldsOf d.window) t d data.length .discarded).toList with
    entries := opened.entries.map
      (Entry.mapHeld (d.written (s.fieldsOf d.window) data (listedBy ack t.id)))
    openCounter := opened.openCounter, openList := opened.openList
    txns := withTxn s.txns t.id (dispatchedState ack d.window (s.keptKeys d data).length) }

/-- Records handed over do not touch the gather buffer. -/
theorem State.handOverAll_buffer (rs : List ExcRecord) (s : State) (entries : Vector Entry 8)
    (openCounter : BitVec 32) (openList : List (Fin 8)) :
    State.handOverAll { s with entries, openCounter, openList } rs
      = { s.handOverAll rs with entries, openCounter, openList } := by
  induction rs generalizing s with
  | nil => rfl
  | cons r rs ih =>
    refine Eq.trans ?_ (ih (s.handOver r))
    refine congrArg (fun t => State.handOverAll t rs) ?_
    unfold State.handOver
    dsimp only
    split <;> rfl

theorem State.handOverAll_windows (s : State) (rs : List ExcRecord) :
    (s.handOverAll rs).windows = s.windows := s.handOverAll_keeps (·.windows) State.handOver_windows rs

theorem State.keptKeys_nodup (s : State) (d : Decode) (data : List Byte) : (s.keptKeys d data).Nodup :=
  List.Nodup.map (fun _ _ => d.key_inj) ((keptFields_ascending ..).imp fun h => Nat.ne_of_lt h)

theorem State.foldl_placeByte {s : State} {d : Decode} {fields : List FieldDesc} {data : List Byte}
    (hapart : ∀ i ∈ keptFields fields d.offset data.length, s.KeyApart (d.key i)) :
    (keptBytes fields d.offset data).foldl (fun s x => s.placeByte (d.key x.1) x.2.1 x.2.2) s
      = { s with entries := s.entries.map (Entry.mapHeld (d.placed fields data)) } := by
  refine (State.foldl_editEntry _ (fun x => d.key x.1)
    (fun x e => { e with bytes := e.bytes.set x.2.1 (some x.2.2) }) (fun _ _ => rfl) s
    fun x hx => hapart _ (field_of_keptBytes hx)).trans ?_
  refine congrArg (fun f => { s with entries := s.entries.map (Entry.mapHeld f) }) (funext fun b => ?_)
  exact Gather.foldl_place _ (fun x : Nat × Nat × Byte => d.key x.1) _ _ b

/-- The acknowledge of a dispatched write sets its state and lists it where it is CONFIRMED. -/
theorem State.acknowledge_eq {s : State} (t : Txn) (d : Decode) {keys : List Key} (hn : keys.Nodup)
    (hapart : ∀ k ∈ keys, s.KeyApart k) :
    s.acknowledge t d keys = { s with
      entries := s.entries.map
        (Entry.mapHeld (Gather.listAt keys (listedBy s.windows[d.window].cfg.ack t.id)))
      txns := withTxn s.txns t.id
        (dispatchedState s.windows[d.window].cfg.ack d.window keys.length) } := by
  unfold State.acknowledge
  cases s.windows[d.window].cfg.ack with
  | posted =>
    rw [show listedBy .posted t.id = [] from rfl, map_mapHeld_eq_self s.entries (Gather.listAt_nil keys)]
    rfl
  | confirmed =>
    have hlist := State.foldl_editEntry keys (fun k => k)
      (fun _ e => { e with confirm := e.confirm ++ [t.id] }) (fun _ _ => rfl) s hapart
    have hmap := congrArg (fun f => s.entries.map (Entry.mapHeld f))
      (funext fun b => Gather.foldl_list keys t.id hn b)
    have hlisted := hlist.trans (congrArg (fun es => { s with entries := es }) hmap)
    exact congrArg (fun u => State.setTxn u t.id (.waiting (.windowWrite d.window keys.length false))) hlisted

/-- A write leaves its bytes and its listing at the entries of its fields. -/
theorem State.answered_eq (s : State) (t : Txn) (d : Decode) (data : List Byte)
    (hapart : ∀ k ∈ s.keptKeys d data, s.KeyApart k) :
    (((keptBytes (s.fieldsOf d.window) d.offset data).foldl
      (fun s x => s.placeByte (d.key x.1) x.2.1 x.2.2)
      ((s.keptKeys d data).foldl State.openEntry s)).handOverAll
        (writeRecord (s.fieldsOf d.window) t d data.length .discarded).toList).acknowledge t d
          (s.keptKeys d data) = s.gathered t d data := by
  have hopen : ∀ k ∈ s.keptKeys d data, ((s.keptKeys d data).foldl State.openEntry s).KeyApart k :=
    fun k hk => (hapart k hk).foldl_openEntry _
  rw [State.foldl_placeByte fun i hi => hopen _ (List.mem_map_of_mem hi), State.foldl_openEntry_eq]
  have hlogged := State.handOverAll_buffer
    (writeRecord (s.fieldsOf d.window) t d data.length .discarded).toList s
    (((s.keptKeys d data).foldl State.openEntry s).entries.map
      (Entry.mapHeld (d.placed (s.fieldsOf d.window) data)))
    ((s.keptKeys d data).foldl State.openEntry s).openCounter
    ((s.keptKeys d data).foldl State.openEntry s).openList
  refine (congrArg (fun u => State.acknowledge u t d (s.keptKeys d data)) hlogged).trans ?_
  refine (State.acknowledge_eq t d (s.keptKeys_nodup d data) fun k hk =>
    (hopen k hk).map (f := d.placed (s.fieldsOf d.window) data) (fun _ => rfl) rfl).trans ?_
  unfold State.gathered
  simp only [map_mapHeld_map_mapHeld, State.handOverAll_windows, State.handOverAll_txns]
  rfl

/-- A dispatched write gathers, then starts the flushes of the fields it made whole. -/
theorem State.dispatchWrite_eq (s : State) (t : Txn) (d : Decode) (data : List Byte)
    (hapart : ∀ k ∈ s.keptKeys d data, s.KeyApart k) :
    s.dispatchWrite t d data =
      { (s.gathered t d data).startFlushes ((s.gathered t d data).completed (s.keptKeys d data)) with
        disp := .idle, reoffer := false } := by
  rw [← s.answered_eq t d data hapart]
  rfl

end Sys2Proof.Machine
end

section
/-! SUPPORT. A dispatched write entry by entry: what each gathers afterwards, which flushes start
(R69 to R71, R74). -/

namespace Sys2Proof.Machine

/-! ### Flushes of whole entries (R71, R74) -/

theorem State.completed_eq {s : State} {keys : List Key} {p : Fin 8 → Bool}
    (h : ∀ g : Fin 8, p g = true ↔
      ∃ b, s.entries[g].slot = .held .gathering b ∧ b.key ∈ keys ∧ b.whole = true) :
    s.completed keys = s.openList.filter p := by
  unfold State.completed
  refine List.filter_congr fun g _ => ?_
  rw [Bool.eq_iff_iff, h g]
  split <;> simp_all

theorem State.mem_completed {s : State} {keys : List Key} {g : Fin 8} (h : g ∈ s.completed keys) :
    ∃ b, s.entries[g].slot = .held .gathering b ∧ b.key ∈ keys ∧ b.whole = true := by
  unfold State.completed at h
  have hg := (List.mem_filter.mp h).2
  split at hg
  · next b hb =>
    rw [Bool.and_eq_true, List.contains_iff_mem] at hg
    exact ⟨b, hb, hg⟩
  all_goals exact absurd hg (by simp)

theorem State.gatheringAt_of_slot {s : State} {g : Fin 8} {b : Gather}
    (h : s.entries[g].slot = .held .gathering b) : s.gatheringAt g = some (g, b) := by
  unfold State.gatheringAt
  rw [h]

/-- The job of a flush that converts at once. -/
def flushJob (g : Fin 8) (order : BitVec 32) (b : Gather) : Job := .flush g order b.key b.bytes b.base none

/-- The flushes of whole entries go to CONVERTING in their order, each with a job. -/
theorem State.startFlushes_whole (gs : List (Fin 8)) (s : State) (hn : gs.Nodup)
    (hg : ∀ g ∈ gs, ∃ b, s.entries[g].slot = .held .gathering b ∧ b.whole = true) :
    s.startFlushes gs = { s with
        rankCounter := s.rankCounter + BitVec.ofNat 32 gs.length, flushOrder := s.flushOrder ++ gs
        reoffer := s.reoffer || (!gs.isEmpty && decide (s.disp = .blocked .gatherBuffer))
        toPlace := s.toPlace ++ gs.filterMap fun g =>
          (s.gatheringAt g).map fun x => flushJob g s.entries[g].openOrder x.2
        entries := (s.startFlushes gs).entries }
      ∧ (∀ (g : Fin 8) (b : Gather), g ∈ gs → s.entries[g].slot = .held .gathering b →
          (s.startFlushes gs).entries[g] = { s.entries[g] with
            slot := .held .converting { b with rank := some (s.rankCounter + BitVec.ofNat 32 (gs.idxOf g)) } })
      ∧ ∀ g : Fin 8, g ∉ gs → (s.startFlushes gs).entries[g] = s.entries[g] := by
  obtain ⟨hall, heach, hother⟩ := s.startFlushes_spec gs hn fun g h => by
    obtain ⟨b, hb, -⟩ := hg g h
    unfold Entry.isGathering
    rw [hb]
  have hdirect : ∀ x ∈ gs.filterMap s.gatheringAt, x.2.direct = true := fun x hx => by
    obtain ⟨g, hgs, hx⟩ := List.mem_filterMap.mp hx
    obtain ⟨b, hb, hwhole⟩ := hg g hgs
    obtain rfl : (g, b) = x := Option.some.inj ((State.gatheringAt_of_slot hb).symm.trans hx)
    exact Bool.or_eq_true_iff.mpr (.inl hwhole)
  have hjobs : (gs.filterMap s.gatheringAt).map
      (fun x => Job.flush x.1 s.entries[x.1].openOrder x.2.key x.2.bytes x.2.base none)
      = gs.filterMap fun g => (s.gatheringAt g).map fun x => flushJob g s.entries[g].openOrder x.2 := by
    rw [List.map_filterMap]
    refine List.filterMap_congr fun g h => ?_
    obtain ⟨b, hb, -⟩ := hg g h
    rw [State.gatheringAt_of_slot hb]
    rfl
  refine ⟨?_, fun g b h hb => ?_, hother⟩
  · refine hall.trans ?_
    rw [List.filter_eq_self.mpr hdirect, hjobs, List.filter_eq_nil_iff.mpr fun x hx => by simp [hdirect x hx]]
    simp
  · have hdir : b.direct = true :=
      hdirect (g, b) (List.mem_filterMap.mpr ⟨g, h, State.gatheringAt_of_slot hb⟩)
    have hentry := heach (gs.idxOf g) g b (List.getElem?_idxOf h) hb
    dsimp only at hentry
    rwa [if_pos hdir] at hentry

/-! ### What a write gathers (R69, R70) -/

/-- The kept fields without an entry. -/
def State.freshFields (s : State) (d : Decode) (data : List Byte) : List Nat :=
  (keptFields (s.fieldsOf d.window) d.offset data.length).filter fun i => (s.entryFor (d.key i)).isNone

/-- The FREE entries that a write takes. -/
def State.taken (s : State) (d : Decode) (data : List Byte) : List (Fin 8) :=
  s.freeEntries.take (s.freshFields d data).length

/-- What an entry gathers after a write, where the write reaches it. -/
def State.writeTarget (s : State) (d : Decode) (data : List Byte) (listed : List Nat) (g : Fin 8) :
    Option Gather :=
  match s.entries[g].slot with
  | .held .gathering e =>
    if e.key ∈ s.keptKeys d data then
      some { e with
        bytes := placedBytes (s.fieldsOf d.window) d.offset data e.key.field e.bytes
        confirm := e.confirm ++ listed }
    else none
  | .held .merging _ | .held .converting _ | .held .writing _ => none
  | .free => (s.freshFields d data)[(s.taken d data).idxOf g]?.map fun i =>
    { key := d.key i
      bytes := placedBytes (s.fieldsOf d.window) d.offset data i
        (List.replicate (s.descOf (d.key i)).viewLen none)
      base := none, age := 0, confirm := listed, rank := none, opsLeft := 0, got := [], failed := false }

/-- The place in the open order of an entry that a write reaches. -/
def State.writeOrder (s : State) (d : Decode) (data : List Byte) (g : Fin 8) : BitVec 32 :=
  if s.entries[g].isFree then s.openCounter + BitVec.ofNat 32 ((s.taken d data).idxOf g)
  else s.entries[g].openOrder

theorem State.freshKeys_keptKeys (s : State) (d : Decode) (data : List Byte) :
    s.freshKeys (s.keptKeys d data) = (s.freshFields d data).map d.key := by
  unfold State.freshKeys State.keptKeys State.freshFields
  rw [List.filter_map]
  rfl

theorem State.mem_keptKeys {s : State} {d : Decode} {data : List Byte} {k : Key} :
    k ∈ s.keptKeys d data ↔ ∃ i ∈ keptFields (s.fieldsOf d.window) d.offset data.length, d.key i = k :=
  List.mem_map

theorem State.gathered_entry (s : State) (t : Txn) (d : Decode) (data : List Byte) (g : Fin 8) :
    (s.gathered t d data).entries[g] = Entry.mapHeld
      (d.written (s.fieldsOf d.window) data (listedBy s.windows[d.window].cfg.ack t.id))
      ((s.keptKeys d data).foldl State.openEntry s).entries[g] := mapAt _ _ _

/-- What a write leaves at an entry that holds a kept field, whatever its place and state. -/
theorem Decode.mapHeld_written {s : State} {d : Decode} {data : List Byte} {e : Entry} {stage : Stage}
    {b : Gather} {i : Nat} (hkept : i ∈ keptFields (s.fieldsOf d.window) d.offset data.length)
    (he : e.slot = .held stage b) (hkey : b.key = d.key i) (listed : List Nat) :
    e.mapHeld (d.written (s.fieldsOf d.window) data listed) = { e with
      slot := .held stage { b with
        bytes := placedBytes (s.fieldsOf d.window) d.offset data i b.bytes
        confirm := b.confirm ++ listed } } := by
  rw [Entry.mapHeld_held he, Decode.written_kept hkept hkey]

theorem Decode.mapHeld_written_other {s : State} {d : Decode} {data : List Byte} {e : Entry}
    (he : ∀ k ∈ s.keptKeys d data, e.key? ≠ some k) (listed : List Nat) :
    e.mapHeld (d.written (s.fieldsOf d.window) data listed) = e :=
  Entry.mapHeld_eq_self fun stage b hb =>
    Decode.written_other (fun hk => he _ hk (Entry.key?_eq_some.mpr ⟨stage, b, hb, rfl⟩)) listed

section
variable {s : State} {t : Txn} {d : Decode} {data : List Byte}

/-- An entry that a write does not take keeps its place and fault, and gathers by its key. -/
theorem State.gathered_of_not_taken (hroom : (s.freshFields d data).length ≤ s.freeEntries.length) {g : Fin 8}
    (hg : g ∉ s.taken d data) :
    (s.gathered t d data).entries[g] = s.entries[g].mapHeld
      (d.written (s.fieldsOf d.window) data (listedBy s.windows[d.window].cfg.ack t.id)) := by
  obtain ⟨-, -, -, hold⟩ := s.foldl_openEntry _ (s.keptKeys_nodup d data)
    (by rwa [s.freshKeys_keptKeys, List.length_map])
  rw [s.freshKeys_keptKeys, List.length_map] at hold
  rw [s.gathered_entry, hold g hg]

/-- An entry that a write takes opens for its field. -/
theorem State.gathered_of_taken (hroom : (s.freshFields d data).length ≤ s.freeEntries.length) {g : Fin 8} {i : Nat}
    (hg : g ∈ s.taken d data) (hi : (s.freshFields d data)[(s.taken d data).idxOf g]? = some i) :
    (s.gathered t d data).entries[g] =
      (s.newEntry (d.key i) (s.openCounter + BitVec.ofNat 32 ((s.taken d data).idxOf g))).mapHeld
        (d.written (s.fieldsOf d.window) data (listedBy s.windows[d.window].cfg.ack t.id)) := by
  obtain ⟨-, -, hnew, -⟩ := s.foldl_openEntry _ (s.keptKeys_nodup d data)
    (by rwa [s.freshKeys_keptKeys, List.length_map])
  have hat : s.freeEntries[(s.taken d data).idxOf g]? = some g := by
    have h := List.getElem?_idxOf hg
    unfold State.taken at h
    rw [List.getElem?_take_of_lt] at h
    · exact h
    · exact (List.getElem?_eq_some_iff.mp hi).1
  rw [s.gathered_entry, hnew _ (d.key i) g (by rw [s.freshKeys_keptKeys, List.getElem?_map, hi]; rfl) hat]

theorem State.taken_free {g : Fin 8} (hg : g ∈ s.taken d data) : s.entries[g].isFree = true :=
  State.mem_freeEntries.mp (List.mem_of_mem_take hg)

theorem State.length_taken (hroom : (s.freshFields d data).length ≤ s.freeEntries.length) :
    (s.taken d data).length = (s.freshFields d data).length := by
  unfold State.taken
  rw [List.length_take]
  omega

/-- An entry that a write reaches is GATHERING for a kept field. -/
theorem State.gathered_target (hroom : (s.freshFields d data).length ≤ s.freeEntries.length) {g : Fin 8} {e : Gather}
    (h : s.writeTarget d data (listedBy s.windows[d.window].cfg.ack t.id) g = some e) :
    e.key ∈ s.keptKeys d data ∧ (s.gathered t d data).entries[g] =
      { openOrder := s.writeOrder d data g, fault := !s.entries[g].isFree && s.entries[g].fault
        slot := .held .gathering e } := by
  unfold State.writeTarget at h
  split at h
  · next b hb =>
    have hfree : s.entries[g].isFree = false := by unfold Entry.isFree; rw [hb]
    have hnot : g ∉ s.taken d data := fun hg => by rw [State.taken_free hg] at hfree; simp at hfree
    split at h
    · next hmem =>
      obtain ⟨i, hi, hkey⟩ := State.mem_keptKeys.mp hmem
      obtain rfl := Option.some.inj h
      refine ⟨hmem, ?_⟩
      rw [State.gathered_of_not_taken hroom hnot, Decode.mapHeld_written hi hb hkey.symm, State.writeOrder, hfree,
        ← hkey]
      rfl
    · exact absurd h (by simp)
  · exact absurd h (by simp)
  · exact absurd h (by simp)
  · exact absurd h (by simp)
  · next hb =>
    have hfree : s.entries[g].isFree = true := (Entry.isFree_iff _).mpr hb
    obtain ⟨i, hi, rfl⟩ := Option.map_eq_some_iff.mp h
    have hmem : i ∈ keptFields (s.fieldsOf d.window) d.offset data.length :=
      List.mem_of_mem_filter (List.mem_of_getElem? hi)
    have hg : g ∈ s.taken d data :=
      List.idxOf_lt_length_iff.mp (by rw [State.length_taken hroom]; exact (List.getElem?_eq_some_iff.mp hi).1)
    refine ⟨State.mem_keptKeys.mpr ⟨i, hmem, rfl⟩, ?_⟩
    rw [State.gathered_of_taken hroom hg hi, Decode.mapHeld_written hmem rfl rfl, State.writeOrder, hfree]
    rfl

/-- Any other entry stays, and it is not GATHERING for a kept field. -/
theorem State.gathered_other (hroom : (s.freshFields d data).length ≤ s.freeEntries.length) (hapart : s.KeysApart)
    (hstage : ∀ k ∈ s.keptKeys d data, ∀ stage, s.stageOf k = some stage → stage = .gathering)
    {listed : List Nat} {g : Fin 8} (h : s.writeTarget d data listed g = none) :
    (s.gathered t d data).entries[g] = s.entries[g] ∧ ∀ k ∈ s.keptKeys d data, s.entries[g].key? ≠ some k := by
  have hnot : ∀ k ∈ s.keptKeys d data, s.entries[g].key? ≠ some k := by
    intro k hk hkey
    obtain ⟨stage, b, hb, rfl⟩ := Entry.key?_eq_some.mp hkey
    obtain rfl := hstage _ hk stage (State.stageOf_of_entry (s.entryFor_of_slot hapart g stage b hb))
    unfold State.writeTarget at h
    simp only [hb, if_pos hk] at h
    exact absurd h (by simp)
  refine ⟨?_, hnot⟩
  have hg : g ∉ s.taken d data := fun hg => by
    have hi : (s.taken d data).idxOf g < (s.freshFields d data).length := by
      rw [← State.length_taken hroom]
      exact List.idxOf_lt_length_iff.mpr hg
    unfold State.writeTarget at h
    simp only [(Entry.isFree_iff _).mp (State.taken_free hg), Option.map_eq_none_iff,
      List.getElem?_eq_none_iff] at h
    omega
  rw [State.gathered_of_not_taken hroom hg, Decode.mapHeld_written_other hnot]

end

end Sys2Proof.Machine
end

section
/-! PROOF. Writes that gather: of one byte, and of any size (R67 to R71). -/

namespace Sys2Proof.Machine

section
variable {s : State} {t : Txn} {d : Decode} {data : List Byte}

/-- The entries that a write makes whole, in open order. -/
def State.wholeAfter (s : State) (d : Decode) (data : List Byte) (listed : List Nat) : List (Fin 8) :=
  (s.openList ++ s.taken d data).filter fun g =>
    (s.writeTarget d data listed g).any fun e => e.bytes.all (·.isSome)

/-- A write that discards bytes leaves one record. -/
theorem State.handOverAll_discarded (s : State) (t : Txn) (d : Decode) (n : Nat) :
    s.handOverAll (writeRecord (s.fieldsOf d.window) t d n .discarded).toList
      = if holeTouching (s.fieldsOf d.window) d.offset n || (protectField (s.fieldsOf d.window) d.offset n).isSome
        then s.handOver (refusalRecord s t d n .discarded) else s := by
  split
  · next h =>
    rw [writeRecord_some s t d n .discarded (Bool.or_eq_true_iff.mp h)]
    rfl
  · next h =>
    rw [Bool.or_eq_true, not_or, Bool.not_eq_true, Bool.not_eq_true, Option.isSome_eq_false_iff,
      Option.isNone_iff_eq_none] at h
    rw [writeRecord_none _ t d n .discarded h.1 h.2]
    rfl

theorem State.gathered_openList (hroom : (s.freshFields d data).length ≤ s.freeEntries.length) :
    (s.gathered t d data).openList = s.openList ++ s.taken d data := by
  obtain ⟨-, hlist, -, -⟩ := s.foldl_openEntry _ (s.keptKeys_nodup d data)
    (by rwa [s.freshKeys_keptKeys, List.length_map])
  rw [s.freshKeys_keptKeys, List.length_map] at hlist
  exact hlist

theorem State.gathered_openCounter (hroom : (s.freshFields d data).length ≤ s.freeEntries.length) :
    (s.gathered t d data).openCounter = s.openCounter + BitVec.ofNat 32 (s.freshFields d data).length := by
  obtain ⟨hcount, -, -, -⟩ := s.foldl_openEntry _ (s.keptKeys_nodup d data)
    (by rwa [s.freshKeys_keptKeys, List.length_map])
  rw [s.freshKeys_keptKeys, List.length_map] at hcount
  exact hcount

/-- The fields a write makes whole. -/
theorem State.completed_gathered (hroom : (s.freshFields d data).length ≤ s.freeEntries.length) (hapart : s.KeysApart)
    (hstage : ∀ k ∈ s.keptKeys d data, ∀ stage, s.stageOf k = some stage → stage = .gathering) :
    (s.gathered t d data).completed (s.keptKeys d data)
      = s.wholeAfter d data (listedBy s.windows[d.window].cfg.ack t.id) := by
  unfold State.wholeAfter
  rw [← State.gathered_openList (t := t) hroom]
  refine State.completed_eq fun g => ?_
  cases htarget : s.writeTarget d data (listedBy s.windows[d.window].cfg.ack t.id) g with
  | some e =>
    obtain ⟨hkey, hentry⟩ := State.gathered_target hroom htarget
    rw [hentry, Option.any_some]
    refine ⟨fun h => ⟨e, rfl, hkey, h⟩, fun ⟨b, hb, _, hwhole⟩ => ?_⟩
    injection hb with _ hb
    rwa [hb]
  | none =>
    obtain ⟨hsame, hnot⟩ := State.gathered_other (t := t) hroom hapart hstage htarget
    rw [hsame]
    exact ⟨fun h => absurd h (by simp), fun ⟨b, hb, hkey, _⟩ =>
      absurd (Entry.key?_eq_some.mpr ⟨.gathering, b, hb, rfl⟩) (hnot _ hkey)⟩

theorem State.wholeAfter_nodup (hopens : s.OpensInOrder) (listed : List Nat) :
    (s.wholeAfter d data listed).Nodup := by
  refine List.Nodup.filter _ (List.nodup_append.mpr
    ⟨hopens.once, s.freeEntries_nodup.sublist (List.take_sublist _ _), fun g hg h hh e => ?_⟩)
  subst e
  rw [hopens.held, State.taken_free hh] at hg
  exact absurd hg (by simp)

theorem State.mem_wholeAfter (hroom : (s.freshFields d data).length ≤ s.freeEntries.length)
    (hopens : s.OpensInOrder) {listed : List Nat} {g : Fin 8} :
    g ∈ s.wholeAfter d data listed
      ↔ ∃ e, s.writeTarget d data listed g = some e ∧ e.bytes.all (·.isSome) = true := by
  unfold State.wholeAfter
  rw [List.mem_filter, Option.any_eq_true]
  refine and_iff_right_of_imp fun ⟨e, he, _⟩ => List.mem_append.mpr ?_
  cases hfree : s.entries[g].isFree with
  | false => exact .inl ((hopens.held g).mpr hfree)
  | true =>
    right
    unfold State.writeTarget at he
    simp only [(Entry.isFree_iff _).mp hfree] at he
    obtain ⟨i, hi, -⟩ := Option.map_eq_some_iff.mp he
    rw [← List.idxOf_lt_length_iff, State.length_taken hroom]
    exact (List.getElem?_eq_some_iff.mp hi).1

/-- A dispatched write: what it leaves everywhere but at the entries, at the entries it reaches and at the
others. -/
theorem State.dispatchWrite_effect (t : Txn) (hroom : (s.freshFields d data).length ≤ s.freeEntries.length)
    (hapart : s.KeysApart) (hopens : s.OpensInOrder)
    (hstage : ∀ k ∈ s.keptKeys d data, ∀ stage, s.stageOf k = some stage → stage = .gathering) :
    let ack := s.windows[d.window].cfg.ack
    let target := s.writeTarget d data (listedBy ack t.id)
    let done := s.wholeAfter d data (listedBy ack t.id)
    let logged := s.handOverAll (writeRecord (s.fieldsOf d.window) t d data.length .discarded).toList
    let u := s.dispatchWrite t d data
    u = { logged with
        reoffer := false, disp := .idle, entries := u.entries
        txns := withTxn s.txns t.id (dispatchedState ack d.window (s.keptKeys d data).length)
        openCounter := s.openCounter + BitVec.ofNat 32 (s.freshFields d data).length
        openList := s.openList ++ s.taken d data
        rankCounter := s.rankCounter + BitVec.ofNat 32 done.length
        flushOrder := s.flushOrder ++ done
        toPlace := s.toPlace ++ done.filterMap fun g =>
          (target g).map fun e => flushJob g (s.writeOrder d data g) e }
      ∧ (∀ g e, target g = some e → u.entries[g] =
          { openOrder := s.writeOrder d data g, fault := !s.entries[g].isFree && s.entries[g].fault
            slot := if e.bytes.all (·.isSome) then
                .held .converting { e with rank := some (s.rankCounter + BitVec.ofNat 32 (done.idxOf g)) }
              else .held .gathering e })
      ∧ ∀ g, target g = none → u.entries[g] = s.entries[g] := by
  intro ack target done logged u
  have hcompleted : (s.gathered t d data).completed (s.keptKeys d data) = done :=
    State.completed_gathered hroom hapart hstage
  have hu : u = { (s.gathered t d data).startFlushes done with disp := .idle, reoffer := false } := by
    rw [← hcompleted]
    exact s.dispatchWrite_eq t d data fun k _ g h => hapart g h k
  have htarget : ∀ g e, target g = some e → (s.gathered t d data).entries[g] =
      { openOrder := s.writeOrder d data g, fault := !s.entries[g].isFree && s.entries[g].fault
        slot := .held .gathering e } := fun g e h => (State.gathered_target hroom h).2
  have hdone : ∀ g, g ∈ done ↔ ∃ e, target g = some e ∧ e.bytes.all (·.isSome) = true := fun g =>
    State.mem_wholeAfter hroom hopens
  have hrank : (s.gathered t d data).rankCounter = s.rankCounter :=
    s.handOverAll_keeps (·.rankCounter) State.handOver_rankCounter _
  have hflush : (s.gathered t d data).flushOrder = s.flushOrder :=
    s.handOverAll_keeps (·.flushOrder) State.handOver_flushOrder _
  have hplace : (s.gathered t d data).toPlace = s.toPlace :=
    s.handOverAll_keeps (·.toPlace) State.handOver_toPlace _
  have hjobs : (done.filterMap fun g => ((s.gathered t d data).gatheringAt g).map fun x =>
        flushJob g (s.gathered t d data).entries[g].openOrder x.2)
      = done.filterMap fun g => (target g).map fun e => flushJob g (s.writeOrder d data g) e := by
    refine List.filterMap_congr fun g hg => ?_
    obtain ⟨e, he, -⟩ := (hdone g).mp hg
    rw [State.gatheringAt_of_slot (b := e) (by rw [htarget g e he]), htarget g e he, he]
    rfl
  obtain ⟨hall, hwhole, hother⟩ := (s.gathered t d data).startFlushes_whole done
    (State.wholeAfter_nodup hopens _) fun g hg => by
      obtain ⟨e, he, hw⟩ := (hdone g).mp hg
      exact ⟨e, by rw [htarget g e he], hw⟩
  have hentries : u.entries = ((s.gathered t d data).startFlushes done).entries := by rw [hu]
  refine ⟨?_, fun g e he => ?_, fun g hg => ?_⟩
  · rw [hjobs, hrank, hflush, hplace] at hall
    refine hu.trans ?_
    rw [hentries, hall]
    rw [← State.gathered_openList (t := t) hroom, ← State.gathered_openCounter (t := t) hroom]
    rfl
  · rw [hentries]
    by_cases hw : e.bytes.all (·.isSome) = true
    · have hg : g ∈ done := (hdone g).mpr ⟨e, he, hw⟩
      rw [hwhole g e hg (by rw [htarget g e he]), htarget g e he, hrank, if_pos hw]
    · have hg : g ∉ done := fun hg => by
        obtain ⟨e', he', hw'⟩ := (hdone g).mp hg
        exact hw (Option.some.inj (he'.symm.trans he) ▸ hw')
      rw [hother g hg, htarget g e he, if_neg hw]
  · rw [hentries, hother g fun h => by
      obtain ⟨e, he, -⟩ := (hdone g).mp h
      exact absurd (he.symm.trans hg) (by simp)]
    exact (State.gathered_other hroom hapart hstage hg).1

end

end Sys2Proof.Machine
end

section
/-! PROOF. Writes of one byte, and what writes that are dispatched at their offers do (R67 to R71). -/

namespace Sys2Proof.Machine

section
variable {s : State} {d : Decode} {data : List Byte}

/-- A write is dispatched when its fields have no flushing entry and the FREE entries suffice. -/
theorem State.canDispatch_of_room
    (hstage : ∀ k ∈ s.keptKeys d data, ∀ stage, s.stageOf k = some stage → stage = .gathering)
    (hroom : (s.freshFields d data).length ≤ s.freeEntries.length) :
    s.canDispatch (s.keptKeys d data) = true := by
  refine (State.canDispatch_iff ..).mpr ⟨hstage, ?_⟩
  have hneeded : (s.keptKeys d data).filter (fun k => s.stageOf k != some .gathering)
      = s.freshKeys (s.keptKeys d data) := by
    refine List.filter_congr fun k hk => ?_
    cases hfor : s.entryFor k with
    | none => rw [State.stageOf_of_none hfor]; rfl
    | some x =>
      obtain ⟨g, stage, b⟩ := x
      rw [State.stageOf_of_entry hfor, hstage k hk stage (State.stageOf_of_entry hfor)]
      rfl
  rw [hneeded, s.freshKeys_keptKeys, List.length_map, State.countEntries_eq]
  exact hroom

/-- The offer of a write that is dispatched. -/
theorem State.offer_dispatches {q : Txn} {a : Addr} {tag : Tag}
    (hq : s.nextTxn = some q) (hdue : s.offerDue = true) (hreq : q.req = .write a data tag)
    (hwf : wellFormedAccess a.toNat data.length = true) (hdec : s.decode a.toNat = some d)
    (hmode : d.mode = .active) (haccept : s.acceptsWrite d data) (hkept : s.keptKeys d data ≠ [])
    (hstage : ∀ k ∈ s.keptKeys d data, ∀ stage, s.stageOf k = some stage → stage = .gathering)
    (hroom : (s.freshFields d data).length ≤ s.freeEntries.length) :
    exec .dispatcherOffer s = .next (State.dispatchWrite { s with reoffer := false } q d data) :=
  congrArg Host.Outcome.next ((s.offer_write q a data tag d hq hdue hreq hwf hdec hmode).trans
    (State.offerWrite_dispatches (s := { s with reoffer := false }) q haccept hkept
      (State.canDispatch_of_room (s := { s with reoffer := false }) hstage hroom)))

end

/-! ### One byte -/

/-- A request of one byte meets one field, and that one may be written. -/
structure State.ByteWrite (s : State) (d : Decode) (f : FieldDesc) (i : Nat) : Prop where
  owner : ownerOf (s.fieldsOf d.window) d.offset = some (f, i)
  touched : touchedFields (s.fieldsOf d.window) d.offset 1 = [(f, i)]
  writable : f.readOnly = false

section
variable {s : State} {d : Decode} {f : FieldDesc} {i : Nat}

theorem State.ByteWrite.kept (h : s.ByteWrite d f i) : keptFields (s.fieldsOf d.window) d.offset 1 = [i] := by
  unfold keptFields
  rw [h.touched]
  simp [h.writable]

theorem State.ByteWrite.keptKeys (h : s.ByteWrite d f i) (b : Byte) : s.keptKeys d [b] = [d.key i] := by
  unfold State.keptKeys
  rw [List.length_singleton, h.kept]
  rfl

theorem State.ByteWrite.no_hole (h : s.ByteWrite d f i) : holeTouching (s.fieldsOf d.window) d.offset 1 = false := by
  unfold holeTouching
  simp [List.range_succ, h.owner]

theorem State.ByteWrite.no_protect (h : s.ByteWrite d f i) : protectField (s.fieldsOf d.window) d.offset 1 = none := by
  unfold protectField
  rw [h.touched]
  simp [h.writable]

theorem State.ByteWrite.no_record (h : s.ByteWrite d f i) (t : Txn) (action : ExcAction) :
    writeRecord (s.fieldsOf d.window) t d 1 action = none :=
  writeRecord_none _ t d 1 action h.no_hole h.no_protect

theorem State.ByteWrite.placed (h : s.ByteWrite d f i) (b : Byte) (old : List (Option Byte)) :
    placedBytes (s.fieldsOf d.window) d.offset [b] i old = old.set (d.offset - f.viewOff) (some b) := by
  unfold placedBytes
  rw [List.length_singleton, List.range_one, List.foldl_cons, List.foldl_nil]
  simp [h.owner]

theorem State.ByteWrite.viewLen (h : s.ByteWrite d f i) : s.descOf (d.key i) = f :=
  State.descOf_touched (n := 1) (by rw [h.touched]; simp)

/-- What gathers for a field after a byte of it is written. -/
def Gather.withByte (e : Gather) (pos : Nat) (b : Byte) (listed : List Nat) : Gather :=
  { e with bytes := e.bytes.set pos (some b), confirm := e.confirm ++ listed }

variable {t : Txn} {b : Byte} {g : Fin 8} {e : Gather}

/-- A one-byte write gathers the byte at the entry of its field. -/
theorem State.ByteWrite.gathered (h : s.ByteWrite d f i) (hapart : s.KeyApart (d.key i))
    (hslot : (s.openEntry (d.key i)).entries[g].slot = .held .gathering e) (hkey : e.key = d.key i) :
    s.gathered t d [b] = { s.openEntry (d.key i) with
      entries := (s.openEntry (d.key i)).entries.set g { (s.openEntry (d.key i)).entries[g] with
        slot := .held .gathering
          (e.withByte (d.offset - f.viewOff) b (listedBy s.windows[d.window].cfg.ack t.id)) }
      txns := withTxn s.txns t.id (dispatchedState s.windows[d.window].cfg.ack d.window 1) } := by
  have hentries : (s.openEntry (d.key i)).entries.map (Entry.mapHeld
        (d.written (s.fieldsOf d.window) [b] (listedBy s.windows[d.window].cfg.ack t.id)))
      = (s.openEntry (d.key i)).entries.set g { (s.openEntry (d.key i)).entries[g] with
        slot := .held .gathering
          (e.withByte (d.offset - f.viewOff) b (listedBy s.windows[d.window].cfg.ack t.id)) } := by
    refine Vector.ext fun j hj => ?_
    show (Vector.map _ _)[(⟨j, hj⟩ : Fin 8)] = (Vector.set _ _ _ _)[(⟨j, hj⟩ : Fin 8)]
    rw [mapAt]
    by_cases hg : g = ⟨j, hj⟩
    · subst hg
      rw [setAt_self, Decode.mapHeld_written (by rw [List.length_singleton, h.kept]; simp) hslot hkey, h.placed]
      rfl
    · rw [setAt_ne _ _ _ _ hg, Decode.mapHeld_written_other]
      intro k hk hheld
      rw [h.keptKeys, List.mem_singleton] at hk
      subst hk
      exact hg (hapart.openEntry _ _ _ (Entry.key?_eq_some.mpr ⟨_, _, hslot, hkey⟩) hheld)
  unfold State.gathered
  simp only [List.length_singleton, h.keptKeys, h.no_record, List.foldl_cons, List.foldl_nil, hentries]
  rw [show s.openEntry (d.key i) = _ from s.foldl_openEntry_eq [d.key i]]
  rfl

/-- The completed entries of one key: the entry that holds it, when that is whole. -/
theorem State.completed_single (hapart : s.KeyApart (d.key i))
    (hslot : s.entries[g].slot = .held .gathering e) (hkey : e.key = d.key i) :
    s.completed [d.key i] = if e.whole then s.openList.filter (fun j => j == g) else [] := by
  have honly : ∀ (j : Fin 8) (x : Gather), s.entries[j].slot = .held .gathering x → x.key = d.key i → j = g :=
    fun j x hj hx =>
      hapart j g (Entry.key?_eq_some.mpr ⟨_, _, hj, hx⟩) (Entry.key?_eq_some.mpr ⟨_, _, hslot, hkey⟩)
  rw [State.completed_eq (p := fun j => j == g && e.whole) fun j => ?_]
  · cases e.whole <;> simp
  · rw [Bool.and_eq_true, beq_iff_eq]
    constructor
    · rintro ⟨rfl, hw⟩
      exact ⟨e, hslot, by simp [hkey], hw⟩
    · rintro ⟨x, hx, hmem, hw⟩
      obtain rfl := honly j x hx (by simpa using hmem)
      rw [hslot] at hx
      injection hx with _ hx
      exact ⟨rfl, hx ▸ hw⟩

end

end Sys2Proof.Machine
end

section
/-! PROOF. The dispatch of a one-byte write, and what every dispatched write does (R67 to R71). -/

namespace Sys2Proof.Machine

theorem State.openEntry_rankCounter (s : State) (k : Key) : (s.openEntry k).rankCounter = s.rankCounter := by
  unfold State.openEntry; split <;> rfl

theorem State.openEntry_flushOrder (s : State) (k : Key) : (s.openEntry k).flushOrder = s.flushOrder := by
  unfold State.openEntry; split <;> rfl

theorem State.openEntry_toPlace (s : State) (k : Key) : (s.openEntry k).toPlace = s.toPlace := by
  unfold State.openEntry; split <;> rfl

/-- Records handed over do not touch the call for an offer. -/
theorem State.handOverAll_reoffer (rs : List ExcRecord) (s : State) (reoffer : Bool) :
    State.handOverAll { s with reoffer } rs = { s.handOverAll rs with reoffer } := by
  induction rs generalizing s with
  | nil => rfl
  | cons r rs ih =>
    refine Eq.trans ?_ (ih (s.handOver r))
    refine congrArg (fun t => State.handOverAll t rs) ?_
    unfold State.handOver
    dsimp only
    split <;> rfl

/-- The flush of a whole entry that is written out. -/
theorem State.startFlushes_single {u : State} {v : Vector Entry 8} {g : Fin 8} {x : Entry} {b : Gather}
    (hu : u.entries = v.set g { x with slot := .held .gathering b }) (hwhole : b.whole = true) :
    u.startFlushes [g] = { u with
      rankCounter := u.rankCounter + 1, flushOrder := u.flushOrder ++ [g]
      reoffer := u.reoffer || decide (u.disp = .blocked .gatherBuffer)
      entries := v.set g { x with slot := .held .converting { b with rank := some u.rankCounter } }
      toPlace := u.toPlace ++ [flushJob g x.openOrder b] } := by
  have hentry : u.entries[g] = { x with slot := .held .gathering b } := by
    rw [hu]
    exact setAt_self _ _ _
  refine (u.startFlush_convert g b (by rw [hentry]) (Bool.or_eq_true_iff.mpr (.inl hwhole))).trans ?_
  rw [hentry, hu, Vector.set_set]
  rfl

section
variable {s : State} {d : Decode} {f : FieldDesc} {i : Nat} {b : Byte} {g : Fin 8} {e : Gather}

/-- The entry that a one-byte write reaches. -/
theorem State.ByteWrite.gathered_slot (h : s.ByteWrite d f i) (t : Txn) (hapart : s.KeyApart (d.key i))
    (hslot : (s.openEntry (d.key i)).entries[g].slot = .held .gathering e) (hkey : e.key = d.key i) :
    (s.gathered t d [b]).entries[g] = { (s.openEntry (d.key i)).entries[g] with
      slot := .held .gathering
        (e.withByte (d.offset - f.viewOff) b (listedBy s.windows[d.window].cfg.ack t.id)) } := by
  rw [h.gathered hapart hslot hkey]
  exact setAt_self _ _ _

/-- A one-byte write flushes its entry, when that is whole. -/
theorem State.ByteWrite.dispatch (h : s.ByteWrite d f i) (t : Txn) (hapart : s.KeyApart (d.key i))
    (hslot : (s.openEntry (d.key i)).entries[g].slot = .held .gathering e) (hkey : e.key = d.key i) :
    s.dispatchWrite t d [b] = { (s.gathered t d [b]).startFlushes
      (if (e.bytes.set (d.offset - f.viewOff) (some b)).all (·.isSome) then
        (s.openEntry (d.key i)).openList.filter (fun j => j == g) else []) with
      disp := .idle, reoffer := false } := by
  have hheld := congrArg Entry.slot (h.gathered_slot (b := b) t hapart hslot hkey)
  have hapart' : (s.gathered t d [b]).KeyApart (d.key i) :=
    (hapart.foldl_openEntry (s.keptKeys d [b])).map
      (f := d.written (s.fieldsOf d.window) [b] (listedBy s.windows[d.window].cfg.ack t.id)) (fun _ => rfl) rfl
  have hlist : (s.gathered t d [b]).openList = (s.openEntry (d.key i)).openList := by
    rw [h.gathered hapart hslot hkey]
  rw [s.dispatchWrite_eq t d [b] fun k hk => ?_, h.keptKeys, State.completed_single hapart' hheld hkey, hlist]
  · rfl
  · rw [h.keptKeys, List.mem_singleton] at hk
    rwa [hk]

/-- A one-byte write that leaves its field incomplete. -/
theorem State.ByteWrite.dispatch_part (h : s.ByteWrite d f i) (t : Txn) (hapart : s.KeyApart (d.key i))
    (hslot : (s.openEntry (d.key i)).entries[g].slot = .held .gathering e) (hkey : e.key = d.key i)
    (hpart : (e.bytes.set (d.offset - f.viewOff) (some b)).all (·.isSome) = false) :
    s.dispatchWrite t d [b] = { s.openEntry (d.key i) with
      disp := .idle, reoffer := false
      entries := (s.openEntry (d.key i)).entries.set g { (s.openEntry (d.key i)).entries[g] with
        slot := .held .gathering
          (e.withByte (d.offset - f.viewOff) b (listedBy s.windows[d.window].cfg.ack t.id)) }
      txns := withTxn s.txns t.id (dispatchedState s.windows[d.window].cfg.ack d.window 1) } := by
  rw [h.dispatch t hapart hslot hkey, hpart, h.gathered hapart hslot hkey]
  rfl

/-- A one-byte write that makes its field whole. -/
theorem State.ByteWrite.dispatch_whole (h : s.ByteWrite d f i) (t : Txn) (hapart : s.KeyApart (d.key i))
    (hslot : (s.openEntry (d.key i)).entries[g].slot = .held .gathering e) (hkey : e.key = d.key i)
    (hwhole : (e.bytes.set (d.offset - f.viewOff) (some b)).all (·.isSome) = true)
    (hlist : (s.openEntry (d.key i)).openList.filter (fun j => j == g) = [g]) :
    let e' := e.withByte (d.offset - f.viewOff) b (listedBy s.windows[d.window].cfg.ack t.id)
    s.dispatchWrite t d [b] = { s.openEntry (d.key i) with
      disp := .idle, reoffer := false
      entries := (s.openEntry (d.key i)).entries.set g { (s.openEntry (d.key i)).entries[g] with
        slot := .held .converting { e' with rank := some s.rankCounter } }
      txns := withTxn s.txns t.id (dispatchedState s.windows[d.window].cfg.ack d.window 1)
      rankCounter := s.rankCounter + 1, flushOrder := s.flushOrder ++ [g]
      toPlace := s.toPlace ++ [flushJob g (s.openEntry (d.key i)).entries[g].openOrder e'] } := by
  intro e'
  have hgathered := h.gathered (b := b) (t := t) hapart hslot hkey
  have hflush := State.startFlushes_single (congrArg State.entries hgathered) hwhole
  rw [h.dispatch t hapart hslot hkey, if_pos hwhole, hlist]
  refine (congrArg (fun u : State => { u with disp := .idle, reoffer := false }) hflush).trans ?_
  rw [hgathered]
  simp only [State.openEntry_rankCounter, State.openEntry_flushOrder, State.openEntry_toPlace]
  rfl

/-- What gathers for a field when its entry has just opened with one byte. -/
def openedGather (k : Key) (bytes : List (Option Byte)) (listed : List Nat) : Gather :=
  { key := k, bytes, base := none, age := 0, confirm := listed, rank := none, opsLeft := 0, got := []
    failed := false }

/-- The entry that a one-byte write opens. -/
theorem State.ByteWrite.opened (h : s.ByteWrite d f i) (hnone : s.entryFor (d.key i) = none)
    (hlow : s.lowestFree = some g) :
    (s.openEntry (d.key i)).entries[g] = {
      openOrder := s.openCounter, fault := false
      slot := .held .gathering (openedGather (d.key i) (List.replicate f.viewLen none) []) } := by
  rw [State.openEntry_of_free hnone hlow, ← h.viewLen]
  exact setAt_self _ _ _

/-- One byte of a longer field does not make it whole. -/
theorem all_isSome_set_replicate {n : Nat} (hn : 2 ≤ n) (p : Nat) (b : Byte) :
    ((List.replicate n (none : Option Byte)).set p (some b)).all (·.isSome) = false := by
  rw [List.all_eq_false]
  have hne : p ≠ if p = 0 then 1 else 0 := by split <;> omega
  have hlt : (if p = 0 then 1 else 0) < n := by split <;> omega
  refine ⟨none, List.mem_of_getElem? (i := if p = 0 then 1 else 0) ?_, by simp⟩
  rw [List.getElem?_set_ne hne, List.getElem?_replicate, if_pos hlt]

/-- A one-byte write to a longer field without an entry opens one. -/
theorem State.ByteWrite.dispatch_opens (h : s.ByteWrite d f i) (t : Txn) (hnone : s.entryFor (d.key i) = none)
    (hlow : s.lowestFree = some g) (hlen : 2 ≤ f.viewLen) :
    s.dispatchWrite t d [b] = { s with
      disp := .idle, reoffer := false
      txns := withTxn s.txns t.id (dispatchedState s.windows[d.window].cfg.ack d.window 1)
      entries := s.entries.set g {
        openOrder := s.openCounter, fault := false
        slot := .held .gathering (openedGather (d.key i)
          ((List.replicate f.viewLen none).set (d.offset - f.viewOff) (some b))
          (listedBy s.windows[d.window].cfg.ack t.id)) }
      openCounter := s.openCounter + 1, openList := s.openList ++ [g] } := by
  have hentry := h.opened hnone hlow
  refine (h.dispatch_part t (State.keyApart_of_none hnone) (congrArg Entry.slot hentry) rfl
    (all_isSome_set_replicate hlen _ _)).trans ?_
  rw [hentry, State.openEntry_of_free hnone hlow]
  dsimp only
  rw [Vector.set_set]
  rfl

/-- A one-byte write to a field of one byte without an entry opens one and flushes it. -/
theorem State.ByteWrite.dispatch_flushes (h : s.ByteWrite d f i) (t : Txn) (hnone : s.entryFor (d.key i) = none)
    (hlow : s.lowestFree = some g) (hlen : f.viewLen = 1) (hnew : g ∉ s.openList) :
    s.dispatchWrite t d [b] = { s with
      disp := .idle, reoffer := false
      txns := withTxn s.txns t.id (dispatchedState s.windows[d.window].cfg.ack d.window 1)
      entries := s.entries.set g {
        openOrder := s.openCounter, fault := false
        slot := .held .converting
          { openedGather (d.key i) [some b] (listedBy s.windows[d.window].cfg.ack t.id) with
            rank := some s.rankCounter } }
      openCounter := s.openCounter + 1, openList := s.openList ++ [g]
      rankCounter := s.rankCounter + 1, flushOrder := s.flushOrder ++ [g]
      toPlace := s.toPlace ++ [.flush g s.openCounter (d.key i) [some b] none none] } := by
  have hentry := h.opened hnone hlow
  have hbytes : (List.replicate f.viewLen (none : Option Byte)).set (d.offset - f.viewOff) (some b) = [some b] := by
    obtain ⟨-, ⟨hlo, hhi⟩, -⟩ := (ownerOf_some ..).mp h.owner
    rw [hlen, show d.offset - f.viewOff = 0 by omega]
    rfl
  have hlist : (s.openEntry (d.key i)).openList.filter (fun j => j == g) = [g] := by
    rw [State.openEntry_of_free hnone hlow]
    dsimp only
    rw [List.filter_append, List.filter_eq_nil_iff.mpr fun j hj => by
      rw [beq_iff_eq]; exact fun e => hnew (e ▸ hj)]
    simp
  refine (h.dispatch_whole t (State.keyApart_of_none hnone) (congrArg Entry.slot hentry) rfl ?_ hlist).trans ?_
  · exact congrArg (List.all · (·.isSome)) hbytes
  · rw [hentry, State.openEntry_of_free hnone hlow]
    dsimp only
    rw [Vector.set_set, ← hbytes]
    rfl

/-- A one-byte write is dispatched at its offer when its field has a GATHERING entry, or none and there is a
FREE one. -/
theorem State.ByteWrite.offer (h : s.ByteWrite d f i) {q : Txn} {a : Addr} {tag : Tag}
    (hq : s.nextTxn = some q) (hdue : s.offerDue = true) (hreq : q.req = .write a [b] tag)
    (hdec : s.decode a.toNat = some d) (hmode : d.mode = .active)
    (hway : (s.entryFor (d.key i) = none ∧ s.lowestFree = some g)
      ∨ ∃ e, s.entryFor (d.key i) = some (g, .gathering, e)) :
    exec .dispatcherOffer s = .next (State.dispatchWrite { s with reoffer := false } q d [b]) := by
  refine State.offer_dispatches hq hdue hreq ((wellFormedAccess_iff ..).mpr ⟨.inl rfl, Nat.mod_one _⟩) hdec hmode
    (.inr ⟨h.no_hole, h.no_protect⟩) (by rw [h.keptKeys]; simp) (fun k hk stage hstage => ?_) ?_
  · rw [h.keptKeys, List.mem_singleton] at hk
    subst hk
    rcases hway with ⟨hnone, -⟩ | ⟨e, hfor⟩
    · rw [State.stageOf_of_none hnone] at hstage
      exact absurd hstage (by simp)
    · rw [State.stageOf_of_entry hfor] at hstage
      exact (Option.some.inj hstage).symm
  · unfold State.freshFields
    rw [List.length_singleton, h.kept]
    rcases hway with ⟨hnone, hlow⟩ | ⟨e, hfor⟩
    · rw [s.lowestFree_eq_head?] at hlow
      have hpos := List.length_pos_iff.mpr (List.ne_nil_of_mem (List.mem_of_head? hlow))
      simpa [hnone] using Nat.succ_le_of_lt hpos
    · simp [hfor]

end

end Sys2Proof.Machine

namespace Sys2Proof

open Sys2Proof.Machine

/-- Settles O11: one byte opens, joins or completes the entry of its field; a write of any size reaches the
entries that `writeTarget` names and flushes those it makes whole. -/
theorem writesGathered : Obligations.WritesGathered := by
  refine ⟨fun s q a b tag d f i hq hdue hreq hdec hmode howner htouched hwritable hapart => ?_,
    fun s q a data tag d hq hdue hreq hwf hdec hmode hapart hopens => ?_,
    fun s q a b tag d f i g hq hdue hreq hdec hmode howner htouched hwritable hfor hlow hlen hnew => ?_⟩
  · intro ack listed dispatched
    have hwrite : State.ByteWrite { s with reoffer := false } d f i := ⟨howner, htouched, hwritable⟩
    have hbyte : s.ByteWrite d f i := ⟨howner, htouched, hwritable⟩
    refine ⟨fun g hnone hlow hlen => ?_, fun g e hfor => ?_⟩
    · exact (hbyte.offer hq hdue hreq hdec hmode (.inl ⟨hnone, hlow⟩)).trans
        (congrArg Host.Outcome.next (hwrite.dispatch_opens q hnone hlow hlen))
    · intro e'
      obtain ⟨hslot, hkey⟩ := s.entryFor_slot (d.key i) g .gathering e hfor
      have hoffer := hbyte.offer hq hdue hreq hdec hmode (.inr ⟨e, hfor⟩)
      have hopen : State.openEntry { s with reoffer := false } (d.key i) = { s with reoffer := false } :=
        State.openEntry_of_held hfor
      have hopened : (State.openEntry { s with reoffer := false } (d.key i)).entries[g].slot
          = .held .gathering e := by
        rw [hopen]
        exact hslot
      have hkeyApart : State.KeyApart { s with reoffer := false } (d.key i) := fun g h => hapart g h _
      refine ⟨fun hpart => hoffer.trans (congrArg Host.Outcome.next ?_),
        fun hwhole hlist => hoffer.trans (congrArg Host.Outcome.next ?_)⟩
      · refine (hwrite.dispatch_part q hkeyApart hopened hkey hpart).trans ?_
        rw [hopen]
        rfl
      · refine (hwrite.dispatch_whole q hkeyApart hopened hkey hwhole (by rw [hopen]; exact hlist)).trans ?_
        rw [hopen]
        rfl
  · intro fields n cfg kept discards fresh free hpolicy hkept hstage hroom opened listed placed target order done
      logged
    have hstage' : ∀ k ∈ s.keptKeys d data, ∀ stage, s.stageOf k = some stage → stage = .gathering := by
      intro k hk
      obtain ⟨i, hi, rfl⟩ := State.mem_keptKeys.mp hk
      exact hstage i hi
    have haccept : s.acceptsWrite d data := hpolicy.imp_right fun h => by
      rw [Bool.or_eq_false_iff, Option.isSome_eq_false_iff, Option.isNone_iff_eq_none] at h
      exact h
    have hoffer := State.offer_dispatches hq hdue hreq hwf hdec hmode haccept
      (fun h => hkept (List.map_eq_nil_iff.mp h)) hstage' hroom
    obtain ⟨hall, hreached, hother⟩ := State.dispatchWrite_effect (s := { s with reoffer := false }) (d := d)
      (data := data) q hroom hapart ⟨hopens.once, hopens.held⟩ hstage'
    refine ⟨_, hoffer, ?_, hreached, hother⟩
    have hlogged : s.handOverAll (writeRecord (s.fieldsOf d.window) q d data.length .discarded).toList = logged :=
      s.handOverAll_discarded q d data.length
    have hkeys : (s.keptKeys d data).length = kept.length := List.length_map _
    have hrecord := State.handOverAll_reoffer
      (writeRecord (s.fieldsOf d.window) q d data.length .discarded).toList s false
    rw [hlogged] at hrecord
    refine hall.trans ?_
    rw [show State.handOverAll _ (writeRecord (State.fieldsOf { s with reoffer := false } d.window) q d data.length
        .discarded).toList = _ from hrecord,
      show (State.keptKeys { s with reoffer := false } d data).length = _ from hkeys]
    rfl
  · have hbyte : s.ByteWrite d f i := ⟨howner, htouched, hwritable⟩
    have hwrite : State.ByteWrite { s with reoffer := false } d f i := ⟨howner, htouched, hwritable⟩
    exact (hbyte.offer hq hdue hreq hdec hmode (.inl ⟨hfor, hlow⟩)).trans
      (congrArg Host.Outcome.next (hwrite.dispatch_flushes q hfor hlow hlen hnew))

end Sys2Proof
end
